-- ==== Sys2Proof/Word.lean ====
section
/-! DEFINITION. The two word types of the block: bytes of host memory and of streams, and the 32-bit words of the
register interface (spec/00_scope.md R10). -/

namespace Sys2Proof

/-- A byte: bit 7 is the most significant, bit 0 the least (R10). -/
abbrev Byte := BitVec 8

/-- A 32-bit register value or host byte address (R8 `ADDR_W`, R31). -/
abbrev Word := BitVec 32

end Sys2Proof
end

