-- ==== Sys2Proof/Config.lean ====
section
/-! DEFINITION. What an instance of the block is built with (spec/00_scope.md R8): the fixed limits, the four OPEN
parameters, the error codes, and the FREE VALUES (opaque: nothing can be proved of them) that stand where the spec says
a model may return any value (spec/93_implementation_defined.md U5, U6, U7). -/

namespace Sys2Proof

/-- The OPEN parameter `REVERSE_EMIT` (R8, D10). -/
inductive ReverseEmit where
  | doc
  | upstream
deriving DecidableEq, Repr

/-- The OPEN parameters of R8, "an argument of the model". They are carried by State so that every statement can range
over them (assumption log 1). -/
structure Params where
  /-- `CSR_BASE`: host address of register offset 0x00. -/
  csrBase : Word
  /-- `MAX_INPUT_LEN`. -/
  maxInputLen : Nat
  /-- `ZX0_INVERT_MSB`. -/
  zx0InvertMsb : Bool
  /-- `REVERSE_EMIT`. -/
  reverseEmit : ReverseEmit
deriving DecidableEq, Repr

/-- The constraints R8 and the OPEN table of 92_eei_decisions.md put on the parameters. -/
abbrev Params.legal (p : Params) : Prop :=
  1 ≤ p.maxInputLen ∧ p.maxInputLen ≤ 2 ^ 24 - 1 ∧ p.csrBase.toNat % 64 = 0

/-- The defaults and recommendation of R8. `CSR_BASE` has no default: 0x4000_0000 is the model's (assumption log 1). -/
def Params.default : Params where
  csrBase := 0x40000000
  maxInputLen := 2 ^ 24 - 1
  zx0InvertMsb := true
  reverseEmit := .doc

/-- The error codes of R260 (spec/60_exceptions.md). Codes 5 to 7 are never reported (U3), so they have no name here. -/
inductive ErrCode where
  | none
  | alloc
  | invalid
  | limit
  | illegal
deriving DecidableEq, Repr, Inhabited

namespace Config

def zx7MaxOffset : Nat := 2176
def zx7MaxLen : Nat := 65536
def zx0QuickLimit : Nat := 2176
def zx0FullLimit : Nat := 32640
def zx0InitialOffset : Nat := 1
def mlzMaxOffset : Nat := 4352
def mlzShort1MaxOffset : Nat := 8
def mlzShortMaxOffset : Nat := 256
def mlzMaxLen : Nat := 255
def histSize : Nat := 65536
def gammaMaxDataBits : Nat := 31
/-- 2^32, the size of host memory in bytes (R60). -/
def addressSpace : Nat := 2 ^ 32

/-- FREE VALUE (U6; assumption log 6): whether an early read of an output byte gives the result or the old contents. -/
opaque freeChoice : Nat → Bool

/-- FREE VALUE (U5, U7; assumption log 9): a byte of the output buffer the spec leaves unspecified. -/
opaque freeByte : Nat → Byte

/-- FREE VALUE (U5; assumption log 9): a result register the spec leaves unspecified. -/
opaque freeWord : Nat → Word

/-- FREE VALUE (U5; assumption log 9): an error code the spec leaves unspecified, among the codes it allows (U3). -/
opaque freeErr : Nat → ErrCode

end Config

end Sys2Proof
end

