-- ==== Sys2Proof/Syntax.lean ====
section
/-! DEFINITION. The instructions of the block: the tokens of the three stream formats and the two host commands
(spec/30_encoding.md R96, spec/opcode_table.json), one constructor per row of the table. -/

namespace Sys2Proof

/-- The three stream formats (spec/00_scope.md R2). -/
inductive Variant where
  | zx7
  | zx0
  | megalz
deriving DecidableEq, Repr

/-- One row of spec/opcode_table.json each. `o` is a copy offset, `L` a copy length, `b` a literal byte, `bs` the bytes
of a literal run (whose number is the token's `L`), all as the table's fields name them. -/
inductive Instr where
  | zx7First (b : Byte)
  | zx7Lit (b : Byte)
  | zx7CpyS (o L : Nat)
  | zx7CpyL (o L : Nat)
  | zx7End
  | zx0Lit0 (bs : List Byte)
  | zx0Lit (bs : List Byte)
  | zx0Rep (L : Nat)
  | zx0Cpy (o L : Nat)
  | zx0End
  | mlzFirst (b : Byte)
  | mlzLit (b : Byte)
  | mlzCpy1 (o : Nat)
  | mlzCpy2 (o : Nat)
  | mlzCpy3S (o : Nat)
  | mlzCpy3L (o : Nat)
  | mlzCpyNS (o L : Nat)
  | mlzCpyNL (o L : Nat)
  | mlzEnd
  | compress (mode : BitVec 4)
  | decompress (mode : BitVec 4)
deriving DecidableEq, Repr

end Sys2Proof
end

