-- ==== Sys2Proof/WellFormed.lean ====
section
/-! DEFINITION. The operand ranges of the tokens (spec/30_encoding.md R84, R86, R89; the lengths a ZX0 code can carry are
bounded by `GAMMA_MAX_DATA_BITS`, R232). A command has no ill-formed operand: modes 8 to 15 are encodable and fail with
`ILLEGAL` when they are checked (R97, R125). -/

namespace Sys2Proof

/-- Whether a natural has an interlaced code the unpacker accepts: 1 ≤ v < 2^32, that is at most 31 data bits (R232). -/
def zx0Codable (v : Nat) : Bool := 1 ≤ v && v < 2 ^ (Config.gammaMaxDataBits + 1)

/-- Every operand lies in the range its token's layout gives it. -/
def Instr.wellFormed : Instr → Bool
  | .zx7First _ => true
  | .zx7Lit _ => true
  | .zx7CpyS o L => 1 ≤ o && o ≤ 128 && 2 ≤ L && L ≤ Config.zx7MaxLen
  | .zx7CpyL o L => 129 ≤ o && o ≤ Config.zx7MaxOffset && 2 ≤ L && L ≤ Config.zx7MaxLen
  | .zx7End => true
  | .zx0Lit0 bs => zx0Codable bs.length
  | .zx0Lit bs => zx0Codable bs.length
  | .zx0Rep L => zx0Codable L
  | .zx0Cpy o L => 1 ≤ o && o ≤ Config.zx0FullLimit && 2 ≤ L && zx0Codable (L - 1)
  | .zx0End => true
  | .mlzFirst _ => true
  | .mlzLit _ => true
  | .mlzCpy1 o => 1 ≤ o && o ≤ Config.mlzShort1MaxOffset
  | .mlzCpy2 o => 1 ≤ o && o ≤ Config.mlzShortMaxOffset
  | .mlzCpy3S o => 1 ≤ o && o ≤ Config.mlzShortMaxOffset
  | .mlzCpy3L o => Config.mlzShortMaxOffset < o && o ≤ Config.mlzMaxOffset
  | .mlzCpyNS o L => 1 ≤ o && o ≤ Config.mlzShortMaxOffset && 4 ≤ L && L ≤ Config.mlzMaxLen
  | .mlzCpyNL o L =>
    Config.mlzShortMaxOffset < o && o ≤ Config.mlzMaxOffset && 4 ≤ L && L ≤ Config.mlzMaxLen
  | .mlzEnd => true
  | .compress _ => true
  | .decompress _ => true

end Sys2Proof
end

