-- ==== Sys2Proof/Decode.lean ====
section
/-! DEFINITION. Encodings (spec/30_encoding.md): the mode table, the integer codes, the token decoders over a stream (with
the unpacker's read primitives of spec/45_unpacker.md R230 to R232, total, rejecting by name), the CTRL decoder, and after
them the encoder, written from the token tables, with the bit and byte interleaving of R82. -/

namespace Sys2Proof

/-! ### Modes (spec/40_host_commands.md R121) -/

/-- The variant of a MODE (R121). Modes 8 to 15 are reserved: the command check refuses them before any use of their
variant (R125), so the value here is never observable for them (assumption log 19). -/
def variantOf (mode : BitVec 4) : Variant :=
  if mode.toNat < 2 then .zx7 else if mode.toNat < 6 then .zx0 else .megalz

/-- The reversed modes are 1, 3 and 5 (R121). -/
def reversedMode (mode : BitVec 4) : Bool :=
  mode.toNat = 1 || mode.toNat = 3 || mode.toNat = 5

/-- The offset limit of a MODE (R121). -/
def offsetLimit (mode : BitVec 4) : Nat :=
  match variantOf mode with
  | .zx7 => Config.zx7MaxOffset
  | .zx0 => if mode.toNat < 4 then Config.zx0QuickLimit else Config.zx0FullLimit
  | .megalz => Config.mlzMaxOffset

/-- The polarity of the interlaced code (R81). -/
inductive Polarity where
  | fwd
  | back
deriving DecidableEq, Repr

/-- The two format choices of R88 that the ZX0 tokens depend on. -/
structure Fmt where
  pol : Polarity
  inv : Bool
deriving DecidableEq, Repr

/-- R88: `pol = BACK` exactly in a reversed ZX0 mode with `REVERSE_EMIT = UPSTREAM`; `inv = 1` exactly with
`ZX0_INVERT_MSB = 1` and `pol = FWD`. -/
def fmtOf (p : Params) (mode : BitVec 4) : Fmt :=
  if variantOf mode = .zx0 ∧ reversedMode mode = true ∧ p.reverseEmit = .upstream then
    { pol := .back, inv := false }
  else
    { pol := .fwd, inv := p.zx0InvertMsb }

/-! ### Integer codes (R80, R81) -/

/-- The `k` low bits of `v`, most significant first: the field `v:k` of R11. -/
def bitsDown (v : Nat) : Nat → List Bool
  | 0 => []
  | k + 1 => v.testBit k :: bitsDown v k

/-- The plain Elias-gamma code (R80). -/
def gammaBits (v : Nat) : List Bool :=
  List.replicate v.log2 false ++ bitsDown v (v.log2 + 1)

/-- `C` of R81: the bit that says another data bit follows. -/
def continueBit : Polarity → Bool
  | .fwd => false
  | .back => true

/-- The interlaced Elias-gamma code (R81). -/
def igammaBits (pol : Polarity) (inv : Bool) (v : Nat) : List Bool :=
  (bitsDown v v.log2).flatMap (fun d => [continueBit pol, d ^^ inv]) ++ [!continueBit pol]

/-! ### Reading a stream (spec/45_unpacker.md R230 to R232) -/

/-- Why the unpacker rejects a stream (R93, R261): every one of them is reported as `INVALID`. -/
inductive DecodeError where
  /-- R93 item 1: the stream ends before a field is complete. -/
  | prematureEnd
  /-- R93 item 1, inside a ZX0 literal run: `bs` are the bytes of the run before the end. The unpacker outputs them before
  it meets the end (R238; assumption log 12). -/
  | prematureRun (bs : List Byte)
  /-- R93 item 3. -/
  | zx7PrefixTooLong
  /-- R93 item 4, D14. -/
  | gammaTooLong
  /-- R93 item 4, D15. -/
  | msbAbove256
  /-- R93 item 5, D33. -/
  | mlzLengthAbove255
  /-- The state reads no token: `Done`, or a state of another variant. No fetch meets it. -/
  | stateReadsNothing
deriving DecidableEq, Repr

/-- The unpacker's read position (R50): `IN_IDX`, `BIT_MASK`, `BIT_VALUE`, `LAST_BYTE`, `BACKTRACK`. -/
structure Cursor where
  inIdx : Nat
  bitMask : Byte
  bitValue : Byte
  lastByte : Byte
  backtrack : Bool
deriving DecidableEq, Repr

/-- R233. -/
def Cursor.start : Cursor where
  inIdx := 0
  bitMask := 0
  bitValue := 0
  lastByte := 0
  backtrack := false

/-- A read of a field: it moves the cursor or meets an error. -/
abbrev Reader := StateT Cursor (Except DecodeError)

/-- `ReadByte()` (R230), on the stream `x`. -/
def readByte (x : List Byte) : Reader Byte := fun c =>
  match x[c.inIdx]? with
  | none => .error .prematureEnd
  | some b => .ok (b, { c with inIdx := c.inIdx + 1, lastByte := b })

/-- `ReadBit()` (R231), on the stream `x`. -/
def readBit (x : List Byte) : Reader Bool := fun c =>
  if c.backtrack then
    .ok (c.lastByte.getLsbD 0, { c with backtrack := false })
  else if c.bitMask >>> 1 = 0 then
    match readByte x { c with bitMask := 0x80 } with
    | .error e => .error e
    | .ok (b, c') => .ok (b &&& 0x80 != 0, { c' with bitValue := b })
  else
    .ok (c.bitValue &&& (c.bitMask >>> 1) != 0, { c with bitMask := c.bitMask >>> 1 })

/-- `k` bits, most significant first, onto the value `v` read so far. -/
def readBits (x : List Byte) : Nat → Nat → Reader Nat
  | 0, v => pure v
  | k + 1, v => do
    let b ← readBit x
    readBits x k (2 * v + b.toNat)

/-- The loop of `ReadIGamma` (R232); `left` data bits may still be read. -/
def readIGammaLoop (x : List Byte) (pol : Polarity) (inv : Bool) : Nat → Nat → Reader Nat
  | left, v => do
    let b ← readBit x
    if b = continueBit pol then
      match left with
      | 0 => throw .gammaTooLong
      | left + 1 => do
        let d ← readBit x
        readIGammaLoop x pol inv left (2 * v + (d ^^ inv).toNat)
    else
      pure v

/-- `ReadIGamma(pol, inv)` (R232). -/
def readIGamma (x : List Byte) (pol : Polarity) (inv : Bool) : Reader Nat :=
  readIGammaLoop x pol inv Config.gammaMaxDataBits 1

/-- The count of `0` bits before a `1` in ZX7 (R237): the seventeenth is refused; `left` more are allowed after `z`. -/
def readZx7Zeros (x : List Byte) : Nat → Nat → Reader Nat
  | left, z => do
    let b ← readBit x
    if b then
      pure z
    else
      match left with
      | 0 => throw .zx7PrefixTooLong
      | left + 1 => readZx7Zeros x left (z + 1)

/-- The count of `0` bits before a `1` in MegaLZ (R239); `none` at the eighth `0`, which is END (R91). -/
def readMlzZeros (x : List Byte) : Nat → Nat → Reader (Option Nat)
  | left, z => do
    let b ← readBit x
    if b then
      pure (some z)
    else
      match left with
      | 0 => pure none
      | left + 1 => readMlzZeros x left (z + 1)

/-- The `L` bytes of a ZX0 literal run (R238: `ReadByte` L times). -/
def readRun (x : List Byte) (L : Nat) : Reader (List Byte) := fun c =>
  let bs := (x.drop c.inIdx).take L
  if bs.length < L then
    .error (.prematureRun bs)
  else
    .ok (bs, { c with inIdx := c.inIdx + L, lastByte := bs.getLast?.getD c.lastByte })

/-! ### Offset fields (R85, R87, R90) -/

/-- The ZX7 offset of a byte `B ≥ 128` and its four more bits `h` (R85). -/
def zx7LongOffset (B : Byte) (h : Nat) : Nat :=
  ((B.toNat &&& 0x7F) ||| (h <<< 7)) + 129

/-- The ZX0 offset of an MSB value `M` and an LSB byte (R87). -/
def zx0Offset (pol : Polarity) (M : Nat) (lsb : Byte) : Nat :=
  match pol with
  | .fwd => M * 128 - lsb.toNat / 2
  | .back => (M - 1) * 128 + lsb.toNat / 2 + 1

/-- `ReadOff` (R239): the MegaLZ offset field. The flag says whether the long form (R90) was read. -/
def readMlzOff (x : List Byte) : Reader (Bool × Nat) := do
  let long ← readBit x
  if long then do
    let h ← readBits x 4 0
    let b ← readByte x
    pure (true, 4352 - ((h <<< 8) ||| b.toNat))
  else do
    let b ← readByte x
    pure (false, 256 - b.toNat)

/-! ### Decoding one token (R85, R86, R91; spec/45_unpacker.md R236 to R239) -/

/-- The states of the unpacker's state machine (R236). -/
inductive DState where
  | readFirst
  | readToken
  | readLiteralRun
  | readLastOffsetCopy
  | readNewOffsetCopy
  | done
deriving DecidableEq, Repr

/-- The initial state of a variant (R236). -/
def DState.initial : Variant → DState
  | .zx7 => .readFirst
  | .zx0 => .readLiteralRun
  | .megalz => .readFirst

/-- The reads of one ZX7 state (R237). -/
def decodeZx7 (x : List Byte) : DState → Reader Instr
  | .readFirst => do
    let b ← readByte x
    pure (.zx7First b)
  | .readToken => do
    let copy ← readBit x
    if copy then do
      let z ← readZx7Zeros x 16 0
      if z = 16 then
        pure .zx7End
      else do
        let v ← readBits x z 1
        let B ← readByte x
        if B.toNat < 128 then
          pure (.zx7CpyS (B.toNat + 1) (v + 1))
        else do
          let h ← readBits x 4 0
          pure (.zx7CpyL (zx7LongOffset B h) (v + 1))
    else do
      let b ← readByte x
      pure (.zx7Lit b)
  | _ => throw .stateReadsNothing

/-- Sets the unpacker's `BACKTRACK` (R238). -/
def setBacktrack : Reader Unit := fun c => .ok ((), { c with backtrack := true })

/-- The reads of one ZX0 state (R238), up to the operation it performs; the indicator bit that ends a state is read
after the operation (assumption log 11). A run read before any stream byte is the stream's first (R86). -/
def decodeZx0 (f : Fmt) (x : List Byte) : DState → Reader Instr
  | .readLiteralRun => do
    let c ← get
    let L ← readIGamma x f.pol false
    let bs ← readRun x L
    pure (if c.inIdx = 0 then .zx0Lit0 bs else .zx0Lit bs)
  | .readLastOffsetCopy => do
    let L ← readIGamma x f.pol false
    pure (.zx0Rep L)
  | .readNewOffsetCopy => do
    let M ← readIGamma x f.pol f.inv
    if M = 256 then
      pure .zx0End
    else if 256 < M then
      throw .msbAbove256
    else do
      let B ← readByte x
      setBacktrack
      let v ← readIGamma x f.pol false
      pure (.zx0Cpy (zx0Offset f.pol M B) (v + 1))
  | _ => throw .stateReadsNothing

/-- The reads of one MegaLZ state (R239). -/
def decodeMlz (x : List Byte) : DState → Reader Instr
  | .readFirst => do
    let b ← readByte x
    pure (.mlzFirst b)
  | .readToken => do
    let lit ← readBit x
    if lit then do
      let b ← readByte x
      pure (.mlzLit b)
    else do
      let s ← readBits x 2 0
      match s with
      | 0 => do
        let f ← readBits x 3 0
        pure (.mlzCpy1 (8 - f))
      | 1 => do
        let b ← readByte x
        pure (.mlzCpy2 (256 - b.toNat))
      | 2 => do
        let (long, o) ← readMlzOff x
        pure (if long then .mlzCpy3L o else .mlzCpy3S o)
      | _ => do
        let z ← readMlzZeros x 7 0
        match z with
        | none => pure .mlzEnd
        | some z => do
          let v ← readBits x z 1
          if 255 < v + 3 then
            throw .mlzLengthAbove255
          else do
            let (long, o) ← readMlzOff x
            pure (if long then .mlzCpyNL o (v + 3) else .mlzCpyNS o (v + 3))
  | _ => throw .stateReadsNothing

/-- The token the unpacker reads from stream `x` in a state of a variant: total, rejecting by name. -/
def decode (f : Fmt) (v : Variant) (st : DState) (x : List Byte) : Reader Instr :=
  match v with
  | .zx7 => decodeZx7 x st
  | .zx0 => decodeZx0 f x st
  | .megalz => decodeMlz x st

/-- The state a ZX0 indicator bit chooses (R86, R238): `1` a copy from a new offset or END; `0` a copy from the last
offset right after a literal run, a literal run after a copy. -/
def zx0StateAfter (afterRun ind : Bool) : DState :=
  if ind then .readNewOffsetCopy else if afterRun then .readLastOffsetCopy else .readLiteralRun

/-- Where in its stream a token stands (R86, R95). -/
inductive Place where
  | first
  | afterRun
  | afterCopy
deriving DecidableEq, Repr

/-- One token as the tables of R84, R86 and R89 lay it out, its indicator bit with it. -/
def decodeToken (f : Fmt) (v : Variant) (at_ : Place) (x : List Byte) : Reader Instr :=
  match v, at_ with
  | .zx0, .first => decodeZx0 f x .readLiteralRun
  | .zx0, .afterRun => do
    let ind ← readBit x
    decodeZx0 f x (zx0StateAfter true ind)
  | .zx0, .afterCopy => do
    let ind ← readBit x
    decodeZx0 f x (zx0StateAfter false ind)
  | .zx7, .first => decodeZx7 x .readFirst
  | .zx7, _ => decodeZx7 x .readToken
  | .megalz, .first => decodeMlz x .readFirst
  | .megalz, _ => decodeMlz x .readToken

/-! ### Decoding a store to CTRL (R97) -/

/-- The command of a 32-bit store to CTRL: `START` with `CMD` 1 or 2. Bits 3:1, 7:6 and 31:12 are ignored. A store
without START, or with a reserved CMD, is no instruction of the table. -/
def decodeCtrl (w : Word) : Option Instr :=
  if w.getLsbD 0 then
    match (w.extractLsb' 4 2).toNat with
    | 1 => some (.compress (w.extractLsb' 8 4))
    | 2 => some (.decompress (w.extractLsb' 8 4))
    | _ => none
  else
    none

/-! ### The encoder -/

/-- An item of a token: a single bit or a whole byte (R82). -/
inductive Item where
  | bit (b : Bool)
  | byte (b : Byte)
deriving DecidableEq, Repr

/-- A run of bit items. -/
def bitItems (bs : List Bool) : List Item := bs.map .bit

/-- `(-o) mod m` (R89, R90). -/
def negMod (o m : Nat) : Nat := (m - o % m) % m

/-- `OFF(o)` of R90, short form: 1 ≤ o ≤ 256. -/
def mlzOffShort (o : Nat) : List Item :=
  [.bit false, .byte (BitVec.ofNat 8 (negMod o 256))]

/-- `OFF(o)` of R90, long form: 257 ≤ o ≤ 4352. -/
def mlzOffLong (o : Nat) : List Item :=
  let s := negMod (o - 256) 4096
  bitItems (true :: bitsDown (s >>> 8) 4) ++ [.byte (BitVec.ofNat 8 s)]

/-- The LSB byte of a ZX0 offset (R87), bit 0 left 0. -/
def zx0Lsb (pol : Polarity) (o : Nat) : Byte :=
  let r := (o - 1) % 128
  match pol with
  | .fwd => BitVec.ofNat 8 ((127 - r) <<< 1)
  | .back => BitVec.ofNat 8 (r <<< 1)

/-- `M` of R87. -/
def zx0Msb (o : Nat) : Nat := (o - 1) / 128 + 1

/-- The items of a ZX0 new-offset copy (R86): the first bit of the length's code stands in bit 0 of the LSB byte, the
backtrack slot (R83). -/
def zx0CpyItems (f : Fmt) (o L : Nat) : List Item :=
  let len := igammaBits f.pol false (L - 1)
  let slot : Byte := if len.head?.getD false then 1 else 0
  bitItems (true :: igammaBits f.pol f.inv (zx0Msb o)) ++
    [.byte (zx0Lsb f.pol o ||| slot)] ++ bitItems len.tail

/-- An instruction's encoding: the items of a token, or the data of a store to CTRL. -/
inductive Encoding where
  | token (items : List Item)
  | ctrlStore (data : Word)
deriving DecidableEq, Repr

/-- The CTRL store of a command (R97): `0x1 OR (CMD << 4) OR (MODE << 8)`. -/
def ctrlWord (cmd : Nat) (mode : BitVec 4) : Word :=
  BitVec.ofNat 32 (1 ||| (cmd <<< 4) ||| (mode.toNat <<< 8))

/-- The token tables of R84, R86 and R89 and the command encodings of R97. DESIGN CHOICE: R95 calls MegaLZ CPY1, with 6 bits,
the shortest token, while R86's table gives ZX0 REP L `1 + eg(L)` bits, which is 2 for REP 1 and 4 for REP 2 and REP 3; the
model follows the table (assumption log 25). -/
def encode (f : Fmt) : Instr → Encoding
  | .zx7First b => .token [.byte b]
  | .zx7Lit b => .token [.bit false, .byte b]
  | .zx7CpyS o L => .token (bitItems (true :: gammaBits (L - 1)) ++ [.byte (BitVec.ofNat 8 (o - 1))])
  | .zx7CpyL o L =>
    .token (bitItems (true :: gammaBits (L - 1)) ++
      [.byte (0x80#8 ||| BitVec.ofNat 8 ((o - 129) &&& 0x7F))] ++ bitItems (bitsDown ((o - 129) >>> 7) 4))
  | .zx7End => .token (bitItems (true :: List.replicate 16 false ++ [true]))
  | .zx0Lit0 bs => .token (bitItems (igammaBits f.pol false bs.length) ++ bs.map .byte)
  | .zx0Lit bs => .token (bitItems (false :: igammaBits f.pol false bs.length) ++ bs.map .byte)
  | .zx0Rep L => .token (bitItems (false :: igammaBits f.pol false L))
  | .zx0Cpy o L => .token (zx0CpyItems f o L)
  | .zx0End => .token (bitItems (true :: igammaBits f.pol f.inv 256))
  | .mlzFirst b => .token [.byte b]
  | .mlzLit b => .token [.bit true, .byte b]
  | .mlzCpy1 o => .token (bitItems ([false, false, false] ++ bitsDown (negMod o 8) 3))
  | .mlzCpy2 o => .token (bitItems [false, false, true] ++ [.byte (BitVec.ofNat 8 (negMod o 256))])
  | .mlzCpy3S o => .token (bitItems [false, true, false] ++ mlzOffShort o)
  | .mlzCpy3L o => .token (bitItems [false, true, false] ++ mlzOffLong o)
  | .mlzCpyNS o L => .token (bitItems ([false, true, true] ++ gammaBits (L - 3)) ++ mlzOffShort o)
  | .mlzCpyNL o L => .token (bitItems ([false, true, true] ++ gammaBits (L - 3)) ++ mlzOffLong o)
  | .mlzEnd => .token (bitItems ([false, true, true] ++ List.replicate 8 false))
  | .compress mode => .ctrlStore (ctrlWord 1 mode)
  | .decompress mode => .ctrlStore (ctrlWord 2 mode)

/-- `l` with the bits of `m` set in element `i`. -/
def orByte (l : List Byte) (i : Nat) (m : Byte) : List Byte :=
  l.set i (l.getD i 0 ||| m)

/-- The interleaving of R82 under way: the stream so far, the index of the last bit-group byte, and how many of its
positions are still free. -/
structure Layout where
  out : List Byte
  group : Nat
  free : Nat
deriving DecidableEq, Repr

/-- R82: a byte item goes to the end of the stream; a bit item goes to the next free position, bit 7 first, of the open
bit-group byte, or opens one at the end of the stream. -/
def Layout.put (l : Layout) : Item → Layout
  | .byte b => { l with out := l.out ++ [b] }
  | .bit b =>
    if l.free = 0 then
      { out := l.out ++ [if b then 0x80 else 0], group := l.out.length, free := 7 }
    else
      { l with
        out := if b then orByte l.out l.group (1#8 <<< (l.free - 1)) else l.out
        free := l.free - 1 }

/-- The stream of a sequence of items, its last bit-group byte filled with zeros (R82, R219). -/
def layout (items : List Item) : List Byte :=
  (items.foldl Layout.put { out := [], group := 0, free := 0 }).out

/-! ### The opcode table's words -/

/-- The bytes of the `n`-byte number `w`, its most significant byte first (a token's first byte stands highest in the
table's number; assumption log 21). -/
def bytesDown (w : Nat) : Nat → List Byte
  | 0 => []
  | n + 1 => BitVec.ofNat 8 (w >>> (8 * n)) :: bytesDown w n

/-- The stream of a table word: its bytes and zeros after them, up to eight bytes. -/
def tableStream (nbits w : Nat) : List Byte :=
  let bs := bytesDown w (nbits / 8)
  bs ++ List.replicate (8 - bs.length) 0

/-- Whether a table row of `nbits` bits is a store to CTRL: such a row has 32 bits, of which the table fixes the low
byte's (assumption log 21). Every other row with numbered bits is a MegaLZ token. -/
def isCtrlRow (nbits : Nat) : Bool := nbits = 32 || nbits = 8

/-- The instruction the decoders read from a word of spec/opcode_table.json, numbered as the table numbers it. -/
def decodeTableWord (nbits w : Nat) : Option Instr :=
  if isCtrlRow nbits then
    decodeCtrl (BitVec.ofNat 32 w)
  else if nbits = 16 ∨ nbits = 24 then
    match decode { pol := .fwd, inv := true } .megalz .readToken (tableStream nbits w) Cursor.start with
    | .ok (i, _) => some i
    | .error _ => none
  else
    none

end Sys2Proof
end

