-- ==== Sys2Proof/Machine/State.lean ====
section
/-! DEFINITION. The state of the block (spec/10_state.md), plain data, with its faults, refusals and reset state
(spec/70_reset_and_hazards.md R290). INVENTORY.md lists every field with its rule. -/

namespace Sys2Proof.Machine

/-- Why the machine stops. The spec gives the block no fault at all: an error ends a COMMAND and is reported in STATUS
(R260, R266), which is a next state. -/
inductive Fault where
  /-- Raised by `exec` of a token when the engine is in no phase that runs a token of that variant (not the UNPACK phase
  of a DECOMPRESS, not the EMIT phase of a COMPRESS). Safe: the spec gives a token no effect there, and no step of the
  machine runs one (assumption log 18). -/
  | tokenOutsidePhase
deriving DecidableEq, Repr

/-- Why an instruction has no meaning. -/
inductive Refusal where
  /-- Raised by an arm of `exec` that has no meaning yet, with its mnemonic. Safe. No arm raises it now. -/
  | notModelled (mnemonic : String)
deriving DecidableEq, Repr

/-- Sparse data by key: pairs in strictly rising key order, an absent key standing for a default. -/
abbrev Table (α : Type) := List (Nat × α)

/-- Bytes by address; an unlisted address reads 0 (assumption logs 2 and 3). -/
abbrev Memory := List Host.Cell

/-- A bit cost (R151): a natural, or `none` for `INF`. -/
abbrev Cost := Option Nat

/-- The engine's phases (spec/40_host_commands.md R126). CHECK follows START, whose step takes the snapshot (R124). -/
inductive Phase where
  | idle
  | check
  | reverseIn
  | parse
  | emit
  | reverseOut
  | capacity
  | unpack
  | writeback
  | complete
deriving DecidableEq, Repr

/-- `PREV_KIND` of the packer (R49). -/
inductive PrevKind where
  | none
  | lit
  | copy
deriving DecidableEq, Repr

/-- The stored fields of the registers of R31. Reserved bits have no storage: they read 0 and ignore writes. -/
structure Csr where
  cmd : BitVec 2
  mode : BitVec 4
  busy : Bool
  done : Bool
  err : Bool
  errCode : BitVec 3
  ie : Bool
  srcAddr : Word
  srcLen : Word
  dstAddr : Word
  dstCap : Word
  resultLen : Word
  consumedLen : Word
  costBits : Word
deriving DecidableEq, Repr

/-- The command latches of R44. -/
structure Latch where
  cmd : BitVec 2
  mode : BitVec 4
  src : Word
  len : Word
  dst : Word
  cap : Word
deriving DecidableEq, Repr

/-- The match index (R46, R141): `HEAD` by two-byte key and `CHAIN` by position; an absent entry is `NULL`. -/
structure MatchIndex where
  head : Table Nat
  chain : Table Nat
deriving DecidableEq, Repr

/-- One position of the ZX7 parse (R47, R170): `COST[i]`, `OFF[i]`, `LEN[i]`; `len = 0` is a literal. -/
structure Zx7Entry where
  cost : Cost
  off : Nat
  len : Nat
deriving DecidableEq, Repr

/-- A node of the ZX0 parse (R47, R172). -/
structure Node where
  bits : Int
  index : Int
  offset : Nat
  chain : Option Nat
deriving DecidableEq, Repr

/-- The state of the ZX0 parse (R47, R172): the arena, whose positions are the node ids, and the arrays, whose element 0 is
not used where the spec counts from 1. -/
structure Zx0State where
  node : Array Node
  lastLit : List (Option Nat)
  lastMatch : List (Option Nat)
  mlen : List Nat
  optimal : List (Option Nat)
  bestLen : List Nat
deriving DecidableEq, Repr

/-- One prefix of the MegaLZ parse (R47, R180): `COST[p]` and `PRED[p]` = (position, offset, length). -/
structure MlzEntry where
  cost : Cost
  pred : Option (Nat × Nat × Nat)
deriving DecidableEq, Repr

/-- An operation a parser hands to the packer (R174, R177, R181, R190). -/
inductive Op where
  /-- The first byte, verbatim (ZX7 and MegaLZ). -/
  | first (b : Byte)
  /-- A literal byte (ZX7 and MegaLZ). -/
  | lit (b : Byte)
  /-- A literal run (ZX0). -/
  | run (bs : List Byte)
  /-- A copy of an offset and a length. -/
  | copy (o L : Nat)
deriving DecidableEq, Repr

/-- The packer's state (R49). `OUT_IDX` is the length of OBUF (assumption log 22). -/
structure Packer where
  bitMask : Byte
  bitIndex : Nat
  backtrack : Bool
  lastOffset : Nat
  prevKind : PrevKind
deriving DecidableEq, Repr

/-- The unpacker's state (R50) but HIST. `OUT_POS` is the length of OBUF (assumption log 22). -/
structure Unpacker where
  cur : Cursor
  lastOffset : Nat
  dstate : DState
deriving DecidableEq, Repr

/-- The width of a host access. -/
inductive Width where
  | w8
  | w16
  | w32
  | w64
deriving DecidableEq, Repr

/-- What happens in one step, as the outside world decides it (assumption log 5). -/
inductive Input where
  /-- The engine takes a step. -/
  | engine
  /-- The host stores the low bytes of `data` (R64, R65). -/
  | store (w : Width) (addr : Word) (data : BitVec 64)
  /-- The host loads. -/
  | load (w : Width) (addr : Word)
  /-- `rst` is asserted (R290). -/
  | rst
deriving DecidableEq, Repr

/-- The state of one instance of the block with its host memory and its coming inputs. -/
structure State where
  /-- The OPEN parameters (R8); no step changes them. -/
  params : Params
  csr : Csr
  latch : Latch
  /-- Host memory (R60). -/
  mem : Memory
  phase : Phase
  /-- The input image (R45), reversed in place by REVERSE-IN (R126). -/
  image : List Byte
  index : MatchIndex
  /-- The parser's scan position (R41). -/
  scan : Nat
  zx7 : List Zx7Entry
  zx0 : Zx0State
  mlz : List MlzEntry
  /-- `total` of the greedy parse (R190). -/
  total : Nat
  /-- The operations still to emit (R41's operation cursor); while the greedy parse runs, those found so far. -/
  ops : List Op
  /-- The bytes written to OBUF so far (R48). -/
  obuf : List Byte
  pk : Packer
  up : Unpacker
  /-- HIST (R50, R234), by slot. -/
  hist : Memory
  /-- The model's own: the inputs of the coming steps (assumption log 5). -/
  inputs : List Input
  /-- The model's own: the value of the host's last load (assumption log 7). -/
  rdata : BitVec 64
  /-- The model's own: whether a buffer of the running command was written by another agent (R295; assumption log 9). -/
  dutyBroken : Bool
  /-- The model's own: how many free values have been taken (assumption log 9). -/
  freeCtr : Nat
deriving DecidableEq, Repr

/-- The reset values of R290. -/
def Csr.reset : Csr where
  cmd := 0
  mode := 0
  busy := false
  done := false
  err := false
  errCode := 0
  ie := false
  srcAddr := 0
  srcLen := 0
  dstAddr := 0
  dstCap := 0
  resultLen := 0
  consumedLen := 0
  costBits := 0

/-- The latches after reset: unspecified (R52), 0 in the model (assumption log 3). -/
def Latch.reset : Latch where
  cmd := 0
  mode := 0
  src := 0
  len := 0
  dst := 0
  cap := 0

/-- The ZX0 parser's state outside a command (assumption log 3). -/
def Zx0State.empty : Zx0State where
  node := #[]
  lastLit := []
  lastMatch := []
  mlen := []
  optimal := []
  bestLen := []

/-- The packer outside a command (assumption log 3). -/
def Packer.reset : Packer where
  bitMask := 0
  bitIndex := 0
  backtrack := false
  lastOffset := Config.zx0InitialOffset
  prevKind := .none

/-- The unpacker outside a command (assumption log 3). -/
def Unpacker.reset : Unpacker where
  cur := Cursor.start
  lastOffset := Config.zx0InitialOffset
  dstate := .readFirst

/-- The machine right after reset (R290, R293), for an instance built with the parameters `p`: idle, every register at its
reset value, no host memory written, no input waiting. -/
def State.resetOf (p : Params) : State where
  params := p
  csr := Csr.reset
  latch := Latch.reset
  mem := []
  phase := .idle
  image := []
  index := { head := [], chain := [] }
  scan := 0
  zx7 := []
  zx0 := Zx0State.empty
  mlz := []
  total := 0
  ops := []
  obuf := []
  pk := Packer.reset
  up := Unpacker.reset
  hist := []
  inputs := []
  rdata := 0
  dutyBroken := false
  freeCtr := 0

/-- The machine right after reset, built with the default parameters of R8 (assumption log 1). -/
def State.reset : State := State.resetOf Params.default

end Sys2Proof.Machine
end

