-- ==== Sys2Proof/Machine/Flags.lean ====
section
/-! DEFINITION. The fields a register read is made of, the interrupt output and the bit count: spec/10_state.md R31, R33 to
R36, R40, R42, spec/60_exceptions.md R260, R270. -/

namespace Sys2Proof.Machine

/-- The code an error is reported with (R260). -/
def errBits : ErrCode → BitVec 3
  | .none => 0
  | .alloc => 1
  | .invalid => 2
  | .limit => 3
  | .illegal => 4

/-- `ID` (R33). -/
def idWord : Word := 0x475A0001

/-- `CTRL` as it reads: `CMD` in bits 5:4, `MODE` in bits 11:8, `START` and the reserved bits 0 (R31). -/
def ctrlRead (c : Csr) : Word :=
  (c.cmd.zeroExtend 32 <<< 4) ||| (c.mode.zeroExtend 32 <<< 8)

/-- `STATUS` as it reads: `BUSY` bit 0, `DONE` bit 1, `ERR` bit 2, `ERR_CODE` bits 10:8 (R31). -/
def statusRead (c : Csr) : Word :=
  ((BitVec.ofBool c.busy).zeroExtend 32) |||
    ((BitVec.ofBool c.done).zeroExtend 32 <<< 1) |||
    ((BitVec.ofBool c.err).zeroExtend 32 <<< 2) |||
    (c.errCode.zeroExtend 32 <<< 8)

/-- `IRQ_EN` as it reads (R31). -/
def irqEnRead (c : Csr) : Word := (BitVec.ofBool c.ie).zeroExtend 32

/-- `CONFIG` as it reads: `ZX0_INV` bit 0, `REV_UPSTREAM` bit 1 (R31, R42). -/
def configRead (p : Params) : Word :=
  ((BitVec.ofBool p.zx0InvertMsb).zeroExtend 32) |||
    ((BitVec.ofBool (p.reverseEmit == .upstream)).zeroExtend 32 <<< 1)

/-- The interrupt output (R36, R270): `STATUS.DONE AND IRQ_EN.IE`, at every step. -/
def State.irq (s : State) : Bool := s.csr.done && s.csr.ie

/-- `U` of R40 and R217: the unused positions of the last bit-group byte, from the packer's `BIT_MASK`. -/
def unusedBits (mask : Byte) : Nat :=
  if mask = 0 then 0 else mask.toNat.log2 + 1

/-- The packer's bit count (R217): `8 * OUT_IDX - U`. -/
def State.costBits (s : State) : Nat :=
  8 * s.obuf.length - unusedBits s.pk.bitMask

end Sys2Proof.Machine
end

