-- ==== Sys2Proof/Machine/Ops.lean ====
section
/-! DEFINITION. The named operations over memory and registers: host memory (spec/20_memory.md R60 to R64), the register
window (spec/10_state.md R31, R32), START (spec/40_host_commands.md R124), the raising of an error as ONE operation and
the acknowledge beside it (spec/60_exceptions.md R266, R268), completion (R127) and reset
(spec/70_reset_and_hazards.md R290, R291). -/

namespace Sys2Proof.Machine

/-! ### Sparse tables and memory -/

def Table.get {α : Type} : Table α → Nat → Option α
  | [], _ => none
  | (k', v) :: t, k => if k = k' then some v else Table.get t k

def Table.set {α : Type} : Table α → Nat → α → Table α
  | [], k, v => [(k, v)]
  | (k', v') :: t, k, v =>
    if k < k' then (k, v) :: (k', v') :: t
    else if k = k' then (k, v) :: t
    else (k', v') :: Table.set t k v

def Table.erase {α : Type} : Table α → Nat → Table α
  | [], _ => []
  | (k', v') :: t, k =>
    if k = k' then t
    else (k', v') :: Table.erase t k

/-- The canonical form of a table: strictly rising keys. -/
abbrev Table.sorted {α : Type} (t : Table α) : Prop := (t.map Prod.fst).Pairwise (· < ·)

/-- The canonical form of a memory: strictly rising addresses, and no entry equal to what an unlisted address reads. -/
abbrev Memory.wf (m : Memory) : Prop :=
  (m.map Prod.fst).Pairwise (· < ·) ∧ ∀ c ∈ m, c.2 ≠ 0

/-- The byte at an address; an unlisted one reads 0 (assumption log 2). -/
def Memory.read (m : Memory) (a : Nat) : Byte := (Table.get m a).getD 0

/-- One byte written; writing 0 removes the entry. -/
def Memory.write (m : Memory) (a : Nat) (b : Byte) : Memory :=
  if b = 0 then Table.erase m a else Table.set m a b

/-- `MemRead(addr, n)` (R62): lowest address first, never modulo 2^32. -/
def Memory.readBytes (m : Memory) (a : Nat) : Nat → List Byte
  | 0 => []
  | n + 1 => m.read a :: Memory.readBytes m (a + 1) n

/-- `MemWrite(addr, n, v)` (R62), one byte at a time in ascending order. -/
def Memory.writeBytes (m : Memory) (a : Nat) : List Byte → Memory
  | [] => m
  | b :: bs => Memory.writeBytes (m.write a b) (a + 1) bs

/-! ### Buffers and sizes -/

/-- `OBUF_SIZE` (R48): `ceil(9 * MAX_INPUT_LEN / 8) + 8`. -/
def obufSize (p : Params) : Nat := (9 * p.maxInputLen + 7) / 8 + 8

/-- `OUT_IDX` of the packer (R49): the number of bytes written to OBUF. -/
def State.outIdx (s : State) : Nat := s.obuf.length

/-- `OUT_POS` of the unpacker (R50): the number of output bytes produced. -/
def State.outPos (s : State) : Nat := s.obuf.length

/-- Whether an address lies in the buffer `[base, base + len)`. -/
def inBuffer (base len : Word) (a : Nat) : Bool :=
  base.toNat ≤ a && a < base.toNat + len.toNat

/-- R68: both buffers have bytes and share one. -/
def buffersOverlap (l : Latch) : Bool :=
  0 < l.len.toNat && 0 < l.cap.toNat &&
    l.src.toNat < l.dst.toNat + l.cap.toNat && l.dst.toNat < l.src.toNat + l.len.toNat

/-- R67: both buffers end at or below 2^32. -/
def buffersInRange (l : Latch) : Bool :=
  l.src.toNat + l.len.toNat ≤ Config.addressSpace && l.dst.toNat + l.cap.toNat ≤ Config.addressSpace

/-- The running command's variant, mode class and limits, from the latches (R44). -/
def State.variant (s : State) : Variant := variantOf s.latch.mode

def State.reversed (s : State) : Bool := reversedMode s.latch.mode

def State.fmt (s : State) : Fmt := fmtOf s.params s.latch.mode

def State.compressing (s : State) : Bool := s.latch.cmd == 1

/-- `CAPL` (R123): `min(L_CAP, MAX_INPUT_LEN)`. -/
def State.capl (s : State) : Nat := min s.latch.cap.toNat s.params.maxInputLen

/-! ### Free values for a broken host duty and for WRITEBACK under way -/

/-- `n` free bytes, the first taken at `ctr`. -/
def scrambledBytes (ctr : Nat) : Nat → List Byte
  | 0 => []
  | n + 1 => Config.freeByte ctr :: scrambledBytes (ctr + 1) n

/-- The bytes of the output buffer that exist: all of `[L_DST, L_DST + L_CAP)` once the range check has passed (R67). -/
def State.outputBytes (s : State) : Nat :=
  min s.latch.cap.toNat (Config.addressSpace - s.latch.dst.toNat)

/-- Host memory with the output buffer filled with free values (U5, U7; assumption logs 9, 10). -/
def State.scrambledMem (s : State) : Memory :=
  s.mem.writeBytes s.latch.dst.toNat (scrambledBytes s.freeCtr s.outputBytes)

/-! ### Completion and errors -/

/-- The registers at completion (R127): `BUSY` falls and `DONE` rises in one step, with the results and the error code. -/
def completedCsr (c : Csr) (e : ErrCode) (result consumed bits : Word) : Csr :=
  { c with
    busy := false
    done := true
    err := e != .none
    errCode := errBits e
    resultLen := result
    consumedLen := consumed
    costBits := bits }

/-- The end of a command with code `e` and the given results. Where the host broke its duty while the command ran, the
output bytes, the results and the code are free values (R66, R295, U5; assumption log 9); the command still completes
and nothing outside the output buffer is written. -/
def State.finish (s : State) (e : ErrCode) (result consumed bits : Word) : State :=
  if s.dutyBroken then
    { s with
      mem := s.scrambledMem
      csr := completedCsr s.csr (Config.freeErr s.freeCtr) (Config.freeWord s.freeCtr)
        (Config.freeWord (s.freeCtr + 1)) (Config.freeWord (s.freeCtr + 2))
      phase := .idle
      dutyBroken := false
      freeCtr := s.freeCtr + s.outputBytes + 3 }
  else
    { s with
      csr := completedCsr s.csr e result consumed bits
      phase := .idle }

/-- `raise E` (R266): the running command ends in this step with failure code `e`; no host memory is written, and the
three result registers are 0 (R127). -/
def State.raise (s : State) (e : ErrCode) : State := s.finish e 0 0 0

/-- The acknowledge (R268): a write of 1 to `STATUS.DONE` while not busy clears `DONE`, `ERR` and `ERR_CODE` (R35). -/
def State.acknowledge (s : State) : State :=
  { s with csr := { s.csr with done := false, err := false, errCode := 0 } }

/-- The outcome of a sequence of engine primitives: its state, or the command ended by the error it raised (R266). The
internal state an error leaves behind is not observable (R266), so it is the state before. -/
def settle (s : State) : Except ErrCode State → State
  | .ok t => t
  | .error e => s.raise e

/-! ### START -/

/-- START (R124), in one step: `CMD` and `MODE` written from the same store, the latches loaded, the status and the result
registers cleared, `BUSY` set, the input snapshot of R66 taken. -/
def State.start (s : State) (cmd : BitVec 2) (mode : BitVec 4) : State :=
  { s with
    csr := { s.csr with
      cmd := cmd
      mode := mode
      busy := true
      done := false
      err := false
      errCode := 0
      resultLen := 0
      consumedLen := 0
      costBits := 0 }
    latch :=
      { cmd := cmd
        mode := mode
        src := s.csr.srcAddr
        len := s.csr.srcLen
        dst := s.csr.dstAddr
        cap := s.csr.dstCap }
    image := s.mem.readBytes s.csr.srcAddr.toNat s.csr.srcLen.toNat
    phase := .check
    dutyBroken := false }

/-! ### The register window (R31, R32, R64) -/

/-- The value of the register at an offset, at any time (R32); a reserved offset reads 0. -/
def State.readReg (s : State) (off : Nat) : Word :=
  match off with
  | 0x00 => idWord
  | 0x04 => ctrlRead s.csr
  | 0x08 => statusRead s.csr
  | 0x0C => irqEnRead s.csr
  | 0x10 => s.csr.srcAddr
  | 0x14 => s.csr.srcLen
  | 0x18 => s.csr.dstAddr
  | 0x1C => s.csr.dstCap
  | 0x20 => s.csr.resultLen
  | 0x24 => s.csr.consumedLen
  | 0x28 => s.csr.costBits
  | 0x2C => configRead s.params
  | _ => 0

/-- A 32-bit store to the register at an offset, but for a START (R129): ignored while busy (R32), and ignored by a read-only
register, a reserved offset and every reserved bit. -/
def State.writeReg (s : State) (off : Nat) (d : Word) : State :=
  if s.csr.busy then
    s
  else
    match off with
    | 0x04 => { s with csr := { s.csr with cmd := d.extractLsb' 4 2, mode := d.extractLsb' 8 4 } }
    | 0x08 => if d.getLsbD 1 then s.acknowledge else s
    | 0x0C => { s with csr := { s.csr with ie := d.getLsbD 0 } }
    | 0x10 => { s with csr := { s.csr with srcAddr := d } }
    | 0x14 => { s with csr := { s.csr with srcLen := d } }
    | 0x18 => { s with csr := { s.csr with dstAddr := d } }
    | 0x1C => { s with csr := { s.csr with dstCap := d } }
    | _ => s

/-- Whether a host address lies in the register window `[CSR_BASE, CSR_BASE + 0x40)` (R60). -/
def State.inWindow (s : State) (a : Word) : Bool :=
  s.params.csrBase.toNat ≤ a.toNat && a.toNat < s.params.csrBase.toNat + 0x40

/-- The offset of an address in the window. -/
def State.offset (s : State) (a : Word) : Nat := a.toNat - s.params.csrBase.toNat

/-- A register access is defined only as an aligned 32-bit one (R64). -/
def definedAccess (w : Width) (off : Nat) : Bool := w == .w32 && off % 4 == 0

/-! ### Host accesses to host memory -/

/-- The bytes of an access. -/
def widthBytes : Width → Nat
  | .w8 => 1
  | .w16 => 2
  | .w32 => 4
  | .w64 => 8

/-- The addresses of an access: `k` bytes from `a` on, in the 32-bit address space (assumption log 7). -/
def accessAddrs (a : Word) : Nat → List Nat
  | 0 => []
  | k + 1 => a.toNat :: accessAddrs (a + 1) k

/-- A host store of `k` bytes of `d`, least significant first (assumption log 7). -/
def Memory.hostStore (m : Memory) (a : Word) (d : BitVec 64) : Nat → Memory
  | 0 => m
  | k + 1 => Memory.hostStore (m.write a.toNat (d.truncate 8)) (a + 1) (d >>> 8) k

/-- Whether an address belongs to a buffer of the running command, as programmed at START (R295). -/
def State.touchesBuffer (s : State) (a : Nat) : Bool :=
  inBuffer s.latch.src s.latch.len a || inBuffer s.latch.dst s.latch.cap a

/-- A host store to host memory; while a command runs, one that writes a byte of its buffers breaks the host's duty (R295).
DESIGN CHOICE: R295 lets the duty run until the host observes `DONE = 1`, U5, D24 and R306 while the command is busy; in the
model it ends with the command, and a store after that, observed or not, is an ordinary store (assumption log 26). -/
def State.hostStore (s : State) (w : Width) (a : Word) (d : BitVec 64) : State :=
  { s with
    mem := s.mem.hostStore a d (widthBytes w)
    dutyBroken :=
      s.dutyBroken || (s.csr.busy && (accessAddrs a (widthBytes w)).any s.touchesBuffer) }

/-- The byte a host load sees at an address of host memory. While the running command's result is being written back, a byte
of it is the old contents or the result, unspecified which (R306, U6); once the host broke its duty, a byte of the output
buffer is unspecified while the command runs (R295, U5). `ctr` numbers the free value the byte may take (assumption logs 6
and 9). -/
def State.earlyByte (s : State) (ctr a : Nat) : Byte :=
  if s.csr.busy && s.dutyBroken && inBuffer s.latch.dst s.latch.cap a then
    Config.freeByte ctr
  else if s.phase = .writeback ∧ s.latch.dst.toNat ≤ a ∧ a < s.latch.dst.toNat + s.obuf.length ∧
      Config.freeChoice ctr = true then
    s.obuf.getD (a - s.latch.dst.toNat) 0
  else
    s.mem.read a

/-- A host load of `k` bytes, least significant first (assumption log 7). -/
def State.loadBytes (s : State) (ctr : Nat) (a : Word) : Nat → BitVec 64
  | 0 => 0
  | k + 1 => (s.earlyByte ctr a.toNat).zeroExtend 64 ||| (s.loadBytes (ctr + 1) (a + 1) k <<< 8)

/-- A host load: of a register, or of host memory. A register access that is not defined returns 0 (R64). -/
def State.hostLoad (s : State) (w : Width) (a : Word) : State :=
  if s.inWindow a then
    { s with
      rdata := if definedAccess w (s.offset a) then (s.readReg (s.offset a)).zeroExtend 64 else 0 }
  else
    { s with
      rdata := s.loadBytes s.freeCtr a (widthBytes w)
      freeCtr := s.freeCtr + widthBytes w }

/-! ### Reset -/

/-- A step in which `rst` is asserted (R290, R291): every register takes its reset value and a running command is abandoned.
Host memory is unchanged, but for the output buffer of a command in its WRITEBACK phase, whose bytes are then free values
(U7; assumption log 10). The internal state is unspecified (R290): the model's is that of `State.reset` (assumption log 3). -/
def State.assertRst (s : State) : State :=
  { State.resetOf s.params with
    mem := if s.phase = .writeback then s.scrambledMem else s.mem
    inputs := s.inputs
    rdata := s.rdata
    freeCtr := if s.phase = .writeback then s.freeCtr + s.outputBytes else s.freeCtr }

end Sys2Proof.Machine
end

