-- ==== Sys2Proof/Machine/Commands.lean ====
section
/-! DEFINITION. The two host commands (spec/40_host_commands.md R120, R122, R123): the store to CTRL starts the command
(R124) and is ignored entirely while one runs. What the command then computes is the engine's phases
(Sys2Proof/Machine/Engine.lean), as R126 has it: any number of steps after the START step (R300). -/

namespace Sys2Proof.Machine

/-- COMPRESS in a mode: START with `CMD = 1`. -/
def execCompress (mode : BitVec 4) (s : State) : Host.Outcome State Fault Refusal :=
  if s.csr.busy then .next s else .next (s.start 1 mode)

/-- DECOMPRESS in a mode: START with `CMD = 2`. -/
def execDecompress (mode : BitVec 4) (s : State) : Host.Outcome State Fault Refusal :=
  if s.csr.busy then .next s else .next (s.start 2 mode)

end Sys2Proof.Machine
end

