-- ==== Sys2Proof/Machine/Operands.lean ====
section
/-! DEFINITION. The unpacker's operands: output and history (spec/45_unpacker.md R234, R235), copies, literal runs and the
ZX0 indicator that ends a state (R238). -/

namespace Sys2Proof.Machine

/-- `Output(b)` (R235): the byte goes to OBUF and to HIST, unless the output already holds `CAPL` bytes. -/
def State.output (s : State) (b : Byte) : Except ErrCode State :=
  if s.capl ≤ s.outPos then
    .error .alloc
  else
    .ok { s with
      obuf := s.obuf ++ [b]
      hist := s.hist.write (s.outPos % Config.histSize) b }

/-- `Output` of each byte in order (R238: the bytes of a literal run). -/
def State.outputAll (s : State) : List Byte → Except ErrCode State
  | [] => .ok s
  | b :: bs =>
    match s.output b with
    | .error e => .error e
    | .ok t => State.outputAll t bs

/-- The byte `o` places before the next output byte, from the circular history (R234). -/
def State.history (s : State) (o : Nat) : Byte :=
  s.hist.read ((s.outPos - o) % Config.histSize)

/-- The repetition of `Copy` (R234): each byte read is the one `o` places before the byte being written. -/
def State.copyLoop (s : State) (o : Nat) : Nat → Except ErrCode State
  | 0 => .ok s
  | n + 1 =>
    match s.output (s.history o) with
    | .error e => .error e
    | .ok t => State.copyLoop t o n

/-- `Copy(o, L)` (R234): an offset of 0 or beyond the output produced is `INVALID`. -/
def State.copy (s : State) (o L : Nat) : Except ErrCode State :=
  if o < 1 ∨ s.outPos < o then .error .invalid else s.copyLoop o L

/-- The cursor moved past the fields a token's decoding read. -/
def State.withCursor (s : State) (c : Cursor) : State :=
  { s with up := { s.up with cur := c } }

/-- `DSTATE <- st`. -/
def State.goto (s : State) (st : DState) : State :=
  { s with up := { s.up with dstate := st } }

/-- An operation, then `DSTATE <- st`. -/
def State.thenGoto (st : DState) : Except ErrCode State → Except ErrCode State
  | .error e => .error e
  | .ok t => .ok (t.goto st)

/-- The indicator bit that ends a ZX0 state and chooses the next (R238); past the end of the stream it is `INVALID`. -/
def State.zx0Next (s : State) (afterRun : Bool) : Except ErrCode State :=
  match readBit s.image s.up.cur with
  | .error _ => .error .invalid
  | .ok (ind, c) => .ok ((s.withCursor c).goto (zx0StateAfter afterRun ind))

/-- A ZX0 state: its operation, then the indicator that chooses the next state (R238). -/
def State.zx0Then (afterRun : Bool) : Except ErrCode State → Except ErrCode State
  | .error e => .error e
  | .ok t => t.zx0Next afterRun

/-- The phase after the stream of a DECOMPRESS or the emission of a COMPRESS is done: REVERSE-OUT in a reversed mode, then
CAPACITY for COMPRESS and WRITEBACK for DECOMPRESS (R126). -/
def State.afterBody (s : State) : State :=
  { s with
    phase :=
      if s.reversed then .reverseOut else if s.compressing then .capacity else .writeback }

/-- A token of variant `v`: `unpack` is its effect in the UNPACK phase of a DECOMPRESS, `emit` in the EMIT phase of a
COMPRESS. The spec gives it none elsewhere, and no step runs one there (assumption log 18). -/
def State.runToken (s : State) (v : Variant) (unpack emit : State → State) :
    Host.Outcome State Fault Refusal :=
  if s.variant = v then
    match s.phase with
    | .unpack => .next (unpack s)
    | .emit => .next (emit s)
    | _ => .fault .tokenOutsidePhase
  else
    .fault .tokenOutsidePhase

/-- END while unpacking (R245): `DSTATE <- Done`, and UNPACK ends. -/
def State.unpackEnd (s : State) : State := (s.goto .done).afterBody

end Sys2Proof.Machine
end

