-- ==== Sys2Proof/Machine/CostModel.lean ====
section
/-! DEFINITION. The cost model (spec/42_cost_model.md): the bit length of every token, `none` standing for `INF`. -/

namespace Sys2Proof.Machine

/-- `eg(v)` (R150), for `v ≥ 1`. -/
def eg (v : Nat) : Nat := 2 * v.log2 + 1

/-- `x + k`, with `INF + k = INF` (R151). -/
def Cost.plus : Cost → Cost → Cost
  | some a, some b => some (a + b)
  | _, _ => none

/-- `x < y`, with every natural below `INF` and `INF < INF` false (R151). -/
def Cost.less : Cost → Cost → Bool
  | some a, some b => a < b
  | some _, none => true
  | none, _ => false

/-- R152. -/
def costLitZx7 : Nat := 9

/-- R152 and R158: the first byte, written verbatim. -/
def costFirst : Nat := 8

/-- R153. -/
def costCopyZx7 (o L : Nat) : Cost :=
  if 1 ≤ o ∧ o ≤ Config.zx7MaxOffset ∧ 2 ≤ L ∧ L ≤ Config.zx7MaxLen then
    some (1 + (if o ≤ 128 then 8 else 12) + eg (L - 1))
  else
    none

/-- R154. -/
def costLitZx0 (L : Nat) : Nat := 1 + eg L + 8 * L

/-- R155. -/
def costRepZx0 (L : Nat) : Nat := 1 + eg L

/-- R156, with the offset limit of the mode. -/
def costNewZx0 (limit o L : Nat) : Cost :=
  if 1 ≤ o ∧ o ≤ limit ∧ 2 ≤ L then some (8 + eg ((o - 1) / 128 + 1) + eg (L - 1)) else none

/-- `OffBits(o)` of R157. -/
def offBitsMlz (o : Nat) : Nat := if o ≤ Config.mlzShortMaxOffset then 9 else 13

/-- R157. -/
def costCopyMlz (o L : Nat) : Cost :=
  if o < 1 ∨ Config.mlzMaxOffset < o ∨ L < 1 ∨ Config.mlzMaxLen < L then none
  else if L = 1 then (if o ≤ Config.mlzShort1MaxOffset then some 6 else none)
  else if L = 2 then (if o ≤ Config.mlzShortMaxOffset then some 11 else none)
  else if L = 3 then some (3 + offBitsMlz o)
  else some (3 + eg (L - 3) + offBitsMlz o)

/-- R158. -/
def costLitMlz : Nat := 9

/-- The bits of a variant's end marker (R159). -/
def endBits : Variant → Nat
  | .zx7 => 18
  | .zx0 => 18
  | .megalz => 11

/-- R160: whether a copy from a new offset lies in the representable range of the variant and mode. -/
def copyInRange (mode : BitVec 4) (o L : Nat) : Bool :=
  match variantOf mode with
  | .zx7 => (costCopyZx7 o L).isSome
  | .zx0 => (costNewZx0 (offsetLimit mode) o L).isSome
  | .megalz => (costCopyMlz o L).isSome

end Sys2Proof.Machine
end

