-- ==== Sys2Proof/Machine/MatchIndex.lean ====
section
/-! DEFINITION. The match index (spec/41_match_index.md): match lengths (R140), the candidate sets and their order (R143 to
R145), and the two-byte table with its chains and its cutoff (R141, R142). The parsers are offered the candidate sets; the
table is kept beside them as R141 to R145 describe, and changes no candidate (assumption log 14). -/

namespace Sys2Proof.Machine

/-- The number of equal elements at the front of two sequences, at most `c`. -/
def commonPrefix : Nat → List Byte → List Byte → Nat
  | c + 1, a :: as, b :: bs => if a = b then commonPrefix c as bs + 1 else 0
  | _, _, _ => 0

/-- `mf(p, o, c)` (R140): the forward match length at `p` and offset `o`, at most `c`. -/
def matchForward (x : List Byte) (p o c : Nat) : Nat :=
  commonPrefix c (x.drop p) (x.drop (p - o))

/-- `mb(i, o, c)` (R140): the backward match length ending at `i` with offset `o`, at most `min(c, i)`. The sequence that
ends at `i - o` has `i - o + 1` elements, which is the other bound of R140. -/
def matchBackward (x : List Byte) (i o c : Nat) : Nat :=
  commonPrefix (min c i) (x.take (i + 1)).reverse (x.take (i + 1 - o)).reverse

/-- The numbers `1 .. m`, ascending. -/
def upTo (m : Nat) : List Nat := List.range' 1 m

/-- R143: the offsets offered to the ZX7 parser at position `i`, ascending. -/
def zx7Offsets (x : List Byte) (i : Nat) : List Nat :=
  (upTo (min Config.zx7MaxOffset (i - 1))).filter fun o =>
    x[i - 1]? == x[i - 1 - o]? && x[i]? == x[i - o]?

/-- R145: the pairs (offset, length) offered to the MegaLZ parsers at position `p`, in order. -/
def mlzCandidates (x : List Byte) (p : Nat) : List (Nat × Nat) :=
  (upTo (min Config.mlzMaxOffset p)).flatMap fun o =>
    ((upTo (matchForward x p o (min Config.mlzMaxLen (x.length - p)))).filter
      fun L => (costCopyMlz o L).isSome).map fun L => (o, L)

/-- `key(a, b)` of a byte pair (R141). -/
def pairKey (a b : Byte) : Nat := a.toNat * 256 + b.toNat

/-- The key of the bytes at `i` and `i + 1` of the input, where both exist. -/
def keyAt (x : List Byte) (i : Nat) : Option Nat :=
  match x[i]?, x[i + 1]? with
  | some a, some b => some (pairKey a b)
  | _, _ => none

/-- `Insert(p, k)` (R141): `CHAIN[p] <- HEAD[k]; HEAD[k] <- p`. -/
def MatchIndex.insert (ix : MatchIndex) (p k : Nat) : MatchIndex :=
  { head := Table.set ix.head k p
    chain :=
      match Table.get ix.head k with
      | some h => Table.set ix.chain p h
      | none => Table.erase ix.chain p }

/-- The position a link holds: `HEAD[k]`, or `CHAIN` of the position yielded before. -/
def MatchIndex.follow (ix : MatchIndex) (k : Nat) : Option Nat → Option Nat
  | none => Table.get ix.head k
  | some p => Table.get ix.chain p

/-- A link set to `NULL` (R142). -/
def MatchIndex.cut (ix : MatchIndex) (k : Nat) : Option Nat → MatchIndex
  | none => { ix with head := Table.erase ix.head k }
  | some p => { ix with chain := Table.erase ix.chain p }

/-- `Walk(k)` for the position `q` (R141, R142): the positions yielded, most recent first, up to the first whose distance
exceeds the limit, whose link is set to `NULL`. `fuel` bounds the walk; a chain holds falling positions below `q`. -/
def MatchIndex.walk (ix : MatchIndex) (limit q k : Nat) : Nat → Option Nat → List Nat × MatchIndex
  | 0, _ => ([], ix)
  | fuel + 1, link =>
    match ix.follow k link with
    | none => ([], ix)
    | some j =>
      if limit < q - j then
        ([], ix.cut k link)
      else
        let (js, ix') := MatchIndex.walk ix limit q k fuel (some j)
        (j :: js, ix')

/-- The walk and the insertion the engine performs at position `q` for the pair with key `k` (R143, R145). -/
def MatchIndex.visit (ix : MatchIndex) (limit q k : Nat) : MatchIndex :=
  ((ix.walk limit q k (q + 1) none).2).insert q k

/-- The index after the ZX7 parser's position `i` (R143): the key is the pair that ends at `i`. -/
def MatchIndex.visitZx7 (ix : MatchIndex) (x : List Byte) (i : Nat) : MatchIndex :=
  if i = 0 then ix
  else
    match keyAt x (i - 1) with
    | some k => ix.visit Config.zx7MaxOffset i k
    | none => ix

/-- The index after the MegaLZ parser's position `p` (R145): the key is the pair that starts at `p`, where `p + 1 < n`
(position 0 as well, which R145's candidates need; assumption log 13). -/
def MatchIndex.visitMlz (ix : MatchIndex) (x : List Byte) (p : Nat) : MatchIndex :=
  match keyAt x p with
  | some k => ix.visit Config.mlzMaxOffset p k
  | none => ix

/-- The index after the positions `p .. p + m - 1`, which a greedy choice of length `m` covers (assumption log 13). -/
def MatchIndex.visitMlzRange (ix : MatchIndex) (x : List Byte) (p : Nat) : Nat → MatchIndex
  | 0 => ix
  | m + 1 => (ix.visitMlz x p).visitMlzRange x (p + 1) m

end Sys2Proof.Machine
end

