-- ==== Sys2Proof/Machine/Parser.lean ====
section
/-! DEFINITION. The parsers (spec/43_parser.md): ZX7 (R170, R177), ZX0 (R171 to R174), MegaLZ optimal (R180, R181) and
greedy (R190), one scan position a step, and the recovery of the operations. -/

namespace Sys2Proof.Machine

/-! ### ZX7 -/

/-- `COST[i]` of the ZX7 parse; `INF` where there is no entry (assumption log 15). -/
def zx7Cost (es : List Zx7Entry) (i : Nat) : Cost :=
  match es[i]? with
  | some e => e.cost
  | none => none

/-- The inner loop of R170: the lengths `L, L + 1, ..` of one offset, `count` of them; a cheaper copy replaces the entry. -/
def zx7Lengths (es : List Zx7Entry) (i o : Nat) : Nat → Nat → Zx7Entry → Zx7Entry
  | 0, _, e => e
  | count + 1, L, e =>
    let c := Cost.plus (zx7Cost es (i - L)) (costCopyZx7 o L)
    zx7Lengths es i o count (L + 1) (if Cost.less c e.cost then { cost := c, off := o, len := L } else e)

/-- The outer loop of R170 over the offsets, `best` being the longest length tried. -/
def zx7Try (x : List Byte) (es : List Zx7Entry) (i : Nat) : List Nat → Nat → Zx7Entry → Zx7Entry
  | [], _, e => e
  | o :: os, best, e =>
    if Config.zx7MaxLen ≤ best then e
    else
      let M := matchBackward x i o Config.zx7MaxLen
      zx7Try x es i os (max best M) (zx7Lengths es i o (M - best) (best + 1) e)

/-- The entry of position `i` (R170). The literal's cost rests on `COST[i-1]`, which an earlier step wrote. -/
def zx7Entry (x : List Byte) (es : List Zx7Entry) (i : Nat) : Zx7Entry :=
  if i = 0 then { cost := some costFirst, off := 0, len := 0 }
  else
    zx7Try x es i (zx7Offsets x i) 1
      { cost := Cost.plus (zx7Cost es (i - 1)) (some costLitZx7), off := 0, len := 0 }

/-- Path recovery of ZX7 (R177) from position `i` back, in order of discovery; `fuel` bounds it. -/
def zx7Path (x : List Byte) (es : List Zx7Entry) : Nat → Nat → List Op
  | 0, _ => []
  | fuel + 1, i =>
    if i = 0 then []
    else
      match es[i]?, x[i]? with
      | some e, some b =>
        (if e.len = 0 then Op.lit b else Op.copy e.off e.len) :: zx7Path x es fuel (i - max 1 e.len)
      | _, _ => []

/-- The operations of a stream that begins with FIRST (R177, R181). -/
def withFirst (x : List Byte) (path : List Op) : List Op :=
  match x with
  | [] => path
  | b :: _ => Op.first b :: path

/-- The ZX7 operations of the input (R177). -/
def zx7Ops (x : List Byte) (es : List Zx7Entry) : List Op :=
  withFirst x (zx7Path x es x.length (x.length - 1)).reverse

/-! ### ZX0 -/

/-- `ceil(k)` of R171. -/
def zx0Ceil (limit k : Nat) : Nat := if limit < k then limit else if k < 1 then 1 else k

/-- The node of an id that may be `NULL`. -/
def Zx0State.nodeOf (z : Zx0State) : Option Nat → Option Node
  | none => none
  | some id => z.node[id]?

def Zx0State.lit (z : Zx0State) (o : Nat) : Option Node := z.nodeOf (z.lastLit.getD o none)

def Zx0State.mat (z : Zx0State) (o : Nat) : Option Node := z.nodeOf (z.lastMatch.getD o none)

def Zx0State.opt (z : Zx0State) (i : Nat) : Option Node := z.nodeOf (z.optimal.getD i none)

/-- `new(b, i, o, c)` (R172): the arena with the node, whose id is the arena's size before. -/
def Zx0State.alloc (z : Zx0State) (nd : Node) : Zx0State := { z with node := z.node.push nd }

/-- `if OPTIMAL[index] = NULL or OPTIMAL[index].bits > b: OPTIMAL[index] <- id` (R172). -/
def Zx0State.offer (z : Zx0State) (index id : Nat) (b : Int) : Zx0State :=
  match z.opt index with
  | none => { z with optimal := z.optimal.set index (some id) }
  | some nd => if b < nd.bits then { z with optimal := z.optimal.set index (some id) } else z

/-- The state at the start of the ZX0 parse of `n` bytes (R172), with the start node. -/
def Zx0State.init (n limit : Nat) : Zx0State :=
  let W := zx0Ceil limit (n - 1)
  { node := #[{ bits := -1, index := -1, offset := 1, chain := none }]
    lastLit := List.replicate (W + 1) none
    lastMatch := (List.replicate (W + 1) none).set 1 (some 0)
    mlen := List.replicate (W + 1) 0
    optimal := List.replicate n none
    bestLen := if 2 < n then (List.replicate (n + 1) 0).set 2 2 else List.replicate (n + 1) 0 }

/-- The last-offset copy of R172 at `index` for offset `o`. -/
def Zx0State.tryRep (z : Zx0State) (index o : Nat) : Zx0State :=
  match z.lit o with
  | none => z
  | some nd =>
    let L := (index - nd.index).toNat
    let b : Int := nd.bits + costRepZx0 L
    let id := z.node.size
    ({ z.alloc { bits := b, index := index, offset := o, chain := z.lastLit.getD o none } with
      lastMatch := z.lastMatch.set o (some id) }).offer index id b

/-- The literal run of R172 at `index` for offset `o`. -/
def Zx0State.tryLit (z : Zx0State) (index o : Nat) : Zx0State :=
  match z.mat o with
  | none => z
  | some nd =>
    let L := (index - nd.index).toNat
    let b : Int := nd.bits + costLitZx0 L
    let id := z.node.size
    ({ z.alloc { bits := b, index := index, offset := 0, chain := z.lastMatch.getD o none } with
      lastLit := z.lastLit.set o (some id) }).offer index id b

/-- `OPTIMAL[index - L].bits + eg(L - 1)` of R172; none where there is no node. -/
def Zx0State.tailBits (z : Zx0State) (index L : Nat) : Option Int :=
  (z.opt (index - L)).map fun nd => nd.bits + eg (L - 1)

/-- The `repeat` loop of R172, `count` rounds: `BEST_LEN[bls + 1 ..]` brought up to date. -/
def Zx0State.relax (z : Zx0State) (index : Nat) : Nat → Nat → Option Int → Zx0State
  | 0, _, _ => z
  | count + 1, bls, b =>
    let b2 := z.tailBits index (bls + 1)
    let better : Bool :=
      match b2, b with
      | some v2, some v => v2 ≤ v
      | some _, none => true
      | none, _ => false
    let best := if better then bls + 1 else z.bestLen.getD bls 0
    ({ z with bestLen := z.bestLen.set (bls + 1) best }).relax index count (bls + 1)
      (if better then b2 else b)

/-- The new-offset copy of R172 at `index` for offset `o`, of length `L`. A longer code than the mode's range (R156) has no
cost and makes no node. -/
def Zx0State.tryNew (z : Zx0State) (limit index o L : Nat) : Zx0State :=
  match z.opt (index - L), costNewZx0 limit o L with
  | some nd, some c =>
    let b : Int := nd.bits + c
    let replace : Bool :=
      match z.mat o with
      | none => true
      | some m => m.index != (index : Int) || b < m.bits
    if replace then
      let id := z.node.size
      ({ z.alloc { bits := b, index := index, offset := o, chain := z.optimal.getD (index - L) none } with
        lastMatch := z.lastMatch.set o (some id) }).offer index id b
    else
      z
  | _, _ => z

/-- One offset of the ZX0 scan at `index` (R172); the second component is `bls`. -/
def Zx0State.tryOffset (x : List Byte) (limit index : Nat) (zb : Zx0State × Nat) (o : Nat) : Zx0State × Nat :=
  let (z, bls) := zb
  if index ≠ 0 ∧ o ≤ index ∧ x[index]? = x[index - o]? then
    let z := z.tryRep index o
    let m := z.mlen.getD o 0 + 1
    let z := { z with mlen := z.mlen.set o m }
    if 1 < m then
      let z := if bls < m then
          z.relax index (m - bls) bls (z.tailBits index (z.bestLen.getD bls 0))
        else z
      (z.tryNew limit index o (z.bestLen.getD m 0), max bls m)
    else
      (z, bls)
  else
    (({ z with mlen := z.mlen.set o 0 }).tryLit index o, bls)

/-- One position of the ZX0 scan (R172): every offset `1 .. ceil(index)`, ascending. -/
def Zx0State.scanAt (z : Zx0State) (x : List Byte) (limit index : Nat) : Zx0State :=
  ((upTo (zx0Ceil limit index)).foldl (Zx0State.tryOffset x limit index) (z, 2)).1

/-- The chain of R174 from a node id back, last node first; `fuel` bounds it. -/
def Zx0State.chainFrom (z : Zx0State) : Nat → Option Nat → List Node
  | 0, _ => []
  | fuel + 1, id =>
    match z.nodeOf id with
    | none => []
    | some nd => nd :: z.chainFrom fuel nd.chain

/-- The operations of consecutive nodes of a chain (R174). -/
def zx0Between (x : List Byte) : List Node → List Op
  | a :: b :: rest =>
    let L := (b.index - a.index).toNat
    (if b.offset = 0 then Op.run ((x.drop (a.index + 1).toNat).take L) else Op.copy b.offset L) ::
      zx0Between x (b :: rest)
  | _ => []

/-- The ZX0 operations of the input (R174). -/
def zx0Ops (x : List Byte) (z : Zx0State) : List Op :=
  zx0Between x (z.chainFrom (z.node.size + 1) (z.optimal.getD (x.length - 1) none)).reverse

/-! ### MegaLZ -/

/-- `COST[p]` of the MegaLZ parse; `INF` where there is no entry. -/
def mlzCost (es : List MlzEntry) (p : Nat) : Cost :=
  match es[p]? with
  | some e => e.cost
  | none => none

/-- The state at the start of the MegaLZ parse of `n` bytes (R180). -/
def mlzInit (n : Nat) : List MlzEntry :=
  (List.range (n + 1)).map fun p =>
    { cost := if p = 0 then some 0 else if p = 1 then some costFirst else none, pred := none }

/-- One transition of R180: it replaces the entry of `p + L` only if strictly cheaper. -/
def mlzRelax (es : List MlzEntry) (p o L : Nat) (bits : Cost) : List MlzEntry :=
  let c := Cost.plus (mlzCost es p) bits
  if Cost.less c (mlzCost es (p + L)) then
    es.set (p + L) { cost := c, pred := some (p, o, L) }
  else
    es

/-- One position of the optimal scan (R180): the copies in order, then the literal. -/
def mlzScanAt (x : List Byte) (es : List MlzEntry) (p : Nat) : List MlzEntry :=
  mlzRelax ((mlzCandidates x p).foldl (fun es c => mlzRelax es p c.1 c.2 (costCopyMlz c.1 c.2)) es)
    p 0 1 (some costLitMlz)

/-- The operation at position `p` of a MegaLZ parse: a literal `x[p]` for offset 0, else a copy (R181, R190). -/
def literalOrCopy (x : List Byte) (p o L : Nat) : List Op :=
  if o = 0 then (x[p]?.map Op.lit).toList else [Op.copy o L]

/-- Path recovery (R181) from the prefix of `q` bytes back, in order of discovery; `fuel` bounds it. -/
def mlzPath (x : List Byte) (es : List MlzEntry) : Nat → Nat → List Op
  | 0, _ => []
  | fuel + 1, q =>
    if q ≤ 1 then []
    else
      match (es[q]?).bind MlzEntry.pred with
      | some (p, o, L) => literalOrCopy x p o L ++ mlzPath x es fuel p
      | none => []

/-- The operations of the optimal parse (R181). -/
def mlzOps (x : List Byte) (es : List MlzEntry) : List Op :=
  withFirst x (mlzPath x es x.length x.length).reverse

/-- The choice under way in R190: `(bo, bL, bb)` and its gain `g`. -/
structure GreedyBest where
  o : Nat
  L : Nat
  bits : Nat
  gain : Int
deriving DecidableEq, Repr

/-- One candidate of R190: it replaces the choice only if its gain is strictly greater. -/
def greedyBetter (best : GreedyBest) (c : Nat × Nat) : GreedyBest :=
  match costCopyMlz c.1 c.2 with
  | some b =>
    if best.gain < 8 * (c.2 : Int) - b then
      { o := c.1, L := c.2, bits := b, gain := 8 * (c.2 : Int) - b }
    else best
  | none => best

/-- The choice of R190 at position `p`: the literal, or the first candidate of the greatest gain. -/
def greedyChoice (x : List Byte) (p : Nat) : GreedyBest :=
  (mlzCandidates x p).foldl greedyBetter { o := 0, L := 1, bits := costLitMlz, gain := 8 - costLitMlz }

end Sys2Proof.Machine
end

