-- ==== Sys2Proof/Machine/Packer.lean ====
section
/-! DEFINITION. The packer (spec/44_packer.md): its primitives (R200 to R204), the range check (R216) and the token each
operation of a parse is emitted as (R205, R207, R213). -/

namespace Sys2Proof.Machine

/-- `WriteByte(v)` (R200). -/
def State.writeByte (s : State) (v : Byte) : Except ErrCode State :=
  if obufSize s.params ≤ s.outIdx then .error .alloc else .ok { s with obuf := s.obuf ++ [v] }

/-- The last two lines of `WriteBit` (R201): the bit goes to the current position of the open bit-group byte. -/
def State.putBit (s : State) (v : Bool) : State :=
  { s with
    obuf := if v then orByte s.obuf s.pk.bitIndex s.pk.bitMask else s.obuf
    pk := { s.pk with bitMask := s.pk.bitMask >>> 1 } }

/-- `WriteBit(v)` (R201). -/
def State.writeBit (s : State) (v : Bool) : Except ErrCode State :=
  if s.pk.backtrack then
    .ok { s with
      obuf := if v then orByte s.obuf (s.outIdx - 1) 0x01 else s.obuf
      pk := { s.pk with backtrack := false } }
  else if s.pk.bitMask = 0 then
    match ({ s with pk := { s.pk with bitMask := 0x80, bitIndex := s.outIdx } } : State).writeByte 0x00 with
    | .error e => .error e
    | .ok t => .ok (t.putBit v)
  else
    .ok (s.putBit v)

/-- A primitive call of the packer. -/
inductive Call where
  | bit (v : Bool)
  | byte (v : Byte)
  /-- `SetBacktrack()` (R202). -/
  | backtrack
deriving DecidableEq, Repr

/-- One primitive call. -/
def State.call (s : State) : Call → Except ErrCode State
  | .bit v => s.writeBit v
  | .byte v => s.writeByte v
  | .backtrack => .ok { s with pk := { s.pk with backtrack := true } }

/-- Primitive calls in order, up to the first that raises an error. -/
def State.calls (s : State) : List Call → Except ErrCode State
  | [] => .ok s
  | c :: cs =>
    match s.call c with
    | .error e => .error e
    | .ok t => State.calls t cs

/-- `WriteBit` of each bit in order: `WriteGamma` and `WriteIGamma` (R204) write a code's bits so. -/
def bitCalls (bs : List Bool) : List Call := bs.map .bit

/-- `WriteByte` of each byte in order. -/
def byteCalls (bs : List Byte) : List Call := bs.map .byte

/-- `WriteGamma(v)` (R204). -/
def writeGamma (v : Nat) : List Call := bitCalls (gammaBits v)

/-- `WriteIGamma(v, pol, inv)` (R204). -/
def writeIGamma (pol : Polarity) (inv : Bool) (v : Nat) : List Call := bitCalls (igammaBits pol inv v)

/-- `WriteOff(o)` (R214), `o ≤ 256`. -/
def writeOffShort (o : Nat) : List Call :=
  [.bit false, .byte (BitVec.ofNat 8 (negMod o 256))]

/-- `WriteOff(o)` (R214), `o > 256`. -/
def writeOffLong (o : Nat) : List Call :=
  let s := negMod (o - 256) 4096
  bitCalls (true :: bitsDown (s >>> 8) 4) ++ [.byte (BitVec.ofNat 8 s)]

/-- Emission of a token: its calls, then what they leave of the packer's other state. -/
def State.emitThen (s : State) (cs : List Call) (post : State → State) : State :=
  settle s
    (match s.calls cs with
    | .error e => .error e
    | .ok t => .ok (post t))

/-- Emission of a copy from a new offset: the range check of R216 before anything is written. -/
def State.emitCopy (s : State) (o L : Nat) (cs : List Call) (post : State → State) : State :=
  if copyInRange s.latch.mode o L then s.emitThen cs post else s.raise .limit

/-- `PREV_KIND <- k`. -/
def State.setPrevKind (s : State) (k : PrevKind) : State :=
  { s with pk := { s.pk with prevKind := k } }

/-- `LAST_OFFSET <- o` of the packer. -/
def State.setLastOffset (s : State) (o : Nat) : State :=
  { s with pk := { s.pk with lastOffset := o } }

/-- The packer at the start of EMIT (R203). -/
def Packer.start (v : Variant) : Packer where
  bitMask := 0
  bitIndex := 0
  backtrack := v == .zx0
  lastOffset := Config.zx0InitialOffset
  prevKind := .none

/-- The ZX7 token of an operation (R84, R205); an operation the format has no token for has none (R263). -/
def tokenZx7 : Op → Option Instr
  | .first b => some (.zx7First b)
  | .lit b => some (.zx7Lit b)
  | .run _ => none
  | .copy o L => if o ≤ 128 then some (.zx7CpyS o L) else some (.zx7CpyL o L)

/-- The ZX0 token of an operation (R86, R207): a copy whose offset is `LAST_OFFSET` is a last-offset copy (R210). -/
def tokenZx0 (pk : Packer) : Op → Option Instr
  | .first _ => none
  | .lit _ => none
  | .run bs =>
    if bs = [] then none else if pk.prevKind = .none then some (.zx0Lit0 bs) else some (.zx0Lit bs)
  | .copy o L => if o = pk.lastOffset then some (.zx0Rep L) else some (.zx0Cpy o L)

/-- The MegaLZ token of an operation (R89, R213). -/
def tokenMlz : Op → Option Instr
  | .first b => some (.mlzFirst b)
  | .lit b => some (.mlzLit b)
  | .run _ => none
  | .copy o L =>
    if L = 0 then none
    else if L = 1 then some (.mlzCpy1 o)
    else if L = 2 then some (.mlzCpy2 o)
    else if L = 3 then some (if o ≤ Config.mlzShortMaxOffset then .mlzCpy3S o else .mlzCpy3L o)
    else some (if o ≤ Config.mlzShortMaxOffset then .mlzCpyNS o L else .mlzCpyNL o L)

/-- The next token the packer emits: that of the next operation, and END after the last (R205, R207, R213). -/
def State.nextToken (s : State) : Option Instr :=
  match s.variant, s.ops with
  | .zx7, [] => some .zx7End
  | .zx0, [] => some .zx0End
  | .megalz, [] => some .mlzEnd
  | .zx7, op :: _ => tokenZx7 op
  | .zx0, op :: _ => tokenZx0 s.pk op
  | .megalz, op :: _ => tokenMlz op

/-- The operation cursor moved past the next operation. -/
def State.popOp (s : State) : State := { s with ops := s.ops.tail }

end Sys2Proof.Machine
end

