-- ==== Sys2Proof/Machine/MegaLz.lean ====
section
/-! DEFINITION. The MegaLZ tokens: their effect on the unpacker (spec/45_unpacker.md R239) and on the packer
(spec/44_packer.md R213, R214). -/

namespace Sys2Proof.Machine

/-- FIRST b. Unpacking: `Output(b)`, then ReadToken. Emitting: `WriteByte(b)`. -/
def execMlzFirst (b : Byte) (s : State) : Host.Outcome State Fault Refusal :=
  s.runToken .megalz
    (fun s => settle s (State.thenGoto .readToken (s.output b)))
    (fun s => s.emitThen [.byte b] id)

/-- LIT b. Unpacking: `Output(b)`. Emitting: `WriteBit(1); WriteByte(b)`. -/
def execMlzLit (b : Byte) (s : State) : Host.Outcome State Fault Refusal :=
  s.runToken .megalz
    (fun s => settle s (s.output b))
    (fun s => s.emitThen [.bit true, .byte b] id)

/-- CPY1 o. Unpacking: `Copy(o, 1)`. Emitting: `000` and the three bits of `(-o) mod 8`. -/
def execMlzCpy1 (o : Nat) (s : State) : Host.Outcome State Fault Refusal :=
  s.runToken .megalz
    (fun s => settle s (s.copy o 1))
    (fun s => s.emitCopy o 1 (bitCalls ([false, false, false] ++ bitsDown (negMod o 8) 3)) id)

/-- CPY2 o. Unpacking: `Copy(o, 2)`. Emitting: `001` and the byte `(-o) mod 256`. -/
def execMlzCpy2 (o : Nat) (s : State) : Host.Outcome State Fault Refusal :=
  s.runToken .megalz
    (fun s => settle s (s.copy o 2))
    (fun s => s.emitCopy o 2
      (bitCalls [false, false, true] ++ [.byte (BitVec.ofNat 8 (negMod o 256))]) id)

/-- CPY3 o with o ≤ 256. Unpacking: `Copy(o, 3)`. Emitting: `010`, `WriteOff(o)`. -/
def execMlzCpy3S (o : Nat) (s : State) : Host.Outcome State Fault Refusal :=
  s.runToken .megalz
    (fun s => settle s (s.copy o 3))
    (fun s => s.emitCopy o 3 (bitCalls [false, true, false] ++ writeOffShort o) id)

/-- CPY3 o with o ≥ 257. Unpacking: `Copy(o, 3)`. Emitting: `010`, `WriteOff(o)`. -/
def execMlzCpy3L (o : Nat) (s : State) : Host.Outcome State Fault Refusal :=
  s.runToken .megalz
    (fun s => settle s (s.copy o 3))
    (fun s => s.emitCopy o 3 (bitCalls [false, true, false] ++ writeOffLong o) id)

/-- CPYN o, L with o ≤ 256. Unpacking: `Copy(o, L)`. Emitting: `011`, `WriteGamma(L - 3)`, `WriteOff(o)`. -/
def execMlzCpyNS (o L : Nat) (s : State) : Host.Outcome State Fault Refusal :=
  s.runToken .megalz
    (fun s => settle s (s.copy o L))
    (fun s => s.emitCopy o L
      (bitCalls [false, true, true] ++ writeGamma (L - 3) ++ writeOffShort o) id)

/-- CPYN o, L with o ≥ 257. Unpacking: `Copy(o, L)`. Emitting: `011`, `WriteGamma(L - 3)`, `WriteOff(o)`. -/
def execMlzCpyNL (o L : Nat) (s : State) : Host.Outcome State Fault Refusal :=
  s.runToken .megalz
    (fun s => settle s (s.copy o L))
    (fun s => s.emitCopy o L
      (bitCalls [false, true, true] ++ writeGamma (L - 3) ++ writeOffLong o) id)

/-- END. Unpacking: `DSTATE <- Done` (R245). Emitting: `011` and eight 0; EMIT is over. -/
def execMlzEnd (s : State) : Host.Outcome State Fault Refusal :=
  s.runToken .megalz
    (fun s => s.unpackEnd)
    (fun s => s.emitThen (bitCalls ([false, true, true] ++ List.replicate 8 false)) State.afterBody)

end Sys2Proof.Machine
end

