-- ==== Sys2Proof/Machine/Zx0.lean ====
section
/-! DEFINITION. The ZX0 tokens: their effect on the unpacker (spec/45_unpacker.md R238) and on the packer
(spec/44_packer.md R207 to R211). -/

namespace Sys2Proof.Machine

/-- LIT0, the first token. Unpacking: the run's bytes to the output, then the indicator after a run. Emitting:
`WriteBit(0)`, which is the bit R203 drops, `WriteIGamma(L)`, the bytes; `PREV_KIND <- LIT`. -/
def execZx0Lit0 (bs : List Byte) (s : State) : Host.Outcome State Fault Refusal :=
  s.runToken .zx0
    (fun s => settle s (State.zx0Then true (s.outputAll bs)))
    (fun s => s.emitThen (.bit false :: writeIGamma s.fmt.pol false bs.length ++ byteCalls bs)
      (State.setPrevKind · .lit))

/-- LIT. Unpacking: the run's bytes to the output, then the indicator after a run. Emitting: `WriteBit(0);
WriteIGamma(L)`, the bytes; `PREV_KIND <- LIT`. -/
def execZx0Lit (bs : List Byte) (s : State) : Host.Outcome State Fault Refusal :=
  s.runToken .zx0
    (fun s => settle s (State.zx0Then true (s.outputAll bs)))
    (fun s => s.emitThen (.bit false :: writeIGamma s.fmt.pol false bs.length ++ byteCalls bs)
      (State.setPrevKind · .lit))

/-- REP L. Unpacking: `Copy(LAST_OFFSET, L)`, then the indicator after a copy. Emitting (R210): only after a literal run,
`WriteBit(0); WriteIGamma(L); PREV_KIND <- COPY`; else the copy cannot be encoded and the command ends with `LIMIT`. -/
def execZx0Rep (L : Nat) (s : State) : Host.Outcome State Fault Refusal :=
  s.runToken .zx0
    (fun s => settle s (State.zx0Then false (s.copy s.up.lastOffset L)))
    (fun s =>
      if s.pk.prevKind = .lit ∧ 1 ≤ L then
        s.emitThen (.bit false :: writeIGamma s.fmt.pol false L) (State.setPrevKind · .copy)
      else
        s.raise .limit)

/-- The unpacker's `LAST_OFFSET <- o` (R238). -/
def State.setUnpackOffset (s : State) (o : Nat) : State :=
  { s with up := { s.up with lastOffset := o } }

/-- CPY o, L. Unpacking: `LAST_OFFSET <- o; Copy(o, L)`, then the indicator after a copy. Emitting (R209): `WriteBit(1)`,
the MSB, the LSB byte, `SetBacktrack`, the length's code, whose first bit lands in the LSB byte; `LAST_OFFSET <- o;
PREV_KIND <- COPY`. -/
def execZx0Cpy (o L : Nat) (s : State) : Host.Outcome State Fault Refusal :=
  s.runToken .zx0
    (fun s => settle s (State.zx0Then false ((s.setUnpackOffset o).copy o L)))
    (fun s => s.emitCopy o L
      (.bit true :: writeIGamma s.fmt.pol s.fmt.inv (zx0Msb o) ++ [.byte (zx0Lsb s.fmt.pol o), .backtrack] ++
        writeIGamma s.fmt.pol false (L - 1))
      (fun t => (t.setLastOffset o).setPrevKind .copy))

/-- END. Unpacking: `DSTATE <- Done` (R245). Emitting (R211): `WriteBit(1); WriteIGamma(256, pol, inv)`; EMIT is over. -/
def execZx0End (s : State) : Host.Outcome State Fault Refusal :=
  s.runToken .zx0
    (fun s => s.unpackEnd)
    (fun s => s.emitThen (.bit true :: writeIGamma s.fmt.pol s.fmt.inv 256) State.afterBody)

end Sys2Proof.Machine
end

