-- ==== Sys2Proof/Machine/Zx7.lean ====
section
/-! DEFINITION. The ZX7 tokens: their effect on the unpacker (spec/45_unpacker.md R237) and on the packer
(spec/44_packer.md R205). -/

namespace Sys2Proof.Machine

/-- FIRST b. Unpacking: `Output(b)`, then ReadToken. Emitting: `WriteByte(b)`. -/
def execZx7First (b : Byte) (s : State) : Host.Outcome State Fault Refusal :=
  s.runToken .zx7
    (fun s => settle s (State.thenGoto .readToken (s.output b)))
    (fun s => s.emitThen [.byte b] id)

/-- LIT b. Unpacking: `Output(b)`. Emitting: `WriteBit(0); WriteByte(b)`. -/
def execZx7Lit (b : Byte) (s : State) : Host.Outcome State Fault Refusal :=
  s.runToken .zx7
    (fun s => settle s (s.output b))
    (fun s => s.emitThen [.bit false, .byte b] id)

/-- CPY o, L with o ≤ 128. Unpacking: `Copy(o, L)`. Emitting: `WriteBit(1); WriteGamma(L - 1); WriteByte(o - 1)`. -/
def execZx7CpyS (o L : Nat) (s : State) : Host.Outcome State Fault Refusal :=
  s.runToken .zx7
    (fun s => settle s (s.copy o L))
    (fun s => s.emitCopy o L
      (.bit true :: writeGamma (L - 1) ++ [.byte (BitVec.ofNat 8 (o - 1))]) id)

/-- CPY o, L with o ≥ 129. Unpacking: `Copy(o, L)`. Emitting, with `d = o - 129`: `WriteBit(1); WriteGamma(L - 1);
WriteByte(0x80 OR (d AND 0x7F))`, then bits 10 to 7 of d. -/
def execZx7CpyL (o L : Nat) (s : State) : Host.Outcome State Fault Refusal :=
  s.runToken .zx7
    (fun s => settle s (s.copy o L))
    (fun s => s.emitCopy o L
      (.bit true :: writeGamma (L - 1) ++
        [.byte (0x80#8 ||| BitVec.ofNat 8 ((o - 129) &&& 0x7F))] ++ bitCalls (bitsDown ((o - 129) >>> 7) 4)) id)

/-- END. Unpacking: `DSTATE <- Done` (R245). Emitting: a 1, sixteen 0 and a 1; EMIT is over. -/
def execZx7End (s : State) : Host.Outcome State Fault Refusal :=
  s.runToken .zx7
    (fun s => s.unpackEnd)
    (fun s => s.emitThen (bitCalls (true :: List.replicate 16 false ++ [true])) State.afterBody)

end Sys2Proof.Machine
end

