-- ==== Sys2Proof/Machine/Dispatch.lean ====
section
/-! DEFINITION. One arm per instruction (spec/opcode_table.json). -/

namespace Sys2Proof.Machine

def exec (i : Instr) (s : State) : Host.Outcome State Fault Refusal :=
  match i with
  | .zx7First b => Sys2Proof.Machine.execZx7First b s
  | .zx7Lit b => Sys2Proof.Machine.execZx7Lit b s
  | .zx7CpyS o L => Sys2Proof.Machine.execZx7CpyS o L s
  | .zx7CpyL o L => Sys2Proof.Machine.execZx7CpyL o L s
  | .zx7End => Sys2Proof.Machine.execZx7End s
  | .zx0Lit0 bs => Sys2Proof.Machine.execZx0Lit0 bs s
  | .zx0Lit bs => Sys2Proof.Machine.execZx0Lit bs s
  | .zx0Rep L => Sys2Proof.Machine.execZx0Rep L s
  | .zx0Cpy o L => Sys2Proof.Machine.execZx0Cpy o L s
  | .zx0End => Sys2Proof.Machine.execZx0End s
  | .mlzFirst b => Sys2Proof.Machine.execMlzFirst b s
  | .mlzLit b => Sys2Proof.Machine.execMlzLit b s
  | .mlzCpy1 o => Sys2Proof.Machine.execMlzCpy1 o s
  | .mlzCpy2 o => Sys2Proof.Machine.execMlzCpy2 o s
  | .mlzCpy3S o => Sys2Proof.Machine.execMlzCpy3S o s
  | .mlzCpy3L o => Sys2Proof.Machine.execMlzCpy3L o s
  | .mlzCpyNS o L => Sys2Proof.Machine.execMlzCpyNS o L s
  | .mlzCpyNL o L => Sys2Proof.Machine.execMlzCpyNL o L s
  | .mlzEnd => Sys2Proof.Machine.execMlzEnd s
  | .compress mode => Sys2Proof.Machine.execCompress mode s
  | .decompress mode => Sys2Proof.Machine.execDecompress mode s

end Sys2Proof.Machine
end

