-- ==== Sys2Proof/Machine/Engine.lean ====
section
/-! DEFINITION. The engine's phases (spec/40_host_commands.md R122, R123, R125 to R128) and what one input does to the
machine. Sys2Proof/Machine/Step.lean only calls `stepInput` and `stepEngine`. -/

namespace Sys2Proof.Machine

/-! ### CHECK -/

/-- The first check of R125 that fails, in its order. -/
def State.checkError (s : State) : Option ErrCode :=
  if s.latch.cmd ≠ 1 ∧ s.latch.cmd ≠ 2 then some .illegal
  else if 7 < s.latch.mode.toNat then some .illegal
  else if buffersInRange s.latch = false then some .illegal
  else if buffersOverlap s.latch then some .illegal
  else if s.latch.cmd = 1 ∧ s.params.maxInputLen < s.latch.len.toNat then some .alloc
  else none

/-- Every structure the command will use, created fresh (R51, R141, R170, R172, R180, R190, R203, R233). HIST needs no
initial value (R233). -/
def State.fresh (s : State) : State :=
  { s with
    index := { head := [], chain := [] }
    scan := 0
    zx7 := []
    zx0 := if s.variant = .zx0 ∧ s.compressing = true then
        Zx0State.init s.latch.len.toNat (offsetLimit s.latch.mode)
      else Zx0State.empty
    mlz := if s.variant = .megalz ∧ s.compressing = true then mlzInit s.latch.len.toNat else []
    total := 0
    ops := []
    obuf := []
    pk := Packer.start s.variant
    up :=
      { cur := Cursor.start
        lastOffset := Config.zx0InitialOffset
        dstate := DState.initial s.variant } }

/-- The phase after CHECK, REVERSE-IN being done or not needed (R126). -/
def State.bodyPhase (s : State) : Phase := if s.compressing then .parse else .unpack

/-- CHECK (R125): the first failing check ends the command; an empty input or stream is complete at once (R122, R123,
R128); else REVERSE-IN in a reversed mode, and the command's body. -/
def State.checkStep (s : State) : State :=
  match s.checkError with
  | some e => s.raise e
  | none =>
    { s.fresh with
      phase :=
        if s.latch.len = 0 then .complete
        else if s.reversed then .reverseIn
        else s.bodyPhase }

/-- REVERSE-IN (R122, R123): the image reversed. -/
def State.reverseInStep (s : State) : State :=
  { s with image := s.image.reverse, phase := s.bodyPhase }

/-! ### PARSE -/

/-- PARSE is over: the operations are handed to the packer, which starts fresh (R203). -/
def State.endParse (s : State) (ops : List Op) : State :=
  { s with ops := ops, obuf := [], pk := Packer.start s.variant, phase := .emit }

/-- One position of the ZX7 parse (R170), or its recovery (R177). -/
def State.parseZx7 (s : State) : State :=
  if s.scan < s.image.length then
    { s with
      zx7 := s.zx7 ++ [zx7Entry s.image s.zx7 s.scan]
      index := s.index.visitZx7 s.image s.scan
      scan := s.scan + 1 }
  else
    s.endParse (zx7Ops s.image s.zx7)

/-- One position of the ZX0 parse (R172), with its `LIMIT`, or its recovery (R174). -/
def State.parseZx0 (s : State) : State :=
  if s.scan < s.image.length then
    let z := s.zx0.scanAt s.image (offsetLimit s.latch.mode) s.scan
    if z.optimal.getD s.scan none = none then
      s.raise .limit
    else
      { s with zx0 := z, scan := s.scan + 1 }
  else
    s.endParse (zx0Ops s.image s.zx0)

/-- One position of the MegaLZ optimal parse (R180), or its recovery (R181). Position 0 only enters the index. -/
def State.parseMlzOptimal (s : State) : State :=
  if s.scan < s.image.length then
    { s with
      mlz := if s.scan = 0 then s.mlz else mlzScanAt s.image s.mlz s.scan
      index := s.index.visitMlz s.image s.scan
      scan := s.scan + 1 }
  else
    s.endParse (mlzOps s.image s.mlz)

/-- One choice of the MegaLZ greedy parse (R190); position 0 is FIRST, with its cost of 8. -/
def State.parseMlzGreedy (s : State) : State :=
  if s.scan < s.image.length then
    if s.scan = 0 then
      { s with
        ops := withFirst s.image []
        total := costFirst
        index := s.index.visitMlz s.image 0
        scan := 1 }
    else
      let g := greedyChoice s.image s.scan
      { s with
        ops := s.ops ++ literalOrCopy s.image s.scan g.o g.L
        total := s.total + g.bits
        index := s.index.visitMlzRange s.image s.scan g.L
        scan := s.scan + g.L }
  else
    s.endParse s.ops

/-- One step of PARSE (R126), by the mode's parser (R121). -/
def State.parseStep (s : State) : State :=
  match s.variant with
  | .zx7 => s.parseZx7
  | .zx0 => s.parseZx0
  | .megalz => if s.latch.mode = 6 then s.parseMlzOptimal else s.parseMlzGreedy

/-! ### EMIT and UNPACK: one token a step -/

/-- EMIT (R122): the next token of the operations; an operation the format has no token for is an internal invariant
violation (R263). -/
def State.emitStep (s : State) : Host.Outcome State Fault Refusal :=
  match s.nextToken with
  | some i => exec i s.popOp
  | none => .next (s.raise .limit)

/-- What a stream rejected by the decoder leads to (R246): `INVALID`. The bytes of a literal run that stood before the end
of the stream have been output by then, so the output's capacity may have failed first (R238, R267; assumption log 12). -/
def State.rejectStream (s : State) : DecodeError → State
  | .prematureRun bs =>
    settle s
      (match s.outputAll bs with
      | .error e => .error e
      | .ok _ => .error .invalid)
  | _ => s.raise .invalid

/-- UNPACK (R123): the token at the cursor, in the state `DSTATE` (R236). -/
def State.unpackStep (s : State) : Host.Outcome State Fault Refusal :=
  match decode s.fmt s.variant s.up.dstate s.image s.up.cur with
  | .ok (i, c) => exec i (s.withCursor c)
  | .error e => .next (s.rejectStream e)

/-! ### The last phases -/

/-- REVERSE-OUT (R122, R123, R218): OBUF byte-reversed. -/
def State.reverseOutStep (s : State) : State :=
  { s with obuf := s.obuf.reverse, phase := if s.compressing then .capacity else .writeback }

/-- CAPACITY (R122): a COMPRESS result longer than `L_CAP` is `ALLOC`. -/
def State.capacityStep (s : State) : State :=
  if s.latch.cap.toNat < s.outIdx then s.raise .alloc else { s with phase := .writeback }

/-- WRITEBACK (R127): `MemWrite(L_DST, R, OBUF[0..R))`; then COMPLETE. What a host load sees of it while it is under way is
`State.earlyByte`'s, and what a reset leaves of it is `State.assertRst`'s. Where the host broke its duty, the output bytes are
free values (R295, U5; assumption log 9). -/
def State.writebackStep (s : State) : State :=
  if s.dutyBroken then
    { s with mem := s.scrambledMem, freeCtr := s.freeCtr + s.outputBytes, phase := .complete }
  else
    { s with mem := s.mem.writeBytes s.latch.dst.toNat s.obuf, phase := .complete }

/-- COMPLETE (R127): in one step, `RESULT_LEN` the bytes written, `CONSUMED_LEN` `L_LEN` for COMPRESS and `IN_IDX` for
DECOMPRESS (R245), `COST_BITS` the packer's count for COMPRESS (R217) and 0 for DECOMPRESS. -/
def State.completeStep (s : State) : State :=
  s.finish .none (BitVec.ofNat 32 s.outIdx)
    (if s.compressing then s.latch.len else BitVec.ofNat 32 s.up.cur.inIdx)
    (if s.compressing then BitVec.ofNat 32 s.costBits else 0)

/-- One step of the engine. It has nothing to do when no command runs. -/
def stepEngine (s : State) : Host.Outcome State Fault Refusal :=
  match s.phase with
  | .idle => .next s
  | .check => .next s.checkStep
  | .reverseIn => .next s.reverseInStep
  | .parse => .next s.parseStep
  | .emit => s.emitStep
  | .reverseOut => .next s.reverseOutStep
  | .capacity => .next s.capacityStep
  | .unpack => s.unpackStep
  | .writeback => .next s.writebackStep
  | .complete => .next s.completeStep

/-! ### Inputs -/

/-- A 32-bit store to CTRL (R34, R124): with START, the command it decodes to; a reserved `CMD` starts a command too, which
CHECK ends with `ILLEGAL` (R97); without START, `CMD` and `MODE` are written. -/
def storeCtrl (d : Word) (s : State) : Host.Outcome State Fault Refusal :=
  match decodeCtrl d with
  | some i => exec i s
  | none =>
    if d.getLsbD 0 ∧ s.csr.busy = false then
      .next (s.start (d.extractLsb' 4 2) (d.extractLsb' 8 4))
    else
      .next (s.writeReg 0x04 d)

/-- A host store: to a register, where only an aligned 32-bit access is defined (R64), or to host memory. -/
def stepStore (w : Width) (a : Word) (d : BitVec 64) (s : State) : Host.Outcome State Fault Refusal :=
  if s.inWindow a then
    if definedAccess w (s.offset a) then
      if s.offset a = 0x04 then storeCtrl (d.truncate 32) s
      else .next (s.writeReg (s.offset a) (d.truncate 32))
    else
      .next s
  else
    .next (s.hostStore w a d)

/-- What one input does. -/
def stepInput (i : Input) (s : State) : Host.Outcome State Fault Refusal :=
  match i with
  | .engine => stepEngine s
  | .store w a d => stepStore w a d s
  | .load w a => .next (s.hostLoad w a)
  | .rst => .next s.assertRst

/-! ### Placing an instruction -/

/-- The machine with no command running, so that its next START is not ignored. -/
def State.withIdle (s : State) : State :=
  { s with csr := { s.csr with busy := false }, phase := .idle }

/-- A store of `w` to CTRL as the next input. -/
def State.placeCtrl (s : State) (w : Word) : State :=
  { s.withIdle with
    inputs := .store .w32 (s.params.csrBase + 4) (w.zeroExtend 64) :: s.inputs }

/-- A MegaLZ DECOMPRESS in its UNPACK phase, at a token that stands at the beginning of the stream `x`, with the engine to
move next. -/
def State.placeToken (s : State) (x : List Byte) : State :=
  { s with
    csr := { s.csr with busy := true }
    latch := { s.latch with cmd := 2, mode := 6 }
    phase := .unpack
    image := x
    up := { s.up with cur := Cursor.start, dstate := .readToken }
    inputs := .engine :: s.inputs }

/-- The instruction of a table word placed where the next step takes it from (assumption logs 4, 21). -/
def State.placeTableWord (s : State) (nbits w : Nat) : State :=
  if isCtrlRow nbits then s.placeCtrl (BitVec.ofNat 32 w) else s.placeToken (tableStream nbits w)

end Sys2Proof.Machine
end

