-- ==== Sys2Proof/Machine/Step.lean ====
section
/-! DEFINITION. One step of the machine: the next input if there is one, else the engine's. -/

namespace Sys2Proof.Machine

/-- One step (R30, R300): the first waiting input is taken; with none waiting, the engine moves. -/
def step (s : State) : Host.Outcome State Fault Refusal :=
  match s.inputs with
  | [] => stepEngine s
  | i :: rest => stepInput i { s with inputs := rest }

/-- `s` with the instruction of a word of spec/opcode_table.json placed so that the very next step runs it: a command as a
store to CTRL waiting at an idle block, a token at the beginning of the stream of a MegaLZ DECOMPRESS in its UNPACK phase. -/
def State.withFetchWord (s : State) (nbits w : Nat) : State := s.placeTableWord nbits w

end Sys2Proof.Machine
end

