-- ==== Sys2Proof/Safety.lean ====
section
/-! DEFINITION. What counts as a well-formed state and a safe run, in the terms the statements use. Every part of `State.Inv`
is decidable on a written-out state. -/

namespace Sys2Proof.Machine

/-- The status and result registers (R35, R38 to R40, R260, R300): while a command runs `DONE` and the result registers are 0;
`ERR` only with `DONE`, and exactly with a code other than 0; no reserved code. -/
abbrev State.statusOk (s : State) : Prop :=
  (s.csr.busy = true → s.csr.done = false ∧ s.csr.resultLen = 0 ∧ s.csr.consumedLen = 0 ∧ s.csr.costBits = 0) ∧
  (s.csr.err = true → s.csr.done = true) ∧
  (s.csr.err = true ↔ s.csr.errCode ≠ 0) ∧
  s.csr.errCode.toNat ≤ 4

/-- `BUSY` reads 1 exactly while the engine is in a phase of a command (R35, R126). -/
abbrev State.phaseOk (s : State) : Prop := s.csr.busy = true ↔ s.phase ≠ .idle

/-- While a command runs, "the latches and the registers agree for the whole command" (R44). -/
abbrev State.latchOk (s : State) : Prop :=
  s.csr.busy = true →
    s.latch.cmd = s.csr.cmd ∧ s.latch.mode = s.csr.mode ∧ s.latch.src = s.csr.srcAddr ∧
    s.latch.len = s.csr.srcLen ∧ s.latch.dst = s.csr.dstAddr ∧ s.latch.cap = s.csr.dstCap

/-- Past CHECK, every check of R125 has passed, and each command is in phases of its own (R126). -/
abbrev State.checkedOk (s : State) : Prop :=
  (s.phase ≠ .idle → s.phase ≠ .check → s.checkError = none) ∧
  (s.phase = .parse ∨ s.phase = .emit ∨ s.phase = .capacity → s.compressing = true) ∧
  (s.phase = .unpack → s.compressing = false)

/-- The output built so far fits where it must (R48, R122, R235). -/
abbrev State.outputOk (s : State) : Prop :=
  (s.phase = .reverseIn → s.obuf = []) ∧
  (s.phase = .emit → s.obuf.length ≤ obufSize s.params) ∧
  (s.phase = .unpack → s.obuf.length ≤ s.capl) ∧
  (s.phase = .reverseOut ∧ s.compressing = false → s.obuf.length ≤ s.latch.cap.toNat) ∧
  (s.phase = .writeback ∨ s.phase = .complete → s.obuf.length ≤ s.latch.cap.toNat)

/-- Memories in canonical form, and no byte of host memory beyond its 2^32 (R60). -/
abbrev State.memOk (s : State) : Prop :=
  s.mem.wf ∧ s.hist.wf ∧ ∀ c ∈ s.mem, c.1 < Config.addressSpace

/-- The unpacker is in a state of the running variant that reads a token (R236). -/
abbrev State.dstateOk (s : State) : Prop :=
  s.phase = .reverseIn ∨ s.phase = .unpack →
    (s.variant = .zx0 →
      s.up.dstate = .readLiteralRun ∨ s.up.dstate = .readLastOffsetCopy ∨ s.up.dstate = .readNewOffsetCopy) ∧
    (s.variant ≠ .zx0 → s.up.dstate = .readFirst ∨ s.up.dstate = .readToken)

/-- `BIT_MASK` is one of 0x00, 0x01, 0x02, .. 0x80 (R49, R50). -/
abbrev maskOk (m : Byte) : Prop :=
  m = 0 ∨ m = 1 ∨ m = 2 ∨ m = 4 ∨ m = 8 ∨ m = 16 ∨ m = 32 ∨ m = 64 ∨ m = 128

/-- The packer between two tokens: its mask legal, and one bit of the open bit-group byte written, which is one of OBUF's
(R201). -/
abbrev State.packerOk (s : State) : Prop :=
  maskOk s.pk.bitMask ∧ s.pk.bitMask ≠ 128 ∧ (s.pk.bitMask ≠ 0 → s.pk.bitIndex < s.obuf.length)

/-- The machine's invariant. -/
abbrev State.Inv (s : State) : Prop :=
  s.statusOk ∧ s.phaseOk ∧ s.latchOk ∧ s.checkedOk ∧ s.outputOk ∧ s.memOk ∧ s.dstateOk ∧ s.packerOk ∧
  maskOk s.up.cur.bitMask

/-- HIST holds the last `HIST_SIZE` output bytes (R234): output byte number k is held at `HIST[k mod HIST_SIZE]` until output
byte `k + HIST_SIZE` replaces it. -/
abbrev State.histOk (s : State) : Prop :=
  s.hist.wf ∧
  ∀ k < s.obuf.length, s.obuf.length ≤ k + Config.histSize →
    s.hist.read (k % Config.histSize) = s.obuf.getD k 0

/-- Engine steps only, from a state with no input waiting. -/
def runEngine : Nat → State → Host.Outcome State Fault Refusal
  | 0, s => .next s
  | n + 1, s =>
    match stepEngine s with
    | .next t => runEngine n t
    | .fault f => .fault f
    | .refused r => .refused r

/-- An outcome that is a next state. -/
def answers (o : Host.Outcome State Fault Refusal) (t : State) : Prop := o = .next t

end Sys2Proof.Machine
end

