-- ==== Sys2Proof/Certificates/Slice0/Obligations.lean ====
section
/-! DEFINITION. The statements for the provers, with the few predicates they share. Each docstring names the rule of spec/
it formalises; INVENTORY.md and notes/assumptions/ hold the model's own choices. -/

namespace Sys2Proof.Machine

/-! ### Predicates the statements share -/

/-- The command ended in `t` with error code `e` (R127, failure): the three results 0, no memory written since `s`. -/
def failedFrom (s t : State) (e : ErrCode) : Prop :=
  t.csr = { s.csr with
    busy := false, done := true, err := true, errCode := errBits e
    resultLen := 0, consumedLen := 0, costBits := 0 } ∧
  t.mem = s.mem ∧ t.phase = .idle ∧ t.inputs = s.inputs ∧ t.params = s.params ∧ t.rdata = s.rdata

/-- `t` is `s` with the `L` bytes of `Copy(o, L)` output (R234): each the one `o` places before it, nothing else changed but
the history, which still mirrors the output. -/
def copiedFrom (s t : State) (o L : Nat) : Prop :=
  t = { s with obuf := t.obuf, hist := t.hist } ∧
  t.obuf.length = s.obuf.length + L ∧
  (∀ k < s.obuf.length, t.obuf[k]? = s.obuf[k]?) ∧
  (∀ k < L, t.obuf[s.obuf.length + k]? = t.obuf[s.obuf.length + k - o]?) ∧
  t.histOk

/-- The copy a ZX7 or MegaLZ copy token stands for: variant, offset, length (R84, R89). -/
def copyToken : Instr → Option (Variant × Nat × Nat)
  | .zx7CpyS o L => some (.zx7, o, L)
  | .zx7CpyL o L => some (.zx7, o, L)
  | .mlzCpy1 o => some (.megalz, o, 1)
  | .mlzCpy2 o => some (.megalz, o, 2)
  | .mlzCpy3S o => some (.megalz, o, 3)
  | .mlzCpy3L o => some (.megalz, o, 3)
  | .mlzCpyNS o L => some (.megalz, o, L)
  | .mlzCpyNL o L => some (.megalz, o, L)
  | _ => none

/-- The variant of a token. -/
def tokenVariant : Instr → Option Variant
  | .zx7First _ | .zx7Lit _ | .zx7CpyS _ _ | .zx7CpyL _ _ | .zx7End => some .zx7
  | .zx0Lit0 _ | .zx0Lit _ | .zx0Rep _ | .zx0Cpy _ _ | .zx0End => some .zx0
  | .mlzFirst _ | .mlzLit _ | .mlzCpy1 _ | .mlzCpy2 _ | .mlzCpy3S _ | .mlzCpy3L _ | .mlzCpyNS _ _
  | .mlzCpyNL _ _ | .mlzEnd => some .megalz
  | .compress _ | .decompress _ => none

/-- Where a token may stand in its stream (R84, R86, R89). -/
def mayStand : Instr → Place → Bool
  | .zx7First _, .first => true
  | .mlzFirst _, .first => true
  | .zx0Lit0 _, .first => true
  | .zx0Lit _, .afterCopy => true
  | .zx0Rep _, .afterRun => true
  | .zx0Cpy _ _, .afterRun => true
  | .zx0Cpy _ _, .afterCopy => true
  | .zx0End, .afterRun => true
  | .zx0End, .afterCopy => true
  | .zx7Lit _, .afterRun | .zx7CpyS _ _, .afterRun | .zx7CpyL _ _, .afterRun | .zx7End, .afterRun => true
  | .mlzLit _, .afterRun | .mlzCpy1 _, .afterRun | .mlzCpy2 _, .afterRun | .mlzCpy3S _, .afterRun
  | .mlzCpy3L _, .afterRun | .mlzCpyNS _ _, .afterRun | .mlzCpyNL _ _, .afterRun | .mlzEnd, .afterRun => true
  | _, _ => false

/-- The items of a token's encoding. -/
def tokenItems (f : Fmt) (i : Instr) : List Item :=
  match encode f i with
  | .token items => items
  | .ctrlStore _ => []

/-- How many stream positions items occupy. -/
def itemBits (items : List Item) : Nat :=
  (items.map fun it => match it with | .bit _ => 1 | .byte _ => 8).sum

/-- Decoding undoes encoding at every place the token may stand, whatever bytes follow, and reads exactly its bytes. -/
def roundTrips (f : Fmt) (v : Variant) (i : Instr) : Prop :=
  ∀ at_ : Place, mayStand i at_ = true → ∀ rest : List Byte,
    ∃ c : Cursor,
      decodeToken f v at_ (layout (tokenItems f i) ++ rest) Cursor.start = .ok (i, c) ∧
      c.inIdx = (layout (tokenItems f i)).length

/-- The error of the `n`-byte beginning of a token's `k`-byte stream (R93 item 1): a field is cut. Of a ZX0 run (R86) whose code
is whole, the bytes before the cut are read and named (R238; log 12). -/
def truncatedError (f : Fmt) (i : Instr) (n : Nat) : DecodeError :=
  match i with
  | .zx0Lit0 bs | .zx0Lit bs =>
    let code := (layout (tokenItems f i)).length - bs.length
    if n < code then .prematureEnd else .prematureRun (bs.take (n - code))
  | _ => .prematureEnd

/-- What the packer has written, as the layout of R82 under way. -/
def layoutOf (s : State) : Layout :=
  { out := s.obuf, group := s.pk.bitIndex, free := unusedBits s.pk.bitMask }

/-- The stream under way with a token's encoding laid out after it. -/
def laidOut (s : State) (i : Instr) : Layout := (tokenItems s.fmt i).foldl Layout.put (layoutOf s)

/-- The packer can emit the token next (R203, R210, R216): the backtrack bit is set exactly before the first ZX0 token, a
last-offset copy follows a literal run, a copy is in the mode's range. -/
def emitReady (s : State) : Instr → Prop
  | .zx0Lit0 _ => s.pk.backtrack = true
  | .zx0Rep _ => s.pk.backtrack = false ∧ s.pk.prevKind = .lit
  | .zx0Cpy o L => s.pk.backtrack = false ∧ copyInRange s.latch.mode o L = true
  | .zx7CpyS o L | .zx7CpyL o L | .mlzCpyNS o L | .mlzCpyNL o L =>
    s.pk.backtrack = false ∧ copyInRange s.latch.mode o L = true
  | .mlzCpy1 o => s.pk.backtrack = false ∧ copyInRange s.latch.mode o 1 = true
  | .mlzCpy2 o => s.pk.backtrack = false ∧ copyInRange s.latch.mode o 2 = true
  | .mlzCpy3S o | .mlzCpy3L o => s.pk.backtrack = false ∧ copyInRange s.latch.mode o 3 = true
  | _ => s.pk.backtrack = false

/-- The packer's other state after a token (R207 to R210): `LAST_OFFSET` and `PREV_KIND`. -/
def packerAfter (s : State) : Instr → Nat × PrevKind
  | .zx0Lit0 _ | .zx0Lit _ => (s.pk.lastOffset, .lit)
  | .zx0Rep _ => (s.pk.lastOffset, .copy)
  | .zx0Cpy o _ => (o, .copy)
  | _ => (s.pk.lastOffset, s.pk.prevKind)

/-- Whether a token ends its stream. -/
def isEnd : Instr → Bool
  | .zx7End | .zx0End | .mlzEnd => true
  | _ => false

/-- The cost the model of spec/42_cost_model.md gives a token; the first ZX0 run has no indicator (R154), and the ZX0 limit
is the full one. -/
def tokenCost : Instr → Cost
  | .zx7First _ | .mlzFirst _ => some costFirst
  | .zx7Lit _ => some costLitZx7
  | .mlzLit _ => some costLitMlz
  | .zx7CpyS o L | .zx7CpyL o L => costCopyZx7 o L
  | .zx0Lit0 bs => some (costLitZx0 bs.length - 1)
  | .zx0Lit bs => some (costLitZx0 bs.length)
  | .zx0Rep L => some (costRepZx0 L)
  | .zx0Cpy o L => costNewZx0 Config.zx0FullLimit o L
  | .mlzCpy1 o => costCopyMlz o 1
  | .mlzCpy2 o => costCopyMlz o 2
  | .mlzCpy3S o | .mlzCpy3L o => costCopyMlz o 3
  | .mlzCpyNS o L | .mlzCpyNL o L => costCopyMlz o L
  | .zx7End => some (endBits .zx7)
  | .zx0End => some (endBits .zx0)
  | .mlzEnd => some (endBits .megalz)
  | .compress _ | .decompress _ => none

/-- The match index after the positions `0 .. i - 1` of a scan. -/
def indexBefore (visit : MatchIndex → Nat → MatchIndex) (i : Nat) : MatchIndex :=
  (List.range i).foldl visit { head := [], chain := [] }

/-- The ZX7 entries of the positions `0 .. i - 1` (R170). -/
def zx7Build (x : List Byte) (i : Nat) : List Zx7Entry :=
  (List.range i).foldl (fun es k => es ++ [zx7Entry x es k]) []

/-- The MegaLZ entries after the positions `1 .. i - 1` of the optimal scan (R180). -/
def mlzBuild (x : List Byte) (i : Nat) : List MlzEntry :=
  (List.range' 1 (i - 1)).foldl (mlzScanAt x) (mlzInit x.length)

/-- The ZX0 state after the positions `0 .. i - 1` (R172). -/
def zx0Build (x : List Byte) (limit i : Nat) : Zx0State :=
  (List.range i).foldl (fun z k => z.scanAt x limit k) (Zx0State.init x.length limit)

/-- The bytes operations stand for, after the output `out` (R14): literals themselves, a copy byte by byte. -/
def copyBytes (out : List Byte) (o : Nat) : Nat → List Byte
  | 0 => out
  | n + 1 => copyBytes (out ++ (out[out.length - o]?).toList) o n

/-- The output of a sequence of operations (R14). -/
def expand (out : List Byte) : List Op → List Byte
  | [] => out
  | .first b :: ops => expand (out ++ [b]) ops
  | .lit b :: ops => expand (out ++ [b]) ops
  | .run bs :: ops => expand (out ++ bs) ops
  | .copy o L :: ops => expand (copyBytes out o L) ops

/-- The greedy parse run to its end from position `p` with cost `total` so far (R190); `fuel` bounds it. -/
def greedyTotal (x : List Byte) : Nat → Nat → Nat → Nat
  | 0, _, total => total
  | fuel + 1, p, total =>
    if p < x.length then
      greedyTotal x fuel (p + (greedyChoice x p).L) (total + (greedyChoice x p).bits)
    else
      total

/-- What R125 items 1 to 4 refuse. -/
def illegalCommand (l : Latch) : Prop :=
  (l.cmd ≠ 1 ∧ l.cmd ≠ 2) ∨ 7 < l.mode.toNat ∨
  2 ^ 32 < l.src.toNat + l.len.toNat ∨ 2 ^ 32 < l.dst.toNat + l.cap.toNat ∨
  ∃ a, inBuffer l.src l.len a = true ∧ inBuffer l.dst l.cap a = true

/-- A command that has passed START on an idle block, its input snapshot taken. -/
def atCheck (s : State) : Prop := s.phase = .check ∧ s.csr.busy = true ∧ s.dutyBroken = false

/-- Every DECOMPRESS of the stream in the mode of `s`, with room for the image of `s`, ends with that image as its output and
has read all of the stream. -/
def unpacksTo (s : State) (stream : List Byte) : Prop :=
  ∀ u : State, atCheck u → u.checkError = none → u.latch.cmd = 2 → u.latch.mode = s.latch.mode →
    u.params = s.params → u.image = stream → u.latch.len.toNat = stream.length →
    s.image.length ≤ u.latch.cap.toNat → u.hist.wf →
    ∃ n v, runEngine n u = .next v ∧ v.phase = .writeback ∧ v.obuf = s.image ∧ v.up.cur.inIdx = stream.length

/-- What a command's progress and result consist of: status, results, phase, output built. -/
def sameCourse (s t : State) : Prop :=
  s.csr.busy = t.csr.busy ∧ s.csr.done = t.csr.done ∧ s.csr.err = t.csr.err ∧ s.csr.errCode = t.csr.errCode ∧
  s.csr.resultLen = t.csr.resultLen ∧ s.csr.consumedLen = t.csr.consumedLen ∧ s.csr.costBits = t.csr.costBits ∧
  s.phase = t.phase ∧ s.obuf = t.obuf

end Sys2Proof.Machine

open Sys2Proof
open Sys2Proof.Machine

/-! ### Registers and the host interface -/

/-- R31: every register and field at its offset, how it reads, what a store while not busy does to it, its reset value, and
`START`, which acts when written and reads 0. -/
def Obligations.RegisterMap : Prop :=
  (∀ s : State,
    s.readReg 0x00 = 0x475A0001 ∧
    (s.readReg 0x04 = (s.csr.cmd.zeroExtend 32 <<< 4) ||| (s.csr.mode.zeroExtend 32 <<< 8)) ∧
    (∀ k < 32, (s.readReg 0x08).getLsbD k =
      if k = 0 then s.csr.busy else if k = 1 then s.csr.done else if k = 2 then s.csr.err
      else if 8 ≤ k ∧ k ≤ 10 then s.csr.errCode.getLsbD (k - 8) else false) ∧
    (∀ k < 32, (s.readReg 0x0C).getLsbD k = (decide (k = 0) && s.csr.ie)) ∧
    s.readReg 0x10 = s.csr.srcAddr ∧ s.readReg 0x14 = s.csr.srcLen ∧
    s.readReg 0x18 = s.csr.dstAddr ∧ s.readReg 0x1C = s.csr.dstCap ∧
    s.readReg 0x20 = s.csr.resultLen ∧ s.readReg 0x24 = s.csr.consumedLen ∧ s.readReg 0x28 = s.csr.costBits ∧
    (∀ k < 32, (s.readReg 0x2C).getLsbD k =
      if k = 0 then s.params.zx0InvertMsb else if k = 1 then s.params.reverseEmit == .upstream else false) ∧
    ∀ off, 0x30 ≤ off → off < 0x40 → s.readReg off = 0) ∧
  (∀ (s : State) (d : Word), s.csr.busy = false →
    s.writeReg 0x00 d = s ∧
    s.writeReg 0x04 d = { s with csr := { s.csr with cmd := d.extractLsb' 4 2, mode := d.extractLsb' 8 4 } } ∧
    s.writeReg 0x08 d =
      (if d.getLsbD 1 then { s with csr := { s.csr with done := false, err := false, errCode := 0 } } else s) ∧
    s.writeReg 0x0C d = { s with csr := { s.csr with ie := d.getLsbD 0 } } ∧
    s.writeReg 0x10 d = { s with csr := { s.csr with srcAddr := d } } ∧
    s.writeReg 0x14 d = { s with csr := { s.csr with srcLen := d } } ∧
    s.writeReg 0x18 d = { s with csr := { s.csr with dstAddr := d } } ∧
    s.writeReg 0x1C d = { s with csr := { s.csr with dstCap := d } } ∧
    ∀ off, 0x20 ≤ off → off < 0x40 → s.writeReg off d = s) ∧
  (∀ (p : Params) (off : Nat), 0x04 ≤ off → off < 0x2C → (State.resetOf p).readReg off = 0) ∧
  (∀ (s : State) (a : Word) (d : BitVec 64) (rest : List Input),
    s.inputs = .store .w32 a d :: rest → s.inWindow a = true → s.offset a = 0x04 →
    s.csr.busy = false → d.getLsbD 0 = true →
    ∃ t, step s = .next t ∧ t.csr.busy = true ∧ (t.readReg 0x04).getLsbD 0 = false)

/-- R32: a defined read returns the current value, busy or not, and has no side effect; every store to the window while
`BUSY = 1` is ignored; reserved offsets read 0 and ignore stores; an access that is not an aligned 32-bit one is ignored
if a store and returns 0 if a load. -/
def Obligations.RegisterAccessRules : Prop :=
  (∀ (s : State) (w : Width) (a : Word) (rest : List Input),
    s.inputs = .load w a :: rest → s.inWindow a = true →
    step s = .next { s with
      inputs := rest
      rdata := if w = .w32 ∧ s.offset a % 4 = 0 then (s.readReg (s.offset a)).zeroExtend 64 else 0 }) ∧
  (∀ (s : State) (w : Width) (a : Word) (d : BitVec 64) (rest : List Input),
    s.inputs = .store w a d :: rest → s.inWindow a = true →
    (s.csr.busy = true ∨ w ≠ .w32 ∨ s.offset a % 4 ≠ 0 ∨ 0x30 ≤ s.offset a) →
    step s = .next { s with inputs := rest }) ∧
  (∀ (s : State) (off : Nat), 0x30 ≤ off → s.readReg off = 0)

/-- R129: every other register store while not busy writes its register, reserved bits ignored; `STATUS` bit 1 clears `DONE`,
`ERR` and `ERR_CODE` and so lowers `irq`; read-only registers ignore it; nothing of a command changes. -/
def Obligations.OtherRegisterStores : Prop :=
  ∀ (s : State) (a : Word) (d : BitVec 64) (rest : List Input),
    s.inputs = .store .w32 a d :: rest → s.inWindow a = true → s.offset a % 4 = 0 → s.csr.busy = false →
    (s.offset a ≠ 0x04 ∨ d.getLsbD 0 = false) →
    ∃ t, step s = .next t ∧
      t = { s with inputs := rest, csr := t.csr } ∧
      t.csr = { s.csr with
        cmd := if s.offset a = 0x04 then d.extractLsb' 4 2 else s.csr.cmd
        mode := if s.offset a = 0x04 then d.extractLsb' 8 4 else s.csr.mode
        done := if s.offset a = 0x08 ∧ d.getLsbD 1 = true then false else s.csr.done
        err := if s.offset a = 0x08 ∧ d.getLsbD 1 = true then false else s.csr.err
        errCode := if s.offset a = 0x08 ∧ d.getLsbD 1 = true then 0 else s.csr.errCode
        ie := if s.offset a = 0x0C then d.getLsbD 0 else s.csr.ie
        srcAddr := if s.offset a = 0x10 then d.truncate 32 else s.csr.srcAddr
        srcLen := if s.offset a = 0x14 then d.truncate 32 else s.csr.srcLen
        dstAddr := if s.offset a = 0x18 then d.truncate 32 else s.csr.dstAddr
        dstCap := if s.offset a = 0x1C then d.truncate 32 else s.csr.dstCap } ∧
      (s.offset a = 0x08 → d.getLsbD 1 = true → t.irq = false)

/-- R124: START in one step: `CMD` and `MODE` of the same store, the latches, the cleared status and results, `BUSY`, the input
snapshot; the same store while busy is ignored entirely; a store without START only writes `CMD` and `MODE`. -/
def Obligations.StartLatchesAndSnapshots : Prop :=
  (∀ (s : State) (a : Word) (d : BitVec 64) (rest : List Input),
    s.inputs = .store .w32 a d :: rest → s.inWindow a = true → s.offset a = 0x04 →
    (s.csr.busy = true → step s = .next { s with inputs := rest }) ∧
    (s.csr.busy = false → d.getLsbD 0 = false →
      step s = .next { s with
        inputs := rest
        csr := { s.csr with cmd := d.extractLsb' 4 2, mode := d.extractLsb' 8 4 } }) ∧
    (s.csr.busy = false → d.getLsbD 0 = true →
      step s = .next { s with
        inputs := rest
        csr := { s.csr with
          cmd := d.extractLsb' 4 2, mode := d.extractLsb' 8 4
          busy := true, done := false, err := false, errCode := 0
          resultLen := 0, consumedLen := 0, costBits := 0 }
        latch :=
          { cmd := d.extractLsb' 4 2, mode := d.extractLsb' 8 4
            src := s.csr.srcAddr, len := s.csr.srcLen, dst := s.csr.dstAddr, cap := s.csr.dstCap }
        image := s.mem.readBytes s.csr.srcAddr.toNat s.csr.srcLen.toNat
        phase := .check
        dutyBroken := false }))

/-- R122, R123, R124: what COMPRESS and DECOMPRESS do on an idle block, in every mode: they start their command. -/
def Obligations.CommandsStart : Prop :=
  ∀ (s : State) (mode : BitVec 4), s.csr.busy = false →
    ∃ t u, exec (.compress mode) s = .next t ∧ exec (.decompress mode) s = .next u ∧
      t.latch = { cmd := 1, mode := mode, src := s.csr.srcAddr, len := s.csr.srcLen,
                  dst := s.csr.dstAddr, cap := s.csr.dstCap } ∧
      u = { t with csr := { t.csr with cmd := 2 }, latch := { t.latch with cmd := 2 } } ∧
      t = { s with csr := t.csr, latch := t.latch, image := t.image, phase := .check, dutyBroken := false } ∧
      t.csr = { s.csr with
        cmd := 1, mode := mode, busy := true, done := false, err := false, errCode := 0
        resultLen := 0, consumedLen := 0, costBits := 0 } ∧
      t.image.length = s.csr.srcLen.toNat ∧
      ∀ k < s.csr.srcLen.toNat, t.image[k]? = some (s.mem.read (s.csr.srcAddr.toNat + k))

/-- R97: the words of the commands, the bits of a store that are ignored, and that a reserved `CMD` or `MODE` fails with
`ILLEGAL` when it is checked. -/
def Obligations.CtrlStoreEncodings : Prop :=
  (∀ mode : BitVec 4,
    ctrlWord 1 mode = 0x11 ||| (mode.zeroExtend 32 <<< 8) ∧ ctrlWord 2 mode = 0x21 ||| (mode.zeroExtend 32 <<< 8) ∧
    decodeCtrl (ctrlWord 1 mode) = some (.compress mode) ∧
    decodeCtrl (ctrlWord 2 mode) = some (.decompress mode)) ∧
  ctrlWord 1 4 = 0x411 ∧
  (∀ (s : State) (a : Word) (d : BitVec 64) (rest : List Input) (mode : BitVec 4),
    s.inputs = .store .w32 a d :: rest → s.inWindow a = true → s.offset a = 0x04 → s.csr.busy = false →
    (d.truncate 32 &&& 0x00000F31 = ctrlWord 1 mode →
      step s = .next (({ s with inputs := rest } : State).start 1 mode)) ∧
    (d.truncate 32 &&& 0x00000F31 = ctrlWord 2 mode →
      step s = .next (({ s with inputs := rest } : State).start 2 mode))) ∧
  (∀ w : Word, decodeCtrl w = decodeCtrl (w &&& 0x00000F31)) ∧
  (∀ (s : State) (cmd : BitVec 2) (mode : BitVec 4),
    cmd = 0 ∨ cmd = 3 ∨ 8 ≤ mode.toNat →
    ∃ n t, runEngine n (s.start cmd mode) = .next t ∧ failedFrom (s.start cmd mode) t .illegal)

/-- R125: the checks in their order; the first that fails ends the command with its error, and the buffers overlap where
they share a byte (R68). -/
def Obligations.CommandChecksInOrder : Prop :=
  ∀ s : State, atCheck s →
    ∃ n t, runEngine n s = .next t ∧
      (illegalCommand s.latch → failedFrom s t .illegal) ∧
      (¬ illegalCommand s.latch → s.latch.cmd = 1 ∧ s.params.maxInputLen < s.latch.len.toNat →
        failedFrom s t .alloc) ∧
      (¬ illegalCommand s.latch → ¬ (s.latch.cmd = 1 ∧ s.params.maxInputLen < s.latch.len.toNat) →
        t.csr = s.csr ∧ t.mem = s.mem ∧ t.image = s.image ∧ t.latch = s.latch ∧
        t.phase =
          if s.latch.len = 0 then .complete
          else if s.latch.mode = 1 ∨ s.latch.mode = 3 ∨ s.latch.mode = 5 then .reverseIn
          else if s.latch.cmd = 1 then .parse else .unpack)

/-- R126, R122, R123, R218: REVERSE-IN, REVERSE-OUT and CAPACITY, each the next state it gives. -/
def Obligations.ReversalAndCapacityPhases : Prop :=
  ∀ s : State,
    (s.phase = .reverseIn →
      stepEngine s = .next { s with
        image := s.image.reverse, phase := if s.latch.cmd = 1 then .parse else .unpack }) ∧
    (s.phase = .reverseOut →
      stepEngine s = .next { s with
        obuf := s.obuf.reverse, phase := if s.latch.cmd = 1 then .capacity else .writeback }) ∧
    (s.phase = .capacity → s.obuf.length ≤ s.latch.cap.toNat →
      stepEngine s = .next { s with phase := .writeback }) ∧
    (s.phase = .capacity → s.latch.cap.toNat < s.obuf.length → s.dutyBroken = false →
      ∃ t, stepEngine s = .next t ∧ failedFrom s t .alloc)

/-- R128: an empty input and an empty stream succeed with no output and nothing written; and the first token of a stream is
never an END and always outputs a byte, so no variant's stream can stand for an empty input. -/
def Obligations.EmptyBuffersSucceed : Prop :=
  (∀ (f : Fmt) (v : Variant) (x : List Byte) (i : Instr) (c : Cursor),
    decode f v (DState.initial v) x Cursor.start = .ok (i, c) →
    (∃ b, i = .zx7First b) ∨ (∃ b, i = .mlzFirst b) ∨ ∃ bs, i = .zx0Lit0 bs ∧ bs ≠ []) ∧
  ∀ s : State, atCheck s → s.checkError = none → s.latch.len = 0 →
    ∃ n t, runEngine n s = .next t ∧ t.mem = s.mem ∧ t.phase = .idle ∧
      t.csr = { s.csr with
        busy := false, done := true, err := false, errCode := 0, resultLen := 0, consumedLen := 0, costBits := 0 }

/-- R127, R35: write-back of the result to `[L_DST, L_DST + R)`, in a step that leaves the registers alone, then completion in one
step: BUSY 0 and DONE 1 together with the results; on failure no host memory is written and the results are 0. -/
def Obligations.WritebackAndComplete : Prop :=
  (∀ s : State, s.phase = .writeback → s.dutyBroken = false → s.mem.wf →
    ∃ n t, runEngine n s = .next t ∧
      t.phase = .idle ∧
      (∀ a, t.mem.read a =
        if s.latch.dst.toNat ≤ a ∧ a < s.latch.dst.toNat + s.obuf.length then
          s.obuf.getD (a - s.latch.dst.toNat) 0
        else s.mem.read a) ∧
      t.csr = { s.csr with
        busy := false, done := true, err := false, errCode := 0
        resultLen := BitVec.ofNat 32 s.obuf.length
        consumedLen := if s.latch.cmd = 1 then s.latch.len else BitVec.ofNat 32 s.up.cur.inIdx
        costBits := if s.latch.cmd = 1 then BitVec.ofNat 32 s.costBits else 0 }) ∧
  (∀ s t : State, s.phase = .writeback → stepEngine s = .next t → t.csr = s.csr) ∧
  (∀ s : State, s.phase = .complete → s.dutyBroken = false →
    stepEngine s = .next { s with
      phase := .idle
      csr := { s.csr with
        busy := false, done := true, err := false, errCode := 0
        resultLen := BitVec.ofNat 32 s.obuf.length
        consumedLen := if s.latch.cmd = 1 then s.latch.len else BitVec.ofNat 32 s.up.cur.inIdx
        costBits := if s.latch.cmd = 1 then BitVec.ofNat 32 s.costBits else 0 } }) ∧
  (∀ (s : State) (e : ErrCode), s.dutyBroken = false → e ≠ .none → failedFrom s (s.raise e) e)

/-- R260: the codes of STATUS after a failure and after a success, as the register reads; the codes 5 to 7 are never reported. -/
def Obligations.ErrorCodesInStatus : Prop :=
  ∀ s : State, s.dutyBroken = false →
    (s.raise .alloc).readReg 0x08 = 0x106 ∧ (s.raise .invalid).readReg 0x08 = 0x206 ∧
    (s.raise .limit).readReg 0x08 = 0x306 ∧ (s.raise .illegal).readReg 0x08 = 0x406 ∧
    (∀ (r c b : Word), (s.finish .none r c b).readReg 0x08 = 0x002) ∧
    (∀ (t : State) (e : ErrCode) (r c b : Word), (t.finish e r c b).csr.errCode.toNat ≤ 4)

/-- R270: `irq` is `DONE AND IE`; it rises with a completion where `IE = 1`, and at once when `IE` is set while `DONE = 1`; it
falls with a store of 1 to `DONE` while not busy and with a START. -/
def Obligations.InterruptFollowsDoneAndEnable : Prop :=
  (∀ s : State, s.irq = (s.csr.done && s.csr.ie)) ∧
  (∀ (s : State) (e : ErrCode) (r c b : Word), (s.finish e r c b).irq = s.csr.ie) ∧
  (∀ (s : State) (d : Word), s.csr.busy = false → s.csr.done = true → d.getLsbD 0 = true →
    (s.writeReg 0x0C d).irq = true) ∧
  (∀ (s : State) (d : Word), s.csr.busy = false → d.getLsbD 1 = true → (s.writeReg 0x08 d).irq = false) ∧
  (∀ (s : State) (cmd : BitVec 2) (mode : BitVec 4), (s.start cmd mode).irq = false)

/-- R290, R291: `rst` at any step, idle or busy: every register takes its reset value and a running command is abandoned, with no
completion; host memory in the input buffer is unchanged, and all host memory is, outside WRITEBACK and so in an idle block; in
WRITEBACK only the output buffer may differ. -/
def Obligations.ResetAbandonsTheCommand : Prop :=
  ∀ (s : State) (rest : List Input), s.inputs = .rst :: rest → s.Inv →
    ∃ t, step s = .next t ∧
      t.csr = Csr.reset ∧ t.csr.done = false ∧ t.phase = .idle ∧ t.params = s.params ∧ t.inputs = rest ∧
      (s.csr.busy = false → t.mem = s.mem) ∧
      (s.phase ≠ .writeback → t.mem = s.mem) ∧
      (∀ a, inBuffer s.latch.dst s.latch.cap a = false → t.mem.read a = s.mem.read a) ∧
      (∀ a, inBuffer s.latch.src s.latch.len a = true → t.mem.read a = s.mem.read a)

/-- R295 (U5; log 9): a store by another agent to a buffer of the running command is noticed by the model; the command's end then
is a completion all the same, and no memory outside the output buffer is written by it. The results are free values. -/
def Obligations.BrokenHostDutyStillCompletes : Prop :=
  (∀ (s : State) (w : Width) (a : Word) (d : BitVec 64),
    s.csr.busy = true → s.inWindow a = false → (∃ b ∈ accessAddrs a (widthBytes w), s.touchesBuffer b = true) →
    ∃ t, stepInput (.store w a d) s = .next t ∧ t.dutyBroken = true ∧ t = { s with mem := t.mem, dutyBroken := true }) ∧
  (∀ (s : State) (e : ErrCode) (r c b : Word), s.dutyBroken = true → s.mem.wf →
    (s.finish e r c b).csr.busy = false ∧ (s.finish e r c b).csr.done = true ∧ (s.finish e r c b).phase = .idle ∧
    ∀ a, inBuffer s.latch.dst s.latch.cap a = false → (s.finish e r c b).mem.read a = s.mem.read a)

/-- R60, R62, R306 (U6): a host store writes its bytes of host memory and no other; a load reads the bytes there, but while a
result is being written back each byte of it may read as the old contents or as the result. Byte order, the wrap at 2^32 and
the widths are the model's (log 7). -/
def Obligations.HostMemoryAccesses : Prop :=
  (∀ (s : State) (w : Width) (a : Word) (d : BitVec 64) (rest : List Input),
    s.inputs = .store w a d :: rest → s.inWindow a = false → s.mem.wf →
    ∃ t, step s = .next t ∧ t = { s with inputs := rest, mem := t.mem, dutyBroken := t.dutyBroken } ∧
      (∀ k < widthBytes w, t.mem.read (a + BitVec.ofNat 32 k).toNat = d.extractLsb' (8 * k) 8) ∧
      (∀ x, (∀ k < widthBytes w, x ≠ (a + BitVec.ofNat 32 k).toNat) → t.mem.read x = s.mem.read x)) ∧
  (∀ (s : State) (w : Width) (a : Word) (rest : List Input),
    s.inputs = .load w a :: rest → s.inWindow a = false → s.dutyBroken = false →
    ∃ t, step s = .next t ∧ t = { s with inputs := rest, rdata := t.rdata, freeCtr := t.freeCtr } ∧
      t.rdata.toNat < 2 ^ (8 * widthBytes w) ∧
      ∀ k < widthBytes w, ∀ x, x = (a + BitVec.ofNat 32 k).toNat →
        t.rdata.extractLsb' (8 * k) 8 = s.mem.read x ∨
        s.phase = .writeback ∧ s.latch.dst.toNat ≤ x ∧ x < s.latch.dst.toNat + s.obuf.length ∧
          t.rdata.extractLsb' (8 * k) 8 = s.obuf.getD (x - s.latch.dst.toNat) 0)

/-! ### The whole machine -/

/-- The invariant holds at reset, for every build of the block. -/
def Obligations.InvariantAtReset : Prop := ∀ p : Params, (State.resetOf p).Inv

/-- Every step keeps the invariant: the status and result registers while a command runs (R35, R300), the latches and registers
that agree (R44), the checks passed (R125), the output within its bounds (R48, R122, R235), memory in canonical form and
within 2^32 (R60, R62), the unpacker in a state of its variant (R236). -/
def Obligations.StepKeepsInvariant : Prop :=
  ∀ s t : State, s.Inv → step s = .next t → t.Inv

/-- R260, R266: the block has no trap and never stops: every state has a next state. -/
def Obligations.StepAlwaysAnswersNext : Prop := ∀ s : State, ∃ t, step s = .next t

/-- R301: every command completes, successfully or with an error, after finitely many steps of the engine. -/
def Obligations.EveryCommandCompletes : Prop :=
  ∀ s : State, s.csr.busy = true → s.phase ≠ .idle →
    ∃ n t, runEngine n s = .next t ∧ t.csr.busy = false ∧ t.csr.done = true

/-- R61: the engine writes host memory only in WRITEBACK and only in the output buffer; and a command that has
come that far does not fail, so a command that fails has written none. -/
def Obligations.EngineWritesOnlyTheOutputBuffer : Prop :=
  ∀ s t : State, s.Inv → stepEngine s = .next t →
    (∀ a, inBuffer s.latch.dst s.latch.cap a = false → t.mem.read a = s.mem.read a) ∧
    (s.dutyBroken = false → s.phase ≠ .writeback → t.mem = s.mem) ∧
    (s.dutyBroken = false → s.phase = .writeback ∨ s.phase = .complete → t.csr.err = false)

/-- R37, R34, R36: the engine never writes `SRC_ADDR`, `SRC_LEN`, `DST_ADDR`, `DST_CAP`, `CMD`, `MODE` or `IE`, nor the parameters
(R42), the host's inputs or its read data. R35, R287: in an idle block it changes nothing at all: `DONE`, the error code and the
results stay until the host or a reset changes them. -/
def Obligations.EngineLeavesHostRegistersAlone : Prop :=
  ∀ s t : State, stepEngine s = .next t →
    t.csr.srcAddr = s.csr.srcAddr ∧ t.csr.srcLen = s.csr.srcLen ∧ t.csr.dstAddr = s.csr.dstAddr ∧
    t.csr.dstCap = s.csr.dstCap ∧ t.csr.cmd = s.csr.cmd ∧ t.csr.mode = s.csr.mode ∧ t.csr.ie = s.csr.ie ∧
    t.params = s.params ∧ t.inputs = s.inputs ∧ t.rdata = s.rdata ∧
    (s.phase = .idle → t = s)

/-- R51, R134: a command's course and result depend on the latches, the snapshot and the parameters alone: nothing an earlier
command left (index, parse arrays, OBUF, packer, unpacker, HIST), no other register and no host memory takes part. -/
def Obligations.ResultsDependOnlyOnCommandAndSnapshot : Prop :=
  ∀ (n : Nat) (s t s' : State),
    atCheck s → atCheck t → s.latch = t.latch → s.image = t.image → s.params = t.params →
    s.hist.wf → t.hist.wf →
    s.csr.resultLen = t.csr.resultLen → s.csr.consumedLen = t.csr.consumedLen → s.csr.costBits = t.csr.costBits →
    s.csr.done = t.csr.done → s.csr.err = t.csr.err → s.csr.errCode = t.csr.errCode →
    1 ≤ n → runEngine n s = .next s' →
    ∃ t', runEngine n t = .next t' ∧
      (s'.phase ≠ .idle → sameCourse s' t') ∧
      (s'.phase = .idle →
        s'.csr = { s.csr with
          busy := s'.csr.busy, done := s'.csr.done, err := s'.csr.err, errCode := s'.csr.errCode
          resultLen := s'.csr.resultLen, consumedLen := s'.csr.consumedLen, costBits := s'.csr.costBits } ∧
        t'.csr = { t.csr with
          busy := s'.csr.busy, done := s'.csr.done, err := s'.csr.err, errCode := s'.csr.errCode
          resultLen := s'.csr.resultLen, consumedLen := s'.csr.consumedLen, costBits := s'.csr.costBits })

/-! ### Encodings -/

/-- R150: `eg(v)` is the bit length of both gamma codes of v. -/
def Obligations.GammaCodeLengths : Prop :=
  (∀ v, 1 ≤ v → eg v = 2 * v.log2 + 1 ∧ (gammaBits v).length = eg v ∧
    ∀ (pol : Polarity) (inv : Bool), (igammaBits pol inv v).length = eg v) ∧
  eg 1 = 1 ∧ eg 2 = 3 ∧ eg 3 = 3 ∧ (∀ v, 4 ≤ v → v ≤ 7 → eg v = 5) ∧ eg 255 = 15 ∧ eg 256 = 17 ∧ eg 65535 = 31

/-- R87: the ZX0 offset fields in both polarities: `M` in 1 .. 255, bit 0 of LSB free for the slot, whose value decoding does
not look at, and the offset read back. -/
def Obligations.Zx0OffsetFields : Prop :=
  (∀ o, 1 ≤ o → o ≤ 32640 →
    zx0Msb o = (o - 1) / 128 + 1 ∧ 1 ≤ zx0Msb o ∧ zx0Msb o ≤ 255 ∧
    (zx0Lsb .fwd o).toNat = (127 - (o - 1) % 128) * 2 ∧ (zx0Lsb .back o).toNat = ((o - 1) % 128) * 2 ∧
    ∀ pol : Polarity, (zx0Lsb pol o).getLsbD 0 = false ∧
      zx0Offset pol (zx0Msb o) (zx0Lsb pol o) = o ∧ zx0Offset pol (zx0Msb o) (zx0Lsb pol o ||| 1) = o) ∧
  (∀ (f : Fmt) (x : List Byte) (c c' : Cursor),
    readIGamma x f.pol f.inv c = .ok (256, c') → decodeZx0 f x .readNewOffsetCopy c = .ok (.zx0End, c'))

/-- R90: the MegaLZ offset field, 9 bits up to 256 and 13 bits up to 4352, read back. -/
def Obligations.MlzOffsetField : Prop :=
  ∀ (o : Nat) (rest : List Byte), 1 ≤ o → o ≤ 4352 →
    (o ≤ 256 →
      mlzOffShort o = [.bit false, .byte (BitVec.ofNat 8 ((256 - o) % 256))] ∧ itemBits (mlzOffShort o) = 9 ∧
      ∃ c, readMlzOff (layout (mlzOffShort o) ++ rest) Cursor.start = .ok ((false, o), c)) ∧
    (257 ≤ o →
      mlzOffLong o =
        bitItems (true :: bitsDown ((4352 - o) / 256) 4) ++ [.byte (BitVec.ofNat 8 ((4352 - o) % 256))] ∧
      itemBits (mlzOffLong o) = 13 ∧
      ∃ c, readMlzOff (layout (mlzOffLong o) ++ rest) Cursor.start = .ok ((true, o), c))

/-- R88: the polarity and the inversion of each mode; the inversion applies only to the fields that carry an offset MSB or the
END value. -/
def Obligations.FormatOfEachMode : Prop :=
  (∀ (p : Params) (mode : BitVec 4),
    ((fmtOf p mode).pol = .back ↔ ((mode = 3 ∨ mode = 5) ∧ p.reverseEmit = .upstream)) ∧
    ((fmtOf p mode).inv = true ↔ (p.zx0InvertMsb = true ∧ (fmtOf p mode).pol = .fwd))) ∧
  (∀ (pol : Polarity) (i : Instr), (∀ o L, i ≠ .zx0Cpy o L) → i ≠ .zx0End →
    encode { pol := pol, inv := true } i = encode { pol := pol, inv := false } i) ∧
  (∀ (pol : Polarity) (o L : Nat),
    (tokenItems { pol := pol, inv := true } (.zx0Cpy o L)).drop (1 + eg (zx0Msb o)) =
      (tokenItems { pol := pol, inv := false } (.zx0Cpy o L)).drop (1 + eg (zx0Msb o)))

/-- R84, R85: every well-formed ZX7 token, with every operand its encoding admits, decodes from its encoding. -/
def Obligations.Zx7DecodeEncode : Prop :=
  ∀ (f : Fmt) (i : Instr), tokenVariant i = some .zx7 → i.wellFormed = true → roundTrips f .zx7 i

/-- R83, R86, R87: the same for ZX0, in both polarities, with and without inversion. The inverted backward form, which no mode
uses (R88), is covered as well. -/
def Obligations.Zx0DecodeEncode : Prop :=
  ∀ (f : Fmt) (i : Instr), tokenVariant i = some .zx0 → i.wellFormed = true → roundTrips f .zx0 i

/-- R89, R90, R91: the same for MegaLZ. -/
def Obligations.MlzDecodeEncode : Prop :=
  ∀ (f : Fmt) (i : Instr), tokenVariant i = some .megalz → i.wellFormed = true → roundTrips f .megalz i

/-- R85, R86, R91, R93, R232: whatever a stream holds, a token the decoder answers is well-formed and of the variant asked for,
and the cursor never moves back nor past the end of the stream. -/
def Obligations.DecodedTokensAreWellFormed : Prop :=
  ∀ (f : Fmt) (v : Variant) (st : DState) (x : List Byte) (c c' : Cursor) (i : Instr),
    decode f v st x c = .ok (i, c') → c.inIdx ≤ x.length →
    i.wellFormed = true ∧ tokenVariant i = some v ∧ c.inIdx ≤ c'.inIdx ∧ c'.inIdx ≤ x.length

/-- R93 items 1 and 3 to 5. Item 1 (R230, R231): a byte read at or past the end of the stream, a bit read that needs one, and
every token of which any byte is missing at the end are the premature end, inside a ZX0 run with the bytes before it. Items 3 to 5:
the illegal encodings, each rejected by its name, whatever follows it in the stream; a ZX0 code of more than 31 data bits is one
both as the first code of each state and as the length code of a copy, which begins in the slot of the LSB byte (R83). -/
def Obligations.IllegalEncodingsAreRejected : Prop :=
  (∀ (x : List Byte) (c : Cursor), x.length ≤ c.inIdx → readByte x c = .error .prematureEnd) ∧
  (∀ (x : List Byte) (c : Cursor), x.length ≤ c.inIdx → c.backtrack = false → c.bitMask >>> 1 = 0 →
    readBit x c = .error .prematureEnd) ∧
  (∀ (f : Fmt) (v : Variant) (at_ : Place) (i : Instr) (n : Nat),
    tokenVariant i = some v → i.wellFormed = true → mayStand i at_ = true → n < (layout (tokenItems f i)).length →
    decodeToken f v at_ ((layout (tokenItems f i)).take n) Cursor.start = .error (truncatedError f i n)) ∧
  (∀ rest : List Byte,
    decodeZx7 (layout (bitItems (true :: List.replicate 17 false)) ++ rest) .readToken Cursor.start =
      .error .zx7PrefixTooLong) ∧
  (∀ (f : Fmt) (st : DState) (bits : List Bool) (rest : List Byte),
    (st = .readLiteralRun ∨ st = .readLastOffsetCopy ∨ st = .readNewOffsetCopy) → bits.length = 31 →
    decodeZx0 f
      (layout (bitItems ((bits.flatMap fun d => [continueBit f.pol, d]) ++ [continueBit f.pol])) ++ rest)
      st Cursor.start = .error .gammaTooLong) ∧
  (∀ (f : Fmt) (M : Nat) (lsb : Byte) (bits : List Bool) (rest : List Byte),
    1 ≤ M → M ≤ 255 → lsb.getLsbD 0 = continueBit f.pol → bits.length = 31 →
    decodeZx0 f
      (layout (bitItems (igammaBits f.pol f.inv M) ++ [.byte lsb] ++
        bitItems ((bits.flatMap fun d => [continueBit f.pol, d]) ++ [continueBit f.pol]).tail) ++ rest)
      .readNewOffsetCopy Cursor.start = .error .gammaTooLong) ∧
  (∀ (f : Fmt) (M : Nat) (rest : List Byte), 256 < M → M < 2 ^ 32 →
    decodeZx0 f (layout (bitItems (igammaBits f.pol f.inv M)) ++ rest) .readNewOffsetCopy Cursor.start =
      .error .msbAbove256) ∧
  (∀ (L : Nat) (rest : List Byte), 256 ≤ L → L ≤ 258 →
    decodeMlz (layout (bitItems ([false, true, true] ++ gammaBits (L - 3))) ++ rest) .readToken Cursor.start =
      .error .mlzLengthAbove255)

/-- R159, R163: the stream positions a well-formed token occupies are the cost the cost model gives it; the end markers take 18,
18 and 11 bits. -/
def Obligations.TokenBitsEqualCost : Prop :=
  ∀ (f : Fmt) (i : Instr) (v : Variant), tokenVariant i = some v → i.wellFormed = true →
    some (itemBits (tokenItems f i)) = tokenCost i

/-- R84, R89, R90, R97: words written out from the spec's encodings, decoded, and tokens laid out. A sanity statement. That
`decodeTableWord` reads a 16-bit word as two stream bytes, the first byte highest, and an 8- or 32-bit word as a store to CTRL is
the model's choice (log 21, DESIGN CHOICE). -/
def Obligations.TableWordsDecode : Prop :=
  decodeTableWord 16 0x5FFF = some (.mlzCpy3L 257) ∧
  decodeTableWord 16 0x5000 = some (.mlzCpy3L 4352) ∧
  decodeTableWord 32 0x00000411 = some (.compress 4) ∧
  decodeTableWord 32 0x00000721 = some (.decompress 7) ∧
  decodeTableWord 32 0x00000031 = none ∧
  layout (tokenItems { pol := .fwd, inv := true } (.zx7CpyL 200 3)) = [0xA0, 0xC7] ∧
  layout (tokenItems { pol := .fwd, inv := true } (.mlzCpy1 1)) = [0x1C] ∧
  layout (tokenItems { pol := .fwd, inv := true } (.mlzCpy2 256)) = [0x20, 0x00] ∧
  layout (tokenItems { pol := .fwd, inv := true } .zx7End) = [0x80, 0x00, 0x40]

/-! ### Running tokens -/

/-- R123, R122, R124: a step runs the decoded instruction: the token at the unpacker's cursor, the token of the packer's next
operation, the command of a store to CTRL. -/
def Obligations.StepRunsTheDecodedInstruction : Prop :=
  (∀ (s : State) (i : Instr) (c : Cursor), s.inputs = [] → s.phase = .unpack →
    decode s.fmt s.variant s.up.dstate s.image s.up.cur = .ok (i, c) →
    step s = exec i { s with up := { s.up with cur := c } }) ∧
  (∀ (s : State) (rest : List Input) (i : Instr) (c : Cursor), s.inputs = .engine :: rest → s.phase = .unpack →
    decode s.fmt s.variant s.up.dstate s.image s.up.cur = .ok (i, c) →
    step s = exec i { s with inputs := rest, up := { s.up with cur := c } }) ∧
  (∀ (s : State) (i : Instr), s.inputs = [] → s.phase = .emit → s.nextToken = some i →
    step s = exec i { s with ops := s.ops.tail }) ∧
  (∀ (s : State) (rest : List Input) (a : Word) (d : BitVec 64) (i : Instr),
    s.inputs = .store .w32 a d :: rest → s.inWindow a = true → s.offset a = 0x04 →
    decodeCtrl (d.truncate 32) = some i → step s = exec i { s with inputs := rest })

/-- R246, R238, R267: a stream the decoder rejects ends the command in the step that meets it: with `INVALID`, but for a literal
run cut short whose bytes before the end do not fit in the output, for then the capacity failed first: `ALLOC`. -/
def Obligations.RejectedStreamsEndTheCommand : Prop :=
  ∀ (s : State) (e : DecodeError), s.inputs = [] → s.phase = .unpack → s.dutyBroken = false →
    decode s.fmt s.variant s.up.dstate s.image s.up.cur = .error e →
    ((∀ bs, e ≠ .prematureRun bs) → ∃ t, step s = .next t ∧ failedFrom s t .invalid) ∧
    (∀ bs, e = .prematureRun bs → s.obuf.length ≤ s.capl →
      ∃ t, step s = .next t ∧
        failedFrom s t (if s.obuf.length + bs.length ≤ s.capl then .invalid else .alloc))

/-- R235, R237, R239: FIRST and LIT of ZX7 and MegaLZ output their byte, and a byte beyond `CAPL` is `ALLOC`. -/
def Obligations.LiteralTokensOutputTheirByte : Prop :=
  ∀ (s : State) (b : Byte), s.phase = .unpack →
    (s.obuf.length < s.capl → s.variant = .zx7 →
      exec (.zx7First b) s = .next { s with
        obuf := s.obuf ++ [b], hist := s.hist.write (s.obuf.length % 65536) b
        up := { s.up with dstate := .readToken } } ∧
      exec (.zx7Lit b) s = .next { s with
        obuf := s.obuf ++ [b], hist := s.hist.write (s.obuf.length % 65536) b }) ∧
    (s.obuf.length < s.capl → s.variant = .megalz →
      exec (.mlzFirst b) s = .next { s with
        obuf := s.obuf ++ [b], hist := s.hist.write (s.obuf.length % 65536) b
        up := { s.up with dstate := .readToken } } ∧
      exec (.mlzLit b) s = .next { s with
        obuf := s.obuf ++ [b], hist := s.hist.write (s.obuf.length % 65536) b }) ∧
    (s.capl ≤ s.obuf.length → s.variant = .zx7 →
      exec (.zx7First b) s = .next (s.raise .alloc) ∧ exec (.zx7Lit b) s = .next (s.raise .alloc)) ∧
    (s.capl ≤ s.obuf.length → s.variant = .megalz →
      exec (.mlzFirst b) s = .next (s.raise .alloc) ∧ exec (.mlzLit b) s = .next (s.raise .alloc))

/-- R234, R237, R239: every copy token of ZX7 and MegaLZ, with every offset and length of its encoding that the output produced
and its capacity allow, outputs its `L` bytes, each the one `o` places before it; nothing else changes. -/
def Obligations.CopyTokensRepeatTheOutput : Prop :=
  ∀ (s : State) (i : Instr) (v : Variant) (o L : Nat),
    copyToken i = some (v, o, L) → i.wellFormed = true →
    s.phase = .unpack → s.variant = v → s.histOk → o ≤ s.obuf.length → s.obuf.length + L ≤ s.capl →
    ∃ t, exec i s = .next t ∧ copiedFrom s t o L

/-- R234, R235, R240: a copy beyond the output produced is `INVALID` before any of its bytes is output; one that passes `CAPL`
is `ALLOC`. -/
def Obligations.CopyTokensFailAsTheRulesSay : Prop :=
  ∀ (s : State) (i : Instr) (v : Variant) (o L : Nat),
    copyToken i = some (v, o, L) → i.wellFormed = true →
    s.phase = .unpack → s.variant = v → s.dutyBroken = false → s.obuf.length ≤ s.capl →
    (s.obuf.length < o → ∃ t, exec i s = .next t ∧ failedFrom s t .invalid) ∧
    (o ≤ s.obuf.length → s.capl < s.obuf.length + L → ∃ t, exec i s = .next t ∧ failedFrom s t .alloc)

/-- R238: LIT0 and LIT output the run's bytes; the indicator bit that follows chooses the next state. -/
def Obligations.Zx0RunsOutputTheirBytes : Prop :=
  ∀ (s : State) (bs : List Byte) (ind : Bool) (c : Cursor),
    s.phase = .unpack → s.variant = .zx0 → s.histOk → s.obuf.length + bs.length ≤ s.capl →
    readBit s.image s.up.cur = .ok (ind, c) →
    ∃ t, exec (.zx0Lit0 bs) s = .next t ∧ exec (.zx0Lit bs) s = .next t ∧
      t = { s with
        obuf := s.obuf ++ bs
        hist := t.hist
        up := { s.up with
          cur := c, dstate := if ind then .readNewOffsetCopy else .readLastOffsetCopy } } ∧
      t.histOk

/-- R234, R238: REP copies from the last offset and CPY from its own, which becomes the last; then the indicator bit. -/
def Obligations.Zx0CopiesRepeatTheOutput : Prop :=
  ∀ (s : State) (o L : Nat) (ind : Bool) (c : Cursor),
    s.phase = .unpack → s.variant = .zx0 → s.histOk → 1 ≤ o → o ≤ 32640 → o ≤ s.obuf.length →
    s.obuf.length + L ≤ s.capl → readBit s.image s.up.cur = .ok (ind, c) →
    ∃ t : State,
      copiedFrom s t o L ∧
      exec (.zx0Cpy o L) s = .next { t with
        up := { cur := c, lastOffset := o, dstate := if ind then .readNewOffsetCopy else .readLiteralRun } } ∧
      (s.up.lastOffset = o →
        exec (.zx0Rep L) s = .next { t with
          up := { cur := c, lastOffset := o, dstate := if ind then .readNewOffsetCopy else .readLiteralRun } })

/-- R234, R235, R238, R246: a ZX0 token whose indicator bit lies beyond the end of the stream is `INVALID`, once its output fits;
one whose output passes `CAPL` is `ALLOC`; a copy of offset 0 or beyond the output produced is `INVALID`. Each is said of the
runs LIT0 and LIT and of the copies CPY and REP. -/
def Obligations.Zx0TokensFailAsTheRulesSay : Prop :=
  ∀ (s : State) (e : DecodeError),
    s.phase = .unpack → s.variant = .zx0 → s.dutyBroken = false → s.obuf.length ≤ s.capl →
    (∀ bs, readBit s.image s.up.cur = .error e → s.obuf.length + bs.length ≤ s.capl →
      ∃ t, exec (.zx0Lit bs) s = .next t ∧ exec (.zx0Lit0 bs) s = .next t ∧ failedFrom s t .invalid) ∧
    (∀ bs, s.capl < s.obuf.length + bs.length →
      ∃ t, exec (.zx0Lit bs) s = .next t ∧ exec (.zx0Lit0 bs) s = .next t ∧ failedFrom s t .alloc) ∧
    (∀ o L, readBit s.image s.up.cur = .error e → 1 ≤ o → o ≤ s.obuf.length → s.obuf.length + L ≤ s.capl →
      ∃ t, exec (.zx0Cpy o L) s = .next t ∧ failedFrom s t .invalid) ∧
    (∀ L, readBit s.image s.up.cur = .error e → 1 ≤ s.up.lastOffset → s.up.lastOffset ≤ s.obuf.length →
      s.obuf.length + L ≤ s.capl → ∃ t, exec (.zx0Rep L) s = .next t ∧ failedFrom s t .invalid) ∧
    (∀ o L, 1 ≤ o → o ≤ s.obuf.length → s.capl < s.obuf.length + L →
      ∃ t, exec (.zx0Cpy o L) s = .next t ∧ failedFrom s t .alloc) ∧
    (∀ L, 1 ≤ s.up.lastOffset → s.up.lastOffset ≤ s.obuf.length → s.capl < s.obuf.length + L →
      ∃ t, exec (.zx0Rep L) s = .next t ∧ failedFrom s t .alloc) ∧
    (∀ o L, o < 1 ∨ s.obuf.length < o → ∃ t, exec (.zx0Cpy o L) s = .next t ∧ failedFrom s t .invalid) ∧
    (∀ L, s.up.lastOffset < 1 ∨ s.obuf.length < s.up.lastOffset →
      ∃ t, exec (.zx0Rep L) s = .next t ∧ failedFrom s t .invalid)

/-- R245, R126, R247: an END token ends UNPACK with what has been output and read; a reversed mode's output is reversed next. -/
def Obligations.EndTokensEndUnpacking : Prop :=
  ∀ s : State, s.phase = .unpack → s.compressing = false →
    (∀ i, (s.variant = .zx7 ∧ i = .zx7End) ∨ (s.variant = .zx0 ∧ i = .zx0End) ∨ (s.variant = .megalz ∧ i = .mlzEnd) →
      exec i s = .next { s with
        up := { s.up with dstate := .done }
        phase := if s.latch.mode = 1 ∨ s.latch.mode = 3 ∨ s.latch.mode = 5 then .reverseOut else .writeback }) ∧
    stepEngine { s with phase := .reverseOut } = .next { s with obuf := s.obuf.reverse, phase := .writeback }

/-- R234: while a stream is unpacked, every engine step keeps HIST the mirror of the output; UNPACK starts with none. -/
def Obligations.HistoryMirrorsTheOutput : Prop :=
  (∀ s t : State, s.phase = .unpack → s.histOk → stepEngine s = .next t → t.phase = .unpack → t.histOk) ∧
  (∀ s t : State, s.phase = .check → s.hist.wf → stepEngine s = .next t → t.phase = .unpack ∨ t.phase = .reverseIn →
    t.histOk)

/-! ### The packer -/

/-- R82, R200 to R214: emitting any well-formed token the packer is ready for, where OBUF has room for the stream with the token
laid out after it, answers a next state in which
the stream under way is the one before with the token's encoding laid out after it, `LAST_OFFSET` and `PREV_KIND` are as R207 to
R210 say, the bit count has grown by the token's positions, of which at most 7 of the last byte are unused, and nothing else
changes but, after END, the phase. -/
def Obligations.EmittedTokenAppendsItsEncoding : Prop :=
  ∀ (s : State) (i : Instr), tokenVariant i = some s.variant → i.wellFormed = true →
    s.phase = .emit → s.packerOk → emitReady s i → s.compressing = true →
    (laidOut s i).out.length ≤ obufSize s.params →
    ∃ t, exec i s = .next t ∧
      layoutOf t = laidOut s i ∧
      t.pk.lastOffset = (packerAfter s i).1 ∧ t.pk.prevKind = (packerAfter s i).2 ∧ t.pk.backtrack = false ∧
      t.packerOk ∧
      t.costBits = s.costBits + itemBits (tokenItems s.fmt i) ∧ t.obuf.length = (t.costBits + 7) / 8 ∧
      t = { s with
        obuf := t.obuf, pk := t.pk
        phase := if isEnd i then (if s.reversed then .reverseOut else .capacity) else .emit }

/-- R200, R210, R216, R263: a last-offset copy after anything but a literal run, and a copy outside the mode's range, end the
command with `LIMIT`; a token that needs a byte beyond `OBUF_SIZE`, at its first item or part way, ends it with `ALLOC`. -/
def Obligations.EmissionFailsAsTheRulesSay : Prop :=
  ∀ s : State, s.phase = .emit → s.dutyBroken = false →
    (∀ L, s.variant = .zx0 → s.pk.prevKind ≠ .lit → ∃ t, exec (.zx0Rep L) s = .next t ∧ failedFrom s t .limit) ∧
    (∀ o L, s.variant = .zx0 → copyInRange s.latch.mode o L = false →
      ∃ t, exec (.zx0Cpy o L) s = .next t ∧ failedFrom s t .limit) ∧
    (∀ (i : Instr) (v : Variant) (o L : Nat), copyToken i = some (v, o, L) → s.variant = v →
      copyInRange s.latch.mode o L = false → ∃ t, exec i s = .next t ∧ failedFrom s t .limit) ∧
    (∀ i : Instr, tokenVariant i = some s.variant → i.wellFormed = true → emitReady s i →
      s.obuf.length ≤ obufSize s.params → obufSize s.params < (laidOut s i).out.length →
      ∃ t, exec i s = .next t ∧ failedFrom s t .alloc)

/-! ### Match index and parsers -/

/-- R141 to R143, 90_conflicts.md C1: walking the two-byte table at each position, cut off as it goes, yields exactly the offsets
the ZX7 parser is offered, in the same order. -/
def Obligations.Zx7WalkYieldsTheCandidateOffsets : Prop :=
  ∀ (x : List Byte) (i k : Nat), 1 ≤ i → keyAt x (i - 1) = some k →
    (((indexBefore (fun ix q => ix.visitZx7 x q) i).walk Config.zx7MaxOffset i k (i + 1) none).1.map (i - ·)) =
      zx7Offsets x i

/-- R141, R142, R145: walking the table yields exactly the offsets within 4352 at which the byte pair at `p` matches, in ascending
order: those that R145's lengths of 2 or more are found at. Not each of them has a candidate: where just two bytes match, CPY2
needs an offset of at most 256 (R157). That position 0 and every earlier position are in the table is the model's inference
(log 13). -/
def Obligations.MlzWalkYieldsThePairOffsets : Prop :=
  ∀ (x : List Byte) (p k : Nat), 1 ≤ p → keyAt x p = some k →
    (((indexBefore (fun ix q => ix.visitMlz x q) p).walk Config.mlzMaxOffset p k (p + 1) none).1.map (p - ·)) =
      (upTo (min Config.mlzMaxOffset p)).filter fun o => matchForward x p o 2 == 2

/-- R143, R146, R170: what the ZX7 parser records at a position is a literal, or an offered offset with a length that matches
there and that the format can represent, at its cost. -/
def Obligations.Zx7ChoiceIsAnOfferedCopy : Prop :=
  ∀ (x : List Byte) (es : List Zx7Entry) (i : Nat), 1 ≤ i →
    (zx7Entry x es i).len = 0 ∧ (zx7Entry x es i).off = 0 ∧
        (zx7Entry x es i).cost = Cost.plus (zx7Cost es (i - 1)) (some 9) ∨
      (zx7Entry x es i).off ∈ zx7Offsets x i ∧ 2 ≤ (zx7Entry x es i).len ∧
        (zx7Entry x es i).len ≤ matchBackward x i (zx7Entry x es i).off Config.zx7MaxLen ∧
        (costCopyZx7 (zx7Entry x es i).off (zx7Entry x es i).len).isSome = true ∧
        (zx7Entry x es i).cost =
          Cost.plus (zx7Cost es (i - (zx7Entry x es i).len))
            (costCopyZx7 (zx7Entry x es i).off (zx7Entry x es i).len)

/-- R170: the recorded cost is at most that of the literal and of every copy offered at the position, at every length that
matches, though the parser tries each length only with the least offset that reaches it. -/
def Obligations.Zx7PositionCostIsLeast : Prop :=
  ∀ (x : List Byte) (es : List Zx7Entry) (i : Nat), 1 ≤ i →
    Cost.less (Cost.plus (zx7Cost es (i - 1)) (some 9)) (zx7Entry x es i).cost = false ∧
    ∀ o ∈ zx7Offsets x i, ∀ L, 2 ≤ L → L ≤ matchBackward x i o Config.zx7MaxLen →
      Cost.less (Cost.plus (zx7Cost es (i - L)) (costCopyZx7 o L)) (zx7Entry x es i).cost = false

/-- R177, R191: the ZX7 parse, from the first byte to the last, stands for the input: its operations expand to exactly `x`. -/
def Obligations.Zx7ParseReproducesTheInput : Prop :=
  ∀ x : List Byte, x ≠ [] → expand [] (zx7Ops x (zx7Build x x.length)) = x

/-- R180, R193: one position of the MegaLZ scan leaves the costs up to it as they are, lowers others only, and relaxes the literal and
every candidate copy. -/
def Obligations.MlzScanRelaxesEveryTransition : Prop :=
  ∀ (x : List Byte) (es : List MlzEntry) (p : Nat), es.length = x.length + 1 → 1 ≤ p → p < x.length →
    (∀ q ≤ p, (mlzScanAt x es p)[q]? = es[q]?) ∧
    (∀ q, Cost.less (mlzCost es q) (mlzCost (mlzScanAt x es p) q) = false) ∧
    Cost.less (Cost.plus (mlzCost es p) (some 9)) (mlzCost (mlzScanAt x es p) (p + 1)) = false ∧
    ∀ c ∈ mlzCandidates x p,
      Cost.less (Cost.plus (mlzCost es p) (costCopyMlz c.1 c.2)) (mlzCost (mlzScanAt x es p) (p + c.2)) = false

/-- R181, R191: the MegaLZ optimal parse stands for the input, with a finite cost. -/
def Obligations.MlzParseReproducesTheInput : Prop :=
  ∀ x : List Byte, x ≠ [] →
    (mlzCost (mlzBuild x x.length) x.length).isSome = true ∧
    expand [] (mlzOps x (mlzBuild x x.length)) = x

/-- R190: the greedy choice is the first candidate of the greatest gain, and the literal only when no candidate exists. -/
def Obligations.GreedyTakesTheFirstGreatestGain : Prop :=
  ∀ (x : List Byte) (p : Nat), 1 ≤ p → p < x.length →
    (mlzCandidates x p = [] → greedyChoice x p = { o := 0, L := 1, bits := 9, gain := -1 }) ∧
    (mlzCandidates x p ≠ [] →
      ∃ (before after : List (Nat × Nat)) (b : Nat),
        mlzCandidates x p = before ++ ((greedyChoice x p).o, (greedyChoice x p).L) :: after ∧
        costCopyMlz (greedyChoice x p).o (greedyChoice x p).L = some b ∧
        (greedyChoice x p).bits = b ∧ (greedyChoice x p).gain = 8 * ((greedyChoice x p).L : Int) - b ∧
        (∀ c ∈ before, ∀ bc, costCopyMlz c.1 c.2 = some bc → 8 * (c.2 : Int) - bc < (greedyChoice x p).gain) ∧
        (∀ c ∈ after, ∀ bc, costCopyMlz c.1 c.2 = some bc → 8 * (c.2 : Int) - bc ≤ (greedyChoice x p).gain))

/-- R190, R191: every step of the greedy parse keeps its operations standing for the input scanned so far. -/
def Obligations.GreedyParseFollowsTheInput : Prop :=
  ∀ s t : State, s.phase = .parse → s.variant = .megalz → s.latch.mode = 7 →
    s.scan < s.image.length → expand [] s.ops = s.image.take s.scan → (s.scan = 0 → s.ops = []) →
    stepEngine s = .next t →
    t.phase = .parse ∧ s.scan < t.scan ∧ t.scan ≤ s.image.length ∧ t.image = s.image ∧
      expand [] t.ops = t.image.take t.scan

/-- R132: the MegaLZ optimal parse costs no more than the greedy parse of the same input. -/
def Obligations.OptimalCostsNoMoreThanGreedy : Prop :=
  ∀ x : List Byte, x ≠ [] →
    Cost.less (some (greedyTotal x x.length 1 8)) (mlzCost (mlzBuild x x.length) x.length) = false

/-- R173: `OPTIMAL[index]` is never `NULL` after position `index` is processed, so the ZX0 parser's `LIMIT` is never raised. -/
def Obligations.Zx0ParserAlwaysFindsANode : Prop :=
  ∀ (x : List Byte) (limit index : Nat), 1 ≤ limit → index < x.length →
    (zx0Build x limit (index + 1)).optimal.getD index none ≠ none ∧
    ((zx0Build x limit (index + 1)).opt index).isSome = true

/-- R174, R191: the ZX0 parse stands for the input: it begins with a literal run, and its operations expand to exactly `x`. -/
def Obligations.Zx0ParseReproducesTheInput : Prop :=
  ∀ (x : List Byte) (limit : Nat), x ≠ [] → 1 ≤ limit →
    (∃ bs ops, zx0Ops x (zx0Build x limit x.length) = .run bs :: ops ∧ bs ≠ []) ∧
    expand [] (zx0Ops x (zx0Build x limit x.length)) = x

/-! ### Whole commands -/

/-- R131, R161 and R162 for ZX7 and MegaLZ: COMPRESS of a non-empty input comes to CAPACITY with a stream within R162's bound,
from which a DECOMPRESS in the same mode gives the input back; where the stream fits in `L_CAP` it is then written back, else
the command ends with `ALLOC`. -/
def Obligations.RoundTripZx7AndMegaLz : Prop :=
  ∀ s : State, atCheck s → s.checkError = none → s.latch.cmd = 1 → s.latch.len ≠ 0 →
    s.image.length = s.latch.len.toNat → s.variant ≠ .zx0 →
    ∃ n t, runEngine n s = .next t ∧ t.phase = .capacity ∧ unpacksTo s t.obuf ∧
      t.costBits ≤ 9 * s.image.length + 17 ∧ t.obuf.length = (t.costBits + 7) / 8 ∧
      (t.obuf.length ≤ s.latch.cap.toNat → stepEngine t = .next { t with phase := .writeback }) ∧
      (s.latch.cap.toNat < t.obuf.length → ∃ u, stepEngine t = .next u ∧ failedFrom s u .alloc)

/-- R131 for ZX0, in both polarities, with and without inversion: where COMPRESS of a non-empty input succeeds, a DECOMPRESS of
its stream in the same mode gives the input back. -/
def Obligations.RoundTripZx0 : Prop :=
  ∀ s : State, atCheck s → s.checkError = none → s.latch.cmd = 1 → s.latch.len ≠ 0 →
    s.image.length = s.latch.len.toNat → s.variant = .zx0 →
    ∃ n t, runEngine n s = .next t ∧
      (t.phase = .writeback ∧ unpacksTo s t.obuf ∨ t.phase = .idle ∧ t.csr.err = true)

/-- R130: a one-byte input compresses, in every mode, to a stream of one literal and the end marker, with the bit count of
R206, R212 and R215. -/
def Obligations.OneByteInputs : Prop :=
  ∀ (s : State) (b : Byte), atCheck s → s.checkError = none → s.latch.cmd = 1 → s.latch.len = 1 → s.image = [b] →
    1 ≤ s.params.maxInputLen → 4 ≤ s.latch.cap.toNat →
    ∃ n t, runEngine n s = .next t ∧ t.phase = .writeback ∧ t.csr = s.csr ∧ t.mem = s.mem ∧
      (s.variant = .zx7 → s.reversed = false → t.obuf = [b, 0x80, 0x00, 0x40] ∧ t.costBits = 26) ∧
      (s.variant = .zx7 → s.reversed = true → t.obuf = [0x40, 0x00, 0x80, b] ∧ t.costBits = 26) ∧
      (s.variant = .zx0 → s.fmt = { pol := .fwd, inv := true } → s.reversed = false →
        t.obuf = [0xD5, b, 0x55, 0x60] ∧ t.costBits = 27) ∧
      (s.variant = .zx0 → s.fmt = { pol := .fwd, inv := false } → s.reversed = false →
        t.obuf = [0xC0, b, 0x00, 0x20] ∧ t.costBits = 27) ∧
      (s.variant = .zx0 → s.fmt = { pol := .fwd, inv := true } → s.reversed = true →
        t.obuf = [0x60, 0x55, b, 0xD5] ∧ t.costBits = 27) ∧
      (s.variant = .zx0 → s.fmt = { pol := .fwd, inv := false } → s.reversed = true →
        t.obuf = [0x20, 0x00, b, 0xC0] ∧ t.costBits = 27) ∧
      (s.variant = .zx0 → s.fmt.pol = .back → t.obuf = [0x80, 0xAA, b, 0x6A] ∧ t.costBits = 27) ∧
      (s.variant = .megalz → t.obuf = [b, 0x60, 0x00] ∧ t.costBits = 19)
end

