-- ==== Sys2Proof/Laws/Layout.lean ====
section
/-! SUPPORT. The layout of a stream (spec/30_encoding.md R82): what one item adds to its length, and that laying items out never
shortens it. -/

namespace Sys2Proof

@[simp] theorem orByte_length (l : List Byte) (i : Nat) (m : Byte) : (orByte l i m).length = l.length := by
  simp [orByte]

/-- A byte item adds a byte; a bit item adds one exactly where no bit group has a free position. -/
theorem Layout.put_length (l : Layout) (it : Item) :
    (l.put it).out.length =
      l.out.length + match it with
        | .byte _ => 1
        | .bit _ => if l.free = 0 then 1 else 0 := by
  cases it with
  | byte b => simp [Layout.put]
  | bit b =>
    by_cases h : l.free = 0
    · simp [Layout.put, h]
    · cases b <;> simp [Layout.put, h]

theorem Layout.put_length_le (l : Layout) (it : Item) : l.out.length ≤ (l.put it).out.length := by
  rw [Layout.put_length]
  exact Nat.le_add_right _ _

/-- Laying items out never shortens the stream, so a prefix of the items never takes more room than all of them. -/
theorem Layout.foldl_put_length_le (items : List Item) (l : Layout) :
    l.out.length ≤ (items.foldl Layout.put l).out.length := by
  induction items generalizing l with
  | nil => exact Nat.le_refl _
  | cons it items ih => exact Nat.le_trans (Layout.put_length_le l it) (ih (l.put it))

end Sys2Proof
end

