-- ==== Sys2Proof/Laws/Memory.lean ====
section
/-! SUPPORT. Tables and memory: a read after a write, the canonical form kept by every memory operation. -/

namespace Sys2Proof.Machine

/-! ### Tables -/

@[simp] theorem Table.get_nil {α : Type} (k : Nat) : Table.get ([] : Table α) k = none := rfl

theorem Table.get_set {α : Type} (t : Table α) (k k' : Nat) (v : α) :
    Table.get (Table.set t k v) k' = if k' = k then some v else Table.get t k' := by
  induction t with
  | nil => simp [Table.set, Table.get]
  | cons c t ih =>
    obtain ⟨a, w⟩ := c
    simp only [Table.set]
    split
    · simp [Table.get]
    · split
      · rename_i h1 h2
        subst h2
        by_cases h : k' = k <;> simp [Table.get, h]
      · rename_i h1 h2
        by_cases h : k' = a
        · subst h; simp [Table.get, Ne.symm h2]
        · simp [Table.get, h, ih]

/-- An entry below a sorted table's first key is not in it. -/
theorem Table.get_eq_none_of_lt {α : Type} (t : Table α) (k : Nat) (h : ∀ c ∈ t, k < c.1) :
    Table.get t k = none := by
  induction t with
  | nil => rfl
  | cons c t ih =>
    obtain ⟨a, w⟩ := c
    have ha : k < a := h (a, w) (by simp)
    simp only [Table.get, Nat.ne_of_lt ha, ↓reduceIte]
    exact ih fun c hc => h c (by simp [hc])

theorem Table.sorted_cons {α : Type} (c : Nat × α) (t : Table α) :
    Table.sorted (c :: t) ↔ (∀ d ∈ t, c.1 < d.1) ∧ Table.sorted t := by
  simp [Table.sorted]

theorem Table.get_erase {α : Type} (t : Table α) (k k' : Nat) (hs : Table.sorted t) :
    Table.get (Table.erase t k) k' = if k' = k then none else Table.get t k' := by
  induction t with
  | nil => simp [Table.erase, Table.get]
  | cons c t ih =>
    obtain ⟨a, w⟩ := c
    obtain ⟨hlt, hs'⟩ := (Table.sorted_cons _ _).1 hs
    simp only [Table.erase]
    split
    · rename_i h
      subst h
      by_cases h : k' = k
      · subst h; simpa using Table.get_eq_none_of_lt t _ hlt
      · simp [Table.get, h]
    · rename_i h2
      by_cases h : k' = a
      · subst h; simp [Table.get, Ne.symm h2]
      · simp [Table.get, h, ih hs']

theorem Table.mem_set {α : Type} {t : Table α} {k : Nat} {v : α} {c : Nat × α}
    (h : c ∈ Table.set t k v) : c = (k, v) ∨ c ∈ t := by
  induction t with
  | nil => simpa [Table.set] using h
  | cons d t ih =>
    obtain ⟨a, w⟩ := d
    simp only [Table.set] at h
    split at h
    · simpa using h
    · split at h
      · rcases List.mem_cons.1 h with h | h
        · exact .inl h
        · exact .inr (List.mem_cons_of_mem _ h)
      · rcases List.mem_cons.1 h with h | h
        · exact .inr (by simp [h])
        · exact (ih h).imp id (List.mem_cons_of_mem _)

theorem Table.mem_erase {α : Type} {t : Table α} {k : Nat} {c : Nat × α}
    (h : c ∈ Table.erase t k) : c ∈ t := by
  induction t with
  | nil => simp [Table.erase] at h
  | cons d t ih =>
    obtain ⟨a, w⟩ := d
    simp only [Table.erase] at h
    split at h
    · exact List.mem_cons_of_mem _ h
    · rcases List.mem_cons.1 h with h | h
      · simp [h]
      · exact List.mem_cons_of_mem _ (ih h)

theorem Table.set_sorted {α : Type} (t : Table α) (k : Nat) (v : α) (hs : Table.sorted t) :
    Table.sorted (Table.set t k v) := by
  induction t with
  | nil => simp [Table.set, Table.sorted]
  | cons c t ih =>
    obtain ⟨a, w⟩ := c
    obtain ⟨hlt, hs'⟩ := (Table.sorted_cons _ _).1 hs
    simp only [Table.set]
    split
    · rename_i h
      refine (Table.sorted_cons _ _).2 ⟨fun d hd => ?_, hs⟩
      rcases List.mem_cons.1 hd with hd | hd
      · simpa [hd] using h
      · exact Nat.lt_trans h (hlt d hd)
    · split
      · rename_i h
        subst h
        exact (Table.sorted_cons _ _).2 ⟨hlt, hs'⟩
      · rename_i h1 h2
        refine (Table.sorted_cons _ _).2 ⟨fun d hd => ?_, ih hs'⟩
        rcases Table.mem_set hd with hd | hd
        · simp only [hd]; omega
        · exact hlt d hd

theorem Table.erase_sorted {α : Type} (t : Table α) (k : Nat) (hs : Table.sorted t) :
    Table.sorted (Table.erase t k) := by
  induction t with
  | nil => simp [Table.erase, Table.sorted]
  | cons c t ih =>
    obtain ⟨a, w⟩ := c
    obtain ⟨hlt, hs'⟩ := (Table.sorted_cons _ _).1 hs
    simp only [Table.erase]
    split
    · exact hs'
    · exact (Table.sorted_cons _ _).2 ⟨fun d hd => hlt d (Table.mem_erase hd), ih hs'⟩

/-! ### Memory -/

@[simp] theorem Memory.read_nil (a : Nat) : Memory.read [] a = 0 := rfl

theorem Memory.wf_nil : Memory.wf [] := ⟨List.Pairwise.nil, by simp⟩

/-- A read after a write. -/
theorem Memory.read_write (m : Memory) (a a' : Nat) (b : Byte) (h : m.wf) :
    (m.write a b).read a' = if a' = a then b else m.read a' := by
  unfold Memory.write Memory.read
  by_cases hb : b = 0
  · rw [if_pos hb, Table.get_erase m a a' h.1]
    by_cases ha : a' = a <;> simp [ha, hb]
  · rw [if_neg hb, Table.get_set]
    by_cases ha : a' = a <;> simp [ha]

@[simp] theorem Memory.read_write_same (m : Memory) (a : Nat) (b : Byte) (h : m.wf) :
    (m.write a b).read a = b := by simp [Memory.read_write m a a b h]

theorem Memory.read_write_other (m : Memory) (a a' : Nat) (b : Byte) (h : m.wf) (ne : a' ≠ a) :
    (m.write a b).read a' = m.read a' := by simp [Memory.read_write m a a' b h, ne]

/-- A write keeps the canonical form. -/
theorem Memory.write_wf (m : Memory) (a : Nat) (b : Byte) (h : m.wf) : (m.write a b).wf := by
  unfold Memory.write
  split
  · exact ⟨Table.erase_sorted m a h.1, fun c hc => h.2 c (Table.mem_erase hc)⟩
  · rename_i hb
    refine ⟨Table.set_sorted m a b h.1, fun c hc => ?_⟩
    rcases Table.mem_set hc with hc | hc
    · simpa [hc] using hb
    · exact h.2 c hc

/-- A byte of the memory after a write is the byte written or one of before. -/
theorem Memory.mem_write {m : Memory} {a : Nat} {b : Byte} {c : Host.Cell} (h : c ∈ m.write a b) :
    c.1 = a ∨ c ∈ m := by
  unfold Memory.write at h
  split at h
  · exact .inr (Table.mem_erase h)
  · exact (Table.mem_set h).imp (fun h => by simp [h]) id

theorem Memory.writeBytes_wf (bs : List Byte) (m : Memory) (a : Nat) (h : m.wf) :
    (m.writeBytes a bs).wf := by
  induction bs generalizing m a with
  | nil => exact h
  | cons b bs ih => exact ih _ _ (Memory.write_wf m a b h)

theorem Memory.mem_writeBytes {bs : List Byte} {m : Memory} {a : Nat} {c : Host.Cell}
    (h : c ∈ m.writeBytes a bs) : (a ≤ c.1 ∧ c.1 < a + bs.length) ∨ c ∈ m := by
  induction bs generalizing m a with
  | nil => exact .inr h
  | cons b bs ih =>
    rcases ih (m := m.write a b) (a := a + 1) h with h | h
    · simp only [List.length_cons]; omega
    · rcases Memory.mem_write h with h | h
      · simp only [List.length_cons]; omega
      · exact .inr h

/-- `MemWrite` (R62) read back: the bytes written, and every other byte as before. -/
theorem Memory.read_writeBytes (bs : List Byte) (m : Memory) (a a' : Nat) (h : m.wf) :
    (m.writeBytes a bs).read a' =
      if a ≤ a' ∧ a' < a + bs.length then bs.getD (a' - a) 0 else m.read a' := by
  induction bs generalizing m a with
  | nil => simp [Memory.writeBytes]
  | cons b bs ih =>
    have hw := Memory.write_wf m a b h
    simp only [Memory.writeBytes, ih _ _ hw, List.length_cons]
    by_cases h1 : a' = a
    · subst h1
      rw [if_neg (by omega), if_pos (by omega), Memory.read_write_same m a' b h]
      simp
    · by_cases h2 : a + 1 ≤ a' ∧ a' < a + 1 + bs.length
      · have : a' - a = (a' - (a + 1)) + 1 := by omega
        rw [if_pos h2, if_pos (by omega), this]
        simp
      · rw [if_neg h2, if_neg (by omega), Memory.read_write_other m a a' b h h1]

theorem Memory.hostStore_wf (k : Nat) (m : Memory) (a : Word) (d : BitVec 64) (h : m.wf) :
    (m.hostStore a d k).wf := by
  induction k generalizing m a d with
  | zero => exact h
  | succ k ih => exact ih _ _ _ (Memory.write_wf m _ _ h)

theorem Memory.mem_hostStore {k : Nat} {m : Memory} {a : Word} {d : BitVec 64} {c : Host.Cell}
    (h : c ∈ m.hostStore a d k) : c.1 < 2 ^ 32 ∨ c ∈ m := by
  induction k generalizing m a d with
  | zero => exact .inr h
  | succ k ih =>
    rcases ih h with h | h
    · exact .inl h
    · rcases Memory.mem_write h with h | h
      · exact .inl (h ▸ a.isLt)
      · exact .inr h

@[simp] theorem scrambledBytes_length (ctr n : Nat) : (scrambledBytes ctr n).length = n := by
  induction n generalizing ctr with
  | zero => rfl
  | succ n ih => simp [scrambledBytes, ih]

@[simp] theorem Memory.readBytes_length (m : Memory) (a n : Nat) : (m.readBytes a n).length = n := by
  induction n generalizing a with
  | zero => rfl
  | succ n ih => simp [Memory.readBytes, ih]

/-- `MemRead` (R62), element by element. -/
theorem Memory.readBytes_getElem? (m : Memory) (a n k : Nat) (h : k < n) :
    (m.readBytes a n)[k]? = some (m.read (a + k)) := by
  induction n generalizing a k with
  | zero => omega
  | succ n ih =>
    cases k with
    | zero => simp [Memory.readBytes]
    | succ k =>
      simp only [Memory.readBytes, List.getElem?_cons_succ, ih (a + 1) k (by omega)]
      congr 2
      omega

theorem State.scrambledMem_wf (s : State) (h : s.mem.wf) : s.scrambledMem.wf :=
  Memory.writeBytes_wf _ _ _ h

/-- Filling the output buffer with free values leaves every byte outside it as it was. -/
theorem State.scrambledMem_read_outside (s : State) (a : Nat) (h : s.mem.wf)
    (out : inBuffer s.latch.dst s.latch.cap a = false) : s.scrambledMem.read a = s.mem.read a := by
  unfold State.scrambledMem
  rw [Memory.read_writeBytes _ _ _ _ h, if_neg]
  simp only [scrambledBytes_length, State.outputBytes]
  simp only [inBuffer, Bool.and_eq_false_iff, decide_eq_false_iff_not] at out
  omega

theorem State.reset_mem_wf (p : Params) : (State.resetOf p).mem.wf := Memory.wf_nil

end Sys2Proof.Machine
end

