-- ==== Sys2Proof/Laws/State.lean ====
section
/-! SUPPORT. What each named update of the state leaves in each field: one lemma a field, true by unfolding, so that a later
proof unfolds no record update. -/

namespace Sys2Proof.Machine

/-! ### `State.withCursor`: the cursor moved (R50) -/

@[simp] theorem State.withCursor_params (s : State) (c : Cursor) : (s.withCursor c).params = s.params := rfl
@[simp] theorem State.withCursor_csr (s : State) (c : Cursor) : (s.withCursor c).csr = s.csr := rfl
@[simp] theorem State.withCursor_latch (s : State) (c : Cursor) : (s.withCursor c).latch = s.latch := rfl
@[simp] theorem State.withCursor_mem (s : State) (c : Cursor) : (s.withCursor c).mem = s.mem := rfl
@[simp] theorem State.withCursor_phase (s : State) (c : Cursor) : (s.withCursor c).phase = s.phase := rfl
@[simp] theorem State.withCursor_image (s : State) (c : Cursor) : (s.withCursor c).image = s.image := rfl
@[simp] theorem State.withCursor_index (s : State) (c : Cursor) : (s.withCursor c).index = s.index := rfl
@[simp] theorem State.withCursor_scan (s : State) (c : Cursor) : (s.withCursor c).scan = s.scan := rfl
@[simp] theorem State.withCursor_zx7 (s : State) (c : Cursor) : (s.withCursor c).zx7 = s.zx7 := rfl
@[simp] theorem State.withCursor_zx0 (s : State) (c : Cursor) : (s.withCursor c).zx0 = s.zx0 := rfl
@[simp] theorem State.withCursor_mlz (s : State) (c : Cursor) : (s.withCursor c).mlz = s.mlz := rfl
@[simp] theorem State.withCursor_total (s : State) (c : Cursor) : (s.withCursor c).total = s.total := rfl
@[simp] theorem State.withCursor_ops (s : State) (c : Cursor) : (s.withCursor c).ops = s.ops := rfl
@[simp] theorem State.withCursor_obuf (s : State) (c : Cursor) : (s.withCursor c).obuf = s.obuf := rfl
@[simp] theorem State.withCursor_pk (s : State) (c : Cursor) : (s.withCursor c).pk = s.pk := rfl
@[simp] theorem State.withCursor_up (s : State) (c : Cursor) : (s.withCursor c).up = { s.up with cur := c } := rfl
@[simp] theorem State.withCursor_hist (s : State) (c : Cursor) : (s.withCursor c).hist = s.hist := rfl
@[simp] theorem State.withCursor_inputs (s : State) (c : Cursor) : (s.withCursor c).inputs = s.inputs := rfl
@[simp] theorem State.withCursor_rdata (s : State) (c : Cursor) : (s.withCursor c).rdata = s.rdata := rfl
@[simp] theorem State.withCursor_dutyBroken (s : State) (c : Cursor) : (s.withCursor c).dutyBroken = s.dutyBroken := rfl
@[simp] theorem State.withCursor_freeCtr (s : State) (c : Cursor) : (s.withCursor c).freeCtr = s.freeCtr := rfl

/-! ### `State.goto`: `DSTATE` chosen (R236) -/

@[simp] theorem State.goto_params (s : State) (st : DState) : (s.goto st).params = s.params := rfl
@[simp] theorem State.goto_csr (s : State) (st : DState) : (s.goto st).csr = s.csr := rfl
@[simp] theorem State.goto_latch (s : State) (st : DState) : (s.goto st).latch = s.latch := rfl
@[simp] theorem State.goto_mem (s : State) (st : DState) : (s.goto st).mem = s.mem := rfl
@[simp] theorem State.goto_phase (s : State) (st : DState) : (s.goto st).phase = s.phase := rfl
@[simp] theorem State.goto_image (s : State) (st : DState) : (s.goto st).image = s.image := rfl
@[simp] theorem State.goto_index (s : State) (st : DState) : (s.goto st).index = s.index := rfl
@[simp] theorem State.goto_scan (s : State) (st : DState) : (s.goto st).scan = s.scan := rfl
@[simp] theorem State.goto_zx7 (s : State) (st : DState) : (s.goto st).zx7 = s.zx7 := rfl
@[simp] theorem State.goto_zx0 (s : State) (st : DState) : (s.goto st).zx0 = s.zx0 := rfl
@[simp] theorem State.goto_mlz (s : State) (st : DState) : (s.goto st).mlz = s.mlz := rfl
@[simp] theorem State.goto_total (s : State) (st : DState) : (s.goto st).total = s.total := rfl
@[simp] theorem State.goto_ops (s : State) (st : DState) : (s.goto st).ops = s.ops := rfl
@[simp] theorem State.goto_obuf (s : State) (st : DState) : (s.goto st).obuf = s.obuf := rfl
@[simp] theorem State.goto_pk (s : State) (st : DState) : (s.goto st).pk = s.pk := rfl
@[simp] theorem State.goto_up (s : State) (st : DState) : (s.goto st).up = { s.up with dstate := st } := rfl
@[simp] theorem State.goto_hist (s : State) (st : DState) : (s.goto st).hist = s.hist := rfl
@[simp] theorem State.goto_inputs (s : State) (st : DState) : (s.goto st).inputs = s.inputs := rfl
@[simp] theorem State.goto_rdata (s : State) (st : DState) : (s.goto st).rdata = s.rdata := rfl
@[simp] theorem State.goto_dutyBroken (s : State) (st : DState) : (s.goto st).dutyBroken = s.dutyBroken := rfl
@[simp] theorem State.goto_freeCtr (s : State) (st : DState) : (s.goto st).freeCtr = s.freeCtr := rfl

/-! ### `State.setUnpackOffset`: the unpacker's `LAST_OFFSET` (R238) -/

@[simp] theorem State.setUnpackOffset_params (s : State) (o : Nat) : (s.setUnpackOffset o).params = s.params := rfl
@[simp] theorem State.setUnpackOffset_csr (s : State) (o : Nat) : (s.setUnpackOffset o).csr = s.csr := rfl
@[simp] theorem State.setUnpackOffset_latch (s : State) (o : Nat) : (s.setUnpackOffset o).latch = s.latch := rfl
@[simp] theorem State.setUnpackOffset_mem (s : State) (o : Nat) : (s.setUnpackOffset o).mem = s.mem := rfl
@[simp] theorem State.setUnpackOffset_phase (s : State) (o : Nat) : (s.setUnpackOffset o).phase = s.phase := rfl
@[simp] theorem State.setUnpackOffset_image (s : State) (o : Nat) : (s.setUnpackOffset o).image = s.image := rfl
@[simp] theorem State.setUnpackOffset_index (s : State) (o : Nat) : (s.setUnpackOffset o).index = s.index := rfl
@[simp] theorem State.setUnpackOffset_scan (s : State) (o : Nat) : (s.setUnpackOffset o).scan = s.scan := rfl
@[simp] theorem State.setUnpackOffset_zx7 (s : State) (o : Nat) : (s.setUnpackOffset o).zx7 = s.zx7 := rfl
@[simp] theorem State.setUnpackOffset_zx0 (s : State) (o : Nat) : (s.setUnpackOffset o).zx0 = s.zx0 := rfl
@[simp] theorem State.setUnpackOffset_mlz (s : State) (o : Nat) : (s.setUnpackOffset o).mlz = s.mlz := rfl
@[simp] theorem State.setUnpackOffset_total (s : State) (o : Nat) : (s.setUnpackOffset o).total = s.total := rfl
@[simp] theorem State.setUnpackOffset_ops (s : State) (o : Nat) : (s.setUnpackOffset o).ops = s.ops := rfl
@[simp] theorem State.setUnpackOffset_obuf (s : State) (o : Nat) : (s.setUnpackOffset o).obuf = s.obuf := rfl
@[simp] theorem State.setUnpackOffset_pk (s : State) (o : Nat) : (s.setUnpackOffset o).pk = s.pk := rfl
@[simp] theorem State.setUnpackOffset_up (s : State) (o : Nat) :
    (s.setUnpackOffset o).up = { s.up with lastOffset := o } := rfl
@[simp] theorem State.setUnpackOffset_hist (s : State) (o : Nat) : (s.setUnpackOffset o).hist = s.hist := rfl
@[simp] theorem State.setUnpackOffset_inputs (s : State) (o : Nat) : (s.setUnpackOffset o).inputs = s.inputs := rfl
@[simp] theorem State.setUnpackOffset_rdata (s : State) (o : Nat) : (s.setUnpackOffset o).rdata = s.rdata := rfl
@[simp] theorem State.setUnpackOffset_dutyBroken (s : State) (o : Nat) :
    (s.setUnpackOffset o).dutyBroken = s.dutyBroken := rfl
@[simp] theorem State.setUnpackOffset_freeCtr (s : State) (o : Nat) : (s.setUnpackOffset o).freeCtr = s.freeCtr := rfl

/-! ### `State.setPrevKind`: `PREV_KIND` (R49) -/

@[simp] theorem State.setPrevKind_params (s : State) (k : PrevKind) : (s.setPrevKind k).params = s.params := rfl
@[simp] theorem State.setPrevKind_csr (s : State) (k : PrevKind) : (s.setPrevKind k).csr = s.csr := rfl
@[simp] theorem State.setPrevKind_latch (s : State) (k : PrevKind) : (s.setPrevKind k).latch = s.latch := rfl
@[simp] theorem State.setPrevKind_mem (s : State) (k : PrevKind) : (s.setPrevKind k).mem = s.mem := rfl
@[simp] theorem State.setPrevKind_phase (s : State) (k : PrevKind) : (s.setPrevKind k).phase = s.phase := rfl
@[simp] theorem State.setPrevKind_image (s : State) (k : PrevKind) : (s.setPrevKind k).image = s.image := rfl
@[simp] theorem State.setPrevKind_index (s : State) (k : PrevKind) : (s.setPrevKind k).index = s.index := rfl
@[simp] theorem State.setPrevKind_scan (s : State) (k : PrevKind) : (s.setPrevKind k).scan = s.scan := rfl
@[simp] theorem State.setPrevKind_zx7 (s : State) (k : PrevKind) : (s.setPrevKind k).zx7 = s.zx7 := rfl
@[simp] theorem State.setPrevKind_zx0 (s : State) (k : PrevKind) : (s.setPrevKind k).zx0 = s.zx0 := rfl
@[simp] theorem State.setPrevKind_mlz (s : State) (k : PrevKind) : (s.setPrevKind k).mlz = s.mlz := rfl
@[simp] theorem State.setPrevKind_total (s : State) (k : PrevKind) : (s.setPrevKind k).total = s.total := rfl
@[simp] theorem State.setPrevKind_ops (s : State) (k : PrevKind) : (s.setPrevKind k).ops = s.ops := rfl
@[simp] theorem State.setPrevKind_obuf (s : State) (k : PrevKind) : (s.setPrevKind k).obuf = s.obuf := rfl
@[simp] theorem State.setPrevKind_pk (s : State) (k : PrevKind) :
    (s.setPrevKind k).pk = { s.pk with prevKind := k } := rfl
@[simp] theorem State.setPrevKind_up (s : State) (k : PrevKind) : (s.setPrevKind k).up = s.up := rfl
@[simp] theorem State.setPrevKind_hist (s : State) (k : PrevKind) : (s.setPrevKind k).hist = s.hist := rfl
@[simp] theorem State.setPrevKind_inputs (s : State) (k : PrevKind) : (s.setPrevKind k).inputs = s.inputs := rfl
@[simp] theorem State.setPrevKind_rdata (s : State) (k : PrevKind) : (s.setPrevKind k).rdata = s.rdata := rfl
@[simp] theorem State.setPrevKind_dutyBroken (s : State) (k : PrevKind) :
    (s.setPrevKind k).dutyBroken = s.dutyBroken := rfl
@[simp] theorem State.setPrevKind_freeCtr (s : State) (k : PrevKind) : (s.setPrevKind k).freeCtr = s.freeCtr := rfl

/-! ### `State.setLastOffset`: the packer's `LAST_OFFSET` (R209) -/

@[simp] theorem State.setLastOffset_params (s : State) (o : Nat) : (s.setLastOffset o).params = s.params := rfl
@[simp] theorem State.setLastOffset_csr (s : State) (o : Nat) : (s.setLastOffset o).csr = s.csr := rfl
@[simp] theorem State.setLastOffset_latch (s : State) (o : Nat) : (s.setLastOffset o).latch = s.latch := rfl
@[simp] theorem State.setLastOffset_mem (s : State) (o : Nat) : (s.setLastOffset o).mem = s.mem := rfl
@[simp] theorem State.setLastOffset_phase (s : State) (o : Nat) : (s.setLastOffset o).phase = s.phase := rfl
@[simp] theorem State.setLastOffset_image (s : State) (o : Nat) : (s.setLastOffset o).image = s.image := rfl
@[simp] theorem State.setLastOffset_index (s : State) (o : Nat) : (s.setLastOffset o).index = s.index := rfl
@[simp] theorem State.setLastOffset_scan (s : State) (o : Nat) : (s.setLastOffset o).scan = s.scan := rfl
@[simp] theorem State.setLastOffset_zx7 (s : State) (o : Nat) : (s.setLastOffset o).zx7 = s.zx7 := rfl
@[simp] theorem State.setLastOffset_zx0 (s : State) (o : Nat) : (s.setLastOffset o).zx0 = s.zx0 := rfl
@[simp] theorem State.setLastOffset_mlz (s : State) (o : Nat) : (s.setLastOffset o).mlz = s.mlz := rfl
@[simp] theorem State.setLastOffset_total (s : State) (o : Nat) : (s.setLastOffset o).total = s.total := rfl
@[simp] theorem State.setLastOffset_ops (s : State) (o : Nat) : (s.setLastOffset o).ops = s.ops := rfl
@[simp] theorem State.setLastOffset_obuf (s : State) (o : Nat) : (s.setLastOffset o).obuf = s.obuf := rfl
@[simp] theorem State.setLastOffset_pk (s : State) (o : Nat) :
    (s.setLastOffset o).pk = { s.pk with lastOffset := o } := rfl
@[simp] theorem State.setLastOffset_up (s : State) (o : Nat) : (s.setLastOffset o).up = s.up := rfl
@[simp] theorem State.setLastOffset_hist (s : State) (o : Nat) : (s.setLastOffset o).hist = s.hist := rfl
@[simp] theorem State.setLastOffset_inputs (s : State) (o : Nat) : (s.setLastOffset o).inputs = s.inputs := rfl
@[simp] theorem State.setLastOffset_rdata (s : State) (o : Nat) : (s.setLastOffset o).rdata = s.rdata := rfl
@[simp] theorem State.setLastOffset_dutyBroken (s : State) (o : Nat) :
    (s.setLastOffset o).dutyBroken = s.dutyBroken := rfl
@[simp] theorem State.setLastOffset_freeCtr (s : State) (o : Nat) : (s.setLastOffset o).freeCtr = s.freeCtr := rfl

/-! ### `State.popOp`: the operation cursor moved (R41) -/

@[simp] theorem State.popOp_params (s : State) : s.popOp.params = s.params := rfl
@[simp] theorem State.popOp_csr (s : State) : s.popOp.csr = s.csr := rfl
@[simp] theorem State.popOp_latch (s : State) : s.popOp.latch = s.latch := rfl
@[simp] theorem State.popOp_mem (s : State) : s.popOp.mem = s.mem := rfl
@[simp] theorem State.popOp_phase (s : State) : s.popOp.phase = s.phase := rfl
@[simp] theorem State.popOp_image (s : State) : s.popOp.image = s.image := rfl
@[simp] theorem State.popOp_index (s : State) : s.popOp.index = s.index := rfl
@[simp] theorem State.popOp_scan (s : State) : s.popOp.scan = s.scan := rfl
@[simp] theorem State.popOp_zx7 (s : State) : s.popOp.zx7 = s.zx7 := rfl
@[simp] theorem State.popOp_zx0 (s : State) : s.popOp.zx0 = s.zx0 := rfl
@[simp] theorem State.popOp_mlz (s : State) : s.popOp.mlz = s.mlz := rfl
@[simp] theorem State.popOp_total (s : State) : s.popOp.total = s.total := rfl
@[simp] theorem State.popOp_ops (s : State) : s.popOp.ops = s.ops.tail := rfl
@[simp] theorem State.popOp_obuf (s : State) : s.popOp.obuf = s.obuf := rfl
@[simp] theorem State.popOp_pk (s : State) : s.popOp.pk = s.pk := rfl
@[simp] theorem State.popOp_up (s : State) : s.popOp.up = s.up := rfl
@[simp] theorem State.popOp_hist (s : State) : s.popOp.hist = s.hist := rfl
@[simp] theorem State.popOp_inputs (s : State) : s.popOp.inputs = s.inputs := rfl
@[simp] theorem State.popOp_rdata (s : State) : s.popOp.rdata = s.rdata := rfl
@[simp] theorem State.popOp_dutyBroken (s : State) : s.popOp.dutyBroken = s.dutyBroken := rfl
@[simp] theorem State.popOp_freeCtr (s : State) : s.popOp.freeCtr = s.freeCtr := rfl

/-! ### `State.putBit`: a bit put into the open group (R201) -/

@[simp] theorem State.putBit_params (s : State) (v : Bool) : (s.putBit v).params = s.params := rfl
@[simp] theorem State.putBit_csr (s : State) (v : Bool) : (s.putBit v).csr = s.csr := rfl
@[simp] theorem State.putBit_latch (s : State) (v : Bool) : (s.putBit v).latch = s.latch := rfl
@[simp] theorem State.putBit_mem (s : State) (v : Bool) : (s.putBit v).mem = s.mem := rfl
@[simp] theorem State.putBit_phase (s : State) (v : Bool) : (s.putBit v).phase = s.phase := rfl
@[simp] theorem State.putBit_image (s : State) (v : Bool) : (s.putBit v).image = s.image := rfl
@[simp] theorem State.putBit_index (s : State) (v : Bool) : (s.putBit v).index = s.index := rfl
@[simp] theorem State.putBit_scan (s : State) (v : Bool) : (s.putBit v).scan = s.scan := rfl
@[simp] theorem State.putBit_zx7 (s : State) (v : Bool) : (s.putBit v).zx7 = s.zx7 := rfl
@[simp] theorem State.putBit_zx0 (s : State) (v : Bool) : (s.putBit v).zx0 = s.zx0 := rfl
@[simp] theorem State.putBit_mlz (s : State) (v : Bool) : (s.putBit v).mlz = s.mlz := rfl
@[simp] theorem State.putBit_total (s : State) (v : Bool) : (s.putBit v).total = s.total := rfl
@[simp] theorem State.putBit_ops (s : State) (v : Bool) : (s.putBit v).ops = s.ops := rfl
@[simp] theorem State.putBit_obuf (s : State) (v : Bool) :
    (s.putBit v).obuf = if v then orByte s.obuf s.pk.bitIndex s.pk.bitMask else s.obuf := rfl
@[simp] theorem State.putBit_pk (s : State) (v : Bool) :
    (s.putBit v).pk = { s.pk with bitMask := s.pk.bitMask >>> 1 } := rfl
@[simp] theorem State.putBit_up (s : State) (v : Bool) : (s.putBit v).up = s.up := rfl
@[simp] theorem State.putBit_hist (s : State) (v : Bool) : (s.putBit v).hist = s.hist := rfl
@[simp] theorem State.putBit_inputs (s : State) (v : Bool) : (s.putBit v).inputs = s.inputs := rfl
@[simp] theorem State.putBit_rdata (s : State) (v : Bool) : (s.putBit v).rdata = s.rdata := rfl
@[simp] theorem State.putBit_dutyBroken (s : State) (v : Bool) : (s.putBit v).dutyBroken = s.dutyBroken := rfl
@[simp] theorem State.putBit_freeCtr (s : State) (v : Bool) : (s.putBit v).freeCtr = s.freeCtr := rfl

/-! ### `State.afterBody`: the command's body over (R126) -/

@[simp] theorem State.afterBody_params (s : State) : s.afterBody.params = s.params := rfl
@[simp] theorem State.afterBody_csr (s : State) : s.afterBody.csr = s.csr := rfl
@[simp] theorem State.afterBody_latch (s : State) : s.afterBody.latch = s.latch := rfl
@[simp] theorem State.afterBody_mem (s : State) : s.afterBody.mem = s.mem := rfl
@[simp] theorem State.afterBody_phase (s : State) :
    s.afterBody.phase = if s.reversed then .reverseOut else if s.compressing then .capacity else .writeback := rfl
@[simp] theorem State.afterBody_image (s : State) : s.afterBody.image = s.image := rfl
@[simp] theorem State.afterBody_index (s : State) : s.afterBody.index = s.index := rfl
@[simp] theorem State.afterBody_scan (s : State) : s.afterBody.scan = s.scan := rfl
@[simp] theorem State.afterBody_zx7 (s : State) : s.afterBody.zx7 = s.zx7 := rfl
@[simp] theorem State.afterBody_zx0 (s : State) : s.afterBody.zx0 = s.zx0 := rfl
@[simp] theorem State.afterBody_mlz (s : State) : s.afterBody.mlz = s.mlz := rfl
@[simp] theorem State.afterBody_total (s : State) : s.afterBody.total = s.total := rfl
@[simp] theorem State.afterBody_ops (s : State) : s.afterBody.ops = s.ops := rfl
@[simp] theorem State.afterBody_obuf (s : State) : s.afterBody.obuf = s.obuf := rfl
@[simp] theorem State.afterBody_pk (s : State) : s.afterBody.pk = s.pk := rfl
@[simp] theorem State.afterBody_up (s : State) : s.afterBody.up = s.up := rfl
@[simp] theorem State.afterBody_hist (s : State) : s.afterBody.hist = s.hist := rfl
@[simp] theorem State.afterBody_inputs (s : State) : s.afterBody.inputs = s.inputs := rfl
@[simp] theorem State.afterBody_rdata (s : State) : s.afterBody.rdata = s.rdata := rfl
@[simp] theorem State.afterBody_dutyBroken (s : State) : s.afterBody.dutyBroken = s.dutyBroken := rfl
@[simp] theorem State.afterBody_freeCtr (s : State) : s.afterBody.freeCtr = s.freeCtr := rfl

/-! ### `State.acknowledge`: the acknowledge (R268) -/

@[simp] theorem State.acknowledge_params (s : State) : s.acknowledge.params = s.params := rfl
@[simp] theorem State.acknowledge_csr (s : State) :
    s.acknowledge.csr = { s.csr with done := false, err := false, errCode := 0 } := rfl
@[simp] theorem State.acknowledge_latch (s : State) : s.acknowledge.latch = s.latch := rfl
@[simp] theorem State.acknowledge_mem (s : State) : s.acknowledge.mem = s.mem := rfl
@[simp] theorem State.acknowledge_phase (s : State) : s.acknowledge.phase = s.phase := rfl
@[simp] theorem State.acknowledge_image (s : State) : s.acknowledge.image = s.image := rfl
@[simp] theorem State.acknowledge_index (s : State) : s.acknowledge.index = s.index := rfl
@[simp] theorem State.acknowledge_scan (s : State) : s.acknowledge.scan = s.scan := rfl
@[simp] theorem State.acknowledge_zx7 (s : State) : s.acknowledge.zx7 = s.zx7 := rfl
@[simp] theorem State.acknowledge_zx0 (s : State) : s.acknowledge.zx0 = s.zx0 := rfl
@[simp] theorem State.acknowledge_mlz (s : State) : s.acknowledge.mlz = s.mlz := rfl
@[simp] theorem State.acknowledge_total (s : State) : s.acknowledge.total = s.total := rfl
@[simp] theorem State.acknowledge_ops (s : State) : s.acknowledge.ops = s.ops := rfl
@[simp] theorem State.acknowledge_obuf (s : State) : s.acknowledge.obuf = s.obuf := rfl
@[simp] theorem State.acknowledge_pk (s : State) : s.acknowledge.pk = s.pk := rfl
@[simp] theorem State.acknowledge_up (s : State) : s.acknowledge.up = s.up := rfl
@[simp] theorem State.acknowledge_hist (s : State) : s.acknowledge.hist = s.hist := rfl
@[simp] theorem State.acknowledge_inputs (s : State) : s.acknowledge.inputs = s.inputs := rfl
@[simp] theorem State.acknowledge_rdata (s : State) : s.acknowledge.rdata = s.rdata := rfl
@[simp] theorem State.acknowledge_dutyBroken (s : State) : s.acknowledge.dutyBroken = s.dutyBroken := rfl
@[simp] theorem State.acknowledge_freeCtr (s : State) : s.acknowledge.freeCtr = s.freeCtr := rfl

/-! ### `State.start`: START (R124) -/

@[simp] theorem State.start_params (s : State) (cmd : BitVec 2) (mode : BitVec 4) :
    (s.start cmd mode).params = s.params := rfl
@[simp] theorem State.start_latch (s : State) (cmd : BitVec 2) (mode : BitVec 4) :
    (s.start cmd mode).latch = { cmd := cmd, mode := mode, src := s.csr.srcAddr, len := s.csr.srcLen, dst := s.csr.dstAddr, cap := s.csr.dstCap } := rfl
@[simp] theorem State.start_mem (s : State) (cmd : BitVec 2) (mode : BitVec 4) : (s.start cmd mode).mem = s.mem := rfl
@[simp] theorem State.start_phase (s : State) (cmd : BitVec 2) (mode : BitVec 4) :
    (s.start cmd mode).phase = .check := rfl
@[simp] theorem State.start_image (s : State) (cmd : BitVec 2) (mode : BitVec 4) :
    (s.start cmd mode).image = s.mem.readBytes s.csr.srcAddr.toNat s.csr.srcLen.toNat := rfl
@[simp] theorem State.start_index (s : State) (cmd : BitVec 2) (mode : BitVec 4) :
    (s.start cmd mode).index = s.index := rfl
@[simp] theorem State.start_scan (s : State) (cmd : BitVec 2) (mode : BitVec 4) :
    (s.start cmd mode).scan = s.scan := rfl
@[simp] theorem State.start_zx7 (s : State) (cmd : BitVec 2) (mode : BitVec 4) : (s.start cmd mode).zx7 = s.zx7 := rfl
@[simp] theorem State.start_zx0 (s : State) (cmd : BitVec 2) (mode : BitVec 4) : (s.start cmd mode).zx0 = s.zx0 := rfl
@[simp] theorem State.start_mlz (s : State) (cmd : BitVec 2) (mode : BitVec 4) : (s.start cmd mode).mlz = s.mlz := rfl
@[simp] theorem State.start_total (s : State) (cmd : BitVec 2) (mode : BitVec 4) :
    (s.start cmd mode).total = s.total := rfl
@[simp] theorem State.start_ops (s : State) (cmd : BitVec 2) (mode : BitVec 4) : (s.start cmd mode).ops = s.ops := rfl
@[simp] theorem State.start_obuf (s : State) (cmd : BitVec 2) (mode : BitVec 4) :
    (s.start cmd mode).obuf = s.obuf := rfl
@[simp] theorem State.start_pk (s : State) (cmd : BitVec 2) (mode : BitVec 4) : (s.start cmd mode).pk = s.pk := rfl
@[simp] theorem State.start_up (s : State) (cmd : BitVec 2) (mode : BitVec 4) : (s.start cmd mode).up = s.up := rfl
@[simp] theorem State.start_hist (s : State) (cmd : BitVec 2) (mode : BitVec 4) :
    (s.start cmd mode).hist = s.hist := rfl
@[simp] theorem State.start_inputs (s : State) (cmd : BitVec 2) (mode : BitVec 4) :
    (s.start cmd mode).inputs = s.inputs := rfl
@[simp] theorem State.start_rdata (s : State) (cmd : BitVec 2) (mode : BitVec 4) :
    (s.start cmd mode).rdata = s.rdata := rfl
@[simp] theorem State.start_dutyBroken (s : State) (cmd : BitVec 2) (mode : BitVec 4) :
    (s.start cmd mode).dutyBroken = false := rfl
@[simp] theorem State.start_freeCtr (s : State) (cmd : BitVec 2) (mode : BitVec 4) :
    (s.start cmd mode).freeCtr = s.freeCtr := rfl

/-- The registers after START (R124). -/
@[simp] theorem State.start_csr (s : State) (cmd : BitVec 2) (mode : BitVec 4) :
    (s.start cmd mode).csr = { s.csr with
      cmd := cmd, mode := mode, busy := true, done := false, err := false, errCode := 0
      resultLen := 0, consumedLen := 0, costBits := 0 } := rfl

/-! ### The command's variant and limits, which only the latches and the parameters decide -/

theorem State.variant_congr (s t : State) (h : s.latch = t.latch) : s.variant = t.variant := by
  simp [State.variant, h]

theorem State.reversed_congr (s t : State) (h : s.latch = t.latch) : s.reversed = t.reversed := by
  simp [State.reversed, h]

theorem State.compressing_congr (s t : State) (h : s.latch = t.latch) : s.compressing = t.compressing := by
  simp [State.compressing, h]

theorem State.fmt_congr (s t : State) (hl : s.latch = t.latch) (hp : s.params = t.params) : s.fmt = t.fmt := by
  simp [State.fmt, hl, hp]

theorem State.capl_congr (s t : State) (hl : s.latch = t.latch) (hp : s.params = t.params) :
    s.capl = t.capl := by
  simp [State.capl, hl, hp]

end Sys2Proof.Machine
end

