-- ==== Sys2Proof/Laws/Ops.lean ====
section
/-! SUPPORT. What each shared operation can do, said once: completion and errors, the unpacker's output and copies, the
packer's calls, the tokens' frame. Later proofs cite these and do not unfold the operations. -/

namespace Sys2Proof.Machine

/-! ### Completion and errors -/

/-- The end of a command whose buffers were left alone (R127). -/
theorem State.finish_of_duty (s : State) (e : ErrCode) (r c b : Word) (h : s.dutyBroken = false) :
    s.finish e r c b = { s with csr := completedCsr s.csr e r c b, phase := .idle } := by
  simp [State.finish, h]

/-- What every end of a command says, whatever the host did meanwhile (R35, R295). -/
theorem State.finish_status (s : State) (e : ErrCode) (r c b : Word) :
    (s.finish e r c b).csr.busy = false ∧ (s.finish e r c b).csr.done = true ∧
    (s.finish e r c b).phase = .idle ∧ (s.finish e r c b).csr.ie = s.csr.ie := by
  unfold State.finish
  split <;> simp [completedCsr]

theorem errBits_le (e : ErrCode) : (errBits e).toNat ≤ 4 := by cases e <;> decide

theorem errBits_eq_zero_iff (e : ErrCode) : errBits e = 0 ↔ e = .none := by cases e <;> decide

/-- Every end of a command leaves memory outside the output buffer as it was (R61, R295). -/
theorem State.finish_mem_outside (s : State) (e : ErrCode) (r c b : Word) (a : Nat) (h : s.mem.wf)
    (out : inBuffer s.latch.dst s.latch.cap a = false) :
    (s.finish e r c b).mem.read a = s.mem.read a := by
  unfold State.finish
  split
  · exact s.scrambledMem_read_outside a h out
  · rfl

theorem State.finish_mem_wf (s : State) (e : ErrCode) (r c b : Word) (h : s.mem.wf) :
    (s.finish e r c b).mem.wf := by
  unfold State.finish
  split
  · exact s.scrambledMem_wf h
  · exact h

@[simp] theorem settle_ok (s t : State) : settle s (.ok t) = t := rfl

@[simp] theorem settle_error (s : State) (e : ErrCode) : settle s (.error e) = s.raise e := rfl

/-- A sequence of primitives settles in its state, or the command ends with its error (R266). -/
theorem settle_cases (s : State) (r : Except ErrCode State) :
    (∃ t, r = .ok t ∧ settle s r = t) ∨ ∃ e, r = .error e ∧ settle s r = s.raise e := by
  cases r with
  | ok t => exact .inl ⟨t, rfl, rfl⟩
  | error e => exact .inr ⟨e, rfl, rfl⟩

/-! ### Tokens -/

/-- A token that runs is in its variant's command, unpacking or emitting. -/
theorem State.runToken_next (s t : State) (v : Variant) (u e : State → State)
    (h : s.runToken v u e = .next t) :
    s.variant = v ∧ (s.phase = .unpack ∧ t = u s ∨ s.phase = .emit ∧ t = e s) := by
  unfold State.runToken at h
  split at h
  · rename_i hv
    refine ⟨hv, ?_⟩
    split at h
    · rename_i hp; cases h; exact .inl ⟨hp, rfl⟩
    · rename_i hp; cases h; exact .inr ⟨hp, rfl⟩
    · cases h
  · cases h

theorem State.runToken_unpack (s : State) (v : Variant) (u e : State → State) (hv : s.variant = v)
    (hp : s.phase = .unpack) : s.runToken v u e = .next (u s) := by
  simp [State.runToken, hv, hp]

theorem State.runToken_emit (s : State) (v : Variant) (u e : State → State) (hv : s.variant = v)
    (hp : s.phase = .emit) : s.runToken v u e = .next (e s) := by
  simp [State.runToken, hv, hp]

/-! ### The unpacker's output (R235) -/

theorem State.output_ok_iff (s t : State) (b : Byte) :
    s.output b = .ok t ↔ s.obuf.length < s.capl ∧
      t = { s with obuf := s.obuf ++ [b], hist := s.hist.write (s.obuf.length % Config.histSize) b } := by
  unfold State.output State.outPos
  split
  · simp; omega
  · simp; constructor
    · rintro rfl; exact ⟨by omega, rfl⟩
    · rintro ⟨-, rfl⟩; rfl

theorem State.output_error_iff (s : State) (b : Byte) (e : ErrCode) :
    s.output b = .error e ↔ s.capl ≤ s.obuf.length ∧ e = .alloc := by
  unfold State.output State.outPos
  split
  · rename_i h; simp [h, eq_comm]
  · rename_i h; simp [h]

/-- An output byte keeps HIST the mirror of the output (R234). -/
theorem State.output_histOk (s t : State) (b : Byte) (h : s.output b = .ok t) (hh : s.histOk) :
    t.histOk := by
  obtain ⟨-, rfl⟩ := (State.output_ok_iff s t b).1 h
  refine ⟨Memory.write_wf _ _ _ hh.1, fun k hk hold => ?_⟩
  simp only [List.length_append, List.length_singleton] at hk hold
  simp only [Memory.read_write _ _ _ _ hh.1]
  by_cases hlast : k = s.obuf.length
  · subst hlast; simp
  · have hlt : k < s.obuf.length := by omega
    have hne : k % Config.histSize ≠ s.obuf.length % Config.histSize := by
      simp only [Config.histSize] at hold ⊢
      omega
    rw [if_neg hne, hh.2 k hlt (by omega)]
    simp [List.getD, List.getElem?_append_left hlt]

/-- The byte a copy reads is the one `o` places before the next output byte (R234). -/
theorem State.history_eq (s : State) (o : Nat) (hh : s.histOk) (h1 : 1 ≤ o) (ho : o ≤ s.obuf.length)
    (hs : o ≤ Config.histSize) : s.history o = s.obuf.getD (s.obuf.length - o) 0 :=
  hh.2 (s.obuf.length - o) (by omega) (by omega)

/-- The bytes of a run, in order, nothing else changed but the history (R235, R238). -/
theorem State.outputAll_ok (bs : List Byte) (s : State) (fits : s.obuf.length + bs.length ≤ s.capl) :
    ∃ t, s.outputAll bs = .ok t ∧ t = { s with obuf := s.obuf ++ bs, hist := t.hist } ∧
      (s.histOk → t.histOk) := by
  induction bs generalizing s with
  | nil => exact ⟨s, rfl, by simp, id⟩
  | cons b bs ih =>
    simp only [List.length_cons] at fits
    obtain ⟨u, hu⟩ : ∃ u, s.output b = .ok u := by
      refine ⟨_, (State.output_ok_iff s _ b).2 ⟨by omega, rfl⟩⟩
    obtain ⟨-, hu'⟩ := (State.output_ok_iff s u b).1 hu
    have hc : u.capl = s.capl := by rw [hu']; rfl
    have hl : u.obuf.length = s.obuf.length + 1 := by rw [hu']; simp
    obtain ⟨t, ht, heq, hk⟩ := ih u (by omega)
    refine ⟨t, by simp [State.outputAll, hu, ht], ?_, fun h => hk (State.output_histOk s u b hu h)⟩
    rw [heq, hu']
    simp

/-- A run beyond the output's capacity fails with `ALLOC`, at the first byte beyond it (R235). -/
theorem State.outputAll_error (bs : List Byte) (s : State) (start : s.obuf.length ≤ s.capl)
    (full : s.capl < s.obuf.length + bs.length) : s.outputAll bs = .error .alloc := by
  induction bs generalizing s with
  | nil => simp at full; omega
  | cons b bs ih =>
    by_cases h : s.capl ≤ s.obuf.length
    · simp [State.outputAll, (State.output_error_iff s b .alloc).2 ⟨h, rfl⟩]
    · have hu := (State.output_ok_iff s _ b).2 ⟨by omega, rfl⟩
      simp only [State.outputAll, hu]
      apply ih
      · simp [State.capl] at h ⊢; omega
      · simp [State.capl] at h full ⊢; omega

/-! ### Copies (R234) -/

/-- A copy that fits: its length output, earlier bytes kept, each new byte the one `o` places before it, nothing else changed. -/
theorem State.copyLoop_ok (o L : Nat) (s : State) (hh : s.histOk) (h1 : 1 ≤ o) (ho : o ≤ s.obuf.length)
    (hs : o ≤ Config.histSize) (fits : s.obuf.length + L ≤ s.capl) :
    ∃ t, s.copyLoop o L = .ok t ∧ t = { s with obuf := t.obuf, hist := t.hist } ∧
      t.obuf.length = s.obuf.length + L ∧ (∀ k < s.obuf.length, t.obuf[k]? = s.obuf[k]?) ∧
      (∀ k < L, t.obuf[s.obuf.length + k]? = t.obuf[s.obuf.length + k - o]?) ∧ t.histOk := by
  induction L generalizing s with
  | zero => exact ⟨s, rfl, rfl, rfl, fun _ _ => rfl, fun _ h => absurd h (by omega), hh⟩
  | succ n ih =>
    obtain ⟨u, hu⟩ : ∃ u, s.output (s.history o) = .ok u :=
      ⟨_, (State.output_ok_iff s _ _).2 ⟨by omega, rfl⟩⟩
    have hhu := State.output_histOk s u _ hu hh
    obtain ⟨-, hu'⟩ := (State.output_ok_iff s u _).1 hu
    have hc : u.capl = s.capl := by rw [hu']; rfl
    have hob : u.obuf = s.obuf ++ [s.history o] := by rw [hu']
    have hl : u.obuf.length = s.obuf.length + 1 := by simp [hob]
    obtain ⟨t, ht, heq, hlen, hkeep, hnew, hk⟩ := ih u hhu (by omega) (by omega)
    refine ⟨t, by simp [State.copyLoop, hu, ht], ?_, by omega, fun k hk' => ?_, fun k hk' => ?_, hk⟩
    · conv_lhs => rw [heq, hu']
    · rw [hkeep k (by omega), hob, List.getElem?_append_left hk']
    · cases k with
      | zero =>
        simp only [Nat.add_zero]
        rw [hkeep _ (by omega), hkeep (s.obuf.length - o) (by omega), hob,
          List.getElem?_append_left (by omega : s.obuf.length - o < s.obuf.length)]
        rw [State.history_eq s o hh h1 ho hs]
        simp [List.getD, List.getElem?_eq_getElem (by omega : s.obuf.length - o < s.obuf.length)]
      | succ k =>
        have := hnew k (by omega)
        rw [hl] at this
        rw [show s.obuf.length + (k + 1) = s.obuf.length + 1 + k by omega]
        exact this

/-- A copy that passes the output's capacity fails with `ALLOC`. -/
theorem State.copyLoop_error (o L : Nat) (s : State) (start : s.obuf.length ≤ s.capl)
    (full : s.capl < s.obuf.length + L) : s.copyLoop o L = .error .alloc := by
  induction L generalizing s with
  | zero => omega
  | succ n ih =>
    by_cases h : s.capl ≤ s.obuf.length
    · simp [State.copyLoop, (State.output_error_iff s _ .alloc).2 ⟨h, rfl⟩]
    · have hu := (State.output_ok_iff s _ (s.history o)).2 ⟨by omega, rfl⟩
      simp only [State.copyLoop, hu]
      apply ih
      · simp [State.capl] at h ⊢; omega
      · simp [State.capl] at h full ⊢; omega

theorem State.copy_eq_copyLoop (s : State) (o L : Nat) (h1 : 1 ≤ o) (ho : o ≤ s.obuf.length) :
    s.copy o L = s.copyLoop o L := by
  unfold State.copy State.outPos
  rw [if_neg (by omega)]

/-- A copy beyond the output produced is `INVALID`, before any of its bytes (R234). -/
theorem State.copy_invalid (s : State) (o L : Nat) (h : o < 1 ∨ s.obuf.length < o) :
    s.copy o L = .error .invalid := by
  unfold State.copy State.outPos
  rw [if_pos h]

/-! ### The packer's calls (R200 to R202) -/

/-- A call changes OBUF and the packer only. -/
theorem State.call_frame (s t : State) (c : Call) (h : s.call c = .ok t) :
    t = { s with obuf := t.obuf, pk := t.pk } := by
  cases c with
  | bit v =>
    simp only [State.call, State.writeBit] at h
    split at h
    · cases h; rfl
    · split at h
      · simp only [State.writeByte] at h
        split at h
        · cases h
        · rename_i hw
          split at hw
          · cases hw
          · cases hw; cases h; rfl
      · cases h; rfl
  | byte v =>
    simp only [State.call, State.writeByte] at h
    split at h
    · cases h
    · cases h; rfl
  | backtrack => cases h; rfl

/-- So does a sequence of calls. -/
theorem State.calls_frame (cs : List Call) (s t : State) (h : s.calls cs = .ok t) :
    t = { s with obuf := t.obuf, pk := t.pk } := by
  induction cs generalizing s with
  | nil => cases h; rfl
  | cons c cs ih =>
    simp only [State.calls] at h
    split at h
    · cases h
    · rename_i u hu
      have h1 := State.call_frame s u c hu
      have h2 := ih u h
      rw [h2, h1]

/-- The only error of a call is the full OBUF (R200). -/
theorem State.call_error (s : State) (c : Call) (e : ErrCode) (h : s.call c = .error e) :
    e = .alloc ∧ obufSize s.params ≤ s.obuf.length := by
  cases c with
  | bit v =>
    simp only [State.call, State.writeBit] at h
    split at h
    · cases h
    · split at h
      · simp only [State.writeByte] at h
        split at h
        · rename_i hw
          split at hw
          · cases hw; cases h; exact ⟨rfl, by assumption⟩
          · cases hw
        · cases h
      · cases h
  | byte v =>
    simp only [State.call, State.writeByte] at h
    split at h
    · cases h; exact ⟨rfl, by assumption⟩
    · cases h
  | backtrack => cases h

theorem State.calls_append (cs ds : List Call) (s : State) :
    s.calls (cs ++ ds) =
      match s.calls cs with
      | .error e => .error e
      | .ok t => t.calls ds := by
  induction cs generalizing s with
  | nil => rfl
  | cons c cs ih =>
    simp only [List.cons_append, State.calls]
    cases s.call c with
    | error e => rfl
    | ok u => exact ih u

/-! ### The engine and the inputs -/

theorem stepEngine_idle (s : State) (h : s.phase = .idle) : stepEngine s = .next s := by
  simp [stepEngine, h]

/-- With no input waiting, a step is the engine's. -/
theorem step_of_no_input (s : State) (h : s.inputs = []) : step s = stepEngine s := by
  simp [step, h]

/-- A waiting input is taken first. -/
theorem step_of_input (s : State) (i : Input) (rest : List Input) (h : s.inputs = i :: rest) :
    step s = stepInput i { s with inputs := rest } := by
  simp [step, h]

end Sys2Proof.Machine
end

