-- ==== Sys2Proof/Laws/Readers.lean ====
section
/-! SUPPORT. The unpacker's read primitives (spec/45_unpacker.md R230 to R232): what a read answers, and that it never moves the
cursor back nor past the end of the stream. -/

namespace Sys2Proof

theorem readByte_ok_iff (x : List Byte) (c c' : Cursor) (b : Byte) :
    readByte x c = .ok (b, c') ↔
      x[c.inIdx]? = some b ∧ c' = { c with inIdx := c.inIdx + 1, lastByte := b } := by
  unfold readByte
  cases h : x[c.inIdx]? with
  | none => simp
  | some v =>
    simp only [Except.ok.injEq, Prod.mk.injEq, Option.some.injEq]
    constructor
    · rintro ⟨rfl, rfl⟩; exact ⟨rfl, rfl⟩
    · rintro ⟨rfl, rfl⟩; exact ⟨rfl, rfl⟩

theorem readByte_error_iff (x : List Byte) (c : Cursor) (e : DecodeError) :
    readByte x c = .error e ↔ x.length ≤ c.inIdx ∧ e = .prematureEnd := by
  unfold readByte
  cases h : x[c.inIdx]? with
  | none => simp [List.getElem?_eq_none_iff.1 h, eq_comm]
  | some v =>
    have := (List.getElem?_eq_some_iff.1 h).1
    simp; omega

/-- A reader that never moves back nor past the end of `x`. -/
def Reader.Forward {α : Type} (x : List Byte) (r : Reader α) : Prop :=
  ∀ (c c' : Cursor) (v : α), r c = .ok (v, c') → c.inIdx ≤ x.length →
    c.inIdx ≤ c'.inIdx ∧ c'.inIdx ≤ x.length

theorem Reader.pure_forward {α : Type} (x : List Byte) (v : α) : Reader.Forward x (pure v : Reader α) := by
  intro c c' w h hc
  simp only [pure, StateT.pure, Except.pure] at h
  cases h
  exact ⟨Nat.le_refl _, hc⟩

theorem Reader.throw_forward {α : Type} (x : List Byte) (e : DecodeError) :
    Reader.Forward x (throw e : Reader α) := by
  intro c c' w h
  simp only [throw, throwThe, MonadExceptOf.throw] at h
  cases h

theorem Reader.bind_ok {α β : Type} (r : Reader α) (k : α → Reader β) (c c' : Cursor) (w : β)
    (h : (r >>= k) c = .ok (w, c')) : ∃ v d, r c = .ok (v, d) ∧ k v d = .ok (w, c') := by
  simp only [bind, StateT.bind, Except.bind] at h
  split at h
  · cases h
  · rename_i p hp
    exact ⟨p.1, p.2, hp, h⟩

theorem Reader.bind_forward {α β : Type} (x : List Byte) (r : Reader α) (k : α → Reader β)
    (hr : Reader.Forward x r) (hk : ∀ v, Reader.Forward x (k v)) : Reader.Forward x (r >>= k) := by
  intro c c' w h hc
  obtain ⟨v, d, h1, h2⟩ := Reader.bind_ok r k c c' w h
  obtain ⟨a1, b1⟩ := hr c d v h1 hc
  obtain ⟨a2, b2⟩ := hk v d c' w h2 b1
  exact ⟨Nat.le_trans a1 a2, b2⟩

theorem readByte_forward (x : List Byte) : Reader.Forward x (readByte x) := by
  intro c c' b h hc
  obtain ⟨h1, rfl⟩ := (readByte_ok_iff x c c' b).1 h
  have := (List.getElem?_eq_some_iff.1 h1).1
  exact ⟨by simp, by simpa using this⟩

theorem readBit_forward (x : List Byte) : Reader.Forward x (readBit x) := by
  intro c c' b h hc
  unfold readBit at h
  split at h
  · cases h; exact ⟨Nat.le_refl _, hc⟩
  · split at h
    · split at h
      · cases h
      · rename_i v d hd
        cases h
        exact readByte_forward x { c with bitMask := 0x80 } d v hd hc
    · cases h; exact ⟨Nat.le_refl _, hc⟩

theorem readBits_forward (x : List Byte) (k v : Nat) : Reader.Forward x (readBits x k v) := by
  induction k generalizing v with
  | zero => exact Reader.pure_forward x v
  | succ k ih => exact Reader.bind_forward x _ _ (readBit_forward x) fun b => ih _

theorem readIGammaLoop_forward (x : List Byte) (pol : Polarity) (inv : Bool) (left v : Nat) :
    Reader.Forward x (readIGammaLoop x pol inv left v) := by
  induction left generalizing v with
  | zero =>
    unfold readIGammaLoop
    refine Reader.bind_forward x _ _ (readBit_forward x) fun b => ?_
    split
    · exact Reader.throw_forward x _
    · exact Reader.pure_forward x v
  | succ left ih =>
    unfold readIGammaLoop
    refine Reader.bind_forward x _ _ (readBit_forward x) fun b => ?_
    split
    · exact Reader.bind_forward x _ _ (readBit_forward x) fun d => ih _
    · exact Reader.pure_forward x v

end Sys2Proof
end

