-- ==== Sys2Proof/Tests/Slice0.lean ====
section
/-! SUPPORT. Tests: well-formedness refuses ill-formed terms; encodings written out from the spec's tables decode to the
instruction they stand for; one step each of the instructions; and, for every statement with hypotheses, a witness that meets
them. Expected values come from the rules and worked examples of spec/, named beside each test. -/

namespace Sys2Proof.Machine

/-! ### Well-formedness: one ill-formed term for each check -/

theorem test_wf_zx7CpyS_offset : (Instr.zx7CpyS 0 2).wellFormed = false ∧ (Instr.zx7CpyS 129 2).wellFormed = false := by decide
theorem test_wf_zx7CpyS_length : (Instr.zx7CpyS 1 1).wellFormed = false ∧ (Instr.zx7CpyS 1 65537).wellFormed = false := by decide
theorem test_wf_zx7CpyL_offset : (Instr.zx7CpyL 128 2).wellFormed = false ∧ (Instr.zx7CpyL 2177 2).wellFormed = false := by decide
theorem test_wf_zx7CpyL_length : (Instr.zx7CpyL 129 1).wellFormed = false ∧ (Instr.zx7CpyL 129 65537).wellFormed = false := by decide
theorem test_wf_zx0Lit : (Instr.zx0Lit0 []).wellFormed = false ∧ (Instr.zx0Lit []).wellFormed = false := by decide
theorem test_wf_zx0Rep : (Instr.zx0Rep 0).wellFormed = false ∧ (Instr.zx0Rep (2 ^ 32)).wellFormed = false := by decide
theorem test_wf_zx0Cpy_offset : (Instr.zx0Cpy 0 2).wellFormed = false ∧ (Instr.zx0Cpy 32641 2).wellFormed = false := by decide
theorem test_wf_zx0Cpy_length : (Instr.zx0Cpy 1 1).wellFormed = false ∧ (Instr.zx0Cpy 1 (2 ^ 32 + 1)).wellFormed = false := by decide
theorem test_wf_mlzCpy1 : (Instr.mlzCpy1 0).wellFormed = false ∧ (Instr.mlzCpy1 9).wellFormed = false := by decide
theorem test_wf_mlzCpy2 : (Instr.mlzCpy2 0).wellFormed = false ∧ (Instr.mlzCpy2 257).wellFormed = false := by decide
theorem test_wf_mlzCpy3S : (Instr.mlzCpy3S 0).wellFormed = false ∧ (Instr.mlzCpy3S 257).wellFormed = false := by decide
theorem test_wf_mlzCpy3L : (Instr.mlzCpy3L 256).wellFormed = false ∧ (Instr.mlzCpy3L 4353).wellFormed = false := by decide
theorem test_wf_mlzCpyNS : (Instr.mlzCpyNS 0 4).wellFormed = false ∧ (Instr.mlzCpyNS 257 4).wellFormed = false ∧
    (Instr.mlzCpyNS 1 3).wellFormed = false ∧ (Instr.mlzCpyNS 1 256).wellFormed = false := by decide
theorem test_wf_mlzCpyNL : (Instr.mlzCpyNL 256 4).wellFormed = false ∧ (Instr.mlzCpyNL 4353 4).wellFormed = false ∧
    (Instr.mlzCpyNL 257 3).wellFormed = false ∧ (Instr.mlzCpyNL 257 256).wellFormed = false := by decide

/-! ### Decoding: streams written out from the spec's encodings -/

/-- The format of the forward modes with `ZX0_INVERT_MSB = 1`. -/
def fwd : Fmt := { pol := .fwd, inv := true }

/-- The token at the beginning of a stream, at a place of a variant's stream. -/
def tokenAt (v : Variant) (at_ : Place) (x : List Byte) : Option Instr :=
  match decodeToken fwd v at_ x Cursor.start with
  | .ok (i, _) => some i
  | .error _ => none

/-- R84: FIRST is the byte alone. -/
theorem test_decode_zx7First : tokenAt .zx7 .first [0x41] = some (.zx7First 0x41) := by decide
/-- R84: `0`, then the byte. -/
theorem test_decode_zx7Lit : tokenAt .zx7 .afterRun [0b00000000, 0x41] = some (.zx7Lit 0x41) := by decide
/-- R84: `1`, gamma(2) = `010`, byte o - 1 = 4: offset 5, length 3. -/
theorem test_decode_zx7CpyS : tokenAt .zx7 .afterRun [0b10100000, 4] = some (.zx7CpyS 5 3) := by decide
/-- R84, R85: `1`, gamma(1) = `1`, byte 0x80 OR (d AND 0x7F), d = 300 - 129 = 171 = 1 * 128 + 43, then `0001`. -/
theorem test_decode_zx7CpyL : tokenAt .zx7 .afterRun [0b11000100, 0xAB] = some (.zx7CpyL 300 2) := by decide
/-- R84, R122's example: `1`, sixteen `0`, `1`. -/
theorem test_decode_zx7End : tokenAt .zx7 .afterRun [0x80, 0x00, 0x40] = some .zx7End := by decide +kernel
/-- R86, R212: igamma(1) = `1`, then the byte. -/
theorem test_decode_zx0Lit0 : tokenAt .zx0 .first [0b10000000, 0x41] = some (.zx0Lit0 [0x41]) := by decide
/-- R86: `0`, igamma(2) = `0 0 1`, two bytes. -/
theorem test_decode_zx0Lit : tokenAt .zx0 .afterCopy [0b00010000, 0x41, 0x42] = some (.zx0Lit [0x41, 0x42]) := by decide
/-- R86: `0`, igamma(3) = `0 1 1`. -/
theorem test_decode_zx0Rep : tokenAt .zx0 .afterRun [0b00110000] = some (.zx0Rep 3) := by decide
/-- R86, R87: `1`, igamma(1) inverted = `1`, LSB 0xFE for offset 1 with the slot 1, which ends igamma(1): length 2. -/
theorem test_decode_zx0Cpy : tokenAt .zx0 .afterRun [0b11000000, 0xFF] = some (.zx0Cpy 1 2) := by decide
/-- R86, R212: `1`, igamma(256) with inverted data bits. -/
theorem test_decode_zx0End : tokenAt .zx0 .afterRun [0b10101010, 0b10101010, 0b11000000] = some .zx0End := by decide +kernel
/-- R89: FIRST is the byte alone. -/
theorem test_decode_mlzFirst : tokenAt .megalz .first [0x41] = some (.mlzFirst 0x41) := by decide
/-- R89: `1`, then the byte. -/
theorem test_decode_mlzLit : tokenAt .megalz .afterRun [0b10000000, 0x41] = some (.mlzLit 0x41) := by decide
/-- R89: `000`, (-5) mod 8 = 3. -/
theorem test_decode_mlzCpy1 : tokenAt .megalz .afterRun [0b00001100] = some (.mlzCpy1 5) := by decide
/-- R89: `001`, byte (-5) mod 256 = 251. -/
theorem test_decode_mlzCpy2 : tokenAt .megalz .afterRun [0b00100000, 251] = some (.mlzCpy2 5) := by decide
/-- R89, R90: `010`, `0`, byte 0 for offset 256. -/
theorem test_decode_mlzCpy3S : tokenAt .megalz .afterRun [0b01000000, 0] = some (.mlzCpy3S 256) := by decide
/-- R90's example: `010`, `1 1111`, byte 0xFF for offset 257. -/
theorem test_decode_mlzCpy3L : tokenAt .megalz .afterRun [0b01011111, 0xFF] = some (.mlzCpy3L 257) := by decide +kernel
/-- R89: `011`, gamma(1) = `1`, `0`, byte 255: offset 1, length 4. -/
theorem test_decode_mlzCpyNS : tokenAt .megalz .afterRun [0b01110000, 255] = some (.mlzCpyNS 1 4) := by decide
/-- R89, R90: `011`, gamma(2) = `010`, `1 0000`, byte 0: offset 4352, length 5. -/
theorem test_decode_mlzCpyNL : tokenAt .megalz .afterRun [0b01101010, 0b00000000, 0] = some (.mlzCpyNL 4352 5) := by decide +kernel
/-- R89, R91, R215: `011`, eight `0`. -/
theorem test_decode_mlzEnd : tokenAt .megalz .afterRun [0x60, 0x00] = some .mlzEnd := by decide +kernel
/-- R97's example. -/
theorem test_decode_compress : decodeCtrl 0x411 = some (.compress 4) := by decide
/-- R97: bits 3:1, 7:6 and 31:12 are ignored. -/
theorem test_decode_decompress : decodeCtrl 0xFFFFF7EF = some (.decompress 7) ∧ decodeCtrl 0x420 = none := by decide

/-- R82's worked example of interleaving. -/
theorem test_layout_example : layout [.bit false, .byte 0x41, .bit true] = [0x40, 0x41] := by decide
/-- R87's worked examples. -/
theorem test_zx0_lsb_examples : zx0Lsb .fwd 1 = 0xFE ∧ zx0Lsb .fwd 129 = 0xFE ∧ zx0Lsb .fwd 128 = 0x00 ∧
    zx0Msb 128 = 1 ∧ zx0Msb 129 = 2 := by decide
/-- The words of the sanity statement, decoded and laid out. -/
theorem test_table_words :
    decodeTableWord 16 0x5FFF = some (.mlzCpy3L 257) ∧ decodeTableWord 16 0x5000 = some (.mlzCpy3L 4352) ∧
    decodeTableWord 32 0x00000721 = some (.decompress 7) ∧ decodeTableWord 32 0x00000031 = none ∧
    layout (tokenItems fwd (.zx7CpyL 200 3)) = [0xA0, 0xC7] := by decide +kernel
/-! ### One step each -/

/-- A DECOMPRESS in a mode, at a token of its stream, with the output `out` produced so far. -/
def unpacking (mode : BitVec 4) (st : DState) (out x : List Byte) : State :=
  { State.reset with
    csr := { Csr.reset with cmd := 2, mode := mode, busy := true, srcLen := 16, dstAddr := 0x100, dstCap := 16 }
    latch := { cmd := 2, mode := mode, src := 0, len := 16, dst := 0x100, cap := 16 }
    phase := .unpack
    image := x
    obuf := out
    hist := Memory.writeBytes [] 0 out
    up := { cur := Cursor.start, lastOffset := 1, dstate := st } }

/-- A COMPRESS in a mode, in EMIT, with the operations to emit. -/
def emitting (mode : BitVec 4) (ops : List Op) : State :=
  { State.reset with
    csr := { Csr.reset with cmd := 1, mode := mode, busy := true, srcLen := 16, dstAddr := 0x100, dstCap := 16 }
    latch := { cmd := 1, mode := mode, src := 0, len := 16, dst := 0x100, cap := 16 }
    phase := .emit
    ops := ops
    pk := Packer.start (variantOf mode) }

/-- A ZX0 COMPRESS in EMIT right after a literal run, with `out` in OBUF. -/
def emittedRun (out : List Byte) (ops : List Op) : State :=
  { emitting 2 ops with
    obuf := out
    pk := { Packer.start .zx0 with backtrack := false, prevKind := .lit } }

/-- The output after a step; none where it gives no next state. -/
def outAfter (o : Host.Outcome State Fault Refusal) : Option (List Byte) :=
  match o with
  | .next t => some t.obuf
  | _ => none

/-- What a function of the state gives after a step. -/
def after {α : Type} (o : Host.Outcome State Fault Refusal) (f : State → α) : Option α :=
  match o with
  | .next t => some (f t)
  | _ => none

/-- The error code after a step. -/
def codeAfter (o : Host.Outcome State Fault Refusal) : Option (BitVec 3) :=
  match o with
  | .next t => some t.csr.errCode
  | _ => none

/-- The table's numbered rows decode, and run as the first instruction after reset. -/
theorem test_withFetchWord :
    decodeTableWord 8 0x11 = some (.compress 0) ∧
    after (step (State.reset.withFetchWord 32 0x421)) (fun t => (t.csr.busy, t.latch.mode)) = some (true, 4) ∧
    after (step (State.reset.withFetchWord 16 0x5FFF)) (fun t => t.csr.errCode) = some 2 := by decide +kernel

/-- R237: FIRST outputs its byte. -/
theorem test_unpack_zx7First : outAfter (step (unpacking 0 .readFirst [] [0x41])) = some [0x41] := by decide
/-- R234: `o < L` repeats a pattern. -/
theorem test_unpack_zx7CpyS : outAfter (exec (.zx7CpyS 2 5) (unpacking 0 .readToken [1, 2] [])) =
    some [1, 2, 1, 2, 1, 2, 1] := by decide
/-- R234: an offset beyond the output is `INVALID`. -/
theorem test_unpack_zx7CpyL : codeAfter (exec (.zx7CpyL 129 2) (unpacking 0 .readToken [1, 2] [])) = some 2 := by decide
/-- R235: the byte beyond `CAPL` is `ALLOC`. -/
theorem test_unpack_zx7Lit : codeAfter (exec (.zx7Lit 9) (unpacking 0 .readToken (List.replicate 16 0) [])) = some 1 := by decide
/-- R238: a copy from the last offset, which is 1 at the start. -/
theorem test_unpack_zx0Rep : outAfter (exec (.zx0Rep 3) (unpacking 2 .readLastOffsetCopy [7] [0x00])) =
    some [7, 7, 7, 7] := by decide
/-- R239: CPY1 outputs one byte. -/
theorem test_unpack_mlzCpy1 : outAfter (exec (.mlzCpy1 2) (unpacking 6 .readToken [1, 2] [])) = some [1, 2, 1] := by decide
/-- R245: END ends UNPACK with `C = IN_IDX`; a reversed mode goes to REVERSE-OUT. -/
theorem test_unpack_end :
    after (step (unpacking 0 .readToken [1] [0x80, 0x00, 0x40])) (fun t => (t.phase, t.up.cur.inIdx)) =
      some (.writeback, 3) ∧
    after (exec .zx7End (unpacking 1 .readToken [1] [])) (fun t => t.phase) = some .reverseOut := by decide +kernel
/-- R205: FIRST is a byte. -/
theorem test_emit_zx7First : outAfter (step (emitting 0 [.first 0x41])) = some [0x41] := by decide
/-- R203, R208, R212: the first run drops its indicator: igamma(1) = `1`, then the byte. -/
theorem test_emit_zx0Lit0 : outAfter (step (emitting 2 [.run [0x41]])) = some [0x80, 0x41] := by decide
/-- R210: a last-offset copy that follows no literal run is `LIMIT`. -/
theorem test_emit_zx0Rep : codeAfter (exec (.zx0Rep 2) (emitting 2 [])) = some 3 := by decide
/-- R211: END takes 18 bits. -/
theorem test_emit_zx0End :
    after (exec .zx0End (emittedRun [] [])) (fun t => (t.phase, t.costBits)) = some (.capacity, 18) := by decide +kernel
/-- R213, R214: `010` and `1 1111`, byte 0xFF for offset 257. -/
theorem test_emit_mlzCpy3L : outAfter (exec (.mlzCpy3L 257) (emitting 6 [])) = some [0x5F, 0xFF] := by decide
/-- R216: a copy of length 2 at offset 300 is outside MegaLZ's range. -/
theorem test_emit_mlzCpy2 : codeAfter (exec (.mlzCpy2 300) (emitting 6 [])) = some 3 := by decide
/-- R194: the costs of "abracadabra" at positions 8 and 10 (ZX7). -/
theorem test_zx7_example :
    (zx7Build [0x61, 0x62, 0x72, 0x61, 0x63, 0x61, 0x64, 0x61, 0x62, 0x72, 0x61] 11)[10]? =
      some { cost := some 74, off := 7, len := 4 } := by decide
/-- R32: a register store while busy is ignored. -/
theorem test_store_while_busy :
    (unpacking 0 .readToken [] []).writeReg 0x10 5 = unpacking 0 .readToken [] [] := by decide

/-- Reset memory is in canonical form. -/
theorem test_reset_memory : State.reset.mem.wf := by decide

/-! ### Witnesses: states and operands that meet the hypotheses of each statement -/

/-- A machine with an input waiting. -/
def waiting (busy : Bool) (i : Input) : State :=
  { State.reset with csr := { Csr.reset with busy := busy }, inputs := [i] }

/-- A store to the register at an offset. -/
def storeReg (busy : Bool) (off : Word) (d : BitVec 64) : State := waiting busy (.store .w32 (0x40000000 + off) d)

/-- A command at CHECK, its snapshot taken. -/
def checking (cmd : BitVec 2) (mode : BitVec 4) (image : List Byte) (l : Latch) : State :=
  { State.reset with
    csr := { Csr.reset with
      cmd := cmd, mode := mode, busy := true, srcAddr := l.src, srcLen := l.len, dstAddr := l.dst, dstCap := l.cap }
    latch := { l with cmd := cmd, mode := mode }
    image := image
    phase := .check }

/-- Buffers that pass the checks. -/
def buffers (len cap : Word) : Latch := { cmd := 1, mode := 0, src := 0x100, len := len, dst := 0x200, cap := cap }

theorem witness_RegisterMap :
    State.reset.csr.busy = false ∧ (storeReg false 0x04 1).inWindow 0x40000004 = true ∧
    (storeReg false 0x04 1).offset 0x40000004 = 0x04 ∧ (1 : BitVec 64).getLsbD 0 = true := by decide

theorem witness_RegisterAccessRules :
    (waiting true (.load .w32 0x40000000)).inWindow 0x40000000 = true ∧
    (waiting true (.load .w8 0x4000003F)).inWindow 0x4000003F = true ∧
    (storeReg false 0x30 1).inWindow 0x40000030 = true ∧ 0x30 ≤ (storeReg false 0x30 1).offset 0x40000030 ∧
    (storeReg false 0x3C 1).inWindow 0x4000003C = true ∧ 0x30 ≤ (storeReg false 0x3C 1).offset 0x4000003C ∧
    (waiting false (.store .w8 0x40000010 1)).inWindow 0x40000010 = true ∧ Width.w8 ≠ .w32 ∧
    (storeReg true 0x04 1).csr.busy = true ∧ (storeReg false 0x3F 1).offset 0x4000003F % 4 ≠ 0 := by decide +kernel

/-- The offsets at the ends of the map and of each clause. -/
theorem witness_OtherRegisterStores :
    (storeReg false 0x00 2).inWindow 0x40000000 = true ∧ (storeReg false 0x00 2).offset 0x40000000 = 0x00 ∧
    (storeReg false 0x04 2).offset 0x40000004 = 0x04 ∧ (storeReg false 0x08 2).offset 0x40000008 = 0x08 ∧
    (storeReg false 0x0C 2).offset 0x4000000C = 0x0C ∧ (storeReg false 0x10 2).offset 0x40000010 = 0x10 ∧
    (storeReg false 0x1C 2).offset 0x4000001C = 0x1C ∧ (storeReg false 0x20 2).offset 0x40000020 = 0x20 ∧
    (storeReg false 0x3C 2).inWindow 0x4000003C = true ∧ (storeReg false 0x3C 2).offset 0x4000003C = 0x3C ∧
    (storeReg false 0x3C 2).csr.busy = false ∧ (2 : BitVec 64).getLsbD 0 = false ∧
    (2 : BitVec 64).getLsbD 1 = true := by decide +kernel

theorem witness_StartLatchesAndSnapshots :
    (storeReg true 0x04 0x411).csr.busy = true ∧ (storeReg false 0x04 0x410).csr.busy = false ∧
    (storeReg false 0x04 0x411).offset 0x40000004 = 0x04 ∧ (0x410 : BitVec 64).getLsbD 0 = false ∧
    (0x411 : BitVec 64).getLsbD 0 = true := by decide

theorem witness_CommandsStart : State.reset.csr.busy = false := by decide

theorem witness_CtrlStoreEncodings :
    (storeReg false 0x04 0xFFFFF7DF).offset 0x40000004 = 0x04 ∧
    ((0xFFFFF7DF : BitVec 64).truncate 32 : Word) &&& 0x00000F31 = ctrlWord 1 7 ∧
    ((0x421 : BitVec 64).truncate 32 : Word) &&& 0x00000F31 = ctrlWord 2 4 ∧
    (8 ≤ (8 : BitVec 4).toNat) ∧ (8 ≤ (15 : BitVec 4).toNat) := by decide

theorem witness_CommandChecksInOrder :
    atCheck (checking 1 0 [] (buffers 0 4)) ∧
    illegalCommand (checking 3 0 [] (buffers 0 4)).latch ∧ illegalCommand (checking 1 8 [] (buffers 0 4)).latch ∧
    illegalCommand (checking 1 0 [] { buffers 1 4 with src := 0xFFFFFFFF, len := 2 }).latch ∧
    illegalCommand (checking 1 0 [] { buffers 1 4 with dst := 0xFFFFFFFF, cap := 2 }).latch ∧
    illegalCommand (checking 1 0 [] (buffers 0x101 1)).latch ∧
    (¬ illegalCommand (checking 1 0 [] { buffers 0x1000000 4 with src := 0x1000 }).latch ∧
      Params.default.maxInputLen < (0x1000000 : Word).toNat) ∧
    ¬ illegalCommand (checking 2 7 [] { buffers 0x100 0xFFFFFE00 with dst := 0x200 }).latch := by
  refine ⟨⟨rfl, rfl, rfl⟩, .inl (by decide), .inr (.inl (by decide)), .inr (.inr (.inl (by decide))),
    .inr (.inr (.inr (.inl (by decide)))), .inr (.inr (.inr (.inr ⟨0x200, by decide, by decide⟩))), ⟨?_, by decide⟩, ?_⟩
  · simp [illegalCommand, inBuffer, checking, buffers]; intros; omega
  · simp [illegalCommand, inBuffer, checking, buffers]; intros; omega

theorem witness_ReversalAndCapacityPhases :
    ({ checking 1 1 [1, 2] (buffers 2 4) with phase := .capacity, obuf := [1, 2, 3, 4] } : State).obuf.length ≤
      (4 : Word).toNat ∧
    (3 : Word).toNat < ({ checking 1 1 [1, 2] (buffers 2 3) with phase := .capacity, obuf := [1, 2, 3, 4] } : State).obuf.length := by
  decide

theorem witness_EmptyBuffersSucceed :
    atCheck (checking 1 0 [] (buffers 0 0)) ∧ (checking 1 0 [] (buffers 0 0)).checkError = none ∧
    atCheck (checking 2 5 [] (buffers 0 0)) ∧ (checking 2 5 [] (buffers 0 0)).checkError = none ∧
    decode fwd .zx0 (DState.initial .zx0) [0x80, 0x41] Cursor.start =
      .ok (.zx0Lit0 [0x41], { inIdx := 2, bitMask := 0x80, bitValue := 0x80, lastByte := 0x41, backtrack := false }) :=
  ⟨⟨rfl, rfl, rfl⟩, by decide, ⟨rfl, rfl, rfl⟩, by decide, by decide +kernel⟩

/-- A command in WRITEBACK with two bytes to write. -/
def writingBack (cmd : BitVec 2) : State :=
  { checking cmd 0 [1] (buffers 1 4) with phase := .writeback, obuf := [7, 8] }

theorem witness_WritebackAndComplete :
    (writingBack 1).phase = .writeback ∧ (writingBack 2).dutyBroken = false ∧
    (writingBack 1).mem.wf ∧ ErrCode.limit ≠ .none ∧
    after (stepEngine (writingBack 1)) (fun t => (t.phase, t.csr.busy, t.csr.done, t.dutyBroken)) =
      some (.complete, true, false, false) := by decide +kernel

theorem witness_ErrorCodesInStatus : (writingBack 1).dutyBroken = false := by decide

theorem witness_InterruptFollowsDoneAndEnable :
    ({ State.reset with csr := { Csr.reset with done := true } } : State).csr.done = true ∧
    State.reset.csr.busy = false ∧ (1 : Word).getLsbD 0 = true ∧ (2 : Word).getLsbD 1 = true := by decide

theorem witness_inv (s : State) (h1 : s.statusOk) (h2 : s.phaseOk) (h3 : s.latchOk) (h4 : s.checkedOk) (h5 : s.outputOk)
    (h6 : s.memOk) (h7 : s.dstateOk) (h8 : s.packerOk) (h9 : maskOk s.up.cur.bitMask) : s.Inv :=
  ⟨h1, h2, h3, h4, h5, h6, h7, h8, h9⟩

theorem witness_ResetAbandonsTheCommand :
    ({ writingBack 1 with inputs := [.rst] } : State).Inv ∧
    ({ checking 2 3 [1] (buffers 1 4) with inputs := [.rst] } : State).Inv ∧
    ({ waiting false .rst with csr := { Csr.reset with srcAddr := 0x100, done := true, resultLen := 1 } } : State).Inv ∧
    (writingBack 1).csr.busy = true ∧ inBuffer (writingBack 1).latch.dst (writingBack 1).latch.cap 0x204 = false ∧
    inBuffer (writingBack 1).latch.src (writingBack 1).latch.len 0x100 = true :=
  ⟨witness_inv _ (by decide) (by decide) (by decide) (by decide) (by decide) (by decide) (by decide) (by decide) (by decide),
    witness_inv _ (by decide) (by decide) (by decide) (by decide) (by decide) (by decide) (by decide) (by decide) (by decide),
    witness_inv _ (by decide) (by decide) (by decide) (by decide) (by decide) (by decide) (by decide) (by decide) (by decide),
    by decide, by decide, by decide⟩

theorem witness_BrokenHostDutyStillCompletes :
    (writingBack 1).csr.busy = true ∧ (writingBack 1).inWindow 0xFF = false ∧
    (∃ b ∈ accessAddrs 0xFF (widthBytes .w16), (writingBack 1).touchesBuffer b = true) ∧
    ({ writingBack 1 with dutyBroken := true } : State).mem.wf ∧
    inBuffer (writingBack 1).latch.dst (writingBack 1).latch.cap 0x1FF = false := by decide

/-- A store and a load that wrap at the top of the address space, and a load of a result being written back. -/
theorem witness_HostMemoryAccesses :
    (waiting false (.store .w64 0xFFFFFFFF 5)).inWindow 0xFFFFFFFF = false ∧
    (waiting false (.store .w64 0xFFFFFFFF 5)).mem.wf ∧ (waiting false (.load .w8 0)).inWindow 0 = false ∧
    (writingBack 1).inWindow 0x201 = false ∧ (writingBack 1).dutyBroken = false ∧
    0x201 < (writingBack 1).latch.dst.toNat + (writingBack 1).obuf.length := by decide

/-- The invariant holds in states of every command's phases, and a step answers next from them. -/
theorem witness_StepKeepsInvariant :
    (unpacking 0 .readToken [1] [0x00, 0x41]).Inv ∧ (emitting 0 [.first 1]).Inv ∧
    after (step (unpacking 0 .readToken [1] [0x00, 0x41])) (fun t => t.phase) = some .unpack ∧
    after (step (emitting 0 [.first 1])) (fun t => t.phase) = some .emit :=
  ⟨witness_inv _ (by decide) (by decide) (by decide) (by decide) (by decide) (by decide) (by decide) (by decide) (by decide),
    witness_inv _ (by decide) (by decide) (by decide) (by decide) (by decide) (by decide) (by decide) (by decide) (by decide),
    by decide +kernel, by decide +kernel⟩

theorem witness_EveryCommandCompletes :
    (writingBack 1).csr.busy = true ∧ (writingBack 1).phase ≠ .idle ∧
    (unpacking 0 .done [] []).csr.busy = true ∧ (unpacking 0 .done [] []).phase ≠ .idle := by decide

theorem witness_EngineWritesOnlyTheOutputBuffer :
    (writingBack 1).Inv ∧ after (stepEngine (writingBack 1)) (fun t => t.mem) = some [(0x200, 7), (0x201, 8)] ∧
    ({ writingBack 1 with phase := .complete } : State).Inv ∧
    after (stepEngine { writingBack 1 with phase := .complete }) (fun t => t.csr.done) = some true ∧
    (emitting 0 []).phase ≠ .writeback ∧ (emitting 0 []).dutyBroken = false :=
  ⟨witness_inv _ (by decide) (by decide) (by decide) (by decide) (by decide) (by decide) (by decide) (by decide) (by decide),
    by decide +kernel,
    witness_inv _ (by decide) (by decide) (by decide) (by decide) (by decide) (by decide) (by decide) (by decide) (by decide),
    by decide +kernel, by decide, by decide⟩

theorem witness_EngineLeavesHostRegistersAlone :
    after (stepEngine (writingBack 1)) (fun t => t.csr.cmd) = some 1 ∧
    after (stepEngine { State.reset with csr := { Csr.reset with done := true } }) (fun t => (t.phase, t.csr.done)) =
      some (.idle, true) := by decide +kernel

/-- Two machines with the same command and snapshot and different leftovers; five steps on, one has an output byte. -/
theorem witness_ResultsDependOnlyOnCommandAndSnapshot :
    atCheck (checking 2 0 [0x41, 0x80, 0x00, 0x40] (buffers 4 4)) ∧
    atCheck { checking 2 0 [0x41, 0x80, 0x00, 0x40] (buffers 4 4) with hist := [(0, 9)], obuf := [5], total := 3 } ∧
    Memory.wf [(0, 9)] ∧
    after (runEngine 2 (checking 2 0 [0x41, 0x80, 0x00, 0x40] (buffers 4 4))) (fun t => (t.phase, t.obuf)) =
      some (.unpack, [0x41]) ∧
    after (runEngine 5 (checking 2 0 [0x41, 0x80, 0x00, 0x40] (buffers 4 4))) (fun t => (t.phase, t.csr.resultLen)) =
      some (.idle, 1) :=
  ⟨⟨rfl, rfl, rfl⟩, ⟨rfl, rfl, rfl⟩, by decide, by decide +kernel, by decide +kernel⟩

theorem witness_Zx0OffsetFields :
    zx0Msb 1 = 1 ∧ zx0Msb 32640 = 255 ∧
    readIGamma [0x55, 0x55, 0x80] .fwd true Cursor.start =
      .ok (256, { inIdx := 3, bitMask := 0x80, bitValue := 0x80, lastByte := 0x80, backtrack := false }) := by
  decide +kernel

theorem witness_MlzOffsetField : mlzOffShort 1 = [.bit false, .byte 0xFF] ∧ mlzOffShort 256 = [.bit false, .byte 0] ∧
    mlzOffLong 257 = [.bit true, .bit true, .bit true, .bit true, .bit true, .byte 0xFF] ∧
    mlzOffLong 4352 = [.bit true, .bit false, .bit false, .bit false, .bit false, .byte 0] := by decide +kernel

theorem witness_FormatOfEachMode : (∀ o L, Instr.zx7End ≠ .zx0Cpy o L) ∧ Instr.zx7End ≠ .zx0End := by
  exact ⟨fun _ _ h => (nomatch h), by decide⟩

/-- Well-formed tokens at both ends of their ranges. -/
theorem witness_Zx7DecodeEncode :
    ∀ i ∈ [Instr.zx7First 0, .zx7Lit 255, .zx7CpyS 1 2, .zx7CpyS 128 65536, .zx7CpyL 129 2, .zx7CpyL 2176 65536, .zx7End],
      tokenVariant i = some .zx7 ∧ i.wellFormed = true ∧ (mayStand i .first = true ∨ mayStand i .afterRun = true) := by decide

theorem witness_Zx0DecodeEncode :
    ∀ i ∈ [Instr.zx0Lit0 [1], .zx0Lit [1, 2], .zx0Rep 1, .zx0Rep (2 ^ 32 - 1), .zx0Cpy 1 2, .zx0Cpy 32640 (2 ^ 32), .zx0End],
      tokenVariant i = some .zx0 ∧ i.wellFormed = true ∧
      (mayStand i .first = true ∨ mayStand i .afterRun = true ∨ mayStand i .afterCopy = true) := by decide

theorem witness_MlzDecodeEncode :
    ∀ i ∈ [Instr.mlzFirst 0, .mlzLit 1, .mlzCpy1 1, .mlzCpy1 8, .mlzCpy2 1, .mlzCpy2 256, .mlzCpy3S 1, .mlzCpy3S 256,
        .mlzCpy3L 257, .mlzCpy3L 4352, .mlzCpyNS 1 4, .mlzCpyNS 256 255, .mlzCpyNL 257 4, .mlzCpyNL 4352 255, .mlzEnd],
      tokenVariant i = some .megalz ∧ i.wellFormed = true ∧ (mayStand i .first = true ∨ mayStand i .afterRun = true) := by
  decide

theorem witness_DecodedTokensAreWellFormed :
    decode fwd .zx7 .readFirst [0x41] Cursor.start =
      .ok (.zx7First 0x41, { inIdx := 1, bitMask := 0, bitValue := 0, lastByte := 0x41, backtrack := false }) := by
  decide +kernel

theorem witness_IllegalEncodingsAreRejected :
    (List.replicate 31 true).length = 31 ∧ 256 < 257 ∧ 257 < 2 ^ 32 ∧ 256 < 2 ^ 32 - 1 ∧ 256 ≤ 258 ∧
    (0xFE : Byte).getLsbD 0 = continueBit .fwd ∧ (0x01 : Byte).getLsbD 0 = continueBit .back ∧
    ([] : List Byte).length ≤ Cursor.start.inIdx ∧ Cursor.start.backtrack = false ∧ Cursor.start.bitMask >>> 1 = 0 ∧
    [0x41].length ≤ { Cursor.start with inIdx := 1, bitMask := 1 }.inIdx := by decide

/-- R93 item 1: the tokens the truncated streams of `IllegalEncodingsAreRejected` are cut from, one and two bytes before their
end, and their last cut's error: a two-byte run whose code takes one byte (R86), and the MegaLZ copy of R89. -/
theorem witness_IllegalEncodingsAreRejected_cut :
    tokenVariant (.zx0Lit0 [0x41, 0x42]) = some .zx0 ∧ (Instr.zx0Lit0 [0x41, 0x42]).wellFormed = true ∧
    mayStand (.zx0Lit0 [0x41, 0x42]) .first = true ∧ 2 < (layout (tokenItems fwd (.zx0Lit0 [0x41, 0x42]))).length ∧
    truncatedError fwd (.zx0Lit0 [0x41, 0x42]) 2 = .prematureRun [0x41] ∧
    truncatedError fwd (.zx0Lit0 [0x41, 0x42]) 0 = .prematureEnd ∧
    mayStand (.mlzCpy2 9) .afterRun = true ∧ (Instr.mlzCpy2 9).wellFormed = true ∧
    1 < (layout (tokenItems fwd (.mlzCpy2 9))).length ∧
    truncatedError fwd (.mlzCpy2 9) 1 = .prematureEnd := by decide +kernel

/-- R230, R238: the run that ends after its first byte. -/
theorem test_truncated_run :
    decodeToken fwd .zx0 .first [0b00100000, 0x41] Cursor.start = .error (.prematureRun [0x41]) := by decide

theorem witness_TokenBitsEqualCost :
    tokenVariant (.zx0Cpy 32640 2) = some .zx0 ∧ (Instr.zx0Cpy 32640 2).wellFormed = true := by decide

theorem witness_StepRunsTheDecodedInstruction :
    (unpacking 6 .readToken [1] [0x80, 0x41]).inputs = [] ∧
    decode (unpacking 6 .readToken [1] []).fmt .megalz .readToken [0x80, 0x41] Cursor.start =
      .ok (.mlzLit 0x41, { inIdx := 2, bitMask := 0x80, bitValue := 0x80, lastByte := 0x41, backtrack := false }) ∧
    (unpacking 6 .readToken [1] []).variant = .megalz ∧ (emitting 0 [.lit 4]).nextToken = some (.zx7Lit 4) ∧
    (storeReg false 0x04 0x411).offset 0x40000004 = 0x04 ∧
    decodeCtrl ((0x411 : BitVec 64).truncate 32) = some (.compress 4) := by decide +kernel

theorem witness_RejectedStreamsEndTheCommand :
    decode (unpacking 0 .readToken [] []).fmt (unpacking 0 .readToken [] []).variant .readToken [] Cursor.start =
      .error .prematureEnd ∧ (∀ bs, DecodeError.prematureEnd ≠ .prematureRun bs) ∧
    decode (unpacking 2 .readLiteralRun [] []).fmt .zx0 .readLiteralRun [0b01100000, 1, 2] Cursor.start =
      .error (.prematureRun [1, 2]) ∧ (unpacking 2 .readLiteralRun [] []).variant = .zx0 ∧
    (unpacking 2 .readLiteralRun (List.replicate 15 0) []).obuf.length ≤
      (unpacking 2 .readLiteralRun (List.replicate 15 0) []).capl :=
  ⟨by decide +kernel, fun _ h => (nomatch h), by decide +kernel, by decide, by decide⟩

theorem witness_LiteralTokensOutputTheirByte :
    ((unpacking 0 .readToken (List.replicate 15 0) []).obuf.length < (unpacking 0 .readToken [] []).capl ∧
      (unpacking 0 .readToken [] []).variant = .zx7) ∧
    ((unpacking 6 .readToken (List.replicate 16 0) []).capl ≤ (List.replicate 16 (0 : Byte)).length ∧
      (unpacking 6 .readToken [] []).variant = .megalz) := by decide

theorem witness_CopyTokensRepeatTheOutput :
    (∀ m ∈ [((0 : BitVec 4), Instr.zx7CpyS 2 14), (6, .mlzCpy1 1), (6, .mlzCpy2 2), (7, .mlzCpy3S 2), (7, .mlzCpyNS 1 14)],
      ∃ p ∈ copyToken m.2, m.2.wellFormed = true ∧ (unpacking m.1 .readToken [1, 2] []).variant = p.1 ∧ p.2.1 ≤ 2 ∧
        2 + p.2.2 ≤ (unpacking m.1 .readToken [1, 2] []).capl) ∧
    (unpacking 0 .readToken [1, 2] []).histOk := by decide

/-- A MegaLZ DECOMPRESS that has output 257 zeros and has room for 255 bytes more. -/
def longOutput : State :=
  { unpacking 6 .readToken [] [] with
    obuf := List.replicate 257 0, latch := { (unpacking 6 .readToken [] []).latch with cap := 512 } }

/-- The long forms need 257 bytes of output before them. -/
theorem witness_CopyTokensRepeatTheOutput_long :
    longOutput.phase = .unpack ∧ longOutput.variant = .megalz ∧ longOutput.histOk ∧ 257 ≤ longOutput.obuf.length ∧
    longOutput.obuf.length + 255 ≤ longOutput.capl := by decide +kernel

theorem witness_CopyTokensFailAsTheRulesSay :
    copyToken (.zx7CpyL 129 2) = some (.zx7, 129, 2) ∧ (unpacking 0 .readToken [1] []).obuf.length < 129 ∧
    copyToken (.mlzCpyNS 1 15) = some (.megalz, 1, 15) ∧
    (unpacking 6 .readToken [1, 2] []).capl < (unpacking 6 .readToken [1, 2] []).obuf.length + 15 ∧
    (unpacking 6 .readToken [1, 2] []).obuf.length ≤ (unpacking 6 .readToken [1, 2] []).capl := by decide

theorem witness_Zx0RunsOutputTheirBytes :
    (unpacking 2 .readLiteralRun [1] [0x80]).variant = .zx0 ∧ (unpacking 2 .readLiteralRun [1] [0x80]).histOk ∧
    1 + (List.replicate 15 (0 : Byte)).length ≤ (unpacking 2 .readLiteralRun [1] [0x80]).capl ∧
    readBit [0x80] Cursor.start =
      .ok (true, { inIdx := 1, bitMask := 0x80, bitValue := 0x80, lastByte := 0x80, backtrack := false }) := by decide

theorem witness_Zx0CopiesRepeatTheOutput :
    (unpacking 4 .readNewOffsetCopy [1, 2] [0]).histOk ∧ 1 ≤ 2 ∧ 2 ≤ (unpacking 4 .readNewOffsetCopy [1, 2] [0]).obuf.length ∧
    (unpacking 4 .readNewOffsetCopy [1, 2] [0]).obuf.length + 14 ≤ (unpacking 4 .readNewOffsetCopy [1, 2] [0]).capl ∧
    (unpacking 4 .readLastOffsetCopy [1, 2] [0]).up.lastOffset = 1 ∧
    readBit [0] Cursor.start =
      .ok (false, { inIdx := 1, bitMask := 0x80, bitValue := 0, lastByte := 0, backtrack := false }) := by decide

theorem witness_Zx0TokensFailAsTheRulesSay :
    readBit (unpacking 2 .readLiteralRun [] []).image Cursor.start = .error .prematureEnd ∧
    (unpacking 2 .readLiteralRun [1] []).obuf.length + 15 ≤ (unpacking 2 .readLiteralRun [1] []).capl ∧
    (unpacking 2 .readLiteralRun [1] []).capl < 1 + (List.replicate 16 (0 : Byte)).length ∧
    (unpacking 2 .readLastOffsetCopy [1] []).up.lastOffset = 1 ∧ (unpacking 2 .readLastOffsetCopy [1] []).obuf.length = 1 ∧
    (unpacking 2 .readNewOffsetCopy [1] []).obuf.length + 15 ≤ (unpacking 2 .readNewOffsetCopy [1] []).capl ∧
    (unpacking 2 .readNewOffsetCopy [1] []).capl < (unpacking 2 .readNewOffsetCopy [1] []).obuf.length + 16 ∧
    (unpacking 2 .readNewOffsetCopy [1] []).obuf.length < 2 ∧
    (unpacking 2 .readLastOffsetCopy [] []).obuf.length < (unpacking 2 .readLastOffsetCopy [] []).up.lastOffset := by decide

theorem witness_EndTokensEndUnpacking :
    (unpacking 1 .readToken [1] []).compressing = false ∧ (unpacking 1 .readToken [1] []).variant = .zx7 ∧
    (unpacking 5 .readToken [1] []).variant = .zx0 ∧ (unpacking 7 .readToken [1] []).variant = .megalz := by decide

theorem witness_HistoryMirrorsTheOutput :
    (unpacking 0 .readToken [1] [0x00, 0x41]).histOk ∧
    after (stepEngine (unpacking 0 .readToken [1] [0x00, 0x41])) (fun t => t.phase) = some .unpack ∧
    (checking 2 1 [1] (buffers 1 4)).hist.wf ∧
    after (stepEngine (checking 2 1 [1] (buffers 1 4))) (fun t => t.phase) = some .reverseIn ∧
    after (stepEngine (checking 2 0 [1] (buffers 1 4))) (fun t => t.phase) = some .unpack := by decide +kernel

/-- The packer is ready for each token: of ZX7 and MegaLZ at the start, of ZX0 at the start and after a run. -/
theorem witness_EmittedTokenAppendsItsEncoding :
    (∀ i ∈ [Instr.zx7First 1, .zx7Lit 1, .zx7CpyS 128 2, .zx7CpyL 2176 65536, .zx7End], emitReady (emitting 0 []) i) ∧
    emitReady (emitting 2 []) (.zx0Lit0 [1]) ∧
    (∀ i ∈ [Instr.zx0Lit [1], .zx0Rep 1, .zx0Cpy 2176 2, .zx0End], emitReady (emittedRun [] []) i) ∧
    (∀ i ∈ [Instr.mlzFirst 1, .mlzLit 1, .mlzCpy1 8, .mlzCpy2 256, .mlzCpy3S 256, .mlzCpy3L 4352, .mlzCpyNS 1 4,
      .mlzCpyNL 4352 255, .mlzEnd], emitReady (emitting 6 []) i) ∧
    (emitting 0 []).packerOk ∧ (emitting 0 []).compressing = true ∧
    (laidOut (emitting 0 []) (.zx7CpyL 2176 65536)).out.length ≤ obufSize Params.default := by
  refine ⟨?_, rfl, ?_, ?_, by decide, by decide, by decide +kernel⟩ <;> simp [emitReady] <;> decide

/-- A COMPRESS in EMIT on the smallest legal build, whose OBUF has 10 bytes, with `n` bytes in OBUF and no bit group open. -/
def smallBuild (n : Nat) : State :=
  { emittedRun (List.replicate n 0) [] with params := { Params.default with maxInputLen := 1 } }

/-- The END of 18 bits fills the smallest OBUF to its last byte. -/
theorem witness_EmittedTokenAppendsItsEncoding_full :
    (laidOut (smallBuild 7) .zx0End).out.length = obufSize (smallBuild 7).params ∧ emitReady (smallBuild 7) .zx0End ∧
    after (exec .zx0End (smallBuild 7)) (fun t => (t.obuf.length, t.csr.err)) = some (10, false) :=
  ⟨by decide +kernel, rfl, by decide +kernel⟩

theorem witness_EmissionFailsAsTheRulesSay :
    (emitting 2 []).pk.prevKind ≠ .lit ∧ copyInRange (emitting 2 []).latch.mode 2177 2 = false ∧
    copyToken (.zx7CpyS 0 2) = some (.zx7, 0, 2) ∧ copyInRange (emitting 0 []).latch.mode 0 2 = false ∧
    emitReady (smallBuild 8) (.zx0Lit [1, 2, 3]) ∧ (smallBuild 8).obuf.length ≤ obufSize (smallBuild 8).params ∧
    obufSize (smallBuild 8).params < (laidOut (smallBuild 8) (.zx0Lit [1, 2, 3])).out.length ∧
    emitReady (smallBuild 10) .zx0End ∧ (smallBuild 10).obuf.length ≤ obufSize (smallBuild 10).params ∧
    obufSize (smallBuild 10).params < (laidOut (smallBuild 10) .zx0End).out.length :=
  ⟨by decide, by decide, by decide, by decide, rfl, by decide, by decide +kernel, rfl, by decide, by decide +kernel⟩

theorem witness_Zx7WalkYieldsTheCandidateOffsets :
    keyAt [1, 1, 1, 1] (2 - 1) = some (pairKey 1 1) ∧ zx7Offsets [1, 1, 1, 1] 2 = [1] := by decide +kernel

theorem witness_MlzWalkYieldsThePairOffsets :
    keyAt [1, 1, 1, 1] 2 = some (pairKey 1 1) ∧
    ((upTo (min Config.mlzMaxOffset 2)).filter fun o => matchForward [1, 1, 1, 1] 2 o 2 == 2) = [1, 2] := by decide +kernel

theorem witness_Zx7PositionCostIsLeast :
    1 ∈ zx7Offsets [1, 1, 1] 2 ∧ 2 ≤ matchBackward [1, 1, 1] 2 1 Config.zx7MaxLen ∧
    (zx7Entry [1, 1, 1] (zx7Build [1, 1, 1] 2) 2).len = 2 ∧ (zx7Entry [1, 1, 1] (zx7Build [1, 1, 1] 2) 1).len = 0 := by
  decide +kernel

theorem witness_MlzScanRelaxesEveryTransition :
    (mlzInit 3).length = 3 + 1 ∧ (1, 2) ∈ mlzCandidates [1, 1, 1] 1 := by decide +kernel

theorem witness_GreedyTakesTheFirstGreatestGain :
    mlzCandidates [1, 2, 3] 1 = [] ∧ mlzCandidates [1, 1, 1] 1 ≠ [] := by decide +kernel

theorem witness_GreedyParseFollowsTheInput :
    expand [] [] = [1, 1, 1].take 0 ∧ expand [] [.first 1] = ([1, 1, 1] : List Byte).take 1 ∧
    after (stepEngine { emitting 7 [.first 1] with phase := .parse, image := [1, 1, 1], scan := 1 }) (fun t => t.scan) =
      some 3 := by decide +kernel

theorem witness_Zx0ParserAlwaysFindsANode : 1 ≤ Config.zx0QuickLimit ∧ 0 < ([7] : List Byte).length := by decide

/-- The two outcomes of CAPACITY: a stream of four bytes fits in four and not in three. -/
theorem witness_RoundTrip_capacity :
    after (runEngine 5 (checking 1 0 [0x41] (buffers 1 4))) (fun t => (t.phase, t.obuf.length)) = some (.capacity, 4) ∧
    after (runEngine 6 (checking 1 0 [0x41] (buffers 1 4))) (fun t => t.phase) = some .writeback ∧
    after (runEngine 6 (checking 1 0 [0x41] (buffers 1 3))) (fun t => (t.phase, t.csr.errCode)) = some (.idle, 1) := by
  decide +kernel

/-- The whole-command statements: a command at CHECK with its snapshot, in each variant. -/
theorem witness_RoundTrips :
    atCheck (checking 1 0 [1, 1] (buffers 2 16)) ∧ (checking 1 0 [1, 1] (buffers 2 16)).checkError = none ∧
    (checking 1 6 [1, 1] (buffers 2 16)).checkError = none ∧ (checking 1 3 [1, 1] (buffers 2 16)).variant = .zx0 ∧
    (checking 1 3 [1, 1] (buffers 2 16)).checkError = none ∧ (buffers 2 16).len ≠ 0 ∧
    atCheck (checking 2 0 [0x41, 0x80, 0x00, 0x40] (buffers 4 2)) ∧
    (checking 2 0 [0x41, 0x80, 0x00, 0x40] (buffers 4 2)).checkError = none :=
  ⟨⟨rfl, rfl, rfl⟩, by decide, by decide, by decide, by decide, by decide, ⟨rfl, rfl, rfl⟩, by decide⟩

theorem witness_OneByteInputs :
    atCheck (checking 1 2 [0x41] (buffers 1 4)) ∧ (checking 1 2 [0x41] (buffers 1 4)).checkError = none ∧
    (∀ m ∈ [((2 : BitVec 4), true, ReverseEmit.doc, fwd), (3, true, .doc, fwd), (2, false, .doc, { pol := .fwd, inv := false }),
        (3, false, .doc, { pol := .fwd, inv := false }), (3, true, .upstream, { pol := .back, inv := false })],
      fmtOf { Params.default with zx0InvertMsb := m.2.1, reverseEmit := m.2.2.1 } m.1 = m.2.2.2) :=
  ⟨⟨rfl, rfl, rfl⟩, by decide, by decide⟩

end Sys2Proof.Machine
end

section
/-! PROOFS. What a read of a token can answer (spec/45_unpacker.md R230 to R239): a Hoare rule for readers, and by it that the
decoder of a variant answers a token of that variant and keeps every property of the cursor the primitive reads keep. -/

namespace Sys2Proof

/-- From a cursor with `I`, a read that succeeds leaves `I` and answers a value with `P`. -/
def Reader.Spec {α : Type} (I : Cursor → Prop) (P : α → Prop) (r : Reader α) : Prop :=
  ∀ (c c' : Cursor) (v : α), I c → r c = .ok (v, c') → I c' ∧ P v

/-- The primitive reads of the stream `x` keep the property `I` of the cursor. -/
structure Reader.KeptByReads (x : List Byte) (I : Cursor → Prop) : Prop where
  byte : Reader.Spec I (fun _ => True) (readByte x)
  bit : Reader.Spec I (fun _ => True) (readBit x)
  run : ∀ L, Reader.Spec I (fun _ => True) (readRun x L)
  backtrack : Reader.Spec I (fun _ => True) setBacktrack

section
variable {α β : Type} {I : Cursor → Prop} {P : α → Prop}

theorem Reader.Spec.pure {v : α} (hv : P v) : Reader.Spec I P (pure v : Reader α) := by
  intro c c' w hc h
  cases h
  exact ⟨hc, hv⟩

theorem Reader.Spec.throw (e : DecodeError) : Reader.Spec I P (throw e : Reader α) := by
  intro c c' w _ h
  cases h

theorem Reader.Spec.get : Reader.Spec I (fun _ => True) (get : Reader Cursor) := by
  intro c c' w hc h
  cases h
  exact ⟨hc, trivial⟩

theorem Reader.Spec.bind {Q : β → Prop} {r : Reader β} {k : β → Reader α} (hr : Reader.Spec I Q r)
    (hk : ∀ v, Q v → Reader.Spec I P (k v)) : Reader.Spec I P (r >>= k) := by
  intro c c' w hc h
  obtain ⟨v, d, h1, h2⟩ := Reader.bind_ok r k c c' w h
  obtain ⟨hd, hv⟩ := hr c d v hc h1
  exact hk v hv d c' w hd h2

/-- A read whose answer does not matter, then the rest. -/
theorem Reader.Spec.andThen {r : Reader β} {k : β → Reader α} (hr : Reader.Spec I (fun _ => True) r)
    (hk : ∀ v, Reader.Spec I P (k v)) : Reader.Spec I P (r >>= k) :=
  hr.bind fun v _ => hk v

end

/-! ### The reads made of the primitive ones -/

section
variable {x : List Byte} {I : Cursor → Prop} (hI : Reader.KeptByReads x I)
include hI

theorem readBits_spec (k v : Nat) : Reader.Spec I (fun _ => True) (readBits x k v) := by
  induction k generalizing v with
  | zero => exact .pure trivial
  | succ k ih => exact hI.bit.andThen fun b => ih _

theorem readIGammaLoop_spec (pol : Polarity) (inv : Bool) (left v : Nat) :
    Reader.Spec I (fun _ => True) (readIGammaLoop x pol inv left v) := by
  induction left generalizing v with
  | zero =>
    refine hI.bit.andThen fun b => ?_
    split
    · exact .throw _
    · exact .pure trivial
  | succ left ih =>
    refine hI.bit.andThen fun b => ?_
    split
    · exact hI.bit.andThen fun d => ih _
    · exact .pure trivial

theorem readIGamma_spec (pol : Polarity) (inv : Bool) :
    Reader.Spec I (fun _ => True) (readIGamma x pol inv) :=
  readIGammaLoop_spec hI pol inv _ _

theorem readZx7Zeros_spec (left z : Nat) : Reader.Spec I (fun _ => True) (readZx7Zeros x left z) := by
  induction left generalizing z with
  | zero =>
    refine hI.bit.andThen fun b => ?_
    split
    · exact .pure trivial
    · exact .throw _
  | succ left ih =>
    refine hI.bit.andThen fun b => ?_
    split
    · exact .pure trivial
    · exact ih _

theorem readMlzZeros_spec (left z : Nat) : Reader.Spec I (fun _ => True) (readMlzZeros x left z) := by
  induction left generalizing z with
  | zero =>
    refine hI.bit.andThen fun b => ?_
    split <;> exact .pure trivial
  | succ left ih =>
    refine hI.bit.andThen fun b => ?_
    split
    · exact .pure trivial
    · exact ih _

theorem readMlzOff_spec : Reader.Spec I (fun _ => True) (readMlzOff x) := by
  refine hI.bit.andThen fun long => ?_
  split
  · exact (readBits_spec hI 4 0).andThen fun h => hI.byte.andThen fun b => .pure trivial
  · exact hI.byte.andThen fun b => .pure trivial

end

/-! ### The decoders answer tokens of their variant -/

section
open Sys2Proof.Machine
variable {x : List Byte} {I : Cursor → Prop} (hI : Reader.KeptByReads x I)
include hI

theorem decodeZx7_spec (st : DState) :
    Reader.Spec I (fun i => tokenVariant i = some .zx7) (decodeZx7 x st) := by
  cases st with
  | readFirst => exact hI.byte.andThen fun b => .pure rfl
  | readToken =>
    refine hI.bit.andThen fun copy => ?_
    split
    · refine (readZx7Zeros_spec hI 16 0).andThen fun z => ?_
      split
      · exact .pure rfl
      · refine (readBits_spec hI z 1).andThen fun v => hI.byte.andThen fun B => ?_
        split
        · exact .pure rfl
        · exact (readBits_spec hI 4 0).andThen fun h => .pure rfl
    · exact hI.byte.andThen fun b => .pure rfl
  | readLiteralRun | readLastOffsetCopy | readNewOffsetCopy | done => exact .throw _

theorem decodeZx0_spec (f : Fmt) (st : DState) :
    Reader.Spec I (fun i => tokenVariant i = some .zx0) (decodeZx0 f x st) := by
  cases st with
  | readLiteralRun =>
    refine Reader.Spec.get.andThen fun c => (readIGamma_spec hI _ _).andThen fun L =>
      (hI.run L).andThen fun bs => ?_
    split <;> exact .pure rfl
  | readLastOffsetCopy => exact (readIGamma_spec hI _ _).andThen fun L => .pure rfl
  | readNewOffsetCopy =>
    refine (readIGamma_spec hI _ _).andThen fun M => ?_
    split
    · exact .pure rfl
    · split
      · exact .throw _
      · exact hI.byte.andThen fun B => hI.backtrack.andThen fun _ =>
          (readIGamma_spec hI _ _).andThen fun v => .pure rfl
  | readFirst | readToken | done => exact .throw _

theorem decodeMlz_spec (st : DState) :
    Reader.Spec I (fun i => tokenVariant i = some .megalz) (decodeMlz x st) := by
  cases st with
  | readFirst => exact hI.byte.andThen fun b => .pure rfl
  | readToken =>
    refine hI.bit.andThen fun lit => ?_
    split
    · exact hI.byte.andThen fun b => .pure rfl
    · refine (readBits_spec hI 2 0).andThen fun s => ?_
      split
      · exact (readBits_spec hI 3 0).andThen fun f => .pure rfl
      · exact hI.byte.andThen fun b => .pure rfl
      · refine (readMlzOff_spec hI).andThen fun (long, o) => .pure ?_
        cases long <;> rfl
      · refine (readMlzZeros_spec hI 7 0).andThen fun z => ?_
        split
        · exact .pure rfl
        · refine (readBits_spec hI _ 1).andThen fun v => ?_
          split
          · exact .throw _
          · refine (readMlzOff_spec hI).andThen fun (long, o) => .pure ?_
            cases long <;> rfl
  | readLiteralRun | readLastOffsetCopy | readNewOffsetCopy | done => exact .throw _

/-- The decoder of a variant answers a token of that variant (R236), whatever the reads keep. -/
theorem decode_spec (f : Fmt) (v : Variant) (st : DState) :
    Reader.Spec I (fun i => tokenVariant i = some v) (decode f v st x) := by
  cases v with
  | zx7 => exact decodeZx7_spec hI st
  | zx0 => exact decodeZx0_spec hI f st
  | megalz => exact decodeMlz_spec hI st

end

/-! ### The read position's mask -/

theorem Reader.keptByReads_true (x : List Byte) : Reader.KeptByReads x fun _ => True where
  byte := fun _ _ _ _ _ => ⟨trivial, trivial⟩
  bit := fun _ _ _ _ _ => ⟨trivial, trivial⟩
  run := fun _ _ _ _ _ _ => ⟨trivial, trivial⟩
  backtrack := fun _ _ _ _ _ => ⟨trivial, trivial⟩

theorem decode_tokenVariant {f : Fmt} {v : Variant} {st : DState} {x : List Byte} {c c' : Cursor} {i : Instr}
    (h : decode f v st x c = .ok (i, c')) : Machine.tokenVariant i = some v :=
  (decode_spec (Reader.keptByReads_true x) f v st c c' i trivial h).2

/-- One bit further in a bit-group byte, or at its end. -/
theorem maskOk_shiftRight {m : Byte} (h : Machine.maskOk m) : Machine.maskOk (m >>> 1) := by
  rcases h with rfl | rfl | rfl | rfl | rfl | rfl | rfl | rfl | rfl <;> decide

/-- Every read leaves `BIT_MASK` one of its legal values (R50). -/
theorem Reader.keptByReads_maskOk (x : List Byte) :
    Reader.KeptByReads x fun c => Machine.maskOk c.bitMask where
  byte := by
    intro c c' b hc h
    obtain ⟨-, rfl⟩ := (readByte_ok_iff x c c' b).1 h
    exact ⟨hc, trivial⟩
  bit := by
    intro c c' b hc h
    refine ⟨?_, trivial⟩
    unfold readBit at h
    split at h
    · cases h; exact hc
    · split at h
      · split at h
        · cases h
        · rename_i b' d hd
          obtain ⟨-, rfl⟩ := (readByte_ok_iff x _ _ _).1 hd
          cases h
          show Machine.maskOk 0x80
          decide
      · cases h; exact maskOk_shiftRight hc
  run := by
    intro L c c' bs hc h
    unfold readRun at h
    dsimp only at h
    split at h
    · cases h
    · cases h; exact ⟨hc, trivial⟩
  backtrack := by
    intro c c' u hc h
    cases h
    exact ⟨hc, trivial⟩

end Sys2Proof
end

section
/-! PROOFS. What one engine step can do, said once (spec/40_host_commands.md R126): the frame of every phase, the effect of a
token on the unpacker and on the packer, the outcomes of a parser's position, and the inversion of the phases. -/

namespace Sys2Proof.Machine

/-- Only the engine's internal state differs: no register, latch or parameter, no host memory and nothing of the host's. -/
structure EngineFrame (s t : State) : Prop where
  params : t.params = s.params
  csr : t.csr = s.csr
  latch : t.latch = s.latch
  mem : t.mem = s.mem
  inputs : t.inputs = s.inputs
  rdata : t.rdata = s.rdata
  dutyBroken : t.dutyBroken = s.dutyBroken
  freeCtr : t.freeCtr = s.freeCtr

theorem EngineFrame.refl (s : State) : EngineFrame s s := ⟨rfl, rfl, rfl, rfl, rfl, rfl, rfl, rfl⟩

/-! ### Tokens -/

/-- The effects a token of a variant has while unpacking (R236 to R239, R245). -/
inductive UnpackEffect : Variant → (State → State) → Prop
  | ends {v : Variant} : UnpackEffect v State.unpackEnd
  | first {v : Variant} (b : Byte) : v ≠ .zx0 →
      UnpackEffect v fun s => settle s (State.thenGoto .readToken (s.output b))
  | literal {v : Variant} (b : Byte) : UnpackEffect v fun s => settle s (s.output b)
  | copy {v : Variant} (o L : Nat) : UnpackEffect v fun s => settle s (s.copy o L)
  | run (bs : List Byte) : UnpackEffect .zx0 fun s => settle s (State.zx0Then true (s.outputAll bs))
  | repCopy (L : Nat) :
      UnpackEffect .zx0 fun s => settle s (State.zx0Then false (s.copy s.up.lastOffset L))
  | newCopy (o L : Nat) :
      UnpackEffect .zx0 fun s => settle s (State.zx0Then false ((s.setUnpackOffset o).copy o L))

/-- What is left to do once a token's calls are made: nothing, the packer's ZX0 state (R207 to R210), or EMIT is over. -/
inductive AfterCalls : (State → State) → Prop
  | nothing : AfterCalls id
  | kind (k : PrevKind) : AfterCalls (State.setPrevKind · k)
  | offsetKind (o : Nat) (k : PrevKind) : AfterCalls fun t => (t.setLastOffset o).setPrevKind k
  | ends : AfterCalls State.afterBody

/-- The effects a token has while emitting (R205 to R214): its calls, which only the format decides, made at once, or after
the range check of R216, or (R210) after a literal run only. -/
inductive EmitEffect : (State → State) → Prop
  | calls (cs : State → List Call) {post : State → State} :
      (∀ s t : State, s.fmt = t.fmt → cs s = cs t) → AfterCalls post →
      EmitEffect fun s => s.emitThen (cs s) post
  | copy (o L : Nat) (cs : State → List Call) {post : State → State} :
      (∀ s t : State, s.fmt = t.fmt → cs s = cs t) → AfterCalls post →
      EmitEffect fun s => s.emitCopy o L (cs s) post
  | repCopy (L : Nat) (cs : State → List Call) {post : State → State} :
      (∀ s t : State, s.fmt = t.fmt → cs s = cs t) → AfterCalls post →
      EmitEffect fun s =>
        if s.pk.prevKind = .lit ∧ 1 ≤ L then s.emitThen (cs s) post else s.raise .limit

/-- A token of variant `v` runs as `runToken` of one unpacking and one emitting effect. -/
theorem exec_token {i : Instr} {v : Variant} (hi : tokenVariant i = some v) :
    ∃ u e, UnpackEffect v u ∧ EmitEffect e ∧ ∀ s, exec i s = s.runToken v u e := by
  cases i with
  | compress | decompress => cases hi
  | zx7First b =>
    cases hi
    exact ⟨_, _, .first b (by decide), .calls _ (fun _ _ _ => rfl) .nothing, fun _ => rfl⟩
  | zx7Lit b => cases hi; exact ⟨_, _, .literal b, .calls _ (fun _ _ _ => rfl) .nothing, fun _ => rfl⟩
  | zx7CpyS o L => cases hi; exact ⟨_, _, .copy o L, .copy o L _ (fun _ _ _ => rfl) .nothing, fun _ => rfl⟩
  | zx7CpyL o L => cases hi; exact ⟨_, _, .copy o L, .copy o L _ (fun _ _ _ => rfl) .nothing, fun _ => rfl⟩
  | zx7End => cases hi; exact ⟨_, _, .ends, .calls _ (fun _ _ _ => rfl) .ends, fun _ => rfl⟩
  | zx0Lit0 bs =>
    cases hi
    exact ⟨_, _, .run bs, .calls (fun s => .bit false :: writeIGamma s.fmt.pol false bs.length ++ byteCalls bs)
      (fun _ _ h => by rw [h]) (.kind .lit), fun _ => rfl⟩
  | zx0Lit bs =>
    cases hi
    exact ⟨_, _, .run bs, .calls (fun s => .bit false :: writeIGamma s.fmt.pol false bs.length ++ byteCalls bs)
      (fun _ _ h => by rw [h]) (.kind .lit), fun _ => rfl⟩
  | zx0Rep L =>
    cases hi
    exact ⟨_, _, .repCopy L, .repCopy L (fun s => .bit false :: writeIGamma s.fmt.pol false L)
      (fun _ _ h => by rw [h]) (.kind .copy), fun _ => rfl⟩
  | zx0Cpy o L =>
    cases hi
    exact ⟨_, _, .newCopy o L, .copy o L
      (fun s => .bit true :: writeIGamma s.fmt.pol s.fmt.inv (zx0Msb o) ++
        [.byte (zx0Lsb s.fmt.pol o), .backtrack] ++ writeIGamma s.fmt.pol false (L - 1))
      (fun _ _ h => by rw [h]) (.offsetKind o .copy), fun _ => rfl⟩
  | zx0End =>
    cases hi
    exact ⟨_, _, .ends, .calls (fun s => .bit true :: writeIGamma s.fmt.pol s.fmt.inv 256)
      (fun _ _ h => by rw [h]) .ends, fun _ => rfl⟩
  | mlzFirst b =>
    cases hi
    exact ⟨_, _, .first b (by decide), .calls _ (fun _ _ _ => rfl) .nothing, fun _ => rfl⟩
  | mlzLit b => cases hi; exact ⟨_, _, .literal b, .calls _ (fun _ _ _ => rfl) .nothing, fun _ => rfl⟩
  | mlzCpy1 o => cases hi; exact ⟨_, _, .copy o 1, .copy o 1 _ (fun _ _ _ => rfl) .nothing, fun _ => rfl⟩
  | mlzCpy2 o => cases hi; exact ⟨_, _, .copy o 2, .copy o 2 _ (fun _ _ _ => rfl) .nothing, fun _ => rfl⟩
  | mlzCpy3S o => cases hi; exact ⟨_, _, .copy o 3, .copy o 3 _ (fun _ _ _ => rfl) .nothing, fun _ => rfl⟩
  | mlzCpy3L o => cases hi; exact ⟨_, _, .copy o 3, .copy o 3 _ (fun _ _ _ => rfl) .nothing, fun _ => rfl⟩
  | mlzCpyNS o L => cases hi; exact ⟨_, _, .copy o L, .copy o L _ (fun _ _ _ => rfl) .nothing, fun _ => rfl⟩
  | mlzCpyNL o L => cases hi; exact ⟨_, _, .copy o L, .copy o L _ (fun _ _ _ => rfl) .nothing, fun _ => rfl⟩
  | mlzEnd => cases hi; exact ⟨_, _, .ends, .calls _ (fun _ _ _ => rfl) .ends, fun _ => rfl⟩

theorem tokenZx7_variant {op : Op} {i : Instr} (h : tokenZx7 op = some i) : tokenVariant i = some .zx7 := by
  cases op with
  | first b | lit b => cases h; rfl
  | run bs => cases h
  | copy o L =>
    rw [tokenZx7] at h
    split at h <;> (cases h; rfl)

theorem tokenZx0_variant {pk : Packer} {op : Op} {i : Instr} (h : tokenZx0 pk op = some i) :
    tokenVariant i = some .zx0 := by
  cases op with
  | first b | lit b => cases h
  | run bs =>
    rw [tokenZx0] at h
    split at h
    · cases h
    · split at h <;> (cases h; rfl)
  | copy o L =>
    rw [tokenZx0] at h
    split at h <;> (cases h; rfl)

theorem tokenMlz_variant {op : Op} {i : Instr} (h : tokenMlz op = some i) : tokenVariant i = some .megalz := by
  cases op with
  | first b | lit b => cases h; rfl
  | run bs => cases h
  | copy o L =>
    rw [tokenMlz] at h
    split_ifs at h <;> (cases h; rfl)

/-- The packer's next token is one of the running variant (R205, R207, R213). -/
theorem State.nextToken_tokenVariant {s : State} {i : Instr} (h : s.nextToken = some i) :
    tokenVariant i = some s.variant := by
  unfold State.nextToken at h
  split at h
  case h_1 hv _ | h_2 hv _ | h_3 hv _ => cases h; rw [hv]; rfl
  case h_4 hv _ => rw [hv]; exact tokenZx7_variant h
  case h_5 hv _ => rw [hv]; exact tokenZx0_variant h
  case h_6 hv _ => rw [hv]; exact tokenMlz_variant h

/-! ### Unpacking -/

/-- `DSTATE` is a state of the running variant that reads a token (R236). -/
def State.readsToken (s : State) : Prop :=
  (s.variant = .zx0 →
    s.up.dstate = .readLiteralRun ∨ s.up.dstate = .readLastOffsetCopy ∨ s.up.dstate = .readNewOffsetCopy) ∧
  (s.variant ≠ .zx0 → s.up.dstate = .readFirst ∨ s.up.dstate = .readToken)

/-- What the unpacker's primitives can do (R230 to R238): output within `CAPL`, the history kept canonical, the read position and
`DSTATE` moved to legal values. -/
structure Unpacked (s t : State) : Prop where
  frame : t = { s with obuf := t.obuf, hist := t.hist, up := t.up }
  grows : s.obuf.length ≤ t.obuf.length
  fits : s.obuf.length ≤ s.capl → t.obuf.length ≤ s.capl
  histWf : s.hist.wf → t.hist.wf
  mask : maskOk s.up.cur.bitMask → maskOk t.up.cur.bitMask
  reads : s.readsToken → t.readsToken

theorem Unpacked.refl (s : State) : Unpacked s s := ⟨rfl, Nat.le_refl _, id, id, id, id⟩

theorem Unpacked.engineFrame {s t : State} (h : Unpacked s t) : EngineFrame s t := by
  rw [h.frame]; exact ⟨rfl, rfl, rfl, rfl, rfl, rfl, rfl, rfl⟩

theorem Unpacked.phase {s t : State} (h : Unpacked s t) : t.phase = s.phase := by rw [h.frame]

theorem Unpacked.pk {s t : State} (h : Unpacked s t) : t.pk = s.pk := by rw [h.frame]

theorem Unpacked.variant {s t : State} (h : Unpacked s t) : t.variant = s.variant := by rw [h.frame]; rfl

theorem Unpacked.capl {s t : State} (h : Unpacked s t) : t.capl = s.capl := by rw [h.frame]; rfl

theorem Unpacked.trans {s t u : State} (h : Unpacked s t) (k : Unpacked t u) : Unpacked s u where
  frame := by rw [k.frame, h.frame]
  grows := Nat.le_trans h.grows k.grows
  fits := fun hs => h.capl ▸ k.fits (h.capl ▸ h.fits hs)
  histWf := k.histWf ∘ h.histWf
  mask := k.mask ∘ h.mask
  reads := k.reads ∘ h.reads

theorem State.output_unpacked {s t : State} {b : Byte} (h : s.output b = .ok t) : Unpacked s t := by
  obtain ⟨room, rfl⟩ := (State.output_ok_iff s t b).1 h
  exact ⟨rfl, by simp, fun _ => by simpa using room, Memory.write_wf _ _ _, id, id⟩

theorem State.outputAll_unpacked {bs : List Byte} {s t : State} (h : s.outputAll bs = .ok t) : Unpacked s t := by
  induction bs generalizing s with
  | nil => cases h; exact .refl _
  | cons b bs ih =>
    rw [State.outputAll] at h
    split at h
    · cases h
    · next u hu => exact (State.output_unpacked hu).trans (ih h)

theorem State.copyLoop_unpacked {o n : Nat} {s t : State} (h : s.copyLoop o n = .ok t) : Unpacked s t := by
  induction n generalizing s with
  | zero => cases h; exact .refl _
  | succ n ih =>
    rw [State.copyLoop] at h
    split at h
    · cases h
    · next u hu => exact (State.output_unpacked hu).trans (ih h)

theorem State.copy_unpacked {o L : Nat} {s t : State} (h : s.copy o L = .ok t) : Unpacked s t := by
  rw [State.copy] at h
  split at h
  · cases h
  · exact State.copyLoop_unpacked h

theorem State.withCursor_unpacked {s : State} {c : Cursor} (hc : maskOk s.up.cur.bitMask → maskOk c.bitMask) :
    Unpacked s (s.withCursor c) :=
  ⟨rfl, Nat.le_refl _, id, id, hc, id⟩

theorem State.goto_unpacked {s : State} {st : DState} (hd : (s.goto st).readsToken) : Unpacked s (s.goto st) :=
  ⟨rfl, Nat.le_refl _, id, id, id, fun _ => hd⟩

theorem State.setUnpackOffset_unpacked (s : State) (o : Nat) : Unpacked s (s.setUnpackOffset o) :=
  ⟨rfl, Nat.le_refl _, id, id, id, id⟩

theorem State.thenGoto_unpacked {s t : State} {r : Except ErrCode State} (hr : ∀ u, r = .ok u → Unpacked s u)
    (hv : s.variant ≠ .zx0) (h : State.thenGoto .readToken r = .ok t) : Unpacked s t := by
  cases r with
  | error e => cases h
  | ok u =>
    cases h
    have hu := hr u rfl
    have hv' : u.variant ≠ .zx0 := hu.variant ▸ hv
    exact hu.trans (State.goto_unpacked ⟨fun h => absurd h hv', fun _ => .inr rfl⟩)

/-- The indicator that ends a ZX0 state moves the read position and chooses a ZX0 state (R238). -/
theorem State.zx0Next_unpacked {s t : State} {afterRun : Bool} (hv : s.variant = .zx0)
    (h : s.zx0Next afterRun = .ok t) : Unpacked s t := by
  rw [State.zx0Next] at h
  split at h
  · cases h
  · next ind c hc =>
    cases h
    refine (State.withCursor_unpacked fun hm => ?_).trans (State.goto_unpacked ⟨fun _ => ?_, fun h => absurd hv h⟩)
    · exact ((Reader.keptByReads_maskOk s.image).bit _ _ _ hm hc).1
    · cases ind <;> cases afterRun <;> simp [zx0StateAfter]

theorem State.zx0Then_unpacked {s t : State} {r : Except ErrCode State} {afterRun : Bool}
    (hr : ∀ u, r = .ok u → Unpacked s u) (hv : s.variant = .zx0) (h : State.zx0Then afterRun r = .ok t) :
    Unpacked s t := by
  cases r with
  | error e => cases h
  | ok u =>
    have hu := hr u rfl
    exact hu.trans (State.zx0Next_unpacked (hu.variant.trans hv) h)

/-- Primitives settled: their state, or the command ended (R266). -/
theorem settle_unpacked {s : State} {r : Except ErrCode State} (hr : ∀ u, r = .ok u → Unpacked s u) :
    Unpacked s (settle s r) ∨ ∃ e, settle s r = s.raise e := by
  obtain ⟨t, hrt, ht⟩ | ⟨e, -, he⟩ := settle_cases s r
  · exact .inl (ht ▸ hr t hrt)
  · exact .inr ⟨e, he⟩

/-- A token while unpacking: primitives done, the command failed, or UNPACK over. -/
theorem UnpackEffect.outcome {v : Variant} {u : State → State} (hu : UnpackEffect v u) {s : State} (hv : s.variant = v) :
    Unpacked s (u s) ∨ (∃ e, u s = s.raise e) ∨ u s = s.unpackEnd := by
  rw [← or_assoc]
  cases hu with
  | ends => exact .inr rfl
  | first b hne =>
    exact .inl (settle_unpacked fun _ => State.thenGoto_unpacked (fun _ => State.output_unpacked) (hv ▸ hne))
  | literal b => exact .inl (settle_unpacked fun _ => State.output_unpacked)
  | copy o L => exact .inl (settle_unpacked fun _ => State.copy_unpacked)
  | run bs =>
    exact .inl (settle_unpacked fun _ => State.zx0Then_unpacked (fun _ => State.outputAll_unpacked) hv)
  | repCopy L => exact .inl (settle_unpacked fun _ => State.zx0Then_unpacked (fun _ => State.copy_unpacked) hv)
  | newCopy o L =>
    exact .inl (settle_unpacked fun _ => State.zx0Then_unpacked
      (fun _ h => (s.setUnpackOffset_unpacked o).trans (State.copy_unpacked h)) hv)

/-- A rejected stream ends the command (R246). -/
theorem State.rejectStream_eq_raise (s : State) (err : DecodeError) : ∃ e, s.rejectStream err = s.raise e := by
  cases err with
  | prematureRun bs =>
    simp only [State.rejectStream]
    cases s.outputAll bs with
    | error e => exact ⟨e, rfl⟩
    | ok u => exact ⟨.invalid, rfl⟩
  | prematureEnd | zx7PrefixTooLong | gammaTooLong | msbAbove256 | mlzLengthAbove255 | stateReadsNothing =>
    exact ⟨.invalid, rfl⟩

/-- One step of UNPACK (R123, R236): primitives of the unpacker, then nothing more, a failure, or the end of the stream. -/
theorem State.unpackStep_cases {s t : State} (hp : s.phase = .unpack) (h : s.unpackStep = .next t) :
    ∃ u, Unpacked s u ∧ (t = u ∨ (∃ e, t = u.raise e) ∨ t = u.unpackEnd) := by
  rw [State.unpackStep] at h
  split at h
  · next i c hc =>
    have hcur : Unpacked s (s.withCursor c) := State.withCursor_unpacked fun hm =>
      (decode_spec (Reader.keptByReads_maskOk s.image) _ _ _ _ _ _ hm hc).1
    obtain ⟨u, e, hu, -, hexec⟩ := exec_token (decode_tokenVariant hc)
    rw [hexec] at h
    obtain ⟨hv, ⟨-, rfl⟩ | ⟨hp', -⟩⟩ := State.runToken_next _ _ _ _ _ h
    · obtain hcont | hend := hu.outcome hv
      · exact ⟨_, hcur.trans hcont, .inl rfl⟩
      · exact ⟨_, hcur, .inr hend⟩
    · exact absurd (hp.symm.trans hp') (by decide)
  · next err _ =>
    obtain ⟨e, he⟩ := s.rejectStream_eq_raise err
    cases h
    exact ⟨s, .refl s, .inr (.inl ⟨e, he⟩)⟩

/-! ### Emitting -/

/-- What the packer's primitives and the operation cursor can do (R200 to R204): OBUF within its size, the packer's mask and
bit-group index legal. -/
structure Packed (s t : State) : Prop where
  frame : t = { s with ops := t.ops, obuf := t.obuf, pk := t.pk }
  fits : s.obuf.length ≤ obufSize s.params → t.obuf.length ≤ obufSize s.params
  packer : s.packerOk → t.packerOk

theorem Packed.refl (s : State) : Packed s s := ⟨rfl, id, id⟩

theorem Packed.params {s t : State} (h : Packed s t) : t.params = s.params := by rw [h.frame]

theorem Packed.phase {s t : State} (h : Packed s t) : t.phase = s.phase := by rw [h.frame]

theorem Packed.engineFrame {s t : State} (h : Packed s t) : EngineFrame s t := by
  rw [h.frame]; exact ⟨rfl, rfl, rfl, rfl, rfl, rfl, rfl, rfl⟩

theorem Packed.trans {s t u : State} (h : Packed s t) (k : Packed t u) : Packed s u where
  frame := by rw [k.frame, h.frame]
  fits := fun hs => h.params ▸ k.fits (h.params ▸ h.fits hs)
  packer := k.packer ∘ h.packer

theorem State.writeByte_ok_iff {s t : State} {v : Byte} :
    s.writeByte v = .ok t ↔ s.obuf.length < obufSize s.params ∧ t = { s with obuf := s.obuf ++ [v] } := by
  unfold State.writeByte State.outIdx
  split
  · simp; omega
  · simp [eq_comm]; omega

theorem State.writeByte_packed {s t : State} {v : Byte} (h : s.writeByte v = .ok t) : Packed s t := by
  obtain ⟨room, rfl⟩ := State.writeByte_ok_iff.1 h
  refine ⟨rfl, fun _ => by simpa using room, fun ⟨hm, h128, hidx⟩ => ⟨hm, h128, fun h0 => ?_⟩⟩
  simpa using Nat.lt_succ_of_lt (hidx h0)

theorem State.putBit_obuf_length (s : State) (v : Bool) : (s.putBit v).obuf.length = s.obuf.length := by
  cases v <;> simp

theorem shiftRight_one_ne_128 (m : Byte) : m >>> 1 ≠ 128 := by
  intro h
  have : m.toNat / 2 = 128 := by simpa [Nat.shiftRight_one] using congrArg BitVec.toNat h
  omega

/-- A bit put into the open bit group leaves the mask legal and the group's first position taken (R201). -/
theorem State.putBit_packerOk {s : State} (v : Bool) (hm : maskOk s.pk.bitMask)
    (hidx : s.pk.bitIndex < s.obuf.length) : (s.putBit v).packerOk := by
  refine ⟨maskOk_shiftRight hm, shiftRight_one_ne_128 _, fun _ => ?_⟩
  rwa [State.putBit_obuf_length]

theorem State.writeBit_packed {s t : State} {v : Bool} (h : s.writeBit v = .ok t) : Packed s t := by
  rw [State.writeBit] at h
  split at h
  · cases h
    have hlen : (if v then orByte s.obuf (s.outIdx - 1) 0x01 else s.obuf).length = s.obuf.length := by
      cases v <;> simp
    exact ⟨rfl, fun hs => hlen.trans_le hs,
      fun ⟨hm, h128, hidx⟩ => ⟨hm, h128, fun h0 => (hidx h0).trans_eq hlen.symm⟩⟩
  · split at h
    · split at h
      · cases h
      · next u hu =>
        cases h
        obtain ⟨room, rfl⟩ := State.writeByte_ok_iff.1 hu
        refine ⟨rfl, fun _ => ?_, fun _ => State.putBit_packerOk v ?_ ?_⟩
        · rw [State.putBit_obuf_length]; simpa using room
        · show maskOk 0x80
          decide
        · simp [State.outIdx]
    · next hb hm0 =>
      cases h
      refine ⟨rfl, fun hs => by rwa [State.putBit_obuf_length], fun ⟨hm, _, hidx⟩ => ?_⟩
      exact State.putBit_packerOk v hm (hidx hm0)

theorem State.call_packed {s t : State} {c : Call} (h : s.call c = .ok t) : Packed s t := by
  cases c with
  | bit v => exact State.writeBit_packed h
  | byte v => exact State.writeByte_packed h
  | backtrack => cases h; exact ⟨rfl, id, id⟩

theorem State.calls_packed {cs : List Call} {s t : State} (h : s.calls cs = .ok t) : Packed s t := by
  induction cs generalizing s with
  | nil => cases h; exact .refl _
  | cons c cs ih =>
    rw [State.calls] at h
    split at h
    · cases h
    · next u hu => exact (State.call_packed hu).trans (ih h)

/-- What a step of EMIT can end with, from the state `s`: the packer's primitives, then nothing more, a failure, or EMIT over. -/
def EmitOutcome (s t : State) : Prop :=
  ∃ u, Packed s u ∧ (t = u ∨ (∃ e, t = u.raise e) ∨ t = u.afterBody)

theorem EmitOutcome.raise (s : State) (e : ErrCode) : EmitOutcome s (s.raise e) :=
  ⟨s, .refl s, .inr (.inl ⟨e, rfl⟩)⟩

theorem EmitOutcome.of_packed {s u t : State} (h : Packed s u) (k : EmitOutcome u t) : EmitOutcome s t := by
  obtain ⟨w, hw, ht⟩ := k
  exact ⟨w, h.trans hw, ht⟩

theorem AfterCalls.outcome {post : State → State} (hp : AfterCalls post) (s : State) : EmitOutcome s (post s) := by
  cases hp with
  | nothing => exact ⟨s, .refl s, .inl rfl⟩
  | kind k => exact ⟨s.setPrevKind k, ⟨rfl, id, id⟩, .inl rfl⟩
  | offsetKind o k => exact ⟨(s.setLastOffset o).setPrevKind k, ⟨rfl, id, id⟩, .inl rfl⟩
  | ends => exact ⟨s, .refl s, .inr (.inr rfl)⟩

theorem State.emitThen_outcome (s : State) (cs : List Call) {post : State → State} (hp : AfterCalls post) :
    EmitOutcome s (s.emitThen cs post) := by
  rw [State.emitThen]
  split
  · exact .raise s _
  · next u hu => exact (hp.outcome u).of_packed (State.calls_packed hu)

theorem EmitEffect.outcome {e : State → State} (he : EmitEffect e) (s : State) : EmitOutcome s (e s) := by
  cases he with
  | calls cs _ hp => exact s.emitThen_outcome _ hp
  | copy o L cs _ hp =>
    dsimp only [State.emitCopy]
    split
    · exact s.emitThen_outcome _ hp
    · exact .raise s _
  | repCopy L cs _ hp =>
    dsimp only
    split
    · exact s.emitThen_outcome _ hp
    · exact .raise s _

theorem State.popOp_packed (s : State) : Packed s s.popOp := ⟨rfl, id, id⟩

/-- One step of EMIT (R122). -/
theorem State.emitStep_outcome {s t : State} (hp : s.phase = .emit) (h : s.emitStep = .next t) : EmitOutcome s t := by
  rw [State.emitStep] at h
  split at h
  · next i hi =>
    obtain ⟨u, e, -, he, hexec⟩ := exec_token (State.nextToken_tokenVariant hi)
    rw [hexec] at h
    obtain ⟨-, ⟨hp', -⟩ | ⟨-, rfl⟩⟩ := State.runToken_next _ _ _ _ _ h
    · exact absurd (hp.symm.trans hp') (by decide)
    · exact (he.outcome s.popOp).of_packed s.popOp_packed
  · cases h
    exact .raise s _

/-! ### Parsing -/

/-- One step of PARSE (R126): a position scanned, which changes only the parser's own state, the operations handed to the packer,
or (R263) `LIMIT`. -/
theorem State.parseStep_cases (s : State) :
    (∃ ix sc z7 z0 mz tot ops, s.parseStep =
      { s with index := ix, scan := sc, zx7 := z7, zx0 := z0, mlz := mz, total := tot, ops := ops }) ∨
    (∃ ops, s.parseStep = s.endParse ops) ∨ s.parseStep = s.raise .limit := by
  unfold State.parseStep
  split
  · unfold State.parseZx7
    split
    · exact .inl ⟨_, _, _, _, _, _, _, rfl⟩
    · exact .inr (.inl ⟨_, rfl⟩)
  · unfold State.parseZx0
    split
    · dsimp only
      split
      · exact .inr (.inr rfl)
      · exact .inl ⟨_, _, _, _, _, _, _, rfl⟩
    · exact .inr (.inl ⟨_, rfl⟩)
  · split
    · unfold State.parseMlzOptimal
      split
      · exact .inl ⟨_, _, _, _, _, _, _, rfl⟩
      · exact .inr (.inl ⟨_, rfl⟩)
    · unfold State.parseMlzGreedy
      split
      · split
        · exact .inl ⟨_, _, _, _, _, _, _, rfl⟩
        · exact .inl ⟨_, _, _, _, _, _, _, rfl⟩
      · exact .inr (.inl ⟨_, rfl⟩)

/-! ### The engine -/

theorem State.parseStep_engineFrame (s : State) :
    EngineFrame s s.parseStep ∨ s.parseStep = s.raise .limit := by
  obtain ⟨ix, sc, z7, z0, mz, tot, ops, h⟩ | ⟨ops, h⟩ | h := s.parseStep_cases
  · rw [h]; exact .inl ⟨rfl, rfl, rfl, rfl, rfl, rfl, rfl, rfl⟩
  · rw [h]; exact .inl ⟨rfl, rfl, rfl, rfl, rfl, rfl, rfl, rfl⟩
  · exact .inr h

theorem EngineFrame.raised {s u t : State} {e : ErrCode} (hu : EngineFrame s u) (ht : t = u.raise e) :
    ∃ u e r c b, EngineFrame s u ∧ t = u.finish e r c b :=
  ⟨u, e, 0, 0, 0, hu, ht⟩

/-- A step of the engine changes its internal state only, but for the end of a command (R127) and the write-back. -/
theorem stepEngine_cases {s t : State} (h : stepEngine s = .next t) :
    EngineFrame s t ∨ (∃ u e r c b, EngineFrame s u ∧ t = u.finish e r c b) ∨
    (s.phase = .writeback ∧ t = s.writebackStep) := by
  unfold stepEngine at h
  split at h
  case h_1 => cases h; exact .inl (.refl s)
  case h_2 =>
    cases h
    unfold State.checkStep
    split
    · exact .inr (.inl (EngineFrame.raised (.refl s) rfl))
    · exact .inl ⟨rfl, rfl, rfl, rfl, rfl, rfl, rfl, rfl⟩
  case h_3 => cases h; exact .inl ⟨rfl, rfl, rfl, rfl, rfl, rfl, rfl, rfl⟩
  case h_4 =>
    cases h
    exact s.parseStep_engineFrame.imp_right fun h => .inl (EngineFrame.raised (.refl s) h)
  case h_5 hp =>
    obtain ⟨u, hu, rfl | ⟨e, he⟩ | rfl⟩ := State.emitStep_outcome hp h
    · exact .inl hu.engineFrame
    · exact .inr (.inl (hu.engineFrame.raised he))
    · exact .inl { hu.engineFrame with }
  case h_6 => cases h; exact .inl ⟨rfl, rfl, rfl, rfl, rfl, rfl, rfl, rfl⟩
  case h_7 =>
    cases h
    unfold State.capacityStep
    split
    · exact .inr (.inl (EngineFrame.raised (.refl s) rfl))
    · exact .inl ⟨rfl, rfl, rfl, rfl, rfl, rfl, rfl, rfl⟩
  case h_8 hp =>
    obtain ⟨u, hu, rfl | ⟨e, he⟩ | rfl⟩ := State.unpackStep_cases hp h
    · exact .inl hu.engineFrame
    · exact .inr (.inl (hu.engineFrame.raised he))
    · exact .inl { hu.engineFrame with }
  case h_9 hp => cases h; exact .inr (.inr ⟨hp, rfl⟩)
  case h_10 => cases h; exact .inr (.inl ⟨s, _, _, _, _, .refl s, rfl⟩)

/-! ### What the end of a command leaves -/

/-- The registers at the end of a command are those of a completion (R127), whatever the host did meanwhile. -/
theorem State.finish_csr (s : State) (e : ErrCode) (r c b : Word) :
    ∃ e' r' c' b', (s.finish e r c b).csr = completedCsr s.csr e' r' c' b' := by
  unfold State.finish
  split <;> exact ⟨_, _, _, _, rfl⟩

@[simp] theorem State.finish_phase (s : State) (e : ErrCode) (r c b : Word) : (s.finish e r c b).phase = .idle := by
  unfold State.finish; split <;> rfl
@[simp] theorem State.finish_params (s : State) (e : ErrCode) (r c b : Word) :
    (s.finish e r c b).params = s.params := by
  unfold State.finish; split <;> rfl
@[simp] theorem State.finish_latch (s : State) (e : ErrCode) (r c b : Word) :
    (s.finish e r c b).latch = s.latch := by
  unfold State.finish; split <;> rfl
@[simp] theorem State.finish_obuf (s : State) (e : ErrCode) (r c b : Word) :
    (s.finish e r c b).obuf = s.obuf := by
  unfold State.finish; split <;> rfl
@[simp] theorem State.finish_pk (s : State) (e : ErrCode) (r c b : Word) : (s.finish e r c b).pk = s.pk := by
  unfold State.finish; split <;> rfl
@[simp] theorem State.finish_up (s : State) (e : ErrCode) (r c b : Word) : (s.finish e r c b).up = s.up := by
  unfold State.finish; split <;> rfl
@[simp] theorem State.finish_hist (s : State) (e : ErrCode) (r c b : Word) : (s.finish e r c b).hist = s.hist := by
  unfold State.finish; split <;> rfl
@[simp] theorem State.finish_inputs (s : State) (e : ErrCode) (r c b : Word) :
    (s.finish e r c b).inputs = s.inputs := by
  unfold State.finish; split <;> rfl
@[simp] theorem State.finish_rdata (s : State) (e : ErrCode) (r c b : Word) :
    (s.finish e r c b).rdata = s.rdata := by
  unfold State.finish; split <;> rfl

/-- The fields of the registers that only the host writes (R37): the engine's part set to their reset values. -/
def Csr.hostPart (c : Csr) : Csr :=
  { c with busy := false, done := false, err := false, errCode := 0, resultLen := 0, consumedLen := 0, costBits := 0 }

/-- What no engine step changes: the host's registers, the parameters, the inputs and the read data. -/
structure HostKept (s t : State) : Prop where
  csr : t.csr.hostPart = s.csr.hostPart
  params : t.params = s.params
  inputs : t.inputs = s.inputs
  rdata : t.rdata = s.rdata

theorem stepEngine_hostKept {s t : State} (h : stepEngine s = .next t) : HostKept s t := by
  obtain hf | ⟨u, e, r, c, b, hf, rfl⟩ | ⟨-, rfl⟩ := stepEngine_cases h
  · exact ⟨by rw [hf.csr], hf.params, hf.inputs, hf.rdata⟩
  · obtain ⟨e', r', c', b', hcsr⟩ := u.finish_csr e r c b
    exact ⟨by rw [hcsr, hf.csr]; rfl, by simp [hf.params], by simp [hf.inputs], by simp [hf.rdata]⟩
  · unfold State.writebackStep
    split <;> exact ⟨rfl, rfl, rfl, rfl⟩

/-- Settles O21: no step changes the host's part, and an idle block has no step to make. -/
theorem engineLeavesHostRegistersAlone : Obligations.EngineLeavesHostRegistersAlone := by
  intro s t h
  obtain ⟨hcsr, hparams, hinputs, hrdata⟩ := stepEngine_hostKept h
  simp only [Csr.hostPart, Csr.mk.injEq] at hcsr
  obtain ⟨hcmd, hmode, -, -, -, -, hie, hsrc, hlen, hdst, hcap, -⟩ := hcsr
  refine ⟨hsrc, hlen, hdst, hcap, hcmd, hmode, hie, hparams, hinputs, hrdata, fun hidle => ?_⟩
  rw [stepEngine_idle s hidle] at h
  cases h; rfl

end Sys2Proof.Machine
end

section
/-! PROOFS. The register window (spec/10_state.md R31, R32, R64): what a store to a register does, how a register reads bit by bit,
and the two obligations that say so. -/

namespace Sys2Proof.Machine

/-! ### Stores -/

/-- What the CTRL decoder answers is COMPRESS or DECOMPRESS of the store's own fields (R97). -/
theorem decodeCtrl_some {d : Word} {i : Instr} (h : decodeCtrl d = some i) :
    d.getLsbD 0 = true ∧
    ((d.extractLsb' 4 2 = 1 ∧ i = .compress (d.extractLsb' 8 4)) ∨
      (d.extractLsb' 4 2 = 2 ∧ i = .decompress (d.extractLsb' 8 4))) := by
  unfold decodeCtrl at h
  split at h
  · next hstart =>
    refine ⟨hstart, ?_⟩
    split at h
    · next hc => cases h; exact .inl ⟨BitVec.eq_of_toNat_eq hc, rfl⟩
    · next hc => cases h; exact .inr ⟨BitVec.eq_of_toNat_eq hc, rfl⟩
    · cases h
  · cases h

theorem State.writeReg_busy {s : State} (h : s.csr.busy = true) (off : Nat) (d : Word) : s.writeReg off d = s := by
  simp [State.writeReg, h]

/-- A store to CTRL (R124): ignored while busy; a START with the store's fields; or `CMD` and `MODE` written. -/
theorem storeCtrl_eq (d : Word) (s : State) :
    storeCtrl d s = .next
      (if s.csr.busy = false ∧ d.getLsbD 0 = true then s.start (d.extractLsb' 4 2) (d.extractLsb' 8 4)
        else s.writeReg 0x04 d) := by
  unfold storeCtrl
  split
  · next i hi =>
    obtain ⟨hstart, ⟨hcmd, rfl⟩ | ⟨hcmd, rfl⟩⟩ := decodeCtrl_some hi
    · cases hb : s.csr.busy <;> simp [exec, execCompress, hb, hstart, hcmd, State.writeReg_busy]
    · cases hb : s.csr.busy <;> simp [exec, execDecompress, hb, hstart, hcmd, State.writeReg_busy]
  · cases hb : s.csr.busy <;> cases hstart : d.getLsbD 0 <;> simp

/-- A store to the window, whole (R31, R32, R64, R124). -/
theorem stepStore_inWindow {s : State} {a : Word} (hw : s.inWindow a = true) (w : Width) (d : BitVec 64) :
    stepStore w a d s = .next
      (if definedAccess w (s.offset a) = true then
        if s.offset a = 0x04 ∧ s.csr.busy = false ∧ d.getLsbD 0 = true then
          s.start ((d.truncate 32).extractLsb' 4 2) ((d.truncate 32).extractLsb' 8 4)
        else s.writeReg (s.offset a) (d.truncate 32)
      else s) := by
  have hbit : (d.truncate 32 : Word).getLsbD 0 = d.getLsbD 0 := by simp
  unfold stepStore
  rw [if_pos hw]
  split
  · split
    · next hoff => rw [storeCtrl_eq, hbit, hoff]; simp
    · next hoff => simp [hoff]
  · rfl

/-- From 0x20 on every register is read-only or reserved (R31). -/
theorem State.writeReg_readOnly {off : Nat} (h : 0x20 ≤ off) (s : State) (d : Word) : s.writeReg off d = s := by
  unfold State.writeReg
  split
  · rfl
  · split
    case h_8 => rfl
    all_goals omega

theorem definedAccess_iff {w : Width} {off : Nat} : definedAccess w off = true ↔ w = .w32 ∧ off % 4 = 0 := by
  simp [definedAccess]

/-- A START (R124). -/
theorem stepStore_start {s : State} {a : Word} {d : BitVec 64} (hw : s.inWindow a = true) (hoff : s.offset a = 0x04)
    (hb : s.csr.busy = false) (hstart : d.getLsbD 0 = true) :
    stepStore .w32 a d s =
      .next (s.start ((d.truncate 32).extractLsb' 4 2) ((d.truncate 32).extractLsb' 8 4)) := by
  rw [stepStore_inWindow hw, if_pos (definedAccess_iff.2 ⟨rfl, by rw [hoff]⟩), if_pos ⟨hoff, hb, hstart⟩]

/-- The stores to the window that R32 and R64 have ignored. -/
theorem stepStore_ignored {s : State} {w : Width} {a : Word} (hw : s.inWindow a = true)
    (hign : s.csr.busy = true ∨ w ≠ .w32 ∨ s.offset a % 4 ≠ 0 ∨ 0x30 ≤ s.offset a) (d : BitVec 64) :
    stepStore w a d s = .next s := by
  rw [stepStore_inWindow hw]
  split
  · next hdef =>
    obtain ⟨hw32, halign⟩ := definedAccess_iff.1 hdef
    obtain hb | h | h | hres := hign
    · simp [hb, State.writeReg_busy hb]
    · exact absurd hw32 h
    · exact absurd halign h
    · rw [if_neg (by omega), State.writeReg_readOnly (by omega)]
  · rfl

/-! ### Loads -/

theorem State.readReg_reserved {off : Nat} (h : 0x30 ≤ off) (s : State) : s.readReg off = 0 := by
  unfold State.readReg
  split
  case h_13 => rfl
  all_goals omega

/-- A load from the window, whole (R32, R64). -/
theorem State.hostLoad_inWindow {s : State} {a : Word} (hw : s.inWindow a = true) (w : Width) :
    s.hostLoad w a = { s with
      rdata := if w = .w32 ∧ s.offset a % 4 = 0 then (s.readReg (s.offset a)).zeroExtend 64 else 0 } := by
  simp [State.hostLoad, hw, definedAccess_iff]

/-- A one-bit field widened to a register is its bit 0. -/
theorem getLsbD_ofBool_zeroExtend (b : Bool) (k : Nat) :
    ((BitVec.ofBool b).zeroExtend 32).getLsbD k = (decide (k = 0) && b) := by
  by_cases hk : k = 0
  · subst hk; simp
  · simp [BitVec.getLsbD_setWidth, BitVec.getLsbD_ofBool, hk]

/-- `STATUS` bit by bit (R31). -/
theorem getLsbD_statusRead (c : Csr) {k : Nat} (hk : k < 32) :
    (statusRead c).getLsbD k =
      if k = 0 then c.busy else if k = 1 then c.done else if k = 2 then c.err
      else if 8 ≤ k ∧ k ≤ 10 then c.errCode.getLsbD (k - 8) else false := by
  simp only [statusRead, BitVec.getLsbD_or, BitVec.getLsbD_shiftLeft, getLsbD_ofBool_zeroExtend]
  interval_cases k <;> simp

/-- `CONFIG` bit by bit (R31, R42). -/
theorem getLsbD_configRead (p : Params) {k : Nat} (hk : k < 32) :
    (configRead p).getLsbD k =
      if k = 0 then p.zx0InvertMsb else if k = 1 then p.reverseEmit == .upstream else false := by
  simp only [configRead, BitVec.getLsbD_or, BitVec.getLsbD_shiftLeft, getLsbD_ofBool_zeroExtend]
  interval_cases k <;> simp

/-- `START` reads 0 (R31). -/
theorem getLsbD_ctrlRead_zero (c : Csr) : (ctrlRead c).getLsbD 0 = false := by simp [ctrlRead]

/-- Every register that can be written, and every result, resets to 0 (R290). -/
theorem readReg_resetOf (p : Params) {off : Nat} (hlo : 0x04 ≤ off) (hhi : off < 0x2C) :
    (State.resetOf p).readReg off = 0 := by
  interval_cases off <;> simp [State.readReg, State.resetOf, Csr.reset, ctrlRead, statusRead, irqEnRead]

/-! ### The obligations -/

/-- Settles O1, one clause of R31 after another. -/
theorem registerMap : Obligations.RegisterMap := by
  refine ⟨fun s => ⟨rfl, rfl, fun k hk => getLsbD_statusRead s.csr hk, fun k _ => ?_, rfl, rfl, rfl, rfl, rfl, rfl, rfl,
    fun k hk => getLsbD_configRead s.params hk, fun off hoff _ => s.readReg_reserved hoff⟩,
    fun s d hb => ?_, fun p off => readReg_resetOf p, fun s a d rest hin hw hoff hb hstart => ?_⟩
  · exact getLsbD_ofBool_zeroExtend s.csr.ie k
  · exact ⟨by simp [State.writeReg], by simp [State.writeReg, hb], by simp [State.writeReg, hb, State.acknowledge],
      by simp [State.writeReg, hb], by simp [State.writeReg, hb], by simp [State.writeReg, hb],
      by simp [State.writeReg, hb], by simp [State.writeReg, hb], fun off hoff _ => s.writeReg_readOnly hoff d⟩
  · rw [step_of_input s _ _ hin]
    exact ⟨_, stepStore_start hw hoff hb hstart, rfl, getLsbD_ctrlRead_zero _⟩

/-- Settles O2: the window's stores and loads, each by the rule of its kind. -/
theorem registerAccessRules : Obligations.RegisterAccessRules := by
  refine ⟨fun s w a rest hin hw => ?_, fun s w a d rest hin hw hign => ?_, fun s off hoff => s.readReg_reserved hoff⟩
  · rw [step_of_input s _ _ hin]
    exact congrArg Host.Outcome.next (State.hostLoad_inWindow (s := { s with inputs := rest }) hw w)
  · rw [step_of_input s _ _ hin]
    exact stepStore_ignored (s := { s with inputs := rest }) hw hign d

end Sys2Proof.Machine
end

section
/-! PROOFS. Every step keeps the machine's invariant `State.Inv` (spec/10_state.md R35, R44, R48 to R50; spec/40_host_commands.md R122,
R125, R126; spec/45_unpacker.md R235, R236): one lemma a phase and one an input. -/

namespace Sys2Proof.Machine

/-! ### Memory -/

theorem State.scrambledMem_lt {s : State} (h : ∀ c ∈ s.mem, c.1 < Config.addressSpace) :
    ∀ c ∈ s.scrambledMem, c.1 < Config.addressSpace := by
  intro c hc
  obtain ⟨hge, hlt⟩ | hc := Memory.mem_writeBytes hc
  · rw [scrambledBytes_length, State.outputBytes] at hlt
    omega
  · exact h c hc

theorem State.finish_memOk {s : State} (h : s.memOk) (e : ErrCode) (r c b : Word) : (s.finish e r c b).memOk := by
  obtain ⟨hmem, hhist, hlt⟩ := h
  refine ⟨s.finish_mem_wf e r c b hmem, by rwa [State.finish_hist], ?_⟩
  unfold State.finish
  split
  · exact State.scrambledMem_lt hlt
  · exact hlt

theorem EngineFrame.memOk {s t : State} (hf : EngineFrame s t) (h : s.memOk) (hhist : t.hist.wf) : t.memOk := by
  obtain ⟨hmem, -, hlt⟩ := h
  exact ⟨hf.mem ▸ hmem, hhist, hf.mem ▸ hlt⟩

/-! ### The end of a command -/

theorem State.statusOk_of_completed {s : State} {c : Csr} {e : ErrCode} {result consumed bits : Word}
    (h : s.csr = completedCsr c e result consumed bits) : s.statusOk := by
  unfold State.statusOk
  rw [h]
  refine ⟨fun hb => absurd hb Bool.false_ne_true, fun _ => rfl, ?_, errBits_le e⟩
  exact bne_iff_ne.trans (errBits_eq_zero_iff e).symm.not

/-- The end of a command leaves an idle block with the invariant. -/
theorem State.finish_inv {s : State} (hmem : s.memOk) (hpk : s.packerOk) (hmask : maskOk s.up.cur.bitMask)
    (e : ErrCode) (r c b : Word) : (s.finish e r c b).Inv := by
  obtain ⟨e', r', c', b', hcsr⟩ := s.finish_csr e r c b
  have hbusy : (s.finish e r c b).csr.busy = false := by rw [hcsr]; rfl
  refine ⟨State.statusOk_of_completed hcsr, ?_, ?_, ?_, ?_, State.finish_memOk hmem e r c b, ?_, ?_, ?_⟩
  · simp [State.phaseOk, hbusy]
  · simp [State.latchOk, hbusy]
  · simp [State.checkedOk]
  · simp [State.outputOk]
  · simp [State.dstateOk]
  · simpa [State.packerOk] using hpk
  · simpa using hmask

theorem State.raise_inv {s : State} (hmem : s.memOk) (hpk : s.packerOk) (hmask : maskOk s.up.cur.bitMask) (e : ErrCode) :
    (s.raise e).Inv :=
  State.finish_inv hmem hpk hmask e 0 0 0

/-! ### A command that goes on -/

theorem State.checkError_congr {s t : State} (hl : t.latch = s.latch) (hp : t.params = s.params) :
    t.checkError = s.checkError := by
  simp [State.checkError, hl, hp]

/-- A command whose checks have passed. -/
structure State.Running (s : State) : Prop where
  inv : s.Inv
  passed : s.checkError = none
  notIdle : s.phase ≠ .idle

theorem State.Inv.running {s : State} (hs : s.Inv) (hidle : s.phase ≠ .idle) (hcheck : s.phase ≠ .check) : s.Running :=
  have ⟨_, _, _, hchecked, _⟩ := hs
  ⟨hs, hchecked.1 hidle hcheck, hidle⟩

section
variable {s t : State} (hs : s.Running) (hp : t.params = s.params) (hc : t.csr = s.csr) (hl : t.latch = s.latch)
include hs hp hc hl

/-- A step inside a command, which leaves the registers and the latches, keeps the invariant where the new phase is the
command's own and the output, memory, the unpacker and the packer are as they should be in it. -/
theorem State.Running.advance (hidle : t.phase ≠ .idle)
    (hcomp : t.phase = .parse ∨ t.phase = .emit ∨ t.phase = .capacity → s.compressing = true)
    (hdec : t.phase = .unpack → s.compressing = false)
    (hout : t.outputOk) (hmem : t.memOk) (hd : t.dstateOk) (hpk : t.packerOk) (hmask : maskOk t.up.cur.bitMask) :
    t.Inv := by
  obtain ⟨⟨hstatus, hphase, hlatch, -⟩, hpassed, hrun⟩ := hs
  have hbusy : s.csr.busy = true := hphase.2 hrun
  have hcompEq : t.compressing = s.compressing := State.compressing_congr t s hl
  refine ⟨?_, ?_, ?_, ⟨fun _ _ => ?_, ?_, ?_⟩, hout, hmem, hd, hpk, hmask⟩
  · rwa [State.statusOk, hc]
  · simp [State.phaseOk, hc, hbusy, hidle]
  · rwa [State.latchOk, hc, hl]
  · rw [State.checkError_congr hl hp, hpassed]
  · rwa [hcompEq]
  · rwa [hcompEq]

/-- The phases after the body (R126): a COMPRESS before its capacity check, or an output that fits the destination. -/
theorem State.Running.toTail
    (hph : (t.phase = .reverseOut ∨ t.phase = .capacity) ∧ s.compressing = true ∨
      (t.phase = .reverseOut ∨ t.phase = .writeback ∨ t.phase = .complete) ∧ t.obuf.length ≤ s.latch.cap.toNat)
    (hmem : t.memOk) (hpk : t.packerOk) (hmask : maskOk t.up.cur.bitMask) : t.Inv := by
  have hcompEq : t.compressing = s.compressing := State.compressing_congr t s hl
  have hout : t.outputOk := by
    simp only [State.outputOk, hl, hcompEq]
    grind
  refine hs.advance hp hc hl ?_ ?_ ?_ hout hmem ?_ hpk hmask
  · grind
  · grind
  · grind
  · intro h; grind

end

/-! ### The phases -/

theorem State.bodyPhase_cases (s : State) :
    s.compressing = true ∧ s.bodyPhase = .parse ∨ s.compressing = false ∧ s.bodyPhase = .unpack := by
  cases h : s.compressing <;> simp [State.bodyPhase, h]

theorem State.fresh_readsToken (s : State) : s.fresh.readsToken := by
  have hd : s.fresh.up.dstate = DState.initial s.fresh.variant := rfl
  rw [State.readsToken, hd]
  cases s.fresh.variant <;> simp [DState.initial]

theorem Packer.start_packerOk {s : State} {v : Variant} (h : s.pk = Packer.start v) : s.packerOk := by
  rw [State.packerOk, h]
  exact ⟨.inl rfl, (by decide : (0 : Byte) ≠ 128), fun h0 => absurd rfl h0⟩

theorem State.checkStep_inv {s : State} (hs : s.Inv) (hp : s.phase = .check) : s.checkStep.Inv := by
  obtain ⟨-, -, -, -, -, hmem, -, hpk, hmask⟩ := id hs
  unfold State.checkStep
  split
  · exact State.raise_inv hmem hpk hmask _
  · next hnone =>
    have hrun : s.Running := ⟨hs, hnone, by rw [hp]; decide⟩
    have hbody := s.bodyPhase_cases
    refine hrun.advance rfl rfl rfl ?_ ?_ ?_ ⟨fun _ => rfl, ?_, ?_, ?_, ?_⟩ hmem
      (fun _ => s.fresh_readsToken) (Packer.start_packerOk rfl) (.inl rfl)
    · grind
    · grind
    · grind
    all_goals exact fun _ => Nat.zero_le _

theorem State.reverseInStep_inv {s : State} (hs : s.Running) (hp : s.phase = .reverseIn) : s.reverseInStep.Inv := by
  obtain ⟨-, -, -, -, ⟨hnil, -⟩, hmem, hd, hpk, hmask⟩ := hs.inv
  have hbody := s.bodyPhase_cases
  have hlen : s.obuf.length = 0 := by rw [hnil hp]; rfl
  have hph : s.reverseInStep.phase = s.bodyPhase := rfl
  refine hs.advance rfl rfl rfl ?_ ?_ ?_ ?_ hmem (fun _ => hd (.inl hp)) hpk hmask
  · grind
  · grind
  · grind
  · have hob : s.reverseInStep.obuf.length = 0 := hlen
    simp only [State.outputOk, hob, Nat.zero_le, implies_true, and_true]
    exact fun _ => hnil hp

theorem State.parseStep_inv {s : State} (hs : s.Running) (hp : s.phase = .parse) : s.parseStep.Inv := by
  obtain ⟨-, -, -, ⟨-, hcomp, hdec⟩, hout, hmem, hd, hpk, hmask⟩ := hs.inv
  have hc : s.compressing = true := hcomp (.inl hp)
  obtain ⟨ix, sc, z7, z0, mz, tot, ops, h⟩ | ⟨ops, h⟩ | h := s.parseStep_cases
  · rw [h]
    exact hs.advance rfl rfl rfl hs.notIdle (fun _ => hc) hdec hout hmem hd hpk hmask
  · rw [h]
    refine hs.advance rfl rfl rfl ?_ (fun _ => hc) ?_ ?_ hmem ?_ (Packer.start_packerOk rfl) hmask
    all_goals simp [State.endParse, State.outputOk, State.dstateOk]
  · rw [h]
    exact State.raise_inv hmem hpk hmask _

theorem State.emitStep_inv {s t : State} (hs : s.Running) (hp : s.phase = .emit) (h : s.emitStep = .next t) : t.Inv := by
  obtain ⟨-, -, -, ⟨-, hcomp, -⟩, ⟨-, hfits, -⟩, hmem, -, hpk, hmask⟩ := hs.inv
  have hc : s.compressing = true := hcomp (.inr (.inl hp))
  obtain ⟨u, hu, ht⟩ := State.emitStep_outcome hp h
  have hf := hu.engineFrame
  have hpku := hu.packer hpk
  have hmemu : u.memOk := hf.memOk hmem (by rw [hu.frame]; exact hmem.2.1)
  have hmasku : maskOk u.up.cur.bitMask := by rw [hu.frame]; exact hmask
  obtain rfl | ⟨e, rfl⟩ | rfl := ht
  · have hpt := hu.phase.trans hp
    refine hs.advance hf.params hf.csr hf.latch ?_ (fun _ => hc) ?_ ⟨?_, fun _ => ?_, ?_, ?_, ?_⟩ hmemu ?_ hpku hmasku
    case refine_4 => rw [hf.params]; exact hu.fits (hfits hp)
    all_goals simp [hpt, State.dstateOk]
  · exact State.raise_inv hmemu hpku hmasku e
  · refine hs.toTail hf.params hf.csr hf.latch (.inl ⟨?_, hc⟩) hmemu hpku hmasku
    have hcu : u.compressing = true := (State.compressing_congr u s hf.latch).trans hc
    cases hr : u.reversed <;> simp [hr, hcu]

theorem State.reverseOutStep_inv {s : State} (hs : s.Running) (hp : s.phase = .reverseOut) : s.reverseOutStep.Inv := by
  obtain ⟨-, -, -, -, ⟨-, -, -, hcap, -⟩, hmem, -, ⟨hm, h128, hidx⟩, hmask⟩ := hs.inv
  refine hs.toTail rfl rfl rfl ?_ hmem ⟨hm, h128, fun h0 => ?_⟩ hmask
  · cases hc : s.compressing
    · exact .inr ⟨by simp [State.reverseOutStep, hc], by simpa [State.reverseOutStep] using hcap ⟨hp, hc⟩⟩
    · exact .inl ⟨by simp [State.reverseOutStep, hc], rfl⟩
  · simpa [State.reverseOutStep] using hidx h0

theorem State.capacityStep_inv {s : State} (hs : s.Running) : s.capacityStep.Inv := by
  obtain ⟨-, -, -, -, -, hmem, -, hpk, hmask⟩ := hs.inv
  unfold State.capacityStep
  split
  · exact State.raise_inv hmem hpk hmask _
  · next hfits => exact hs.toTail rfl rfl rfl (.inr ⟨.inr (.inl rfl), Nat.le_of_not_lt hfits⟩) hmem hpk hmask

theorem State.unpackStep_inv {s t : State} (hs : s.Running) (hp : s.phase = .unpack) (h : s.unpackStep = .next t) :
    t.Inv := by
  obtain ⟨-, -, -, ⟨-, -, hdec⟩, ⟨-, -, hfits, -⟩, hmem, hd, ⟨hm, h128, hidx⟩, hmask⟩ := hs.inv
  have hc : s.compressing = false := hdec hp
  obtain ⟨u, hu, ht⟩ := State.unpackStep_cases hp h
  have hf := hu.engineFrame
  have hlen := hu.fits (hfits hp)
  have hpku : u.packerOk := by
    rw [State.packerOk, hu.pk]
    exact ⟨hm, h128, fun h0 => (hidx h0).trans_le hu.grows⟩
  have hmemu : u.memOk := hf.memOk hmem (hu.histWf hmem.2.1)
  have hmasku := hu.mask hmask
  obtain rfl | ⟨e, rfl⟩ | rfl := ht
  · have hpt := hu.phase.trans hp
    refine hs.advance hf.params hf.csr hf.latch ?_ ?_ (fun _ => hc) ⟨?_, ?_, fun _ => ?_, ?_, ?_⟩ hmemu
      (fun _ => hu.reads (hd (.inr hp))) hpku hmasku
    case refine_5 => rwa [hu.capl]
    all_goals simp [hpt]
  · exact State.raise_inv hmemu hpku hmasku e
  · refine hs.toTail hf.params hf.csr hf.latch (.inr ⟨?_, hlen.trans (Nat.min_le_left _ _)⟩) hmemu hpku hmasku
    have hcu : (u.goto .done).compressing = false := (State.compressing_congr u s hf.latch).trans hc
    cases hr : (u.goto .done).reversed <;> simp [State.unpackEnd, hr, hcu]

/-- The checks bound the output buffer by the end of the address space (R67). -/
theorem State.dst_add_cap_le {s : State} (h : s.checkError = none) :
    s.latch.dst.toNat + s.latch.cap.toNat ≤ Config.addressSpace := by
  have hr : buffersInRange s.latch = true := by
    unfold State.checkError at h
    grind
  simp only [buffersInRange, Bool.and_eq_true, decide_eq_true_eq] at hr
  exact hr.2

theorem State.writebackStep_inv {s : State} (hs : s.Running) (hp : s.phase = .writeback) : s.writebackStep.Inv := by
  obtain ⟨-, -, -, -, ⟨-, -, -, -, hfits⟩, ⟨hmem, hhist, hlt⟩, -, hpk, hmask⟩ := hs.inv
  have hlen := hfits (.inl hp)
  unfold State.writebackStep
  split
  · exact hs.toTail rfl rfl rfl (.inr ⟨.inr (.inr rfl), hlen⟩)
      ⟨s.scrambledMem_wf hmem, hhist, State.scrambledMem_lt hlt⟩ hpk hmask
  · refine hs.toTail rfl rfl rfl (.inr ⟨.inr (.inr rfl), hlen⟩)
      ⟨Memory.writeBytes_wf _ _ _ hmem, hhist, fun c hc => ?_⟩ hpk hmask
    obtain ⟨-, hend⟩ | hc := Memory.mem_writeBytes hc
    · have := State.dst_add_cap_le hs.passed
      omega
    · exact hlt c hc

/-- A step of the engine keeps the invariant. -/
theorem stepEngine_inv {s t : State} (hs : s.Inv) (h : stepEngine s = .next t) : t.Inv := by
  have running (hidle : s.phase ≠ .idle) (hcheck : s.phase ≠ .check) : s.Running := State.Inv.running hs hidle hcheck
  unfold stepEngine at h
  split at h
  case h_1 => cases h; exact hs
  case h_2 hp => cases h; exact State.checkStep_inv hs hp
  case h_3 hp => cases h; exact State.reverseInStep_inv (running (by simp [hp]) (by simp [hp])) hp
  case h_4 hp => cases h; exact State.parseStep_inv (running (by simp [hp]) (by simp [hp])) hp
  case h_5 hp => exact State.emitStep_inv (running (by simp [hp]) (by simp [hp])) hp h
  case h_6 hp => cases h; exact State.reverseOutStep_inv (running (by simp [hp]) (by simp [hp])) hp
  case h_7 hp => cases h; exact State.capacityStep_inv (running (by simp [hp]) (by simp [hp]))
  case h_8 hp => exact State.unpackStep_inv (running (by simp [hp]) (by simp [hp])) hp h
  case h_9 hp => cases h; exact State.writebackStep_inv (running (by simp [hp]) (by simp [hp])) hp
  case h_10 =>
    cases h
    obtain ⟨-, -, -, -, -, hmem, -, hpk, hmask⟩ := hs
    exact State.finish_inv hmem hpk hmask _ _ _ _

/-! ### The inputs -/

/-- START on an idle block leaves a command at CHECK with the invariant (R124). -/
theorem State.start_inv {s : State} (hs : s.Inv) (cmd : BitVec 2) (mode : BitVec 4) : (s.start cmd mode).Inv := by
  obtain ⟨-, -, -, -, -, hmem, -, hpk, hmask⟩ := hs
  refine ⟨?_, ?_, fun _ => ⟨rfl, rfl, rfl, rfl, rfl, rfl⟩, ?_, ?_, hmem, ?_, hpk, hmask⟩
  · simp [State.statusOk]
  · simp [State.phaseOk]
  · simp [State.checkedOk]
  · simp [State.outputOk]
  · simp [State.dstateOk]

/-- An idle block's registers may change as long as the status is one of R35. -/
theorem State.Inv.withCsr {s : State} (hs : s.Inv) (hb : s.csr.busy = false) {c : Csr} (hcb : c.busy = false)
    (hstatus : ({ s with csr := c } : State).statusOk) : ({ s with csr := c } : State).Inv := by
  obtain ⟨-, hphase, -, hchecked, hout, hmem, hd, hpk, hmask⟩ := hs
  refine ⟨hstatus, ?_, fun h => absurd (hcb.symm.trans h) Bool.false_ne_true, hchecked, hout, hmem, hd, hpk, hmask⟩
  rwa [State.phaseOk, hcb, ← hb]

theorem State.writeReg_inv {s : State} (hs : s.Inv) (off : Nat) (d : Word) : (s.writeReg off d).Inv := by
  unfold State.writeReg
  split
  · exact hs
  · next hb =>
    have hb : s.csr.busy = false := by simpa using hb
    obtain ⟨hstatus, -⟩ := id hs
    split
    case h_2 =>
      split
      · refine State.Inv.withCsr hs hb hb ?_
        simp [State.statusOk, hb]
      · exact hs
    case h_8 => exact hs
    all_goals exact State.Inv.withCsr hs hb hb hstatus

theorem State.hostStore_inv {s : State} (hs : s.Inv) (w : Width) (a : Word) (d : BitVec 64) : (s.hostStore w a d).Inv := by
  obtain ⟨hstatus, hphase, hlatch, hchecked, hout, ⟨hmem, hhist, hlt⟩, hd, hpk, hmask⟩ := hs
  refine ⟨hstatus, hphase, hlatch, hchecked, hout, ⟨Memory.hostStore_wf _ _ _ _ hmem, hhist, fun c hc => ?_⟩,
    hd, hpk, hmask⟩
  exact (Memory.mem_hostStore hc).elim id (hlt c)

theorem stepStore_inv {s t : State} {w : Width} {a : Word} {d : BitVec 64} (hs : s.Inv)
    (h : stepStore w a d s = .next t) : t.Inv := by
  by_cases hw : s.inWindow a = true
  · rw [stepStore_inWindow hw] at h
    cases h
    split
    · split
      · exact State.start_inv hs _ _
      · exact State.writeReg_inv hs _ _
    · exact hs
  · rw [stepStore, if_neg hw] at h
    cases h
    exact State.hostStore_inv hs w a d

theorem State.hostLoad_inv {s : State} (hs : s.Inv) (w : Width) (a : Word) : (s.hostLoad w a).Inv := by
  unfold State.hostLoad
  split <;> exact hs

/-- A reset leaves the invariant, whatever it interrupts (R290, R291). -/
theorem State.assertRst_inv {s : State} (hs : s.Inv) : s.assertRst.Inv := by
  obtain ⟨-, -, -, -, -, ⟨hmem, -, hlt⟩, -⟩ := hs
  have hmem' : s.assertRst.memOk := by
    unfold State.assertRst
    by_cases hp : s.phase = .writeback
    · rw [if_pos hp]
      exact ⟨s.scrambledMem_wf hmem, Memory.wf_nil, State.scrambledMem_lt hlt⟩
    · rw [if_neg hp]
      exact ⟨hmem, Memory.wf_nil, hlt⟩
  have hph : s.assertRst.phase = .idle := rfl
  have hcsr : s.assertRst.csr = Csr.reset := rfl
  refine ⟨?_, ?_, ?_, ?_, ?_, hmem', ?_, Packer.start_packerOk (v := .zx7) rfl, .inl rfl⟩
  · simp [State.statusOk, hcsr, Csr.reset]
  · simp [State.phaseOk, hcsr, hph, Csr.reset]
  · simp [State.latchOk, hcsr, Csr.reset]
  · simp [State.checkedOk, hph]
  · simp [State.outputOk, hph]
  · simp [State.dstateOk, hph]

theorem stepInput_inv {s t : State} {i : Input} (hs : s.Inv) (h : stepInput i s = .next t) : t.Inv := by
  cases i with
  | engine => exact stepEngine_inv hs h
  | store w a d => exact stepStore_inv hs h
  | load w a => cases h; exact State.hostLoad_inv hs w a
  | rst => cases h; exact State.assertRst_inv hs

/-- Settles O17: the engine's phases and the inputs each keep the invariant, which does not speak of the waiting inputs. -/
theorem stepKeepsInvariant : Obligations.StepKeepsInvariant := by
  intro s t hs h
  cases hin : s.inputs with
  | nil =>
    rw [step_of_no_input s hin] at h
    exact stepEngine_inv hs h
  | cons i rest =>
    rw [step_of_input s i rest hin] at h
    exact stepInput_inv (s := { s with inputs := rest }) hs h

end Sys2Proof.Machine
end

section
/-! PROOFS. A command's course depends on its latches, its snapshot and the parameters alone (spec/10_state.md R51,
spec/40_host_commands.md R134): two machines that differ in their surroundings only (host memory, the host's registers and
inputs, the leftovers in HIST) take the same steps. -/

namespace Sys2Proof.Machine

/-! ### Two machines in the same command -/

/-- What does not take part in a command: the host's side of the block, and HIST, of which only bytes of the command's own output
are read. -/
structure Surroundings where
  csr : Csr
  mem : Memory
  hist : Memory
  inputs : List Input
  rdata : BitVec 64
  freeCtr : Nat

/-- The same command with other surroundings. -/
def State.within (s : State) (k : Surroundings) : State :=
  { s with csr := k.csr, mem := k.mem, hist := k.hist, inputs := k.inputs, rdata := k.rdata, freeCtr := k.freeCtr }

def State.surroundings (s : State) : Surroundings where
  csr := s.csr
  mem := s.mem
  hist := s.hist
  inputs := s.inputs
  rdata := s.rdata
  freeCtr := s.freeCtr

section
variable (s : State) (k : Surroundings)

@[simp] theorem State.within_params : (s.within k).params = s.params := rfl
@[simp] theorem State.within_latch : (s.within k).latch = s.latch := rfl
@[simp] theorem State.within_pk : (s.within k).pk = s.pk := rfl
@[simp] theorem State.within_dutyBroken : (s.within k).dutyBroken = s.dutyBroken := rfl
@[simp] theorem State.within_variant : (s.within k).variant = s.variant := rfl
@[simp] theorem State.within_outIdx : (s.within k).outIdx = s.outIdx := rfl
@[simp] theorem State.within_outPos : (s.within k).outPos = s.outPos := rfl
@[simp] theorem State.within_capl : (s.within k).capl = s.capl := rfl

end

/-- The fields of the registers that only the engine and the acknowledge write (R35, R38 to R40): the host's set to 0. -/
def Csr.enginePart (c : Csr) : Csr :=
  { c with cmd := 0, mode := 0, ie := false, srcAddr := 0, srcLen := 0, dstAddr := 0, dstCap := 0 }

/-- Whether HIST is read from here on: UNPACK, or the reversal before it. -/
def State.usesHistory (s : State) : Prop := s.phase = .reverseIn ∨ s.phase = .unpack

/-- The surroundings `k` go with the command of `s`: the same status and results, and the same bytes in the slots of HIST that
hold output of the command. -/
structure Mirrors (s : State) (k : Surroundings) : Prop where
  duty : s.dutyBroken = false
  status : k.csr.enginePart = s.csr.enginePart
  histWf : s.hist.wf
  histWf' : k.hist.wf
  hist : s.usesHistory → ∀ j < s.obuf.length,
    k.hist.read (j % Config.histSize) = s.hist.read (j % Config.histSize)

/-- Two machines in the same place of the same command. -/
def Matches (s t : State) : Prop := ∃ k, t = s.within k ∧ Mirrors s k

/-- What does not read the surroundings is the same in both. -/
theorem Matches.congr {α : Type} {s t : State} (h : Matches s t) (f : State → α) (hf : ∀ u k, f (u.within k) = f u) :
    f t = f s := by
  obtain ⟨k, rfl, -⟩ := h
  exact hf s k

/-- The same choice made in both machines. -/
theorem Matches.ite {p : Prop} [Decidable p] {a b a' b' : State} (ha : Matches a a') (hb : Matches b b') :
    Matches (if p then a else b) (if p then a' else b') := by
  split
  · exact ha
  · exact hb

/-- The same error, or matching states. -/
inductive MatchesResult : Except ErrCode State → Except ErrCode State → Prop
  | error (e : ErrCode) : MatchesResult (.error e) (.error e)
  | ok {u u' : State} : Matches u u' → MatchesResult (.ok u) (.ok u')

section
variable {s u : State} {k : Surroundings} (m : Mirrors s k) (hcsr : u.csr = s.csr) (hhist : u.hist = s.hist)
  (hduty : u.dutyBroken = s.dutyBroken)
include m hcsr hhist hduty

/-- Other internal state, the output and the phase as they were. -/
theorem Mirrors.same (hp : u.phase = s.phase) (ho : u.obuf = s.obuf) : Mirrors u k where
  duty := hduty.trans m.duty
  status := hcsr ▸ m.status
  histWf := hhist ▸ m.histWf
  histWf' := m.histWf'
  hist := by
    rw [State.usesHistory, hp, ho, hhist]
    exact m.hist

/-- Another phase, from which on HIST is not read. -/
theorem Mirrors.quiet (hp : ¬ u.usesHistory) : Mirrors u k where
  duty := hduty.trans m.duty
  status := hcsr ▸ m.status
  histWf := hhist ▸ m.histWf
  histWf' := m.histWf'
  hist := fun h => absurd h hp

end

/-! ### The end of a command -/

theorem State.finish_within {s : State} (hd : s.dutyBroken = false) (k : Surroundings) (e : ErrCode) (r c b : Word) :
    (s.within k).finish e r c b =
      (s.finish e r c b).within { k with csr := completedCsr k.csr e r c b } := by
  rw [State.finish_of_duty _ _ _ _ _ hd, State.finish_of_duty _ _ _ _ _ (by simpa using hd)]
  rfl

theorem Mirrors.finish {s : State} {k : Surroundings} (m : Mirrors s k) (e : ErrCode) (r c b : Word) :
    Matches (s.finish e r c b) ((s.within k).finish e r c b) := by
  refine ⟨_, State.finish_within m.duty k e r c b, ?_⟩
  rw [State.finish_of_duty _ _ _ _ _ m.duty]
  exact ⟨m.duty, rfl, m.histWf, m.histWf', fun h => by simp [State.usesHistory] at h⟩

theorem Matches.raise {s t : State} (h : Matches s t) (e : ErrCode) : Matches (s.raise e) (t.raise e) := by
  obtain ⟨k, rfl, m⟩ := h
  exact m.finish e 0 0 0

theorem Matches.settle {s t : State} {r r' : Except ErrCode State} (h : Matches s t) (hr : MatchesResult r r') :
    Matches (settle s r) (settle t r') := by
  cases hr with
  | error e => exact h.raise e
  | ok hu => exact hu

/-! ### Unpacking -/

theorem Matches.withCursor {s t : State} (h : Matches s t) (c : Cursor) : Matches (s.withCursor c) (t.withCursor c) := by
  obtain ⟨k, rfl, m⟩ := h
  exact ⟨k, rfl, m.same rfl rfl rfl rfl rfl⟩

theorem Matches.goto {s t : State} (h : Matches s t) (st : DState) : Matches (s.goto st) (t.goto st) := by
  obtain ⟨k, rfl, m⟩ := h
  exact ⟨k, rfl, m.same rfl rfl rfl rfl rfl⟩

theorem Matches.setUnpackOffset {s t : State} (h : Matches s t) (o : Nat) :
    Matches (s.setUnpackOffset o) (t.setUnpackOffset o) := by
  obtain ⟨k, rfl, m⟩ := h
  exact ⟨k, rfl, m.same rfl rfl rfl rfl rfl⟩

/-- The same byte output in both machines enters the same slot of both histories. -/
theorem Matches.output {s t : State} (h : Matches s t) (b : Byte) : MatchesResult (s.output b) (t.output b) := by
  obtain ⟨k, rfl, m⟩ := h
  unfold State.output
  rw [State.within_capl, State.within_outPos]
  split
  · exact .error _
  · refine .ok ⟨{ k with hist := k.hist.write (s.outPos % Config.histSize) b }, rfl, m.duty, m.status,
      Memory.write_wf _ _ _ m.histWf, Memory.write_wf _ _ _ m.histWf', fun hu j hj => ?_⟩
    simp only [Memory.read_write _ _ _ _ m.histWf, Memory.read_write _ _ _ _ m.histWf']
    split
    · rfl
    · next hne =>
      refine m.hist hu j ?_
      have : j ≠ s.obuf.length := fun he => hne (by rw [he]; rfl)
      simp only [List.length_append, List.length_singleton] at hj
      omega

theorem Matches.outputAll {s t : State} (h : Matches s t) (bs : List Byte) :
    MatchesResult (s.outputAll bs) (t.outputAll bs) := by
  induction bs generalizing s t with
  | nil => exact .ok h
  | cons b bs ih =>
    have hb := h.output b
    simp only [State.outputAll]
    generalize s.output b = r, t.output b = r' at hb
    cases hb with
    | error e => exact .error e
    | ok hu => exact ih hu

/-- A copy's byte is one of the command's own output, so both histories hold it. -/
theorem Matches.history {s t : State} (h : Matches s t) (hp : s.phase = .unpack) {o : Nat} (h1 : 1 ≤ o)
    (ho : o ≤ s.obuf.length) : t.history o = s.history o := by
  obtain ⟨k, rfl, m⟩ := h
  exact m.hist (.inr hp) (s.obuf.length - o) (by omega)

theorem Matches.copyLoop {s t : State} (h : Matches s t) (hp : s.phase = .unpack) {o : Nat} (h1 : 1 ≤ o)
    (ho : o ≤ s.obuf.length) (n : Nat) : MatchesResult (s.copyLoop o n) (t.copyLoop o n) := by
  induction n generalizing s t with
  | zero => exact .ok h
  | succ n ih =>
    have hb := h.output (s.history o)
    have hun (u : State) (hu : s.output (s.history o) = .ok u) : Unpacked s u := State.output_unpacked hu
    simp only [State.copyLoop, h.history hp h1 ho]
    generalize s.output (s.history o) = r, t.output (s.history o) = r' at hb hun
    cases hb with
    | error e => exact .error e
    | ok hu => exact ih hu ((hun _ rfl).phase.trans hp) (ho.trans (hun _ rfl).grows)

theorem Matches.copy {s t : State} (h : Matches s t) (hp : s.phase = .unpack) (o L : Nat) :
    MatchesResult (s.copy o L) (t.copy o L) := by
  unfold State.copy
  rw [h.congr State.outPos fun _ _ => rfl]
  split
  · exact .error _
  · next hno =>
    rw [not_or, Nat.not_lt, Nat.not_lt] at hno
    exact h.copyLoop hp hno.1 hno.2 L

theorem MatchesResult.thenGoto {r r' : Except ErrCode State} (h : MatchesResult r r') (st : DState) :
    MatchesResult (State.thenGoto st r) (State.thenGoto st r') := by
  cases h with
  | error e => exact .error e
  | ok hu => exact .ok (hu.goto st)

theorem Matches.zx0Next {s t : State} (h : Matches s t) (afterRun : Bool) :
    MatchesResult (s.zx0Next afterRun) (t.zx0Next afterRun) := by
  unfold State.zx0Next
  rw [h.congr (fun u => readBit u.image u.up.cur) fun _ _ => rfl]
  split
  · exact .error _
  · exact .ok ((h.withCursor _).goto _)

theorem MatchesResult.zx0Then {r r' : Except ErrCode State} (h : MatchesResult r r') (afterRun : Bool) :
    MatchesResult (State.zx0Then afterRun r) (State.zx0Then afterRun r') := by
  cases h with
  | error e => exact .error e
  | ok hu => exact hu.zx0Next afterRun

theorem Matches.afterBody {s t : State} (h : Matches s t) : Matches s.afterBody t.afterBody := by
  obtain ⟨k, rfl, m⟩ := h
  refine ⟨k, rfl, m.quiet rfl rfl rfl ?_⟩
  simp only [State.usesHistory, State.afterBody_phase]
  grind

theorem UnpackEffect.matches {v : Variant} {u : State → State} (hu : UnpackEffect v u) {s t : State} (h : Matches s t)
    (hp : s.phase = .unpack) : Matches (u s) (u t) := by
  cases hu with
  | ends => exact (h.goto .done).afterBody
  | first b => exact h.settle ((h.output b).thenGoto _)
  | literal b => exact h.settle (h.output b)
  | copy o L => exact h.settle (h.copy hp o L)
  | run bs => exact h.settle ((h.outputAll bs).zx0Then true)
  | repCopy L =>
    dsimp only
    rw [h.congr (fun u => u.up.lastOffset) fun _ _ => rfl]
    exact h.settle ((h.copy hp _ L).zx0Then false)
  | newCopy o L => exact h.settle (((h.setUnpackOffset o).copy hp o L).zx0Then false)

theorem Matches.rejectStream {s t : State} (h : Matches s t) (err : DecodeError) :
    Matches (s.rejectStream err) (t.rejectStream err) := by
  cases err with
  | prematureRun bs =>
    refine h.settle ?_
    have hb := h.outputAll bs
    generalize s.outputAll bs = r, t.outputAll bs = r' at hb
    cases hb with
    | error e => exact .error e
    | ok hu => exact .error _
  | prematureEnd | zx7PrefixTooLong | gammaTooLong | msbAbove256 | mlzLengthAbove255 | stateReadsNothing =>
    exact h.raise _

/-- Both machines answer a next state, and the states match. -/
def MatchesNext (o o' : Host.Outcome State Fault Refusal) : Prop :=
  ∀ s', o = .next s' → ∃ t', o' = .next t' ∧ Matches s' t'

theorem Matches.next {s t : State} (h : Matches s t) : MatchesNext (.next s) (.next t) := by
  intro s' hs
  cases hs
  exact ⟨t, rfl, h⟩

theorem Matches.unpackStep {s t : State} (h : Matches s t) (hp : s.phase = .unpack) :
    MatchesNext s.unpackStep t.unpackStep := by
  have hvar : t.variant = s.variant := h.congr State.variant fun _ _ => rfl
  have hphase : t.phase = s.phase := h.congr State.phase fun _ _ => rfl
  unfold State.unpackStep
  rw [h.congr (fun u => decode u.fmt u.variant u.up.dstate u.image u.up.cur) fun _ _ => rfl]
  split
  · next i c hc =>
    obtain ⟨u, e, hu, -, hexec⟩ := exec_token (decode_tokenVariant hc)
    rw [hexec, hexec, State.runToken_unpack (s.withCursor c) s.variant u e rfl hp,
      State.runToken_unpack (t.withCursor c) s.variant u e hvar (hphase.trans hp)]
    exact (hu.matches (h.withCursor c) hp).next
  · exact (h.rejectStream _).next

/-! ### Emitting -/

theorem State.writeByte_within (s : State) (k : Surroundings) (v : Byte) :
    (s.within k).writeByte v = (s.writeByte v).map (State.within · k) := by
  unfold State.writeByte
  rw [State.within_params, State.within_outIdx]
  split <;> rfl

theorem State.writeBit_within (s : State) (k : Surroundings) (v : Bool) :
    (s.within k).writeBit v = (s.writeBit v).map (State.within · k) := by
  unfold State.writeBit
  rw [State.within_pk, State.within_outIdx]
  split
  · rfl
  · split
    · have hw := State.writeByte_within { s with pk := { s.pk with bitMask := 0x80, bitIndex := s.outIdx } } k 0x00
      simp only [State.within] at hw ⊢
      rw [hw]
      generalize State.writeByte _ _ = r
      cases r <;> rfl
    · rfl

theorem State.call_within (s : State) (k : Surroundings) (c : Call) :
    (s.within k).call c = (s.call c).map (State.within · k) := by
  cases c with
  | bit v => exact s.writeBit_within k v
  | byte v => exact s.writeByte_within k v
  | backtrack => rfl

/-- The packer's calls do not depend on the surroundings. -/
theorem State.calls_within (cs : List Call) (s : State) (k : Surroundings) :
    (s.within k).calls cs = (s.calls cs).map (State.within · k) := by
  induction cs generalizing s with
  | nil => rfl
  | cons c cs ih =>
    simp only [State.calls, State.call_within]
    cases s.call c with
    | error e => rfl
    | ok u => exact ih u

theorem AfterCalls.matches {post : State → State} (hpost : AfterCalls post) {s t : State} (h : Matches s t) :
    Matches (post s) (post t) := by
  cases hpost with
  | nothing => exact h
  | ends => exact h.afterBody
  | kind | offsetKind =>
    obtain ⟨k, rfl, m⟩ := h
    exact ⟨k, rfl, m.same rfl rfl rfl rfl rfl⟩

theorem Matches.emitThen {s t : State} (h : Matches s t) (hp : s.phase = .emit) (cs : List Call) {post : State → State}
    (hpost : AfterCalls post) : Matches (s.emitThen cs post) (t.emitThen cs post) := by
  refine h.settle ?_
  obtain ⟨k, rfl, m⟩ := h
  rw [State.calls_within]
  cases hcs : s.calls cs with
  | error e => exact .error e
  | ok u =>
    have hu := State.calls_packed hcs
    refine .ok (hpost.matches ⟨k, rfl, m.quiet hu.engineFrame.csr ?_ hu.engineFrame.dutyBroken ?_⟩)
    · rw [hu.frame]
    · simp [State.usesHistory, hu.phase, hp]

theorem EmitEffect.matches {e : State → State} (he : EmitEffect e) {s t : State} (h : Matches s t)
    (hp : s.phase = .emit) : Matches (e s) (e t) := by
  have hfmt : t.fmt = s.fmt := h.congr State.fmt fun _ _ => rfl
  have hlatch : t.latch = s.latch := h.congr State.latch fun _ _ => rfl
  have hpk : t.pk = s.pk := h.congr State.pk fun _ _ => rfl
  cases he with
  | calls cs hcs hpost =>
    dsimp only
    rw [hcs t s hfmt]
    exact h.emitThen hp _ hpost
  | copy o L cs hcs hpost =>
    dsimp only [State.emitCopy]
    rw [hcs t s hfmt, hlatch]
    exact .ite (h.emitThen hp _ hpost) (h.raise _)
  | repCopy L cs hcs hpost =>
    dsimp only
    rw [hcs t s hfmt, hpk]
    exact .ite (h.emitThen hp _ hpost) (h.raise _)

theorem Matches.popOp {s t : State} (h : Matches s t) : Matches s.popOp t.popOp := by
  obtain ⟨k, rfl, m⟩ := h
  exact ⟨k, rfl, m.same rfl rfl rfl rfl rfl⟩

theorem Matches.emitStep {s t : State} (h : Matches s t) (hp : s.phase = .emit) :
    MatchesNext s.emitStep t.emitStep := by
  have hvar : t.variant = s.variant := h.congr State.variant fun _ _ => rfl
  have hphase : t.phase = s.phase := h.congr State.phase fun _ _ => rfl
  unfold State.emitStep
  rw [h.congr State.nextToken fun _ _ => rfl]
  split
  · next i hi =>
    obtain ⟨u, e, -, he, hexec⟩ := exec_token (State.nextToken_tokenVariant hi)
    rw [hexec, hexec, State.runToken_emit s.popOp s.variant u e rfl hp,
      State.runToken_emit t.popOp s.variant u e hvar (hphase.trans hp)]
    exact (he.matches h.popOp hp).next
  · exact (h.raise _).next

/-! ### Parsing -/

section
variable {s : State} {k : Surroundings} (m : Mirrors s k)
include m

/-- A position scanned: only the parser's own state differs from before. -/
theorem Mirrors.scanned (ix : MatchIndex) (sc : Nat) (z7 : List Zx7Entry) (z0 : Zx0State) (mz : List MlzEntry) (tot : Nat)
    (ops : List Op) :
    Matches { s with index := ix, scan := sc, zx7 := z7, zx0 := z0, mlz := mz, total := tot, ops := ops }
      { s.within k with index := ix, scan := sc, zx7 := z7, zx0 := z0, mlz := mz, total := tot, ops := ops } :=
  ⟨k, rfl, m.same rfl rfl rfl rfl rfl⟩

theorem Mirrors.endParse (ops : List Op) : Matches (s.endParse ops) ((s.within k).endParse ops) :=
  ⟨k, rfl, m.quiet rfl rfl rfl (by simp [State.usesHistory, State.endParse])⟩

theorem Mirrors.parseZx7 : Matches s.parseZx7 (s.within k).parseZx7 := by
  unfold State.parseZx7
  exact .ite (m.scanned _ _ _ _ _ _ _) (m.endParse _)

theorem Mirrors.parseZx0 : Matches s.parseZx0 (s.within k).parseZx0 := by
  unfold State.parseZx0
  exact .ite (.ite (m.finish .limit 0 0 0) (m.scanned _ _ _ _ _ _ _)) (m.endParse _)

theorem Mirrors.parseMlzOptimal : Matches s.parseMlzOptimal (s.within k).parseMlzOptimal := by
  unfold State.parseMlzOptimal
  exact .ite (m.scanned _ _ _ _ _ _ _) (m.endParse _)

theorem Mirrors.parseMlzGreedy : Matches s.parseMlzGreedy (s.within k).parseMlzGreedy := by
  unfold State.parseMlzGreedy
  exact .ite (.ite (m.scanned _ _ _ _ _ _ _) (m.scanned _ _ _ _ _ _ _)) (m.endParse _)

theorem Mirrors.parseStep : Matches s.parseStep (s.within k).parseStep := by
  unfold State.parseStep
  rw [State.within_variant, State.within_latch]
  split
  · exact m.parseZx7
  · exact m.parseZx0
  · exact .ite m.parseMlzOptimal m.parseMlzGreedy

end

theorem Matches.parseStep {s t : State} (h : Matches s t) : Matches s.parseStep t.parseStep := by
  obtain ⟨k, rfl, m⟩ := h
  exact m.parseStep

/-! ### The other phases -/

/-- At CHECK, what is left of earlier commands is replaced (R51), so machines with equal latches, snapshots and parameters match
from there on; where a check fails, both are refused alike. -/
theorem checkStep_matches {s t : State} (hl : s.latch = t.latch) (hi : s.image = t.image) (hp : s.params = t.params)
    (hstatus : t.csr.enginePart = s.csr.enginePart) (hd : s.dutyBroken = false) (hd' : t.dutyBroken = false)
    (hw : s.hist.wf) (hw' : t.hist.wf) (hnone : s.checkError = none) : Matches s.checkStep t.checkStep := by
  have hnone' : t.checkError = none := (State.checkError_congr hl.symm hp.symm).trans hnone
  refine ⟨t.surroundings, ?_, ?_⟩
  · simp only [State.checkStep, hnone, hnone']
    cases s; cases t
    dsimp only at hl hi hp hd hd'
    subst hl hi hp hd hd'
    rfl
  · simp only [State.checkStep, hnone]
    exact ⟨hd, hstatus, hw, hw', fun _ j hj => absurd hj (Nat.not_lt_zero j)⟩

theorem checkStep_refused {s : State} {e : ErrCode} (h : s.checkError = some e) : s.checkStep = s.raise e := by
  simp [State.checkStep, h]

theorem Matches.checkStep {s t : State} (h : Matches s t) : Matches s.checkStep t.checkStep := by
  have hcheck : t.checkError = s.checkError := h.congr State.checkError fun _ _ => rfl
  cases herr : s.checkError with
  | none =>
    obtain ⟨k, rfl, m⟩ := h
    exact checkStep_matches rfl rfl rfl m.status m.duty m.duty m.histWf m.histWf' herr
  | some e =>
    rw [checkStep_refused herr, checkStep_refused (hcheck.trans herr)]
    exact h.raise e

theorem Matches.reverseInStep {s t : State} (h : Matches s t) (hp : s.phase = .reverseIn) :
    Matches s.reverseInStep t.reverseInStep := by
  obtain ⟨k, rfl, m⟩ := h
  exact ⟨k, rfl, m.duty, m.status, m.histWf, m.histWf', fun _ => m.hist (.inl hp)⟩

theorem Matches.reverseOutStep {s t : State} (h : Matches s t) : Matches s.reverseOutStep t.reverseOutStep := by
  obtain ⟨k, rfl, m⟩ := h
  refine ⟨k, rfl, m.quiet rfl rfl rfl ?_⟩
  cases hc : s.compressing <;> simp [State.usesHistory, State.reverseOutStep, hc]

theorem Matches.capacityStep {s t : State} (h : Matches s t) : Matches s.capacityStep t.capacityStep := by
  obtain ⟨k, rfl, m⟩ := h
  unfold State.capacityStep
  exact .ite (m.finish .alloc 0 0 0) ⟨k, rfl, m.quiet rfl rfl rfl (by simp [State.usesHistory])⟩

theorem Matches.writebackStep {s t : State} (h : Matches s t) : Matches s.writebackStep t.writebackStep := by
  obtain ⟨k, rfl, m⟩ := h
  have hd : ¬ s.dutyBroken = true := by simp [m.duty]
  rw [State.writebackStep, State.writebackStep, if_neg hd, if_neg (by exact hd)]
  exact ⟨{ k with mem := k.mem.writeBytes s.latch.dst.toNat s.obuf }, rfl, m.duty, m.status, m.histWf, m.histWf',
    fun hu => by simp [State.usesHistory] at hu⟩

theorem Matches.completeStep {s t : State} (h : Matches s t) : Matches s.completeStep t.completeStep := by
  obtain ⟨k, rfl, m⟩ := h
  exact m.finish _ _ _ _

/-- Matching machines take matching steps. -/
theorem Matches.stepEngine {s t : State} (h : Matches s t) : MatchesNext (stepEngine s) (stepEngine t) := by
  unfold Machine.stepEngine
  rw [h.congr State.phase fun _ _ => rfl]
  split
  case h_1 => exact h.next
  case h_2 => exact h.checkStep.next
  case h_3 hp => exact (h.reverseInStep hp).next
  case h_4 => exact h.parseStep.next
  case h_5 hp => exact h.emitStep hp
  case h_6 => exact h.reverseOutStep.next
  case h_7 => exact h.capacityStep.next
  case h_8 hp => exact h.unpackStep hp
  case h_9 => exact h.writebackStep.next
  case h_10 => exact h.completeStep.next

/-! ### Runs -/

theorem runEngine_succ {n : Nat} {s u : State} (h : runEngine (n + 1) s = .next u) :
    ∃ t, stepEngine s = .next t ∧ runEngine n t = .next u := by
  rw [runEngine] at h
  split at h
  · next t ht => exact ⟨t, ht, h⟩
  · cases h
  · cases h

theorem runEngine_succ_of_step {n : Nat} {s t : State} (h : stepEngine s = .next t) :
    runEngine (n + 1) s = runEngine n t := by
  rw [runEngine, h]

theorem runEngine_idle {s : State} (h : s.phase = .idle) (n : Nat) : runEngine n s = .next s := by
  induction n with
  | zero => rfl
  | succ n ih => rw [runEngine_succ_of_step (stepEngine_idle s h), ih]

theorem HostKept.trans {s t u : State} (h : HostKept s t) (k : HostKept t u) : HostKept s u :=
  ⟨k.csr.trans h.csr, k.params.trans h.params, k.inputs.trans h.inputs, k.rdata.trans h.rdata⟩

/-- No run of the engine changes what the host wrote (R37). -/
theorem runEngine_hostKept {n : Nat} {s t : State} (h : runEngine n s = .next t) : HostKept s t := by
  induction n generalizing s with
  | zero => cases h; exact ⟨rfl, rfl, rfl, rfl⟩
  | succ n ih =>
    obtain ⟨u, hu, hrun⟩ := runEngine_succ h
    exact (stepEngine_hostKept hu).trans (ih hrun)

theorem Matches.runEngine {s t : State} (h : Matches s t) (n : Nat) :
    MatchesNext (runEngine n s) (runEngine n t) := by
  induction n generalizing s t with
  | zero => exact h.next
  | succ n ih =>
    intro s' hs
    obtain ⟨u, hu, hrun⟩ := runEngine_succ hs
    obtain ⟨u', hu', hm⟩ := h.stepEngine u hu
    rw [runEngine_succ_of_step hu']
    exact ih hm s' hrun

/-- The same status and results in the same phase, and in a running command the same output. -/
def SameProgress (s t : State) : Prop :=
  t.csr.enginePart = s.csr.enginePart ∧ t.phase = s.phase ∧ (s.phase ≠ .idle → t.obuf = s.obuf)

theorem Matches.sameProgress {s t : State} (h : Matches s t) : SameProgress s t := by
  obtain ⟨k, rfl, m⟩ := h
  exact ⟨m.status, rfl, fun _ => rfl⟩

/-- Two machines with the same command at CHECK progress alike, whatever surrounds them. -/
theorem runEngine_sameProgress {n : Nat} {s t s' : State} (hs : atCheck s) (ht : atCheck t) (hl : s.latch = t.latch)
    (hi : s.image = t.image) (hp : s.params = t.params) (hw : s.hist.wf) (hw' : t.hist.wf)
    (hstatus : t.csr.enginePart = s.csr.enginePart) (h : runEngine (n + 1) s = .next s') :
    ∃ t', runEngine (n + 1) t = .next t' ∧ SameProgress s' t' := by
  obtain ⟨hps, -, hds⟩ := hs
  obtain ⟨hpt, -, hdt⟩ := ht
  have hstep (u : State) (hu : u.phase = .check) : stepEngine u = .next u.checkStep := by simp [stepEngine, hu]
  rw [runEngine_succ_of_step (hstep s hps)] at h
  rw [runEngine_succ_of_step (hstep t hpt)]
  cases herr : s.checkError with
  | none =>
    obtain ⟨t', ht', hm⟩ := (checkStep_matches hl hi hp hstatus hds hdt hw hw' herr).runEngine n s' h
    exact ⟨t', ht', hm.sameProgress⟩
  | some e =>
    have hidle (u : State) : (u.raise e).phase = .idle := State.finish_phase _ _ _ _ _
    have herr' : t.checkError = some e := (State.checkError_congr hl.symm hp.symm).trans herr
    rw [checkStep_refused herr, runEngine_idle (hidle s)] at h
    rw [checkStep_refused herr', runEngine_idle (hidle t)]
    cases h
    refine ⟨_, rfl, ?_, (hidle t).trans (hidle s).symm, fun hne => absurd (hidle s) hne⟩
    rw [State.raise, State.raise, State.finish_of_duty _ _ _ _ _ hds, State.finish_of_duty _ _ _ _ _ hdt]
    rfl

/-- Registers are made of the host's part and the engine's. -/
theorem Csr.eq_of_parts {c d e : Csr} (hhost : c.hostPart = d.hostPart) (hengine : c.enginePart = e.enginePart) :
    c = { d with
      busy := e.busy, done := e.done, err := e.err, errCode := e.errCode
      resultLen := e.resultLen, consumedLen := e.consumedLen, costBits := e.costBits } := by
  cases c; cases d; cases e
  simp_all [Csr.hostPart, Csr.enginePart]

/-- Settles O22: the two machines progress alike, and neither engine touches the host's registers. -/
theorem resultsDependOnlyOnCommandAndSnapshot : Obligations.ResultsDependOnlyOnCommandAndSnapshot := by
  intro n s t s' hs ht hl hi hp hw hw' hresult hconsumed hcost hdone herr hcode hn hrun
  obtain ⟨n, rfl⟩ := Nat.exists_eq_add_of_le' hn
  obtain ⟨-, hbs, -⟩ := id hs
  obtain ⟨-, hbt, -⟩ := id ht
  have hstatus : t.csr.enginePart = s.csr.enginePart := by
    simp [Csr.enginePart, hbs, hbt, hresult, hconsumed, hcost, hdone, herr, hcode]
  obtain ⟨t', hrun', hprog, hphase, hobuf⟩ := runEngine_sameProgress hs ht hl hi hp hw hw' hstatus hrun
  refine ⟨t', hrun', fun hne => ?_, fun _ => ⟨?_, ?_⟩⟩
  · simp only [Csr.enginePart, Csr.mk.injEq] at hprog
    obtain ⟨-, -, hb, hd, he, hcd, -, -, -, -, -, hr, hcn, hco⟩ := hprog
    exact ⟨hb.symm, hd.symm, he.symm, hcd.symm, hr.symm, hcn.symm, hco.symm, hphase.symm, (hobuf hne).symm⟩
  · exact Csr.eq_of_parts (runEngine_hostKept hrun).csr rfl
  · exact Csr.eq_of_parts (runEngine_hostKept hrun').csr hprog

end Sys2Proof.Machine
end

section
/-! PROOFS. Host memory (spec/20_memory.md R60 to R62): what a host store of several bytes writes and leaves, what a host load is
made of byte by byte, and that the engine writes only the output buffer, in WRITEBACK, when nothing can fail any more. -/

namespace Sys2Proof.Machine

/-! ### Host stores -/

theorem add_ofNat_succ (a : Word) (k : Nat) : a + BitVec.ofNat 32 (k + 1) = a + 1 + BitVec.ofNat 32 k := by
  rw [Nat.add_comm k 1, BitVec.ofNat_add, ← BitVec.add_assoc]
  rfl

/-- Two bytes of one access have different addresses, also where the access wraps at 2^32. -/
theorem toNat_ne_toNat_add_succ (a : Word) {k : Nat} (hk : k + 1 < 2 ^ 32) :
    a.toNat ≠ (a + BitVec.ofNat 32 (k + 1)).toNat := by
  rw [BitVec.toNat_add, BitVec.toNat_ofNat]
  omega

theorem extractLsb'_ushiftRight_byte (d : BitVec 64) (k : Nat) :
    (d >>> 8).extractLsb' (8 * k) 8 = d.extractLsb' (8 * (k + 1)) 8 := by
  ext i hi
  simp [show 8 + (8 * k + i) = 8 * (k + 1) + i by omega]

/-- A host store leaves every byte it does not name. -/
theorem Memory.read_hostStore_other {n : Nat} {m : Memory} {a : Word} {d : BitVec 64} {x : Nat} (h : m.wf)
    (hx : ∀ k < n, x ≠ (a + BitVec.ofNat 32 k).toNat) : (m.hostStore a d n).read x = m.read x := by
  induction n generalizing m a d with
  | zero => rfl
  | succ n ih =>
    have hfirst : x ≠ a.toNat := by simpa using hx 0 (by omega)
    have hrest (k : Nat) (hk : k < n) : x ≠ (a + 1 + BitVec.ofNat 32 k).toNat := by
      rw [← add_ofNat_succ]
      exact hx (k + 1) (by omega)
    calc (m.hostStore a d (n + 1)).read x
        = (m.write a.toNat (d.truncate 8)).read x := ih (Memory.write_wf m _ _ h) hrest
      _ = m.read x := Memory.read_write_other m _ _ _ h hfirst

/-- Byte `k` of a host store stands at its `k`-th address: no later byte of the access overwrites it. -/
theorem Memory.read_hostStore_same {n k : Nat} {m : Memory} {a : Word} {d : BitVec 64} (h : m.wf) (hn : n ≤ 2 ^ 32)
    (hk : k < n) : (m.hostStore a d n).read (a + BitVec.ofNat 32 k).toNat = d.extractLsb' (8 * k) 8 := by
  induction n generalizing m a d k with
  | zero => omega
  | succ n ih =>
    have hw : (m.write a.toNat (d.truncate 8)).wf := Memory.write_wf m _ _ h
    cases k with
    | zero =>
      have hlater (j : Nat) (hj : j < n) : a.toNat ≠ (a + 1 + BitVec.ofNat 32 j).toNat := by
        rw [← add_ofNat_succ]
        exact toNat_ne_toNat_add_succ a (by omega)
      have haddr : (a + BitVec.ofNat 32 0).toNat = a.toNat := by simp
      calc (m.hostStore a d (n + 1)).read (a + BitVec.ofNat 32 0).toNat
          = (m.write a.toNat (d.truncate 8)).read a.toNat := by
            rw [haddr]; exact Memory.read_hostStore_other hw hlater
        _ = d.truncate 8 := Memory.read_write_same m _ _ h
        _ = d.extractLsb' (8 * 0) 8 := BitVec.setWidth_eq_extractLsb' (by decide)
    | succ k =>
      rw [add_ofNat_succ, ← extractLsb'_ushiftRight_byte]
      exact ih hw (by omega) (by omega)

/-- A store outside the register window is one to host memory. -/
theorem stepStore_outside {s : State} {a : Word} (hw : s.inWindow a = false) (w : Width) (d : BitVec 64) :
    stepStore w a d s = .next (s.hostStore w a d) := by
  simp [stepStore, hw]

theorem widthBytes_le (w : Width) : widthBytes w ≤ 8 := by cases w <;> decide

/-! ### Host loads -/

theorem extractLsb'_zero_lowByte_or (b : Byte) (x : BitVec 64) :
    (b.zeroExtend 64 ||| x <<< 8).extractLsb' 0 8 = b := by
  ext i hi
  simp [hi, show i < 64 by omega]

theorem extractLsb'_succ_lowByte_or (b : Byte) (x : BitVec 64) {k : Nat} (hk : k + 1 < 8) :
    (b.zeroExtend 64 ||| x <<< 8).extractLsb' (8 * (k + 1)) 8 = x.extractLsb' (8 * k) 8 := by
  ext i hi
  have hlow : b.getLsbD (8 * (k + 1) + i) = false := BitVec.getLsbD_of_ge _ _ (by omega)
  have hbit : x.getLsbD (8 * k + i) = x[8 * k + i] := BitVec.getLsbD_eq_getElem (by omega)
  simp [hlow, hbit, show ¬8 * (k + 1) + i < 8 by omega, show 8 * (k + 1) + i < 64 by omega,
    show 8 * (k + 1) + i - 8 = 8 * k + i by omega]

/-- Byte `k` of a host load is what the load sees at its `k`-th address. -/
theorem State.extractLsb'_loadBytes (s : State) {n k : Nat} (ctr : Nat) (a : Word) (hn : n ≤ 8) (hk : k < n) :
    (s.loadBytes ctr a n).extractLsb' (8 * k) 8 = s.earlyByte (ctr + k) (a + BitVec.ofNat 32 k).toNat := by
  induction n generalizing ctr a k with
  | zero => omega
  | succ n ih =>
    rw [State.loadBytes]
    cases k with
    | zero => simpa using extractLsb'_zero_lowByte_or _ _
    | succ k =>
      rw [extractLsb'_succ_lowByte_or _ _ (by omega), ih (ctr + 1) (a + 1) (by omega) (by omega),
        add_ofNat_succ, Nat.add_right_comm, Nat.add_assoc]

/-- A load has no bits above its width. -/
theorem State.loadBytes_lt (s : State) (ctr : Nat) (a : Word) (n : Nat) :
    (s.loadBytes ctr a n).toNat < 2 ^ (8 * n) := by
  induction n generalizing ctr a with
  | zero => simp [State.loadBytes]
  | succ n ih =>
    rw [State.loadBytes, BitVec.toNat_or]
    refine Nat.or_lt_two_pow ?_ ?_
    · have hbyte : ((s.earlyByte ctr a.toNat).zeroExtend 64).toNat < 2 ^ 8 := by
        simpa using lt_of_le_of_lt (Nat.mod_le _ _) (s.earlyByte ctr a.toNat).isLt
      exact hbyte.trans_le (Nat.pow_le_pow_right (by omega) (by omega))
    · calc (s.loadBytes (ctr + 1) (a + 1) n <<< 8).toNat
          ≤ (s.loadBytes (ctr + 1) (a + 1) n).toNat * 2 ^ 8 := by
            rw [BitVec.toNat_shiftLeft, Nat.shiftLeft_eq]; exact Nat.mod_le _ _
        _ < 2 ^ (8 * n) * 2 ^ 8 := Nat.mul_lt_mul_of_pos_right (ih _ _) (by decide)
        _ = 2 ^ (8 * (n + 1)) := by rw [← Nat.pow_add]; rfl

/-- What a load sees where the host kept its duty (R306, U6): the byte there, or one of a result being written back. -/
theorem State.earlyByte_cases {s : State} (hd : s.dutyBroken = false) (ctr x : Nat) :
    s.earlyByte ctr x = s.mem.read x ∨
    s.phase = .writeback ∧ s.latch.dst.toNat ≤ x ∧ x < s.latch.dst.toNat + s.obuf.length ∧
      s.earlyByte ctr x = s.obuf.getD (x - s.latch.dst.toNat) 0 := by
  rw [State.earlyByte, if_neg (by simp [hd])]
  split
  · next h =>
    obtain ⟨hphase, hlo, hhi, -⟩ := h
    exact .inr ⟨hphase, hlo, hhi, rfl⟩
  · exact .inl rfl

theorem State.hostLoad_outside {s : State} {a : Word} (hw : s.inWindow a = false) (w : Width) :
    s.hostLoad w a = { s with
      rdata := s.loadBytes s.freeCtr a (widthBytes w), freeCtr := s.freeCtr + widthBytes w } := by
  simp [State.hostLoad, hw]

/-- Settles O15: the store byte by byte, and the load byte by byte from what each of its bytes may be seen as. -/
theorem hostMemoryAccesses : Obligations.HostMemoryAccesses := by
  refine ⟨fun s w a d rest hin hw hmem => ?_, fun s w a rest hin hw hd => ?_⟩
  · have hsize : widthBytes w ≤ 2 ^ 32 := (widthBytes_le w).trans (by decide)
    rw [step_of_input s _ _ hin]
    exact ⟨_, stepStore_outside (s := { s with inputs := rest }) hw w d, rfl,
      fun k hk => Memory.read_hostStore_same hmem hsize hk, fun x hx => Memory.read_hostStore_other hmem hx⟩
  · rw [step_of_input s _ _ hin]
    refine ⟨_, congrArg Host.Outcome.next (State.hostLoad_outside (s := { s with inputs := rest }) hw w), rfl,
      State.loadBytes_lt _ _ _ _, ?_⟩
    rintro k hk x rfl
    rw [State.extractLsb'_loadBytes _ _ _ (widthBytes_le w) hk]
    exact State.earlyByte_cases (s := { s with inputs := rest }) hd _ _

/-! ### The engine -/

/-- The write-back leaves memory outside the output buffer, as the result fits in it (R127). -/
theorem State.writebackStep_read_outside {s : State} (h : s.mem.wf) (hfits : s.obuf.length ≤ s.latch.cap.toNat) {a : Nat}
    (out : inBuffer s.latch.dst s.latch.cap a = false) : s.writebackStep.mem.read a = s.mem.read a := by
  unfold State.writebackStep
  split
  · exact s.scrambledMem_read_outside a h out
  · refine (Memory.read_writeBytes _ _ _ _ h).trans (if_neg ?_)
    simp only [inBuffer, Bool.and_eq_false_iff, decide_eq_false_iff_not] at out
    omega

/-- A step of the engine leaves memory outside the output buffer as it was, whatever the host does (R61). -/
theorem stepEngine_read_outside {s t : State} (hs : s.Inv) (h : stepEngine s = .next t) {a : Nat}
    (out : inBuffer s.latch.dst s.latch.cap a = false) : t.mem.read a = s.mem.read a := by
  obtain ⟨-, -, -, -, ⟨-, -, -, -, hfits⟩, ⟨hmem, -⟩, -⟩ := hs
  obtain hf | ⟨u, e, r, c, b, hf, rfl⟩ | ⟨hp, rfl⟩ := stepEngine_cases h
  · rw [hf.mem]
  · rw [u.finish_mem_outside e r c b a (hf.mem ▸ hmem) (hf.latch ▸ out), hf.mem]
  · exact State.writebackStep_read_outside hmem (hfits (.inl hp)) out

/-- Before WRITEBACK the engine writes no memory, as long as the host keeps its duty (R61, R266). -/
theorem stepEngine_mem_of_not_writeback {s t : State} (h : stepEngine s = .next t) (hd : s.dutyBroken = false)
    (hp : s.phase ≠ .writeback) : t.mem = s.mem := by
  obtain hf | ⟨u, e, r, c, b, hf, rfl⟩ | ⟨hwb, -⟩ := stepEngine_cases h
  · exact hf.mem
  · rw [u.finish_of_duty e r c b (hf.dutyBroken.trans hd)]
    exact hf.mem
  · exact absurd hwb hp

/-- No error is reported while a command runs (R35). -/
theorem State.Inv.err_eq_false {s : State} (hs : s.Inv) (hp : s.phase ≠ .idle) : s.csr.err = false := by
  obtain ⟨⟨hrunning, herr, -⟩, hphase, -⟩ := hs
  have hdone : s.csr.done = false := (hrunning (hphase.2 hp)).1
  exact Bool.eq_false_iff.2 fun he => by simp [herr he] at hdone

@[simp] theorem State.writebackStep_csr (s : State) : s.writebackStep.csr = s.csr := by
  unfold State.writebackStep; split <;> rfl

/-- COMPLETE is a success where the host kept its duty (R127). -/
theorem State.completeStep_err {s : State} (hd : s.dutyBroken = false) : s.completeStep.csr.err = false := by
  rw [State.completeStep, s.finish_of_duty _ _ _ _ hd]
  rfl

/-- A command that has reached WRITEBACK does not fail. -/
theorem stepEngine_err_of_last_phases {s t : State} (hs : s.Inv) (h : stepEngine s = .next t) (hd : s.dutyBroken = false)
    (hp : s.phase = .writeback ∨ s.phase = .complete) : t.csr.err = false := by
  obtain hp | hp := hp
  all_goals
    rw [stepEngine, hp] at h
    cases h
  · rw [State.writebackStep_csr]
    exact State.Inv.err_eq_false hs (by simp [hp])
  · exact State.completeStep_err hd

/-- Settles O20: the three clauses are the three lemmas on one engine step. -/
theorem engineWritesOnlyTheOutputBuffer : Obligations.EngineWritesOnlyTheOutputBuffer := fun _ _ hs h =>
  ⟨fun _ out => stepEngine_read_outside hs h out, stepEngine_mem_of_not_writeback h,
    stepEngine_err_of_last_phases hs h⟩

end Sys2Proof.Machine
end

section
/-! PROOFS. A stream laid out from items (spec/30_encoding.md R82) is read back item by item (spec/45_unpacker.md R230, R231):
what laying one item out does, what a read at the position reached answers, and what is left of the items where the stream is
cut. -/

namespace Sys2Proof

/-! ### One item laid out (R82) -/

/-- The open bit-group byte is one of the stream's, and at least one of its positions is taken. -/
structure Layout.Sound (l : Layout) : Prop where
  free_le : l.free ≤ 7
  group_lt : l.free ≠ 0 → l.group < l.out.length

/-- The free positions of the open bit-group byte hold 0. -/
def Layout.Clear (l : Layout) : Prop := ∀ k < l.free, (l.out.getD l.group 0).getLsbD k = false

/-- Where `layout` starts. -/
def Layout.empty : Layout := { out := [], group := 0, free := 0 }

/-- A bit opens a bit-group byte at the end of the stream where no position is free. -/
theorem Layout.put_bit_open {l : Layout} (b : Bool) (h : l.free = 0) :
    l.put (.bit b) = { out := l.out ++ [if b then 0x80 else 0], group := l.out.length, free := 7 } := by
  simp [Layout.put, h]

/-- A bit goes to the next free position of the open bit-group byte. -/
theorem Layout.put_bit_next {l : Layout} (b : Bool) (h : l.free ≠ 0) :
    l.put (.bit b) =
      { l with out := if b then orByte l.out l.group (1#8 <<< (l.free - 1)) else l.out, free := l.free - 1 } := by
  simp [Layout.put, h]

theorem Layout.empty_sound : Layout.empty.Sound := ⟨Nat.zero_le _, fun h => absurd rfl h⟩

theorem Layout.put_sound {l : Layout} (hl : l.Sound) (it : Item) : (l.put it).Sound := by
  obtain ⟨hfree, hgroup⟩ := hl
  cases it with
  | byte b => exact ⟨hfree, fun h => by simpa [Layout.put] using Nat.lt_succ_of_lt (hgroup h)⟩
  | bit b =>
    by_cases h : l.free = 0
    · rw [Layout.put_bit_open b h]
      exact ⟨Nat.le_refl 7, fun _ => by simp⟩
    · have hlen := Layout.put_length_le l (.bit b)
      rw [Layout.put_bit_next b h] at hlen ⊢
      exact ⟨(Nat.sub_le _ _).trans hfree, fun _ => (hgroup h).trans_le hlen⟩

theorem getD_orByte (l : List Byte) {i : Nat} (hi : i < l.length) (m : Byte) (j : Nat) :
    (orByte l i m).getD j 0 = if j = i then l.getD j 0 ||| m else l.getD j 0 := by
  by_cases h : j = i
  · subst h; simp [orByte, hi]
  · simp [orByte, h, Ne.symm h]

theorem getLsbD_one_shiftLeft {n : Nat} (hn : n < 8) (k : Nat) : (1#8 <<< n).getLsbD k = decide (k = n) := by
  rw [show 1#8 <<< n = BitVec.twoPow 8 n from rfl, BitVec.getLsbD_twoPow]
  simp [hn, eq_comm]

theorem one_shiftLeft_ne_zero {n : Nat} (hn : n < 8) : 1#8 <<< n ≠ 0 := by
  intro h
  have := getLsbD_one_shiftLeft hn n
  simp [h] at this

theorem and_one_shiftLeft_ne_zero (b : Byte) {n : Nat} (hn : n < 8) : (b &&& (1#8 <<< n) != 0) = b.getLsbD n := by
  have hand : b &&& (1#8 <<< n) = if b.getLsbD n then 1#8 <<< n else 0 := BitVec.and_twoPow b n
  rw [hand]
  cases b.getLsbD n
  · rfl
  · exact bne_iff_ne.2 (one_shiftLeft_ne_zero hn)

/-- A bit put to a free position changes that position only. -/
theorem Layout.getLsbD_put_bit_next {l : Layout} (hl : l.Sound) (b : Bool) (h : l.free ≠ 0) (i k : Nat) :
    ((l.put (.bit b)).out.getD i 0).getLsbD k =
      ((l.out.getD i 0).getLsbD k || (b && decide (i = l.group ∧ k = l.free - 1))) := by
  have hlt : l.free - 1 < 8 := by have := hl.free_le; omega
  rw [Layout.put_bit_next b h]
  cases b with
  | false => simp
  | true =>
    simp only [if_true, getD_orByte _ (hl.group_lt h)]
    by_cases hi : i = l.group
    · simp [hi, getLsbD_one_shiftLeft hlt]
    · simp [hi]

theorem Layout.put_clear {l : Layout} (hl : l.Sound) (hc : l.Clear) (it : Item) : (l.put it).Clear := by
  intro k hk
  cases it with
  | byte b =>
    have hfree : l.free ≠ 0 := Nat.ne_of_gt (Nat.zero_lt_of_lt hk)
    simp only [Layout.put]
    rw [List.getD_append _ _ _ _ (hl.group_lt hfree)]
    exact hc k hk
  | bit b =>
    by_cases h : l.free = 0
    · rw [Layout.put_bit_open b h] at hk ⊢
      have h7 : k < 7 := hk
      have hlast : (l.out ++ [if b then 0x80 else 0]).getD l.out.length 0 = if b then 1#8 <<< 7 else 0 := by simp
      rw [hlast]
      cases b
      · exact BitVec.getLsbD_zero
      · exact (getLsbD_one_shiftLeft (by decide) k).trans (decide_eq_false (by omega))
    · have hbit := Layout.getLsbD_put_bit_next hl b h l.group k
      rw [Layout.put_bit_next b h] at hk hbit ⊢
      have hlt : k < l.free - 1 := hk
      rw [hbit, hc k (by omega), decide_eq_false fun ⟨_, hk'⟩ => by omega, Bool.and_false, Bool.or_false]

/-- The stream `x` begins with the layout under way; the free positions of its open bit-group byte may hold anything. -/
structure Layout.Shows (l : Layout) (x : List Byte) : Prop where
  length_le : l.out.length ≤ x.length
  bits : ∀ i < l.out.length, ∀ k, ¬(i = l.group ∧ k < l.free) →
    (x.getD i 0).getLsbD k = (l.out.getD i 0).getLsbD k

theorem Layout.Shows.of_put {l : Layout} {x : List Byte} (hl : l.Sound) {it : Item} (h : (l.put it).Shows x) :
    l.Shows x := by
  refine ⟨Nat.le_trans (Layout.put_length_le l it) h.length_le, fun i hi k hk => ?_⟩
  have hi' := Nat.lt_of_lt_of_le hi (Layout.put_length_le l it)
  cases it with
  | byte b =>
    rw [h.bits i hi' k hk]
    simp only [Layout.put]
    rw [List.getD_append _ _ _ _ hi]
  | bit b =>
    by_cases hfree : l.free = 0
    · rw [Layout.put_bit_open b hfree] at h hi'
      have hne : i ≠ l.out.length := Nat.ne_of_lt hi
      rw [h.bits i hi' k fun ⟨hg, _⟩ => hne hg, List.getD_append _ _ _ _ hi]
    · have hp : ¬(i = l.group ∧ k = l.free - 1) := fun ⟨hg, hk'⟩ => hk ⟨hg, by omega⟩
      rw [h.bits i hi' k, Layout.getLsbD_put_bit_next hl b hfree, decide_eq_false hp]
      · simp
      · rw [Layout.put_bit_next b hfree]
        exact fun ⟨hg, hk'⟩ => hk ⟨hg, Nat.lt_of_lt_of_le hk' (Nat.sub_le _ _)⟩

theorem Layout.Shows.of_foldl_put (items : List Item) {l : Layout} {x : List Byte} (hl : l.Sound)
    (h : (items.foldl Layout.put l).Shows x) : l.Shows x := by
  induction items generalizing l with
  | nil => exact h
  | cons it items ih => exact .of_put hl (ih (Layout.put_sound hl it) h)

theorem Layout.shows_append (l : Layout) (rest : List Byte) : l.Shows (l.out ++ rest) := by
  refine ⟨by simp, fun i hi k _ => ?_⟩
  simp [List.getD, List.getElem?_append_left hi]

/-! ### Reading what is laid out (R230, R231) -/

section
variable {x : List Byte} {c : Cursor}

theorem readBit_of_backtrack (h : c.backtrack = true) :
    readBit x c = .ok (c.lastByte.getLsbD 0, { c with backtrack := false }) := by
  rw [readBit, if_pos h]

theorem readBit_of_newGroup (h : c.backtrack = false) (hm : c.bitMask >>> 1 = 0) :
    readBit x c = (readByte x { c with bitMask := 0x80 }).map fun p => (p.1 &&& 0x80 != 0, { p.2 with bitValue := p.1 }) := by
  rw [readBit, if_neg (Bool.eq_false_iff.1 h), if_pos hm]
  cases readByte x { c with bitMask := 0x80 } <;> rfl

theorem readBit_of_openGroup (h : c.backtrack = false) (hm : c.bitMask >>> 1 ≠ 0) :
    readBit x c = .ok (c.bitValue &&& (c.bitMask >>> 1) != 0, { c with bitMask := c.bitMask >>> 1 }) := by
  rw [readBit, if_neg (Bool.eq_false_iff.1 h), if_neg hm]

end

/-- `c` is where a reader of the stream `x` stands once it has read all that `l` laid out. -/
structure Cursor.At (x : List Byte) (l : Layout) (c : Cursor) : Prop where
  inIdx : c.inIdx = l.out.length
  backtrack : c.backtrack = false
  mask : c.bitMask >>> 1 = if l.free = 0 then 0 else 1#8 <<< (l.free - 1)
  value : l.free ≠ 0 → c.bitValue = x.getD l.group 0

theorem Cursor.start_at (x : List Byte) : Cursor.start.At x Layout.empty :=
  ⟨rfl, rfl, rfl, fun h => absurd rfl h⟩

theorem getElem?_eq_getD {x : List Byte} {i : Nat} (h : i < x.length) : x[i]? = some (x.getD i 0) := by
  simp [List.getD, List.getElem?_eq_getElem h]

/-- A byte laid out next is the byte read next. -/
theorem Cursor.At.readByte {x : List Byte} {l : Layout} {c : Cursor} (hl : l.Sound) (hc : c.At x l) {b : Byte}
    (h : (l.put (.byte b)).Shows x) : ∃ d, readByte x c = .ok (b, d) ∧ d.At x (l.put (.byte b)) := by
  have hi : l.out.length < (l.put (.byte b)).out.length := by simp [Layout.put]
  have hb : x.getD l.out.length 0 = b := by
    refine BitVec.eq_of_getLsbD_eq fun k hk => ?_
    rw [h.bits _ hi k fun ⟨hg, hk'⟩ => ?_]
    · simp [Layout.put]
    · exact Nat.ne_of_gt (hl.group_lt (Nat.ne_of_gt (Nat.zero_lt_of_lt hk'))) hg
  refine ⟨_, (readByte_ok_iff x c _ b).2 ⟨?_, rfl⟩, ?_, hc.backtrack, hc.mask, hc.value⟩
  · rw [hc.inIdx, getElem?_eq_getD (Nat.lt_of_lt_of_le hi h.length_le), hb]
  · simp [Layout.put, hc.inIdx]

/-- A bit that opens a bit-group byte is read from the byte at the cursor. -/
theorem Cursor.At.readBit_open {x : List Byte} {l : Layout} {c : Cursor} (hc : c.At x l) (hfree : l.free = 0)
    {b : Bool} (h : (l.put (.bit b)).Shows x) : ∃ d, readBit x c = .ok (b, d) ∧ d.At x (l.put (.bit b)) := by
  have hmask : c.bitMask >>> 1 = 0 := by rw [hc.mask, if_pos hfree]
  rw [Layout.put_bit_open b hfree] at h ⊢
  have hi : l.out.length < (l.out ++ [if b then 0x80#8 else 0]).length := by simp
  have hbyte : x[c.inIdx]? = some (x.getD l.out.length 0) := by
    rw [hc.inIdx, getElem?_eq_getD (Nat.lt_of_lt_of_le hi h.length_le)]
  have hread := (readByte_ok_iff x { c with bitMask := 0x80 } _ _).2 ⟨hbyte, rfl⟩
  have hbit : (x.getD l.out.length 0 &&& 0x80 != 0) = b := by
    rw [show (0x80 : Byte) = 1#8 <<< 7 from rfl, and_one_shiftLeft_ne_zero _ (by decide), h.bits _ hi 7 (by simp)]
    cases b <;> simp
  have hresult := readBit_of_newGroup (x := x) hc.backtrack hmask
  simp only [hread, Except.map, hbit] at hresult
  exact ⟨_, hresult, by simp [hc.inIdx], hc.backtrack, by simp, fun _ => rfl⟩

theorem mask_shiftRight {n : Nat} (h1 : n ≠ 0) (h : n ≤ 7) :
    1#8 <<< (n - 1) >>> 1 = if n - 1 = 0 then 0 else 1#8 <<< (n - 1 - 1) := by
  interval_cases n
  · exact absurd rfl h1
  all_goals rfl

/-- A bit in an open bit-group byte is read from `BIT_VALUE`. -/
theorem Cursor.At.readBit_next {x : List Byte} {l : Layout} {c : Cursor} (hl : l.Sound) (hclear : l.Clear) (hc : c.At x l)
    (hfree : l.free ≠ 0) {b : Bool} (h : (l.put (.bit b)).Shows x) :
    ∃ d, readBit x c = .ok (b, d) ∧ d.At x (l.put (.bit b)) := by
  have hlt : l.free - 1 < 8 := by have := hl.free_le; omega
  have hmask : c.bitMask >>> 1 = 1#8 <<< (l.free - 1) := by rw [hc.mask, if_neg hfree]
  have hgroup : l.group < (l.put (.bit b)).out.length := (hl.group_lt hfree).trans_le (Layout.put_length_le _ _)
  have hbit : (c.bitValue &&& (c.bitMask >>> 1) != 0) = b := by
    rw [hmask, and_one_shiftLeft_ne_zero _ hlt, hc.value hfree, h.bits _ hgroup _ (by simp [Layout.put_bit_next b hfree]),
      Layout.getLsbD_put_bit_next hl b hfree, hclear _ (by omega)]
    simp
  have hresult := readBit_of_openGroup (x := x) hc.backtrack (hmask ▸ one_shiftLeft_ne_zero hlt)
  rw [hbit, hmask] at hresult
  rw [Layout.put_bit_next b hfree]
  refine ⟨_, hresult, ?_, hc.backtrack, mask_shiftRight hfree hl.free_le, fun _ => hc.value hfree⟩
  cases b <;> simp [hc.inIdx]

/-- A bit laid out next is the bit read next. -/
theorem Cursor.At.readBit {x : List Byte} {l : Layout} {c : Cursor} (hl : l.Sound) (hclear : l.Clear) (hc : c.At x l)
    {b : Bool} (h : (l.put (.bit b)).Shows x) : ∃ d, readBit x c = .ok (b, d) ∧ d.At x (l.put (.bit b)) := by
  by_cases hfree : l.free = 0
  · exact hc.readBit_open hfree h
  · exact hc.readBit_next hl hclear hfree h

/-- Read from `c` on, the stream `x` yields the items one after the other and leaves the cursor at the outcome, or it ends
in the middle of them. A byte item stands where no backtrack is pending. -/
inductive Yields (x : List Byte) : Cursor → List Item → Except DecodeError Cursor → Prop
  | done {c : Cursor} : Yields x c [] (.ok c)
  | bit {c d : Cursor} {b : Bool} {items : List Item} {o : Except DecodeError Cursor} :
      readBit x c = .ok (b, d) → Yields x d items o → Yields x c (.bit b :: items) o
  | byte {c d : Cursor} {b : Byte} {items : List Item} {o : Except DecodeError Cursor} :
      c.backtrack = false → readByte x c = .ok (b, d) → Yields x d items o → Yields x c (.byte b :: items) o
  | cutBit {c : Cursor} {b : Bool} {items : List Item} :
      readBit x c = .error .prematureEnd → Yields x c (.bit b :: items) (.error .prematureEnd)
  | cutByte {c : Cursor} {b : Byte} {items : List Item} :
      c.backtrack = false → readByte x c = .error .prematureEnd → Yields x c (.byte b :: items) (.error .prematureEnd)

theorem Cursor.At.yields {x : List Byte} (items : List Item) {l : Layout} {c : Cursor} (hl : l.Sound) (hclear : l.Clear)
    (hc : c.At x l) (h : (items.foldl Layout.put l).Shows x) :
    ∃ d, Yields x c items (.ok d) ∧ d.At x (items.foldl Layout.put l) := by
  induction items generalizing l c with
  | nil => exact ⟨c, .done, hc⟩
  | cons it items ih =>
    have hsound := Layout.put_sound hl it
    have hshows : (l.put it).Shows x := .of_foldl_put items hsound h
    have hrest := fun {d : Cursor} (hat : d.At x (l.put it)) => ih hsound (Layout.put_clear hl hclear it) hat h
    cases it with
    | byte b =>
      obtain ⟨d, hread, hat⟩ := hc.readByte hl hshows
      obtain ⟨c', hy, hat'⟩ := hrest hat
      exact ⟨c', .byte hc.backtrack hread hy, hat'⟩
    | bit b =>
      obtain ⟨d, hread, hat⟩ := hc.readBit hl hclear hshows
      obtain ⟨c', hy, hat'⟩ := hrest hat
      exact ⟨c', .bit hread hy, hat'⟩

/-- A stream laid out from items yields them, whatever follows, and its bytes are what is read. -/
theorem yields_layout (items : List Item) (rest : List Byte) :
    ∃ c, Yields (layout items ++ rest) Cursor.start items (.ok c) ∧ c.inIdx = (layout items).length := by
  obtain ⟨c, hy, hat⟩ := (Cursor.start_at (layout items ++ rest)).yields items Layout.empty_sound
    (fun k hk => absurd hk (Nat.not_lt_zero k)) (Layout.shows_append _ rest)
  exact ⟨c, hy, hat.inIdx⟩

/-! ### A stream cut short (R93 item 1) -/

theorem readByte_take {x : List Byte} {n : Nat} {c d : Cursor} {b : Byte} (h : readByte x c = .ok (b, d)) :
    d.inIdx = c.inIdx + 1 ∧
      readByte (x.take n) c = if n < d.inIdx then .error .prematureEnd else .ok (b, d) := by
  obtain ⟨hb, rfl⟩ := (readByte_ok_iff x c d b).1 h
  refine ⟨rfl, ?_⟩
  split
  · next hn =>
    refine (readByte_error_iff _ _ _).2 ⟨?_, rfl⟩
    have := List.length_take_le n x
    simp only at hn
    omega
  · next hn =>
    simp only at hn
    refine (readByte_ok_iff _ _ _ _).2 ⟨?_, rfl⟩
    rw [List.getElem?_take_of_lt (by omega), hb]

theorem readBit_take {x : List Byte} {n : Nat} {c d : Cursor} {b : Bool} (h : readBit x c = .ok (b, d))
    (hn : c.inIdx ≤ n) :
    c.inIdx ≤ d.inIdx ∧
      readBit (x.take n) c = if n < d.inIdx then .error .prematureEnd else .ok (b, d) := by
  by_cases hbt : c.backtrack = true
  · rw [readBit_of_backtrack hbt] at h ⊢
    cases h
    exact ⟨Nat.le_refl _, (if_neg (Nat.not_lt.2 hn)).symm⟩
  · have hbt := Bool.eq_false_iff.2 hbt
    by_cases hm : c.bitMask >>> 1 = 0
    · rw [readBit_of_newGroup hbt hm] at h ⊢
      cases hb : readByte x { c with bitMask := 0x80 } with
      | error e => rw [hb] at h; cases h
      | ok p =>
        obtain ⟨hidx, htake⟩ := readByte_take (n := n) hb
        rw [hb] at h
        cases h
        refine ⟨by simp [hidx], ?_⟩
        rw [htake]
        split <;> rfl
    · rw [readBit_of_openGroup hbt hm] at h ⊢
      cases h
      exact ⟨Nat.le_refl _, (if_neg (Nat.not_lt.2 hn)).symm⟩

theorem Yields.inIdx_le {x : List Byte} {c c' : Cursor} {items : List Item} (h : Yields x c items (.ok c')) :
    c.inIdx ≤ c'.inIdx := by
  generalize ho : Except.ok c' = o at h
  induction h with
  | done => cases ho; exact Nat.le_refl _
  | bit hread _ ih => exact Nat.le_trans (readBit_take hread (Nat.le_refl _)).1 (ih ho)
  | byte _ hread _ ih => exact Nat.le_trans (by simp [(readByte_take (n := 0) hread).1]) (ih ho)
  | cutBit | cutByte => cases ho

/-- Cut after `n` bytes, a stream yields the same items, or ends in the middle of them if they need more bytes. -/
theorem Yields.take {x : List Byte} {c c' : Cursor} {items : List Item} (h : Yields x c items (.ok c')) {n : Nat}
    (hn : c.inIdx ≤ n) :
    Yields (x.take n) c items (if n < c'.inIdx then .error .prematureEnd else .ok c') := by
  generalize ho : Except.ok c' = o at h
  induction h with
  | done => cases ho; rw [if_neg (Nat.not_lt.2 hn)]; exact .done
  | @bit c d b items o hread hy ih =>
    subst ho
    obtain ⟨-, htake⟩ := readBit_take hread hn
    by_cases hd : n < d.inIdx
    · rw [if_pos (Nat.lt_of_lt_of_le hd hy.inIdx_le)]
      exact .cutBit (by rw [htake, if_pos hd])
    · exact .bit (by rw [htake, if_neg hd]) (ih (Nat.not_lt.1 hd) rfl)
  | @byte c d b items o hbt hread hy ih =>
    subst ho
    obtain ⟨-, htake⟩ := readByte_take (n := n) hread
    by_cases hd : n < d.inIdx
    · rw [if_pos (Nat.lt_of_lt_of_le hd hy.inIdx_le)]
      exact .cutByte hbt (by rw [htake, if_pos hd])
    · exact .byte hbt (by rw [htake, if_neg hd]) (ih (Nat.not_lt.1 hd) rfl)
  | cutBit | cutByte => cases ho

/-- The items of a sequence, one part after the other, unless the stream ends in the first. -/
theorem Yields.append {x : List Byte} {a b : List Item} {c : Cursor} {o : Except DecodeError Cursor}
    (h : Yields x c (a ++ b) o) :
    (∃ d, Yields x c a (.ok d) ∧ Yields x d b o) ∨
      (Yields x c a (.error .prematureEnd) ∧ o = .error .prematureEnd) := by
  induction a generalizing c with
  | nil => exact .inl ⟨c, .done, h⟩
  | cons it a ih =>
    cases h with
    | bit hread hy =>
      obtain ⟨d, ha, hb⟩ | ⟨ha, ho⟩ := ih hy
      · exact .inl ⟨d, .bit hread ha, hb⟩
      · exact .inr ⟨.bit hread ha, ho⟩
    | byte hbt hread hy =>
      obtain ⟨d, ha, hb⟩ | ⟨ha, ho⟩ := ih hy
      · exact .inl ⟨d, .byte hbt hread ha, hb⟩
      · exact .inr ⟨.byte hbt hread ha, ho⟩
    | cutBit hread => exact .inr ⟨.cutBit hread, rfl⟩
    | cutByte hbt hread => exact .inr ⟨.cutByte hbt hread, rfl⟩

end Sys2Proof
end

section
/-! PROOFS. How the reads of a decoder (spec/45_unpacker.md R230, R231) compose over the items they take off a stream. -/

namespace Sys2Proof

/-! ### Parsing items -/

/-- A read that takes exactly the items off the stream `x` and answers `v`, or meets the stream's end in them. -/
def Reader.Parses {α : Type} (x : List Byte) (r : Reader α) (items : List Item) (v : α) : Prop :=
  ∀ c o, Yields x c items o → r c = o.map (v, ·)

/-- A read that rejects the stream `x` with the error `e` where it yields the items. -/
def Reader.Rejects {α : Type} (x : List Byte) (r : Reader α) (items : List Item) (e : DecodeError) : Prop :=
  ∀ c d, Yields x c items (.ok d) → r c = .error e

section
variable {α β : Type} {x : List Byte} {r : Reader α} {k : α → Reader β} {a b : List Item} {v : α} {w : β}
  {e : DecodeError}

theorem Reader.bind_of_ok {c d : Cursor} (h : r c = .ok (v, d)) : (r >>= k) c = k v d := by
  simp [bind, StateT.bind, Except.bind, h]

theorem Reader.bind_of_error {c : Cursor} (h : r c = .error e) : (r >>= k) c = .error e := by
  simp [bind, StateT.bind, Except.bind, h]

theorem Reader.Parses.pure : Reader.Parses x (pure v : Reader α) [] v := by
  intro c o h
  cases h
  rfl

theorem Reader.Rejects.throw : Reader.Rejects x (throw e : Reader α) [] e := fun _ _ _ => rfl

/-- Fields one after the other. -/
theorem Reader.Parses.bind (hr : Reader.Parses x r a v) (hk : Reader.Parses x (k v) b w) :
    Reader.Parses x (r >>= k) (a ++ b) w := by
  intro c o h
  obtain ⟨d, ha, hb⟩ | ⟨ha, rfl⟩ := h.append
  · rw [Reader.bind_of_ok (hr c _ ha), hk d o hb]
  · rw [Reader.bind_of_error (hr c _ ha)]
    rfl

/-- A field and the value made of it. -/
theorem Reader.Parses.bindPure (hr : Reader.Parses x r a v) (g : α → β) :
    Reader.Parses x (r >>= fun u => Pure.pure (g u)) a (g v) := by
  simpa using hr.bind (k := fun u => Pure.pure (g u)) .pure

/-- A field, then what is rejected. -/
theorem Reader.Parses.reject (hr : Reader.Parses x r a v) (hk : Reader.Rejects x (k v) b e) :
    Reader.Rejects x (r >>= k) (a ++ b) e := by
  intro c c' h
  obtain ⟨d, ha, hb⟩ | ⟨ha, ho⟩ := h.append
  · rw [Reader.bind_of_ok (hr c _ ha), hk d c' hb]
  · cases ho

theorem readBit_parses (b : Bool) : Reader.Parses x (readBit x) [.bit b] b := by
  intro c o h
  cases h with
  | bit hread hy => cases hy; exact hread
  | cutBit hread => exact hread

theorem readByte_parses (b : Byte) : Reader.Parses x (readByte x) [.byte b] b := by
  intro c o h
  cases h with
  | byte _ hread hy => cases hy; exact hread
  | cutByte _ hread => exact hread

/-- A read that fails ends what it is part of. -/
theorem Reader.Rejects.bind (hr : Reader.Rejects x r a e) : Reader.Rejects x (r >>= k) a e :=
  fun c d h => Reader.bind_of_error (hr c d h)

/-- R83: behind a byte, with `BACKTRACK` set, the stream yields the byte's bit 0 and then what follows the byte. -/
theorem Yields.slot {B : Byte} {items : List Item} {c : Cursor} {o : Except DecodeError Cursor}
    (h : Yields x c (.byte B :: items) o) :
    (∃ d, readByte x c = .ok (B, d) ∧ Yields x { d with backtrack := true } (.bit (B.getLsbD 0) :: items) o) ∨
      (readByte x c = .error .prematureEnd ∧ o = .error .prematureEnd) := by
  cases h with
  | byte hbt hread hy =>
    rename_i d
    obtain ⟨-, hd⟩ := (readByte_ok_iff x c d B).1 hread
    refine .inl ⟨d, hread, .bit (d := d) ?_ hy⟩
    rw [readBit_of_backtrack rfl, hd, hbt]
  | cutByte _ hread => exact .inr ⟨hread, rfl⟩

/-- A byte with the backtrack slot, then a field whose first bit stands in that slot. -/
theorem Reader.Parses.slot {B : Byte} {k : Byte → Reader β} {items : List Item}
    (hk : Reader.Parses x (k B) (.bit (B.getLsbD 0) :: items) w) :
    Reader.Parses x (do let B ← readByte x; setBacktrack; k B) (.byte B :: items) w := by
  intro c o h
  obtain ⟨d, hread, hy⟩ | ⟨hread, rfl⟩ := h.slot
  · rw [Reader.bind_of_ok hread]
    exact hk _ o hy
  · rw [Reader.bind_of_error hread]
    rfl

theorem Reader.Rejects.slot {B : Byte} {k : Byte → Reader β} {items : List Item}
    (hk : Reader.Rejects x (k B) (.bit (B.getLsbD 0) :: items) e) :
    Reader.Rejects x (do let B ← readByte x; setBacktrack; k B) (.byte B :: items) e := by
  intro c d h
  obtain ⟨d', hread, hy⟩ | ⟨-, ho⟩ := h.slot
  · rw [Reader.bind_of_ok hread]
    exact hk _ d hy
  · cases ho

/-- A stream laid out from rejected items is rejected, whatever follows. -/
theorem Reader.Rejects.of_layout {items : List Item} {rest : List Byte}
    (h : Reader.Rejects (layout items ++ rest) r items e) : r Cursor.start = .error e := by
  obtain ⟨c, hy, -⟩ := yields_layout items rest
  exact h _ c hy

end

end Sys2Proof
end

section
/-! PROOFS. The integer codes of R80 and R81 and the counts of zeros of R237 and R239, read back from their bits or refused. -/

namespace Sys2Proof

/-! ### The codes -/

section
variable {x : List Byte}

/-- The value of the `k` low bits of `v`, read onto `u`. -/
theorem onto_low_bits (u v k : Nat) :
    (2 * u + (v.testBit k).toNat) * 2 ^ k + v % 2 ^ k = u * 2 ^ (k + 1) + v % 2 ^ (k + 1) := by
  rw [Nat.mod_pow_succ, Nat.toNat_testBit]
  ring

theorem readBits_parses (v k u : Nat) :
    Reader.Parses x (readBits x k u) (bitItems (bitsDown v k)) (u * 2 ^ k + v % 2 ^ k) := by
  induction k generalizing u with
  | zero =>
    rw [pow_zero, Nat.mod_one, Nat.mul_one]
    exact .pure
  | succ k ih => exact onto_low_bits u v k ▸ (readBit_parses _).bind (ih _)

/-- A field of `k` bits reads back the value that fits in them. -/
theorem readBits_parses_field {v k : Nat} (hv : v < 2 ^ k) :
    Reader.Parses x (readBits x k 0) (bitItems (bitsDown v k)) v := by
  simpa [Nat.mod_eq_of_lt hv] using readBits_parses (x := x) v k 0

/-- The leading 1 of a number and the bits below it. -/
theorem two_pow_log2_add_mod {v : Nat} (hv : v ≠ 0) : 1 * 2 ^ v.log2 + v % 2 ^ v.log2 = v := by
  have hlo : 2 ^ v.log2 ≤ v := Nat.log2_self_le hv
  have hhi : v < 2 ^ (v.log2 + 1) := Nat.lt_log2_self
  have hdiv : v / 2 ^ v.log2 = 1 := Nat.div_eq_of_lt_le (by simpa using hlo) (by rwa [pow_succ'] at hhi)
  have := Nat.div_add_mod v (2 ^ v.log2)
  rwa [hdiv, Nat.mul_comm] at this

/-- The data bits of a code, below the leading 1 (R80, R81). -/
theorem readBits_parses_data {v : Nat} (hv : v ≠ 0) :
    Reader.Parses x (readBits x v.log2 1) (bitItems (bitsDown v v.log2)) v := by
  have := readBits_parses (x := x) v v.log2 1
  rwa [two_pow_log2_add_mod hv] at this

theorem gammaBits_eq {v : Nat} (hv : v ≠ 0) :
    gammaBits v = List.replicate v.log2 false ++ [true] ++ bitsDown v v.log2 := by
  simp [gammaBits, bitsDown, Nat.testBit_log2 hv]

theorem bitItems_append (a b : List Bool) : bitItems (a ++ b) = bitItems a ++ bitItems b := List.map_append

theorem readZx7Zeros_parses {n left : Nat} (h : n ≤ left) (z : Nat) :
    Reader.Parses x (readZx7Zeros x left z) (bitItems (List.replicate n false ++ [true])) (z + n) := by
  induction n generalizing left z with
  | zero =>
    unfold readZx7Zeros
    exact (readBit_parses true).bind .pure
  | succ n ih =>
    obtain ⟨left, rfl⟩ := Nat.exists_eq_add_one_of_ne_zero (Nat.ne_of_gt (Nat.lt_of_lt_of_le n.succ_pos h))
    rw [← Nat.add_assoc, Nat.add_right_comm]
    exact (readBit_parses false).bind (ih (Nat.le_of_succ_le_succ h) (z + 1))

theorem readZx7Zeros_rejects (left z : Nat) :
    Reader.Rejects x (readZx7Zeros x left z) (bitItems (List.replicate (left + 1) false)) .zx7PrefixTooLong := by
  induction left generalizing z with
  | zero => exact (readBit_parses false).reject .throw
  | succ left ih => exact (readBit_parses false).reject (ih (z + 1))

theorem readMlzZeros_parses {n left : Nat} (h : n ≤ left) (z : Nat) :
    Reader.Parses x (readMlzZeros x left z) (bitItems (List.replicate n false ++ [true])) (some (z + n)) := by
  induction n generalizing left z with
  | zero =>
    unfold readMlzZeros
    exact (readBit_parses true).bind .pure
  | succ n ih =>
    obtain ⟨left, rfl⟩ := Nat.exists_eq_add_one_of_ne_zero (Nat.ne_of_gt (Nat.lt_of_lt_of_le n.succ_pos h))
    rw [← Nat.add_assoc, Nat.add_right_comm]
    exact (readBit_parses false).bind (ih (Nat.le_of_succ_le_succ h) (z + 1))

/-- R91: as many zeros as may be read are END. -/
theorem readMlzZeros_parses_end (left z : Nat) :
    Reader.Parses x (readMlzZeros x left z) (bitItems (List.replicate (left + 1) false)) none := by
  induction left generalizing z with
  | zero => exact (readBit_parses false).bind .pure
  | succ left ih => exact (readBit_parses false).bind (ih (z + 1))

theorem readIGammaLoop_parses (pol : Polarity) (inv : Bool) (v : Nat) {k left : Nat} (h : k ≤ left) (u : Nat) :
    Reader.Parses x (readIGammaLoop x pol inv left u)
      (bitItems ((bitsDown v k).flatMap (fun d => [continueBit pol, d ^^ inv]) ++ [!continueBit pol]))
      (u * 2 ^ k + v % 2 ^ k) := by
  induction k generalizing left u with
  | zero =>
    unfold readIGammaLoop
    refine (readBit_parses (!continueBit pol)).bind (b := []) ?_
    simpa [Nat.mod_one] using Reader.Parses.pure
  | succ k ih =>
    obtain ⟨left, rfl⟩ := Nat.exists_eq_add_one_of_ne_zero (Nat.ne_of_gt (Nat.lt_of_lt_of_le k.succ_pos h))
    unfold readIGammaLoop
    refine (readBit_parses (continueBit pol)).bind ?_
    rw [if_pos rfl]
    refine (readBit_parses (v.testBit k ^^ inv)).bind ?_
    rw [← onto_low_bits, Bool.xor_assoc, Bool.xor_self, Bool.xor_false]
    exact ih (Nat.le_of_succ_le_succ h) _

theorem zx0Codable_iff {v : Nat} : zx0Codable v = true ↔ 1 ≤ v ∧ v < 2 ^ 32 := by
  rw [zx0Codable, Bool.and_eq_true, decide_eq_true_eq, decide_eq_true_eq]
  rfl

/-- R232: a code of at most 31 data bits reads back its value. -/
theorem readIGamma_parses (pol : Polarity) (inv : Bool) {v : Nat} (hv : zx0Codable v = true) :
    Reader.Parses x (readIGamma x pol inv) (bitItems (igammaBits pol inv v)) v := by
  obtain ⟨h1, hlt⟩ := zx0Codable_iff.1 hv
  have hv0 : v ≠ 0 := Nat.ne_of_gt h1
  have := readIGammaLoop_parses (x := x) pol inv v (Nat.le_of_lt_succ ((Nat.log2_lt hv0).2 hlt)) 1
  rwa [two_pow_log2_add_mod hv0] at this

/-- R93 item 4: a data bit more than may be read is refused, whatever the bits are. -/
theorem readIGammaLoop_rejects (pol : Polarity) (inv : Bool) (bits : List Bool) (u : Nat) :
    Reader.Rejects x (readIGammaLoop x pol inv bits.length u)
      (bitItems (bits.flatMap (fun d => [continueBit pol, d]) ++ [continueBit pol])) .gammaTooLong := by
  induction bits generalizing u with
  | nil =>
    refine (readBit_parses (continueBit pol)).reject (b := []) ?_
    rw [if_pos rfl]
    exact .throw
  | cons d bits ih =>
    unfold readIGammaLoop
    refine (readBit_parses (continueBit pol)).reject ?_
    rw [if_pos rfl]
    exact (readBit_parses d).reject (ih _)

theorem readIGamma_rejects (pol : Polarity) (inv : Bool) {bits : List Bool} (h : bits.length = 31) :
    Reader.Rejects x (readIGamma x pol inv)
      (bitItems (bits.flatMap (fun d => [continueBit pol, d]) ++ [continueBit pol])) .gammaTooLong := by
  have := readIGammaLoop_rejects (x := x) pol inv bits 1
  rwa [h] at this

end

end Sys2Proof
end

section
/-! PROOFS. The offset fields of R85, R87 and R90, read back from the bytes and bits that encode them. -/

namespace Sys2Proof
open Sys2Proof.Machine

/-! ### Offset fields -/

theorem ofNat_toNat_of_lt {n : Nat} (h : n < 256) : (BitVec.ofNat 8 n).toNat = n := by
  simp [Nat.mod_eq_of_lt h]

/-- The high part and the low `k` bits of a number, put together. -/
theorem shiftLeft_or_mod (n k : Nat) : (n >>> k) <<< k ||| n % 2 ^ k = n := by
  rw [Nat.shiftLeft_eq, Nat.mul_comm, ← Nat.two_pow_add_eq_or_of_lt (Nat.mod_lt _ (Nat.two_pow_pos k)),
    Nat.shiftRight_eq_div_pow, Nat.div_add_mod]

theorem zx7LongByte_toNat (d : Nat) : (0x80#8 ||| BitVec.ofNat 8 (d &&& 0x7F)).toNat = 128 + d % 128 := by
  have hmod : d &&& 0x7F = d % 128 := Nat.and_two_pow_sub_one_eq_mod d 7
  have hlt : d % 128 < 2 ^ 7 := Nat.mod_lt _ (by decide)
  rw [hmod, BitVec.toNat_or, ofNat_toNat_of_lt (Nat.lt_trans hlt (by decide))]
  exact (Nat.two_pow_add_eq_or_of_lt hlt 1).symm

/-- R85: the offset of the long form, read back. -/
theorem zx7LongOffset_encode {o : Nat} (h : 129 ≤ o) :
    zx7LongOffset (0x80#8 ||| BitVec.ofNat 8 ((o - 129) &&& 0x7F)) ((o - 129) >>> 7) = o := by
  have hlow : (128 + (o - 129) % 128) &&& 0x7F = (o - 129) % 2 ^ 7 := by
    rw [Nat.and_two_pow_sub_one_eq_mod _ 7]
    omega
  rw [zx7LongOffset, zx7LongByte_toNat, hlow, Nat.or_comm, shiftLeft_or_mod, Nat.sub_add_cancel h]

theorem negMod_eq {o m : Nat} (h1 : 1 ≤ o) (h : o ≤ m) : negMod o m = m - o := by
  obtain rfl | hlt := Nat.eq_or_lt_of_le h
  · simp [negMod]
  · rw [negMod, Nat.mod_eq_of_lt hlt, Nat.mod_eq_of_lt (by omega)]

/-- The offset byte of R89 and R90, read as a number. -/
theorem negMod_toNat {o : Nat} (h1 : 1 ≤ o) (h : o ≤ 256) : (BitVec.ofNat 8 (negMod o 256)).toNat = 256 - o := by
  rw [negMod_eq h1 h, ofNat_toNat_of_lt (by omega)]

theorem negMod_long {o : Nat} (h : 257 ≤ o) (h' : o ≤ 4352) : negMod (o - 256) 4096 = 4352 - o := by
  rw [negMod_eq (by omega) (by omega)]
  omega

section
variable {x : List Byte}

theorem readMlzOff_parses_short {o : Nat} (h1 : 1 ≤ o) (h : o ≤ 256) :
    Reader.Parses x (readMlzOff x) (mlzOffShort o) (false, o) := by
  refine (readBit_parses false).bind ((readByte_parses _).bind (b := []) ?_)
  rw [negMod_toNat h1 h, Nat.sub_sub_self h]
  exact .pure

theorem readMlzOff_parses_long {o : Nat} (h : 257 ≤ o) (h' : o ≤ 4352) :
    Reader.Parses x (readMlzOff x) (mlzOffLong o) (true, o) := by
  have hfield : negMod (o - 256) 4096 >>> 8 < 2 ^ 4 := by
    rw [negMod_long h h', Nat.shiftRight_eq_div_pow]
    omega
  have hback : 4352 - ((negMod (o - 256) 4096 >>> 8) <<< 8 ||| (BitVec.ofNat 8 (negMod (o - 256) 4096)).toNat) = o := by
    rw [BitVec.toNat_ofNat, shiftLeft_or_mod, negMod_long h h', Nat.sub_sub_self h']
  refine (readBit_parses true).bind ((readBits_parses_field hfield).bind ((readByte_parses _).bind (b := []) ?_))
  rw [hback]
  exact .pure

end

/-- R87: the LSB byte of each polarity. -/
theorem zx0Lsb_fwd_toNat (o : Nat) : (zx0Lsb .fwd o).toNat = (127 - (o - 1) % 128) * 2 := by
  rw [zx0Lsb, Nat.shiftLeft_eq, BitVec.toNat_ofNat]
  omega

theorem zx0Lsb_back_toNat (o : Nat) : (zx0Lsb .back o).toNat = ((o - 1) % 128) * 2 := by
  rw [zx0Lsb, Nat.shiftLeft_eq, BitVec.toNat_ofNat]
  omega

theorem zx0Lsb_even (pol : Polarity) (o : Nat) : (zx0Lsb pol o).toNat % 2 = 0 := by
  cases pol
  · rw [zx0Lsb_fwd_toNat]; omega
  · rw [zx0Lsb_back_toNat]; omega

/-- Bit 0 of LSB is left to the slot (R87). -/
theorem zx0Lsb_getLsbD_zero (pol : Polarity) (o : Nat) : (zx0Lsb pol o).getLsbD 0 = false := by
  simp [BitVec.getLsbD, Nat.testBit_zero, zx0Lsb_even]

/-- The decoder does not look at the slot (R87): bit 0 set or not, the byte halves to the same. -/
theorem or_one_toNat_half (b : Byte) : (b ||| 1).toNat / 2 = b.toNat / 2 := by
  rw [BitVec.toNat_or, ← Nat.shiftRight_one, ← Nat.shiftRight_one, Nat.shiftRight_or_distrib]
  simp

/-- R87: the offset read back from `M` and any byte that agrees with LSB outside the slot. -/
theorem zx0Offset_encode {o : Nat} (h : 1 ≤ o) (pol : Polarity) {lsb : Byte}
    (hlsb : lsb.toNat / 2 = (zx0Lsb pol o).toNat / 2) : zx0Offset pol (zx0Msb o) lsb = o := by
  cases pol
  · rw [zx0Offset, hlsb, zx0Lsb_fwd_toNat, zx0Msb]; omega
  · rw [zx0Offset, hlsb, zx0Lsb_back_toNat, zx0Msb]; omega

theorem one_le_zx0Msb (o : Nat) : 1 ≤ zx0Msb o := Nat.le_add_left 1 _

theorem zx0Msb_le {o : Nat} (h : o ≤ 32640) : zx0Msb o ≤ 255 := by
  rw [zx0Msb]
  omega

end Sys2Proof
end

section
/-! PROOFS. Every token's reads (spec/45_unpacker.md R237 to R239) take off exactly the items its table lays out (R84, R86, R89),
and the three obligations on decoding an encoding. -/

namespace Sys2Proof
open Sys2Proof.Machine

/-! ### Operand ranges -/

theorem wellFormed_zx7CpyS {o L : Nat} :
    (Instr.zx7CpyS o L).wellFormed = true ↔ (1 ≤ o ∧ o ≤ 128) ∧ 2 ≤ L ∧ L ≤ 65536 := by
  simp only [Instr.wellFormed, Bool.and_eq_true, decide_eq_true_eq, and_assoc]
  rfl

theorem wellFormed_zx7CpyL {o L : Nat} :
    (Instr.zx7CpyL o L).wellFormed = true ↔ (129 ≤ o ∧ o ≤ 2176) ∧ 2 ≤ L ∧ L ≤ 65536 := by
  simp only [Instr.wellFormed, Bool.and_eq_true, decide_eq_true_eq, and_assoc]
  rfl

theorem wellFormed_zx0Cpy {o L : Nat} :
    (Instr.zx0Cpy o L).wellFormed = true ↔ (1 ≤ o ∧ o ≤ 32640) ∧ 2 ≤ L ∧ zx0Codable (L - 1) = true := by
  simp only [Instr.wellFormed, Bool.and_eq_true, decide_eq_true_eq, and_assoc]
  rfl

theorem wellFormed_mlzCpy1 {o : Nat} : (Instr.mlzCpy1 o).wellFormed = true ↔ 1 ≤ o ∧ o ≤ 8 := by
  simp only [Instr.wellFormed, Bool.and_eq_true, decide_eq_true_eq]
  rfl

theorem wellFormed_mlzCpy2 {o : Nat} : (Instr.mlzCpy2 o).wellFormed = true ↔ 1 ≤ o ∧ o ≤ 256 := by
  simp only [Instr.wellFormed, Bool.and_eq_true, decide_eq_true_eq]
  rfl

theorem wellFormed_mlzCpy3S {o : Nat} : (Instr.mlzCpy3S o).wellFormed = true ↔ 1 ≤ o ∧ o ≤ 256 := by
  simp only [Instr.wellFormed, Bool.and_eq_true, decide_eq_true_eq]
  rfl

theorem wellFormed_mlzCpy3L {o : Nat} : (Instr.mlzCpy3L o).wellFormed = true ↔ 257 ≤ o ∧ o ≤ 4352 := by
  simp only [Instr.wellFormed, Bool.and_eq_true, decide_eq_true_eq]
  rfl

theorem wellFormed_mlzCpyNS {o L : Nat} :
    (Instr.mlzCpyNS o L).wellFormed = true ↔ (1 ≤ o ∧ o ≤ 256) ∧ 4 ≤ L ∧ L ≤ 255 := by
  simp only [Instr.wellFormed, Bool.and_eq_true, decide_eq_true_eq, and_assoc]
  rfl

theorem wellFormed_mlzCpyNL {o L : Nat} :
    (Instr.mlzCpyNL o L).wellFormed = true ↔ (257 ≤ o ∧ o ≤ 4352) ∧ 4 ≤ L ∧ L ≤ 255 := by
  simp only [Instr.wellFormed, Bool.and_eq_true, decide_eq_true_eq, and_assoc]
  rfl

/-! ### Tokens and their items -/

/-- At every place it may stand (R95), a token is read off any stream that yields its items. -/
def TokenParses (f : Fmt) (v : Variant) (i : Instr) : Prop :=
  ∀ at_, mayStand i at_ = true → ∀ x, Reader.Parses x (decodeToken f v at_ x) (tokenItems f i) i

/-- The decoder's reads round a token read back what it lays out (R82). -/
theorem TokenParses.roundTrips {f : Fmt} {v : Variant} {i : Instr} (h : TokenParses f v i) : roundTrips f v i := by
  intro at_ hat rest
  obtain ⟨c, hy, hc⟩ := yields_layout (tokenItems f i) rest
  exact ⟨c, h at_ hat _ _ _ hy, hc⟩

/-- R93 item 1: with any of its bytes missing, the token meets the end of the stream. -/
theorem TokenParses.cut {f : Fmt} {v : Variant} {i : Instr} (h : TokenParses f v i) {at_ : Place}
    (hat : mayStand i at_ = true) {n : Nat} (hn : n < (layout (tokenItems f i)).length) :
    decodeToken f v at_ ((layout (tokenItems f i)).take n) Cursor.start = .error .prematureEnd := by
  obtain ⟨c, hy, hc⟩ := yields_layout (tokenItems f i) []
  rw [List.append_nil] at hy
  have htake := hy.take (Nat.zero_le n)
  rw [if_pos (hc ▸ hn)] at htake
  exact h at_ hat _ _ _ htake

/-! ### ZX7 -/

section
variable {x : List Byte}

/-- The part of a ZX7 copy from its offset on (R237). -/
def decodeZx7Offset (x : List Byte) (L : Nat) : Reader Instr := do
  let B ← readByte x
  if B.toNat < 128 then
    pure (.zx7CpyS (B.toNat + 1) L)
  else do
    let h ← readBits x 4 0
    pure (.zx7CpyL (zx7LongOffset B h) L)

theorem decodeZx7_parses_copy {L : Nat} (h2 : 2 ≤ L) (hL : L ≤ 65536) {items : List Item} {i : Instr}
    (h : Reader.Parses x (decodeZx7Offset x L) items i) :
    Reader.Parses x (decodeZx7 x .readToken) (bitItems (true :: gammaBits (L - 1)) ++ items) i := by
  have h0 : L - 1 ≠ 0 := by omega
  have hlog : (L - 1).log2 < 16 := (Nat.log2_lt h0).2 (by omega)
  rw [gammaBits_eq h0, ← List.cons_append, bitItems_append, List.append_assoc]
  refine (readBit_parses true).bind ((readZx7Zeros_parses (Nat.le_of_lt hlog) 0).bind ?_)
  rw [Nat.zero_add, if_neg (Nat.ne_of_lt hlog)]
  refine (readBits_parses_data h0).bind ?_
  rwa [Nat.sub_add_cancel (Nat.le_of_succ_le h2)]

theorem decodeZx7Offset_parses_short {o : Nat} (h1 : 1 ≤ o) (h : o ≤ 128) (L : Nat) :
    Reader.Parses x (decodeZx7Offset x L) [.byte (BitVec.ofNat 8 (o - 1))] (.zx7CpyS o L) := by
  refine (readByte_parses _).bind (b := []) ?_
  rw [ofNat_toNat_of_lt (by omega), if_pos (by omega), Nat.sub_add_cancel h1]
  exact .pure

theorem decodeZx7Offset_parses_long {o : Nat} (h : 129 ≤ o) (h' : o ≤ 2176) (L : Nat) :
    Reader.Parses x (decodeZx7Offset x L)
      ([.byte (0x80#8 ||| BitVec.ofNat 8 ((o - 129) &&& 0x7F))] ++ bitItems (bitsDown ((o - 129) >>> 7) 4))
      (.zx7CpyL o L) := by
  have hfield : (o - 129) >>> 7 < 2 ^ 4 := by
    rw [Nat.shiftRight_eq_div_pow]
    omega
  refine (readByte_parses _).bind ?_
  rw [zx7LongByte_toNat, if_neg (by omega)]
  refine (readBits_parses_field hfield).bind (b := []) ?_
  rw [zx7LongOffset_encode h]
  exact .pure

end

/-- The state that reads a ZX7 or MegaLZ token (R237, R239). -/
def tokenState : Instr → DState
  | .zx7First _ | .mlzFirst _ => .readFirst
  | _ => .readToken

/-- The first ZX7 token stands first and every other one later (R84), so its place chooses its state. -/
theorem decodeToken_zx7 {f : Fmt} {i : Instr} {at_ : Place} {x : List Byte} (hi : tokenVariant i = some .zx7)
    (hat : mayStand i at_ = true) : decodeToken f .zx7 at_ x = decodeZx7 x (tokenState i) := by
  cases i with
  | zx7First b =>
    cases at_ with
    | first => rfl
    | afterRun | afterCopy => cases hat
  | zx7Lit | zx7CpyS | zx7CpyL | zx7End =>
    cases at_ with
    | afterRun => rfl
    | first | afterCopy => cases hat
  | _ => cases hi

theorem decodeToken_megalz {f : Fmt} {i : Instr} {at_ : Place} {x : List Byte} (hi : tokenVariant i = some .megalz)
    (hat : mayStand i at_ = true) : decodeToken f .megalz at_ x = decodeMlz x (tokenState i) := by
  cases i with
  | mlzFirst b =>
    cases at_ with
    | first => rfl
    | afterRun | afterCopy => cases hat
  | mlzLit | mlzCpy1 | mlzCpy2 | mlzCpy3S | mlzCpy3L | mlzCpyNS | mlzCpyNL | mlzEnd =>
    cases at_ with
    | afterRun => rfl
    | first | afterCopy => cases hat
  | _ => cases hi

theorem tokenParses_zx7 (f : Fmt) {i : Instr} (hi : tokenVariant i = some .zx7) (hw : i.wellFormed = true) :
    TokenParses f .zx7 i := by
  intro at_ hat x
  rw [decodeToken_zx7 hi hat]
  cases i with
  | zx7First b => exact (readByte_parses b).bind .pure
  | zx7Lit b => exact (readBit_parses false).bind ((readByte_parses b).bind .pure)
  | zx7CpyS o L =>
    obtain ⟨⟨h1, ho⟩, h2, hL⟩ := wellFormed_zx7CpyS.1 hw
    exact decodeZx7_parses_copy h2 hL (decodeZx7Offset_parses_short h1 ho L)
  | zx7CpyL o L =>
    obtain ⟨⟨h1, ho⟩, h2, hL⟩ := wellFormed_zx7CpyL.1 hw
    rw [tokenItems, encode, List.append_assoc]
    exact decodeZx7_parses_copy h2 hL (decodeZx7Offset_parses_long h1 ho L)
  | zx7End =>
    refine (readBit_parses true).bind ((readZx7Zeros_parses (Nat.le_refl 16) 0).bind (b := []) ?_)
    rw [if_pos rfl]
    exact .pure
  | _ => cases hi

/-- Settles O27: each token's reads take off exactly its items. -/
theorem zx7DecodeEncode : Obligations.Zx7DecodeEncode := fun f _ hi hw => (tokenParses_zx7 f hi hw).roundTrips

/-! ### MegaLZ -/

section
variable {x : List Byte}

theorem decodeMlz_parses_copy3 {long : Bool} {o : Nat} {items : List Item}
    (h : Reader.Parses x (readMlzOff x) items (long, o)) :
    Reader.Parses x (decodeMlz x .readToken) (bitItems [false, true, false] ++ items)
      (if long then .mlzCpy3L o else .mlzCpy3S o) := by
  refine (readBit_parses false).bind ((readBits_parses_field (v := 2) (k := 2) (by decide)).bind ?_)
  exact h.bindPure _

theorem decodeMlz_parses_copyN {L : Nat} (h4 : 4 ≤ L) (hL : L ≤ 255) {long : Bool} {o : Nat} {items : List Item}
    (h : Reader.Parses x (readMlzOff x) items (long, o)) :
    Reader.Parses x (decodeMlz x .readToken) (bitItems ([false, true, true] ++ gammaBits (L - 3)) ++ items)
      (if long then .mlzCpyNL o L else .mlzCpyNS o L) := by
  have h0 : L - 3 ≠ 0 := by omega
  have hlog : (L - 3).log2 < 8 := (Nat.log2_lt h0).2 (by omega)
  rw [gammaBits_eq h0, bitItems_append, bitItems_append, List.append_assoc, List.append_assoc]
  refine (readBit_parses false).bind ((readBits_parses_field (v := 3) (k := 2) (by decide)).bind
    ((readMlzZeros_parses (Nat.le_of_lt_succ hlog) 0).bind ?_))
  rw [Nat.zero_add]
  refine (readBits_parses_data h0).bind ?_
  rw [Nat.sub_add_cancel (Nat.le_of_succ_le h4), if_neg (Nat.not_lt.2 hL)]
  exact h.bindPure _

end

theorem tokenParses_megalz (f : Fmt) {i : Instr} (hi : tokenVariant i = some .megalz) (hw : i.wellFormed = true) :
    TokenParses f .megalz i := by
  intro at_ hat x
  rw [decodeToken_megalz hi hat]
  cases i with
  | mlzFirst b => exact (readByte_parses b).bind .pure
  | mlzLit b => exact (readBit_parses true).bind ((readByte_parses b).bind .pure)
  | mlzCpy1 o =>
    obtain ⟨h1, ho⟩ := wellFormed_mlzCpy1.1 hw
    have hneg : negMod o 8 = 8 - o := negMod_eq h1 ho
    refine (readBit_parses false).bind ((readBits_parses_field (v := 0) (k := 2) (by decide)).bind
      ((readBits_parses_field (v := negMod o 8) (k := 3) (by omega)).bind (b := []) ?_))
    rw [hneg, Nat.sub_sub_self ho]
    exact .pure
  | mlzCpy2 o =>
    obtain ⟨h1, ho⟩ := wellFormed_mlzCpy2.1 hw
    refine (readBit_parses false).bind ((readBits_parses_field (v := 1) (k := 2) (by decide)).bind
      ((readByte_parses _).bind (b := []) ?_))
    rw [negMod_toNat h1 ho, Nat.sub_sub_self ho]
    exact .pure
  | mlzCpy3S o =>
    obtain ⟨h1, ho⟩ := wellFormed_mlzCpy3S.1 hw
    exact decodeMlz_parses_copy3 (readMlzOff_parses_short h1 ho)
  | mlzCpy3L o =>
    obtain ⟨h1, ho⟩ := wellFormed_mlzCpy3L.1 hw
    exact decodeMlz_parses_copy3 (readMlzOff_parses_long h1 ho)
  | mlzCpyNS o L =>
    obtain ⟨⟨h1, ho⟩, h4, hL⟩ := wellFormed_mlzCpyNS.1 hw
    exact decodeMlz_parses_copyN h4 hL (readMlzOff_parses_short h1 ho)
  | mlzCpyNL o L =>
    obtain ⟨⟨h1, ho⟩, h4, hL⟩ := wellFormed_mlzCpyNL.1 hw
    exact decodeMlz_parses_copyN h4 hL (readMlzOff_parses_long h1 ho)
  | mlzEnd =>
    exact (readBit_parses false).bind ((readBits_parses_field (v := 3) (k := 2) (by decide)).bind
      ((readMlzZeros_parses_end 7 0).bind .pure))
  | _ => cases hi

/-- Settles O29: each token's reads take off exactly its items. -/
theorem mlzDecodeEncode : Obligations.MlzDecodeEncode := fun f _ hi hw => (tokenParses_megalz f hi hw).roundTrips

/-! ### ZX0 -/

section
variable {x : List Byte} {f : Fmt}

theorem igammaBits_eq_cons (pol : Polarity) (inv : Bool) (v : Nat) :
    igammaBits pol inv v = (igammaBits pol inv v).head?.getD false :: (igammaBits pol inv v).tail := by
  cases h : igammaBits pol inv v with
  | nil => simp [igammaBits] at h
  | cons b bits => rfl

/-- R83: the byte of a copy from a new offset holds the slot's bit and, outside it, LSB. -/
theorem slotByte_spec (pol : Polarity) (o : Nat) (b : Bool) :
    (zx0Lsb pol o ||| if b then 1 else 0).getLsbD 0 = b ∧
      (zx0Lsb pol o ||| if b then 1 else 0).toNat / 2 = (zx0Lsb pol o).toNat / 2 := by
  cases b
  · simpa using zx0Lsb_getLsbD_zero pol o
  · exact ⟨by simp, or_one_toNat_half _⟩

/-- A copy from a new offset, after its indicator (R86). -/
theorem decodeZx0_parses_copy {o L : Nat} (h1 : 1 ≤ o) (ho : o ≤ 32640) (h2 : 2 ≤ L) (hL : zx0Codable (L - 1) = true) :
    Reader.Parses x (decodeZx0 f x .readNewOffsetCopy) (zx0CpyItems f o L).tail (.zx0Cpy o L) := by
  have hM := zx0Msb_le ho
  obtain ⟨hslot, hhalf⟩ := slotByte_spec f.pol o ((igammaBits f.pol false (L - 1)).head?.getD false)
  have hlen := readIGamma_parses (x := x) f.pol false hL
  rw [zx0CpyItems, List.append_assoc]
  rw [igammaBits_eq_cons, ← hslot] at hlen
  generalize (zx0Lsb f.pol o ||| if (igammaBits f.pol false (L - 1)).head?.getD false then 1 else 0) = B at *
  have hback : Instr.zx0Cpy (zx0Offset f.pol (zx0Msb o) B) (L - 1 + 1) = .zx0Cpy o L := by
    rw [zx0Offset_encode h1 f.pol hhalf, Nat.sub_add_cancel (Nat.le_of_succ_le h2)]
  refine (readIGamma_parses f.pol f.inv (zx0Codable_iff.2 ⟨one_le_zx0Msb o, by omega⟩)).bind ?_
  rw [if_neg (by omega), if_neg (by omega), ← hback]
  exact (hlen.bindPure _).slot

theorem decodeZx0_parses_end :
    Reader.Parses x (decodeZx0 f x .readNewOffsetCopy) (bitItems (igammaBits f.pol f.inv 256)) .zx0End := by
  rw [← List.append_nil (bitItems _)]
  refine (readIGamma_parses f.pol f.inv (zx0Codable_iff.2 (by decide))).bind ?_
  rw [if_pos rfl]
  exact .pure

theorem decodeZx0_parses_rep {L : Nat} (hL : zx0Codable L = true) :
    Reader.Parses x (decodeZx0 f x .readLastOffsetCopy) (bitItems (igammaBits f.pol false L)) (.zx0Rep L) :=
  (readIGamma_parses f.pol false hL).bindPure _

end

/-! ### ZX0 literal runs -/

/-- The bytes of a run come after its code and need no interleaving (R82). -/
theorem layout_append_bytes (items : List Item) (bs : List Byte) :
    layout (items ++ bs.map .byte) = layout items ++ bs := by
  have hput : ∀ l : Layout, ((bs.map .byte).foldl Layout.put l).out = l.out ++ bs := by
    induction bs with
    | nil => simp
    | cons b bs ih => intro l; simp [ih, Layout.put]
  rw [layout, List.foldl_append, hput, layout]

/-- The run read right after its code: the bytes that are there, all of them or too few (R238). -/
theorem readRun_append {c : Cursor} {pre : List Byte} (hc : c.inIdx = pre.length) (ys : List Byte) (L : Nat) :
    readRun (pre ++ ys) L c =
      if (ys.take L).length < L then .error (.prematureRun (ys.take L))
      else .ok (ys.take L, { c with inIdx := c.inIdx + L, lastByte := (ys.take L).getLast?.getD c.lastByte }) := by
  simp [readRun, hc]

/-- What the decoder of a run's token makes of the stream, from where it stands after its code. -/
def runAfter (mk : List Byte → Instr) (x : List Byte) (L : Nat) (d : Cursor) : Except DecodeError (Instr × Cursor) :=
  (readRun x L d).map fun p => (mk p.1, p.2)

/-- A token `mk bs` of a literal run: its code is read first, then the run. -/
structure RunToken (f : Fmt) (at_ : Place) (bs : List Byte) (mk : List Byte → Instr) (code : List Bool) : Prop where
  kind : mk = .zx0Lit0 ∨ mk = .zx0Lit
  items : tokenItems f (mk bs) = bitItems code ++ bs.map .byte
  decodes : ∀ x o, Yields x Cursor.start (bitItems code) o →
    decodeToken f .zx0 at_ x Cursor.start = o.bind (runAfter mk x bs.length)

section
variable {f : Fmt} {bs : List Byte}

theorem decodeZx0_run {x : List Byte} {c : Cursor} (hL : zx0Codable bs.length = true) {o : Except DecodeError Cursor}
    (h : Yields x c (bitItems (igammaBits f.pol false bs.length)) o) :
    decodeZx0 f x .readLiteralRun c =
      o.bind (runAfter (if c.inIdx = 0 then .zx0Lit0 else .zx0Lit) x bs.length) := by
  have hcode := readIGamma_parses f.pol false hL c o h
  rw [decodeZx0, Reader.bind_of_ok (v := c) (d := c) rfl]
  cases o with
  | error e => rw [Reader.bind_of_error hcode]; rfl
  | ok d =>
    rw [Reader.bind_of_ok hcode]
    simp only [Except.bind, runAfter]
    cases hrun : readRun x bs.length d with
    | error e => rw [Reader.bind_of_error hrun]; rfl
    | ok p =>
      rw [Reader.bind_of_ok hrun]
      by_cases h0 : c.inIdx = 0 <;> simp only [h0, if_true, if_false] <;> rfl

theorem runToken_lit0 (hL : zx0Codable bs.length = true) :
    RunToken f .first bs .zx0Lit0 (igammaBits f.pol false bs.length) where
  kind := .inl rfl
  items := rfl
  decodes := fun _ _ h => decodeZx0_run hL h

theorem readBit_start_inIdx {x : List Byte} {b : Bool} {d : Cursor} (h : readBit x Cursor.start = .ok (b, d)) :
    d.inIdx = 1 := by
  rw [readBit_of_newGroup rfl (by decide)] at h
  cases hb : readByte x { Cursor.start with bitMask := 0x80 } with
  | error e => rw [hb] at h; cases h
  | ok p =>
    rw [hb] at h
    cases h
    exact (readByte_take (n := 0) hb).1

/-- After its indicator a run no longer stands at the stream's first byte. -/
theorem runToken_lit (hL : zx0Codable bs.length = true) :
    RunToken f .afterCopy bs .zx0Lit (false :: igammaBits f.pol false bs.length) where
  kind := .inr rfl
  items := rfl
  decodes := by
    intro x o h
    have hplace : decodeToken f .zx0 .afterCopy x =
      readBit x >>= fun ind => decodeZx0 f x (zx0StateAfter false ind) := rfl
    rw [hplace]
    cases h with
    | bit hread hy =>
      have hrest := decodeZx0_run hL hy
      rw [readBit_start_inIdx hread, if_neg Nat.one_ne_zero] at hrest
      rw [Reader.bind_of_ok hread]
      exact hrest
    | cutBit hread => rw [Reader.bind_of_error hread]; rfl

variable {at_ : Place} {mk : List Byte → Instr} {code : List Bool} (h : RunToken f at_ bs mk code)
include h

theorem RunToken.layout_eq : layout (tokenItems f (mk bs)) = layout (bitItems code) ++ bs := by
  rw [h.items, layout_append_bytes]

theorem RunToken.roundTrip (rest : List Byte) :
    ∃ c, decodeToken f .zx0 at_ (layout (tokenItems f (mk bs)) ++ rest) Cursor.start = .ok (mk bs, c) ∧
      c.inIdx = (layout (tokenItems f (mk bs))).length := by
  obtain ⟨d, hy, hd⟩ := yields_layout (bitItems code) (bs ++ rest)
  rw [h.layout_eq, List.append_assoc, h.decodes _ _ hy]
  simp [Except.bind, runAfter, readRun_append hd, Except.map, hd]

/-- R93 item 1: cut in its code a run ends in it, cut later it is read up to the cut. -/
theorem RunToken.cut {n : Nat} (hn : n < (layout (tokenItems f (mk bs))).length) :
    decodeToken f .zx0 at_ ((layout (tokenItems f (mk bs))).take n) Cursor.start =
      .error (if n < (layout (bitItems code)).length then .prematureEnd
        else .prematureRun (bs.take (n - (layout (bitItems code)).length))) := by
  obtain ⟨d, hy, hd⟩ := yields_layout (bitItems code) bs
  have htake := h.decodes _ _ (hy.take (Nat.zero_le n))
  rw [h.layout_eq] at hn ⊢
  rw [htake, hd]
  split
  · rfl
  · next hcode =>
    rw [List.length_append] at hn
    have hsplit : (layout (bitItems code) ++ bs).take n =
        layout (bitItems code) ++ bs.take (n - (layout (bitItems code)).length) := by
      rw [List.take_append, List.take_of_length_le (Nat.not_lt.1 hcode)]
    have hshort : (bs.take (n - (layout (bitItems code)).length)).length < bs.length := by
      rw [List.length_take]; omega
    rw [hsplit]
    simp only [Except.bind, runAfter, readRun_append hd, List.take_of_length_le (Nat.le_of_lt hshort), if_pos hshort]
    rfl

end

/-- A ZX0 token where it may stand (R86): a literal run; or reads that take off exactly its items, its indicator with them, and it
names no bytes when it is cut (R93 item 1). -/
theorem tokenParses_or_runToken (f : Fmt) {i : Instr} {at_ : Place} (hi : tokenVariant i = some .zx0)
    (hw : i.wellFormed = true) (hat : mayStand i at_ = true) :
    (TokenParses f .zx0 i ∧ ∀ n, truncatedError f i n = .prematureEnd) ∨
      ∃ bs mk code, i = mk bs ∧ RunToken f at_ bs mk code := by
  cases i with
  | zx0Lit0 bs =>
    cases at_ with
    | first => exact .inr ⟨bs, _, _, rfl, runToken_lit0 hw⟩
    | afterRun | afterCopy => cases hat
  | zx0Lit bs =>
    cases at_ with
    | afterCopy => exact .inr ⟨bs, _, _, rfl, runToken_lit hw⟩
    | first | afterRun => cases hat
  | zx0Rep L =>
    refine .inl ⟨fun p hp x => ?_, fun _ => rfl⟩
    cases p with
    | afterRun => exact (readBit_parses false).bind (decodeZx0_parses_rep hw)
    | first | afterCopy => cases hp
  | zx0Cpy o L =>
    obtain ⟨⟨h1, ho⟩, h2, hL⟩ := wellFormed_zx0Cpy.1 hw
    refine .inl ⟨fun p hp x => ?_, fun _ => rfl⟩
    cases p with
    | first => cases hp
    | afterRun | afterCopy => exact (readBit_parses true).bind (decodeZx0_parses_copy h1 ho h2 hL)
  | zx0End =>
    refine .inl ⟨fun p hp x => ?_, fun _ => rfl⟩
    cases p with
    | first => cases hp
    | afterRun | afterCopy => exact (readBit_parses true).bind decodeZx0_parses_end
  | _ => cases hi

/-- Settles O28: a run by its code and its bytes, every other token because its reads take off exactly its items. -/
theorem zx0DecodeEncode : Obligations.Zx0DecodeEncode := by
  intro f i hi hw at_ hat rest
  obtain ⟨hp, -⟩ | ⟨bs, mk, code, rfl, hr⟩ := tokenParses_or_runToken f hi hw hat
  · exact hp.roundTrips at_ hat rest
  · exact hr.roundTrip rest

end Sys2Proof
end

section
/-! PROOFS. The fields and words of spec/30_encoding.md (R87, R88, R90, R97) and the obligations that say them. -/

namespace Sys2Proof
open Sys2Proof.Machine

/-! ### MegaLZ offsets (R90) -/

/-- Settles O25: the layouts by arithmetic, and the offset by the reads of the two forms. -/
theorem mlzOffsetField : Obligations.MlzOffsetField := by
  intro o rest h1 h
  refine ⟨fun hs => ⟨?_, rfl, ?_⟩, fun hl => ⟨?_, rfl, ?_⟩⟩
  · rw [mlzOffShort, negMod_eq h1 hs, Nat.mod_eq_of_lt (by omega)]
  · obtain ⟨c, hy, -⟩ := yields_layout (mlzOffShort o) rest
    exact ⟨c, readMlzOff_parses_short h1 hs _ _ hy⟩
  · have hbyte : BitVec.ofNat 8 ((4352 - o) % 256) = BitVec.ofNat 8 (4352 - o) := BitVec.eq_of_toNat_eq (by simp)
    rw [mlzOffLong, negMod_long hl h, Nat.shiftRight_eq_div_pow, hbyte]
  · obtain ⟨c, hy, -⟩ := yields_layout (mlzOffLong o) rest
    exact ⟨c, readMlzOff_parses_long hl h _ _ hy⟩

/-! ### ZX0 offsets (R87) -/

/-- Settles O24. Whatever the slot holds, LSB halves to the same. -/
theorem zx0OffsetFields : Obligations.Zx0OffsetFields := by
  refine ⟨fun o h1 h => ⟨rfl, one_le_zx0Msb o, zx0Msb_le h, zx0Lsb_fwd_toNat o, zx0Lsb_back_toNat o, fun pol =>
    ⟨zx0Lsb_getLsbD_zero pol o, zx0Offset_encode h1 pol rfl, zx0Offset_encode h1 pol (or_one_toNat_half _)⟩⟩, ?_⟩
  intro f x c c' hM
  rw [decodeZx0, Reader.bind_of_ok hM, if_pos rfl]
  rfl

/-! ### Polarity and inversion (R88) -/

/-- The modes with `pol = BACK` are the reversed ZX0 modes, 3 and 5 (R121). -/
theorem reversedZx0_iff (mode : BitVec 4) :
    (variantOf mode = .zx0 ∧ reversedMode mode = true) ↔ (mode = 3 ∨ mode = 5) := by
  revert mode
  decide

theorem fmtOf_pol (p : Params) (mode : BitVec 4) :
    (fmtOf p mode).pol = .back ↔ (mode = 3 ∨ mode = 5) ∧ p.reverseEmit = .upstream := by
  rw [← reversedZx0_iff, fmtOf, and_assoc]
  split <;> simp [*]

theorem fmtOf_inv (p : Params) (mode : BitVec 4) :
    (fmtOf p mode).inv = true ↔ p.zx0InvertMsb = true ∧ (fmtOf p mode).pol = .fwd := by
  rw [fmtOf]
  split <;> simp

theorem bitItems_length (bs : List Bool) : (bitItems bs).length = bs.length := List.length_map _

theorem bitsDown_length (v k : Nat) : (bitsDown v k).length = k := by
  induction k with
  | zero => rfl
  | succ k ih => rw [bitsDown, List.length_cons, ih]

theorem igammaBits_length (pol : Polarity) (inv : Bool) (v : Nat) : (igammaBits pol inv v).length = eg v := by
  simp [igammaBits, bitsDown_length, List.length_flatMap, eg, Nat.mul_comm]

/-- What follows the indicator and the MSB's code in a copy from a new offset (R86). -/
theorem tokenItems_zx0Cpy_drop (f : Fmt) (o L : Nat) :
    (tokenItems f (.zx0Cpy o L)).drop (1 + eg (zx0Msb o)) =
      .byte (zx0Lsb f.pol o ||| if (igammaBits f.pol false (L - 1)).head?.getD false then 1 else 0) ::
        bitItems (igammaBits f.pol false (L - 1)).tail := by
  rw [tokenItems, encode]
  simp only [zx0CpyItems, List.append_assoc]
  rw [List.drop_left']
  · rfl
  · rw [bitItems_length, List.length_cons, igammaBits_length, Nat.add_comm]

/-- Settles O26: the MSB's code has the same length inverted or not, and nothing after it looks at `inv`. -/
theorem formatOfEachMode : Obligations.FormatOfEachMode := by
  refine ⟨fun p mode => ⟨fmtOf_pol p mode, fmtOf_inv p mode⟩, fun pol i hcpy hend => ?_, fun pol o L => ?_⟩
  · cases i with
    | zx0Cpy o L => exact absurd rfl (hcpy o L)
    | zx0End => exact absurd rfl hend
    | _ => rfl
  · rw [tokenItems_zx0Cpy_drop, tokenItems_zx0Cpy_drop]

/-! ### Stores to CTRL (R97) -/

/-- A CTRL word's fields are in bits 0, 5:4 and 11:8, all within the mask. -/
theorem decodeCtrl_mask (w : Word) : decodeCtrl w = decodeCtrl (w &&& 0x00000F31) := by
  have hcmd : (w &&& 0x00000F31).extractLsb' 4 2 = w.extractLsb' 4 2 := by
    rw [BitVec.extractLsb'_and, show (0x00000F31 : Word).extractLsb' 4 2 = BitVec.allOnes 2 by decide, BitVec.and_allOnes]
  have hmode : (w &&& 0x00000F31).extractLsb' 8 4 = w.extractLsb' 8 4 := by
    rw [BitVec.extractLsb'_and, show (0x00000F31 : Word).extractLsb' 8 4 = BitVec.allOnes 4 by decide, BitVec.and_allOnes]
  have hstart : (w &&& 0x00000F31).getLsbD 0 = w.getLsbD 0 := by simp
  rw [decodeCtrl, decodeCtrl, hcmd, hmode, hstart]

theorem ctrlWord_spec (mode : BitVec 4) :
    ctrlWord 1 mode = 0x11 ||| (mode.zeroExtend 32 <<< 8) ∧ ctrlWord 2 mode = 0x21 ||| (mode.zeroExtend 32 <<< 8) ∧
    decodeCtrl (ctrlWord 1 mode) = some (.compress mode) ∧
    decodeCtrl (ctrlWord 2 mode) = some (.decompress mode) := by
  revert mode
  decide

/-- A CTRL store is the command its word without the ignored bits decodes to. -/
theorem step_ctrlStore {s : State} {a : Word} {d : BitVec 64} {rest : List Input} {w : Word} {i : Instr}
    (hin : s.inputs = .store .w32 a d :: rest) (hw : s.inWindow a = true) (hoff : s.offset a = 0x04)
    (hd : d.truncate 32 &&& 0x00000F31 = w) (hi : decodeCtrl w = some i) :
    step s = exec i { s with inputs := rest } := by
  have hdec : decodeCtrl (d.truncate 32) = some i := by rw [decodeCtrl_mask, hd, hi]
  have hw' : State.inWindow { s with inputs := rest } a = true := hw
  have hoff' : State.offset { s with inputs := rest } a = 0x04 := hoff
  rw [step_of_input s _ rest hin, stepInput, stepStore, if_pos hw', hoff', if_pos (by decide), if_pos rfl, storeCtrl, hdec]

/-- R97, R125: a command whose `CMD` or `MODE` is reserved fails its check. -/
theorem checkError_start_reserved (s : State) {cmd : BitVec 2} {mode : BitVec 4} (h : cmd = 0 ∨ cmd = 3 ∨ 8 ≤ mode.toNat) :
    (s.start cmd mode).checkError = some .illegal := by
  rw [State.checkError]
  obtain rfl | rfl | hmode := h
  · exact if_pos (show (0 : BitVec 2) ≠ 1 ∧ (0 : BitVec 2) ≠ 2 by decide)
  · exact if_pos (show (3 : BitVec 2) ≠ 1 ∧ (3 : BitVec 2) ≠ 2 by decide)
  · rw [if_pos (show 7 < (s.start cmd mode).latch.mode.toNat from hmode), ite_self]

theorem runEngine_one {s t : State} (h : stepEngine s = .next t) : runEngine 1 s = .next t := by
  simp [runEngine, h]

/-- Settles O6: `decodeCtrl_mask` gives the ignored bits, and the check is the step after START. -/
theorem ctrlStoreEncodings : Obligations.CtrlStoreEncodings := by
  refine ⟨ctrlWord_spec, rfl, ?_, decodeCtrl_mask, ?_⟩
  · intro s a d rest mode hin hw hoff hb
    obtain ⟨-, -, hcompress, hdecompress⟩ := ctrlWord_spec mode
    refine ⟨fun hd => ?_, fun hd => ?_⟩
    · rw [step_ctrlStore hin hw hoff hd hcompress, exec, execCompress, hb, if_neg Bool.false_ne_true]
    · rw [step_ctrlStore hin hw hoff hd hdecompress, exec, execDecompress, hb, if_neg Bool.false_ne_true]
  · intro s cmd mode h
    have hstep : stepEngine (s.start cmd mode) = .next ((s.start cmd mode).raise .illegal) := by
      rw [stepEngine, State.start_phase]
      simp only [State.checkStep, checkError_start_reserved s h]
    refine ⟨1, _, runEngine_one hstep, ?_⟩
    rw [State.raise, State.finish_of_duty _ _ _ _ _ rfl]
    exact ⟨rfl, rfl, rfl, rfl, rfl, rfl⟩

/-! ### Words written out -/

/-- Settles O33: each word is evaluated. -/
theorem tableWordsDecode : Obligations.TableWordsDecode := by
  unfold Obligations.TableWordsDecode
  decide +kernel

end Sys2Proof
end

section
/-! PROOFS. Streams that are rejected (spec/30_encoding.md R93): the premature end anywhere in a token, and the illegal
encodings by their names. -/

namespace Sys2Proof
open Sys2Proof.Machine

theorem RunToken.truncatedError_eq {f : Fmt} {at_ : Place} {bs : List Byte} {mk : List Byte → Instr} {code : List Bool}
    (h : RunToken f at_ bs mk code) (n : Nat) :
    truncatedError f (mk bs) n =
      if n < (layout (bitItems code)).length then .prematureEnd
      else .prematureRun (bs.take (n - (layout (bitItems code)).length)) := by
  have hcode : (layout (tokenItems f (mk bs))).length - bs.length = (layout (bitItems code)).length := by
    rw [h.layout_eq, List.length_append, Nat.add_sub_cancel]
  obtain rfl | rfl := h.kind <;> rw [truncatedError, hcode]

/-- ZX7 and MegaLZ have no runs, and only a run names bytes when it is cut. -/
theorem truncatedError_of_ne_zx0 {f : Fmt} {v : Variant} {i : Instr} (hi : tokenVariant i = some v) (hv : v ≠ .zx0) (n : Nat) :
    truncatedError f i n = .prematureEnd := by
  cases i with
  | zx0Lit0 bs | zx0Lit bs => cases hi; exact absurd rfl hv
  | _ => rfl

/-- R93 item 1: the beginning of a token's stream, cut at any byte, is rejected as the cut says. -/
theorem decodeToken_cut (f : Fmt) (v : Variant) (at_ : Place) (i : Instr) (n : Nat) (hi : tokenVariant i = some v)
    (hw : i.wellFormed = true) (hat : mayStand i at_ = true) (hn : n < (layout (tokenItems f i)).length) :
    decodeToken f v at_ ((layout (tokenItems f i)).take n) Cursor.start = .error (truncatedError f i n) := by
  cases v with
  | zx7 => rw [truncatedError_of_ne_zx0 hi (by decide), (tokenParses_zx7 f hi hw).cut hat hn]
  | megalz => rw [truncatedError_of_ne_zx0 hi (by decide), (tokenParses_megalz f hi hw).cut hat hn]
  | zx0 =>
    obtain ⟨hp, herr⟩ | ⟨bs, mk, code, rfl, hr⟩ := tokenParses_or_runToken f hi hw hat
    · rw [herr, hp.cut hat hn]
    · rw [hr.truncatedError_eq, hr.cut hn]

section
variable {x : List Byte} {f : Fmt} {bits : List Bool}

/-- R93 item 4, in the first code of a state. -/
theorem decodeZx0_rejects_long {st : DState} (hst : st = .readLiteralRun ∨ st = .readLastOffsetCopy ∨ st = .readNewOffsetCopy)
    (hbits : bits.length = 31) :
    Reader.Rejects x (decodeZx0 f x st) (bitItems (bits.flatMap (fun d => [continueBit f.pol, d]) ++ [continueBit f.pol]))
      .gammaTooLong := by
  obtain rfl | rfl | rfl := hst
  · intro c d h
    rw [decodeZx0, Reader.bind_of_ok (v := c) (d := c) rfl]
    exact (readIGamma_rejects f.pol false hbits).bind c d h
  · exact (readIGamma_rejects f.pol false hbits).bind
  · exact (readIGamma_rejects f.pol f.inv hbits).bind

/-- R93 item 4, in the length code of a copy, which begins in the slot (R83). -/
theorem decodeZx0_rejects_longLength {M : Nat} {lsb : Byte} (hM : 1 ≤ M) (hM' : M ≤ 255)
    (hlsb : lsb.getLsbD 0 = continueBit f.pol) (hbits : bits.length = 31) :
    Reader.Rejects x (decodeZx0 f x .readNewOffsetCopy)
      (bitItems (igammaBits f.pol f.inv M) ++ [.byte lsb] ++
        bitItems (bits.flatMap (fun d => [continueBit f.pol, d]) ++ [continueBit f.pol]).tail) .gammaTooLong := by
  have hlen := readIGamma_rejects (x := x) f.pol false hbits
  have hslot : bits.flatMap (fun d => [continueBit f.pol, d]) ++ [continueBit f.pol] =
      lsb.getLsbD 0 :: (bits.flatMap (fun d => [continueBit f.pol, d]) ++ [continueBit f.pol]).tail := by
    obtain ⟨b, bits, rfl⟩ := List.exists_cons_of_length_eq_add_one hbits
    rw [hlsb]
    rfl
  rw [List.append_assoc]
  refine (readIGamma_parses f.pol f.inv (zx0Codable_iff.2 ⟨hM, by omega⟩)).reject ?_
  rw [if_neg (by omega), if_neg (by omega)]
  rw [hslot] at hlen
  exact hlen.bind.slot

/-- R93 item 4, D15. -/
theorem decodeZx0_rejects_msb {M : Nat} (hM : 256 < M) (hM' : M < 2 ^ 32) :
    Reader.Rejects x (decodeZx0 f x .readNewOffsetCopy) (bitItems (igammaBits f.pol f.inv M)) .msbAbove256 := by
  rw [← List.append_nil (bitItems _)]
  refine (readIGamma_parses f.pol f.inv (zx0Codable_iff.2 ⟨by omega, hM'⟩)).reject ?_
  rw [if_neg (Nat.ne_of_gt hM), if_pos hM]
  exact .throw

/-- R93 item 5. -/
theorem decodeMlz_rejects_length {L : Nat} (hL : 256 ≤ L) (hL' : L ≤ 258) :
    Reader.Rejects x (decodeMlz x .readToken) (bitItems ([false, true, true] ++ gammaBits (L - 3))) .mlzLengthAbove255 := by
  have h0 : L - 3 ≠ 0 := by omega
  have hlog : (L - 3).log2 < 8 := (Nat.log2_lt h0).2 (by omega)
  rw [gammaBits_eq h0, bitItems_append, bitItems_append]
  refine (readBit_parses false).reject ((readBits_parses_field (v := 3) (k := 2) (by decide)).reject
    ((readMlzZeros_parses (Nat.le_of_lt_succ hlog) 0).reject ?_))
  rw [Nat.zero_add, ← List.append_nil (bitItems _)]
  refine (readBits_parses_data h0).reject ?_
  rw [if_pos (by omega)]
  exact .throw

/-- R93 item 3. -/
theorem decodeZx7_rejects_zeros :
    Reader.Rejects x (decodeZx7 x .readToken) (bitItems (true :: List.replicate 17 false)) .zx7PrefixTooLong :=
  (readBit_parses true).reject (readZx7Zeros_rejects 16 0).bind

end

/-- Settles O31: item 1 by the cut tokens, items 3 to 5 by the reads that reject them. -/
theorem illegalEncodingsAreRejected : Obligations.IllegalEncodingsAreRejected := by
  refine ⟨fun x c h => (readByte_error_iff x c _).2 ⟨h, rfl⟩, fun x c h hbt hm => ?_, decodeToken_cut,
    fun _ => decodeZx7_rejects_zeros.of_layout, fun _ _ _ _ hst hbits => (decodeZx0_rejects_long hst hbits).of_layout,
    fun _ _ _ _ _ hM hM' hlsb hbits => (decodeZx0_rejects_longLength hM hM' hlsb hbits).of_layout,
    fun _ _ _ hM hM' => (decodeZx0_rejects_msb hM hM').of_layout,
    fun _ _ hL hL' => (decodeMlz_rejects_length hL hL').of_layout⟩
  rw [readBit_of_newGroup hbt hm, (readByte_error_iff x { c with bitMask := 0x80 } _).2 ⟨h, rfl⟩]
  rfl

end Sys2Proof
end

section
/-! PROOFS. Whatever a stream holds, what the decoder answers is within the ranges of spec/30_encoding.md R84, R86 and R89, and
the cursor stays within the stream (spec/45_unpacker.md R230 to R232). -/

namespace Sys2Proof
open Sys2Proof.Machine

/-! ### What the reads answer -/

/-- A read that succeeds answers a value with `P`. -/
def Reader.Answers {α : Type} (P : α → Prop) (r : Reader α) : Prop := Reader.Spec (fun _ => True) P r

section
variable {α β : Type} {P : α → Prop} {Q : β → Prop} {r : Reader β} {k : β → Reader α}

theorem Reader.Answers.pure {v : α} (hv : P v) : Reader.Answers P (pure v : Reader α) := Reader.Spec.pure hv

theorem Reader.Answers.throw (e : DecodeError) : Reader.Answers P (throw e : Reader α) := Reader.Spec.throw e

theorem Reader.Answers.bind (hr : Reader.Answers Q r) (hk : ∀ v, Q v → Reader.Answers P (k v)) :
    Reader.Answers P (r >>= k) := Reader.Spec.bind hr hk

/-- A read whose answer does not matter, then the rest. -/
theorem Reader.Answers.after (hk : ∀ v, Reader.Answers P (k v)) : Reader.Answers P (r >>= k) :=
  Reader.Spec.andThen (fun _ _ _ _ _ => ⟨trivial, trivial⟩) hk

theorem Reader.Answers.mono {r : Reader α} {R : α → Prop} (hr : Reader.Answers R r) (h : ∀ v, R v → P v) :
    Reader.Answers P r := fun c d v hc hv => ⟨trivial, h v (hr c d v hc hv).2⟩

end

section
variable {x : List Byte}

theorem double_lower (u k : Nat) (b : Bool) : u * 2 ^ (k + 1) ≤ (2 * u + b.toNat) * 2 ^ k := by
  rw [pow_succ', ← Nat.mul_assoc, Nat.mul_comm u 2]
  exact Nat.mul_le_mul_right _ (Nat.le_add_right _ _)

theorem double_upper (u k : Nat) (b : Bool) : (2 * u + b.toNat + 1) * 2 ^ k ≤ (u + 1) * 2 ^ (k + 1) := by
  have hb : b.toNat ≤ 1 := Bool.toNat_le b
  rw [pow_succ', ← Nat.mul_assoc]
  exact Nat.mul_le_mul_right _ (by omega)

theorem lt_succ_mul_two_pow (u k : Nat) : u < (u + 1) * 2 ^ k :=
  Nat.lt_of_lt_of_le u.lt_succ_self (Nat.le_mul_of_pos_right _ (Nat.two_pow_pos k))

/-- `k` more bits than `u`. -/
theorem readBits_answers (k u : Nat) :
    Reader.Answers (fun v => u * 2 ^ k ≤ v ∧ v < (u + 1) * 2 ^ k) (readBits x k u) := by
  induction k generalizing u with
  | zero => exact .pure (by simp)
  | succ k ih =>
    exact .after fun b => (ih _).mono fun v ⟨hlo, hhi⟩ =>
      ⟨(double_lower u k b).trans hlo, hhi.trans_le (double_upper u k b)⟩

theorem readIGammaLoop_answers (pol : Polarity) (inv : Bool) (left u : Nat) :
    Reader.Answers (fun v => u ≤ v ∧ v < (u + 1) * 2 ^ left) (readIGammaLoop x pol inv left u) := by
  induction left generalizing u with
  | zero =>
    refine .after fun b => ?_
    split
    · exact .throw _
    · exact .pure ⟨Nat.le_refl u, lt_succ_mul_two_pow u 0⟩
  | succ left ih =>
    refine .after fun b => ?_
    split
    · exact .after fun d => (ih _).mono fun v ⟨hlo, hhi⟩ => ⟨by omega, hhi.trans_le (double_upper u left _)⟩
    · exact .pure ⟨Nat.le_refl u, lt_succ_mul_two_pow u _⟩

/-- R232: at most 31 data bits. -/
theorem readIGamma_answers (pol : Polarity) (inv : Bool) :
    Reader.Answers (fun v => zx0Codable v = true) (readIGamma x pol inv) :=
  (readIGammaLoop_answers pol inv 31 1).mono fun _ h => zx0Codable_iff.2 h

theorem readZx7Zeros_answers (left z : Nat) : Reader.Answers (fun n => n ≤ z + left) (readZx7Zeros x left z) := by
  induction left generalizing z with
  | zero =>
    refine .after fun b => ?_
    split
    · exact .pure (Nat.le_refl z)
    · exact .throw _
  | succ left ih =>
    refine .after fun b => ?_
    split
    · exact .pure (Nat.le_add_right _ _)
    · exact (ih _).mono fun n h => by omega

theorem readRun_answers (L : Nat) : Reader.Answers (fun bs => bs.length = L) (readRun x L) := by
  intro c d bs _ h
  rw [readRun] at h
  split at h
  · cases h
  · next hlen =>
    cases h
    exact ⟨trivial, Nat.le_antisymm (List.length_take_le _ _) (Nat.not_lt.1 hlen)⟩

/-- R90: the ranges of the two forms of the offset field. -/
theorem readMlzOff_answers :
    Reader.Answers (fun p => if p.1 then 257 ≤ p.2 ∧ p.2 ≤ 4352 else 1 ≤ p.2 ∧ p.2 ≤ 256) (readMlzOff x) := by
  refine .after fun long => ?_
  split
  · refine (readBits_answers 4 0).bind fun h hh => .after fun b => .pure ?_
    have hfield : (h <<< 8) ||| b.toNat < 2 ^ 12 :=
      Nat.or_lt_two_pow (by rw [Nat.shiftLeft_eq]; omega) (b.isLt.trans (by decide))
    simp only [if_true]
    omega
  · refine .after fun b => .pure ?_
    have := b.isLt
    simp only [Bool.false_eq_true, if_false]
    omega

/-! ### Decoded tokens -/

theorem zx7LongOffset_bounds (B : Byte) {h : Nat} (hh : h < 16) : 129 ≤ zx7LongOffset B h ∧ zx7LongOffset B h ≤ 2176 := by
  have hlow : B.toNat &&& 0x7F < 2 ^ 11 := Nat.lt_of_le_of_lt Nat.and_le_right (by decide)
  have hor : (B.toNat &&& 0x7F) ||| (h <<< 7) < 2 ^ 11 := Nat.or_lt_two_pow hlow (by rw [Nat.shiftLeft_eq]; omega)
  rw [zx7LongOffset]
  omega

theorem zx0Offset_bounds (pol : Polarity) {M : Nat} (h1 : 1 ≤ M) (h : M ≤ 255) (B : Byte) :
    1 ≤ zx0Offset pol M B ∧ zx0Offset pol M B ≤ 32640 := by
  have := B.isLt
  cases pol <;> (simp only [zx0Offset]; omega)

theorem decodeZx7_wellFormed (st : DState) : Reader.Answers (fun i => i.wellFormed = true) (decodeZx7 x st) := by
  cases st with
  | readFirst => exact .after fun b => .pure rfl
  | readToken =>
    refine .after fun copy => ?_
    split
    · refine (readZx7Zeros_answers 16 0).bind fun z hz => ?_
      split
      · exact .pure rfl
      · next hz16 =>
        refine (readBits_answers z 1).bind fun v ⟨hlo, hhi⟩ => .after fun B => ?_
        have hpos : 0 < 2 ^ z := Nat.two_pow_pos z
        have hpow : 2 ^ z ≤ 2 ^ 15 := Nat.pow_le_pow_right (by decide) (by omega)
        have hL : 2 ≤ v + 1 ∧ v + 1 ≤ 65536 := by omega
        split
        · next hB => exact .pure (wellFormed_zx7CpyS.2 ⟨by omega, hL⟩)
        · exact (readBits_answers 4 0).bind fun h hh =>
            .pure (wellFormed_zx7CpyL.2 ⟨zx7LongOffset_bounds B (by omega), hL⟩)
    · exact .after fun b => .pure rfl
  | _ => exact .throw _

theorem decodeZx0_wellFormed (f : Fmt) (st : DState) :
    Reader.Answers (fun i => i.wellFormed = true) (decodeZx0 f x st) := by
  cases st with
  | readLiteralRun =>
    refine .after fun c => (readIGamma_answers _ _).bind fun L hL => (readRun_answers L).bind fun bs hbs => ?_
    subst hbs
    split <;> exact .pure hL
  | readLastOffsetCopy => exact (readIGamma_answers _ _).bind fun L hL => .pure hL
  | readNewOffsetCopy =>
    refine (readIGamma_answers _ _).bind fun M hM => ?_
    split
    · exact .pure rfl
    · split
      · exact .throw _
      · refine .after fun B => .after fun _ => (readIGamma_answers _ _).bind fun v hv => .pure ?_
        obtain ⟨h1, -⟩ := zx0Codable_iff.1 hM
        obtain ⟨hv1, -⟩ := zx0Codable_iff.1 hv
        exact wellFormed_zx0Cpy.2 ⟨zx0Offset_bounds f.pol h1 (by omega) B, by omega, hv⟩
  | _ => exact .throw _

theorem decodeMlz_wellFormed (st : DState) : Reader.Answers (fun i => i.wellFormed = true) (decodeMlz x st) := by
  cases st with
  | readFirst => exact .after fun b => .pure rfl
  | readToken =>
    refine .after fun lit => ?_
    split
    · exact .after fun b => .pure rfl
    · refine .after fun s => ?_
      split
      · exact (readBits_answers 3 0).bind fun f hf => .pure (wellFormed_mlzCpy1.2 (by omega))
      · refine .after fun b => .pure (wellFormed_mlzCpy2.2 ?_)
        have := b.isLt
        omega
      · refine readMlzOff_answers.bind fun (long, o) ho => .pure ?_
        cases long
        · exact wellFormed_mlzCpy3S.2 ho
        · exact wellFormed_mlzCpy3L.2 ho
      · refine .after fun z => ?_
        split
        · exact .pure rfl
        · next z =>
          refine (readBits_answers z 1).bind fun v ⟨hlo, hhi⟩ => ?_
          have hpos : 0 < 2 ^ z := Nat.two_pow_pos z
          split
          · exact .throw _
          · refine readMlzOff_answers.bind fun (long, o) ho => .pure ?_
            have hL : 4 ≤ v + 3 ∧ v + 3 ≤ 255 := by omega
            cases long
            · exact wellFormed_mlzCpyNS.2 ⟨ho, hL⟩
            · exact wellFormed_mlzCpyNL.2 ⟨ho, hL⟩
  | _ => exact .throw _

theorem decode_wellFormed (f : Fmt) (v : Variant) (st : DState) :
    Reader.Answers (fun i => i.wellFormed = true) (decode f v st x) := by
  cases v with
  | zx7 => exact decodeZx7_wellFormed st
  | zx0 => exact decodeZx0_wellFormed f st
  | megalz => exact decodeMlz_wellFormed st

end

/-! ### The cursor -/

/-- The cursor stands at byte `n` or later and within the stream. -/
def Cursor.Within (x : List Byte) (n : Nat) (c : Cursor) : Prop := n ≤ c.inIdx ∧ c.inIdx ≤ x.length

theorem Reader.Forward.spec {α : Type} {x : List Byte} {r : Reader α} (h : Reader.Forward x r) (n : Nat) :
    Reader.Spec (Cursor.Within x n) (fun _ => True) r := by
  intro c d v ⟨hn, hx⟩ hr
  obtain ⟨hle, hx'⟩ := h c d v hr hx
  exact ⟨⟨hn.trans hle, hx'⟩, trivial⟩

theorem readRun_forward (x : List Byte) (L : Nat) : Reader.Forward x (readRun x L) := by
  intro c d bs h hc
  rw [readRun] at h
  split at h
  · cases h
  · next hlen =>
    cases h
    rw [List.length_take, List.length_drop] at hlen
    simp only
    omega

/-- R230: no read moves the cursor back, nor past the end of the stream. -/
theorem Reader.keptByReads_within (x : List Byte) (n : Nat) : Reader.KeptByReads x (Cursor.Within x n) where
  byte := (readByte_forward x).spec n
  bit := (readBit_forward x).spec n
  run := fun L => (readRun_forward x L).spec n
  backtrack := by
    intro c d _ hc h
    cases h
    exact ⟨hc, trivial⟩

/-- Settles O30: the operands' ranges from what the reads answer, the rest because the reads keep the cursor within the stream. -/
theorem decodedTokensAreWellFormed : Obligations.DecodedTokensAreWellFormed := by
  intro f v st x c c' i h hc
  obtain ⟨⟨hle, hx⟩, hi⟩ := decode_spec (Reader.keptByReads_within x c.inIdx) f v st c c' i ⟨Nat.le_refl _, hc⟩ h
  exact ⟨(decode_wellFormed f v st c c' i trivial h).2, hi, hle, hx⟩

end Sys2Proof
end

section
/-! PROOFS. The packer's calls lay out items (spec/30_encoding.md R82, spec/44_packer.md R200 to R204), and what emitting a token
leaves (R205 to R214, R217). -/

namespace Sys2Proof
open Sys2Proof.Machine

/-! ### The positions a layout has used (R217) -/

/-- The positions of the stream's bytes but the free ones of its open bit-group byte. -/
def Layout.used (l : Layout) : Nat := 8 * l.out.length - l.free

theorem Layout.Sound.free_le_length {l : Layout} (hl : l.Sound) : l.free ≤ 7 ∧ l.free ≤ 8 * l.out.length := by
  obtain ⟨h7, hgroup⟩ := hl
  refine ⟨h7, ?_⟩
  by_cases h : l.free = 0
  · omega
  · have := hgroup h
    omega

theorem Layout.put_used {l : Layout} (hl : l.Sound) (it : Item) : (l.put it).used = l.used + itemBits [it] := by
  obtain ⟨h7, hlen⟩ := hl.free_le_length
  cases it with
  | byte b =>
    simp only [Layout.used, Layout.put, List.length_append, List.length_singleton, itemBits, List.map_cons, List.map_nil,
      List.sum_cons, List.sum_nil]
    omega
  | bit b =>
    have hbits : itemBits [.bit b] = 1 := rfl
    have hput := Layout.put_length l (.bit b)
    by_cases h : l.free = 0
    · have hfree : (l.put (.bit b)).free = 7 := by rw [Layout.put_bit_open b h]
      simp only [h, if_true] at hput
      rw [Layout.used, Layout.used, hput, hfree, h, hbits]
      omega
    · have hfree : (l.put (.bit b)).free = l.free - 1 := by rw [Layout.put_bit_next b h]
      simp only [h, if_false] at hput
      rw [Layout.used, Layout.used, hput, hfree, hbits]
      omega

theorem Layout.foldl_put_used (items : List Item) {l : Layout} (hl : l.Sound) :
    (items.foldl Layout.put l).used = l.used + itemBits items := by
  induction items generalizing l with
  | nil => rfl
  | cons it items ih =>
    have hcons : itemBits (it :: items) = itemBits [it] + itemBits items := by simp [itemBits]
    rw [List.foldl_cons, ih (Layout.put_sound hl it), Layout.put_used hl, hcons, Nat.add_assoc]

theorem Layout.length_eq {l : Layout} (hl : l.Sound) : l.out.length = (l.used + 7) / 8 := by
  obtain ⟨h7, hlen⟩ := hl.free_le_length
  rw [Layout.used]
  omega

end Sys2Proof

namespace Sys2Proof.Machine

/-! ### The mask and the free positions (R201, R217) -/

/-- Between two bits of a group the mask stands on the next free position. -/
theorem unusedBits_mask {m : Byte} (h : maskOk m) (h128 : m ≠ 128) :
    unusedBits m ≤ 7 ∧ (unusedBits m = 0 ↔ m = 0) ∧
      (m ≠ 0 → m = 1#8 <<< (unusedBits m - 1) ∧ unusedBits (m >>> 1) = unusedBits m - 1) := by
  obtain rfl | rfl | rfl | rfl | rfl | rfl | rfl | rfl | rfl := h
  case inr.inr.inr.inr.inr.inr.inr.inr => exact absurd rfl h128
  all_goals decide

theorem layoutOf_sound {s : State} (h : s.packerOk) : (layoutOf s).Sound := by
  obtain ⟨hm, h128, hidx⟩ := h
  obtain ⟨h7, hzero, -⟩ := unusedBits_mask hm h128
  exact ⟨h7, fun h0 => hidx fun hm0 => h0 (hzero.2 hm0)⟩

theorem costBits_eq_used (s : State) : s.costBits = (layoutOf s).used := rfl

/-! ### Calls that lay out items -/

/-- `t` is `s` with the items laid out: the stream, and the packer's other state between two tokens. -/
structure LaidOut (s : State) (items : List Item) (t : State) : Prop where
  layout : layoutOf t = items.foldl Layout.put (layoutOf s)
  lastOffset : t.pk.lastOffset = s.pk.lastOffset
  prevKind : t.pk.prevKind = s.pk.prevKind
  backtrack : t.pk.backtrack = false

/-- Where OBUF has room for the items laid out, the calls lay them out from `s` on. -/
def State.Lays (s : State) (cs : List Call) (items : List Item) : Prop :=
  (items.foldl Layout.put (layoutOf s)).out.length ≤ obufSize s.params → ∃ t, s.calls cs = .ok t ∧ LaidOut s items t

/-- From every state without a pending backtrack, the calls lay the items out. -/
def CallsLay (cs : List Call) (items : List Item) : Prop :=
  ∀ s : State, s.packerOk → s.pk.backtrack = false → s.Lays cs items

theorem CallsLay.nil : CallsLay [] [] := fun s _ hb _ => ⟨s, rfl, rfl, rfl, rfl, hb⟩

theorem CallsLay.append {cs ds : List Call} {a b : List Item} (hc : CallsLay cs a) (hd : CallsLay ds b) :
    CallsLay (cs ++ ds) (a ++ b) := by
  intro s hs hb room
  rw [List.foldl_append] at room
  obtain ⟨t, ht, hl, hlo, hpk, hbt⟩ := hc s hs hb (Nat.le_trans (Layout.foldl_put_length_le b _) room)
  have hpacked := State.calls_packed ht
  obtain ⟨u, hu, hl', hlo', hpk', hbt'⟩ := hd t (hpacked.packer hs) hbt (by rwa [hl, hpacked.params])
  refine ⟨u, ?_, ?_, hlo'.trans hlo, hpk'.trans hpk, hbt'⟩
  · rw [State.calls_append, ht]
    exact hu
  · rw [hl', hl, List.foldl_append]

theorem State.calls_cons {s t : State} {c : Call} (h : s.call c = .ok t) (cs : List Call) :
    s.calls (c :: cs) = t.calls cs := by
  rw [State.calls, h]

theorem State.calls_single {s t : State} {c : Call} (h : s.call c = .ok t) : s.calls [c] = .ok t := State.calls_cons h []

theorem callsLay_byte (v : Byte) : CallsLay [.byte v] [.byte v] := by
  intro s _ hb room
  have hroom : s.obuf.length < obufSize s.params := by simpa [layoutOf, Layout.put] using room
  exact ⟨_, State.calls_single (State.writeByte_ok_iff.2 ⟨hroom, rfl⟩), rfl, rfl, rfl, hb⟩

theorem orByte_append (l : List Byte) (b m : Byte) : orByte (l ++ [b]) l.length m = l ++ [b ||| m] := by simp [orByte]

/-- A bit-group byte opened at the end of OBUF (R201). -/
def State.openGroup (s : State) : State :=
  { s with obuf := s.obuf ++ [0], pk := { s.pk with bitMask := 0x80, bitIndex := s.obuf.length } }

theorem State.writeBit_open {s : State} (hb : s.pk.backtrack = false) (h0 : s.pk.bitMask = 0)
    (hroom : s.obuf.length < obufSize s.params) (v : Bool) : s.writeBit v = .ok (s.openGroup.putBit v) := by
  have hwrite : ({ s with pk := { s.pk with bitMask := 0x80, bitIndex := s.outIdx } } : State).writeByte 0x00 =
      .ok s.openGroup := State.writeByte_ok_iff.2 ⟨hroom, rfl⟩
  rw [State.writeBit, if_neg (Bool.eq_false_iff.1 hb), if_pos h0, hwrite]

theorem State.writeBit_next {s : State} (hb : s.pk.backtrack = false) (h0 : s.pk.bitMask ≠ 0) (v : Bool) :
    s.writeBit v = .ok (s.putBit v) := by
  rw [State.writeBit, if_neg (Bool.eq_false_iff.1 hb), if_neg h0]

theorem State.writeBit_slot {s : State} (hb : s.pk.backtrack = true) (v : Bool) :
    s.writeBit v = .ok { s with
      obuf := if v then orByte s.obuf (s.obuf.length - 1) 0x01 else s.obuf
      pk := { s.pk with backtrack := false } } := by
  rw [State.writeBit, if_pos hb]
  rfl

theorem layoutOf_putBit (s : State) (v : Bool) :
    layoutOf (s.putBit v) =
      { out := if v then orByte s.obuf s.pk.bitIndex s.pk.bitMask else s.obuf
        group := s.pk.bitIndex
        free := unusedBits (s.pk.bitMask >>> 1) } := rfl

theorem layoutOf_openGroup_putBit (s : State) (v : Bool) :
    layoutOf (s.openGroup.putBit v) =
      { out := s.obuf ++ [if v then 0x80 else 0], group := s.obuf.length, free := 7 } := by
  have hfree : unusedBits ((0x80 : Byte) >>> 1) = 7 := by decide
  have hput : orByte (s.obuf ++ [0]) s.obuf.length 0x80 = s.obuf ++ [0x80] := orByte_append _ _ _
  rw [layoutOf_putBit]
  cases v
  · exact congrArg (Layout.mk _ _) hfree
  · exact congrArg₂ (Layout.mk · _ ·) hput hfree

/-- `WriteBit` (R201) opens a bit group exactly where the layout does. -/
theorem callsLay_bit (v : Bool) : CallsLay [.bit v] [.bit v] := by
  intro s hs hb room
  obtain ⟨hm, h128, hidx⟩ := hs
  obtain ⟨-, hzero, hnext⟩ := unusedBits_mask hm h128
  rw [List.foldl_cons, List.foldl_nil] at room
  by_cases h0 : s.pk.bitMask = 0
  · have hput := Layout.put_bit_open (l := layoutOf s) v (hzero.2 h0)
    have hroom : s.obuf.length < obufSize s.params := by
      rw [hput] at room
      simpa [layoutOf] using room
    refine ⟨_, State.calls_single (State.writeBit_open hb h0 hroom v), ?_, rfl, rfl, hb⟩
    rw [List.foldl_cons, List.foldl_nil, hput, layoutOf_openGroup_putBit]
    rfl
  · obtain ⟨hmask, hshift⟩ := hnext h0
    have hput := Layout.put_bit_next (l := layoutOf s) v fun h => h0 (hzero.1 h)
    refine ⟨_, State.calls_single (State.writeBit_next hb h0 v), ?_, rfl, rfl, hb⟩
    rw [List.foldl_cons, List.foldl_nil, hput, layoutOf_putBit, hshift]
    simp only [layoutOf, ← hmask]

theorem callsLay_bits (bs : List Bool) : CallsLay (bitCalls bs) (bitItems bs) := by
  induction bs with
  | nil => exact .nil
  | cons b bs ih => exact (callsLay_bit b).append ih

theorem callsLay_bytes (bs : List Byte) : CallsLay (byteCalls bs) (bs.map .byte) := by
  induction bs with
  | nil => exact .nil
  | cons b bs ih => exact (callsLay_byte b).append ih

/-- R202, R83: the bit behind `SetBacktrack` lands in bit 0 of the byte before it. -/
theorem callsLay_slot (v : Byte) (b : Bool) :
    CallsLay [.byte v, .backtrack, .bit b] [.byte (v ||| if b then 1 else 0)] := by
  intro s _ hb room
  have hroom : s.obuf.length < obufSize s.params := by simpa [layoutOf, Layout.put] using room
  have hwrite : s.call (.byte v) = .ok { s with obuf := s.obuf ++ [v] } := State.writeByte_ok_iff.2 ⟨hroom, rfl⟩
  have hslot := State.writeBit_slot (s := { s with obuf := s.obuf ++ [v], pk := { s.pk with backtrack := true } }) rfl b
  have hout : (if b then orByte (s.obuf ++ [v]) ((s.obuf ++ [v]).length - 1) 0x01 else s.obuf ++ [v]) =
      s.obuf ++ [v ||| if b then 1 else 0] := by
    cases b
    · simp
    · rw [List.length_append, List.length_singleton, Nat.add_sub_cancel]
      exact orByte_append _ _ _
  exact ⟨_, (State.calls_cons hwrite _).trans ((State.calls_cons rfl _).trans (State.calls_single hslot)),
    congrArg (Layout.mk · _ _) hout, rfl, rfl, rfl⟩

/-- The bit dropped at the start of a ZX0 stream (R203) leaves no trace. -/
theorem CallsLay.afterDroppedBit {cs : List Call} {items : List Item} (h : CallsLay cs items) {s : State} (hs : s.packerOk)
    (hb : s.pk.backtrack = true) : s.Lays (.bit false :: cs) items := by
  intro room
  obtain ⟨t, ht, hl, hlo, hpk, hbt⟩ := h { s with pk := { s.pk with backtrack := false } } hs rfl room
  have hdrop : s.call (.bit false) = .ok { s with pk := { s.pk with backtrack := false } } := State.writeBit_slot hb false
  exact ⟨t, (State.calls_cons hdrop cs).trans ht, hl, hlo, hpk, hbt⟩

/-! ### The tokens' calls -/

/-- The calls of a copy from a new ZX0 offset (R209): the length's first bit goes to the slot. -/
theorem callsLay_zx0Cpy (f : Fmt) (o L : Nat) :
    CallsLay (.bit true :: writeIGamma f.pol f.inv (zx0Msb o) ++ [.byte (zx0Lsb f.pol o), .backtrack] ++
      writeIGamma f.pol false (L - 1)) (zx0CpyItems f o L) := by
  have hcalls : [.byte (zx0Lsb f.pol o), .backtrack] ++ writeIGamma f.pol false (L - 1) =
      [.byte (zx0Lsb f.pol o), .backtrack, .bit ((igammaBits f.pol false (L - 1)).head?.getD false)] ++
        bitCalls (igammaBits f.pol false (L - 1)).tail := by
    conv_lhs => rw [writeIGamma, igammaBits_eq_cons]
    rfl
  rw [List.append_assoc, hcalls, zx0CpyItems, List.append_assoc]
  exact (callsLay_bits _).append ((callsLay_slot _ _).append (callsLay_bits _))

theorem callsLay_offShort (o : Nat) : CallsLay (writeOffShort o) (mlzOffShort o) :=
  (callsLay_bits [false]).append (callsLay_byte _)

theorem callsLay_offLong (o : Nat) : CallsLay (writeOffLong o) (mlzOffLong o) :=
  (callsLay_bits _).append (callsLay_byte _)

/-- `t` with the packer's ZX0 state and the phase as a token leaves them (R207 to R211). -/
def afterToken (s : State) (i : Instr) (t : State) : State :=
  { t with
    pk := { t.pk with lastOffset := (packerAfter s i).1, prevKind := (packerAfter s i).2 }
    phase := if isEnd i then (if s.reversed then .reverseOut else .capacity) else .emit }

/-- After the token's calls, `post` leaves the packer's ZX0 state and the phase as they must be. -/
def Finishes (s : State) (i : Instr) (post : State → State) : Prop :=
  ∀ t, t = { s with obuf := t.obuf, pk := t.pk } → LaidOut s (tokenItems s.fmt i) t → post t = afterToken s i t

/-- The token is emitted from `s` by calls that lay out its items, and what finishes it. -/
def EmitsByCalls (s : State) (i : Instr) : Prop :=
  ∃ cs post, exec i s = .next (s.emitThen cs post) ∧ s.Lays cs (tokenItems s.fmt i) ∧ Finishes s i post

section
variable {s : State} {i : Instr} (hp : s.phase = .emit)
include hp

theorem finishes_id (hpk : packerAfter s i = (s.pk.lastOffset, s.pk.prevKind)) (hend : isEnd i = false) :
    Finishes s i id := by
  intro t ht hl
  rw [afterToken, hpk, hend, ← hl.lastOffset, ← hl.prevKind, ← hp, ht]
  rfl

theorem finishes_kind {k : PrevKind} (hpk : packerAfter s i = (s.pk.lastOffset, k)) (hend : isEnd i = false) :
    Finishes s i (State.setPrevKind · k) := by
  intro t ht hl
  rw [afterToken, hpk, hend, ← hl.lastOffset, ← hp, ht]
  rfl

theorem finishes_offsetKind {o : Nat} {k : PrevKind} (hpk : packerAfter s i = (o, k)) (hend : isEnd i = false) :
    Finishes s i fun t => (t.setLastOffset o).setPrevKind k := by
  intro t ht _
  rw [afterToken, hpk, hend, ← hp, ht]
  rfl

omit hp in
theorem finishes_afterBody (hpk : packerAfter s i = (s.pk.lastOffset, s.pk.prevKind)) (hend : isEnd i = true)
    (hcomp : s.compressing = true) : Finishes s i State.afterBody := by
  intro t ht hl
  have hrev : t.reversed = s.reversed := by rw [ht]; rfl
  have hcomp' : t.compressing = true := by rw [ht]; exact hcomp
  rw [afterToken, hpk, hend, ← hl.lastOffset, ← hl.prevKind, State.afterBody, hrev, hcomp']
  rfl

end

/-- Every token the packer is ready for is emitted by calls that lay out its items (R205 to R214). -/
theorem emitsByCalls {s : State} {i : Instr} (hi : tokenVariant i = some s.variant) (hw : i.wellFormed = true)
    (hp : s.phase = .emit) (hs : s.packerOk) (hready : emitReady s i) (hcomp : s.compressing = true) : EmitsByCalls s i := by
  have hrun {u e : State → State} {v : Variant} (hv : some v = some s.variant) : s.runToken v u e = .next (e s) :=
    s.runToken_emit v u e (Option.some.inj hv).symm hp
  have hcopy {o L : Nat} {cs : State → List Call} {post u : State → State} {v : Variant}
      (hv : some v = some s.variant) (h : copyInRange s.latch.mode o L = true) :
      s.runToken v u (fun s => s.emitCopy o L (cs s) post) = .next (s.emitThen (cs s) post) :=
    (hrun hv).trans (congrArg _ (if_pos h))
  have hbitByte (c : Bool) (b : Byte) (hb : s.pk.backtrack = false) : s.Lays [.bit c, .byte b] [.bit c, .byte b] :=
    ((callsLay_bit c).append (callsLay_byte b)) s hs hb
  cases i with
  | compress | decompress => cases hi
  | zx7First b => exact ⟨_, _, (hrun hi : execZx7First b s = _), callsLay_byte b s hs hready, finishes_id hp rfl rfl⟩
  | zx7Lit b => exact ⟨_, _, (hrun hi : execZx7Lit b s = _), hbitByte false b hready, finishes_id hp rfl rfl⟩
  | zx7CpyS o L =>
    exact ⟨_, _, (hcopy hi hready.2 : execZx7CpyS o L s = _),
      ((callsLay_bits (true :: gammaBits (L - 1))).append (callsLay_byte _)) s hs hready.1, finishes_id hp rfl rfl⟩
  | zx7CpyL o L =>
    exact ⟨_, _, (hcopy hi hready.2 : execZx7CpyL o L s = _),
      (((callsLay_bits (true :: gammaBits (L - 1))).append (callsLay_byte _)).append (callsLay_bits _)) s hs hready.1,
      finishes_id hp rfl rfl⟩
  | zx7End => exact ⟨_, _, (hrun hi : execZx7End s = _), callsLay_bits _ s hs hready, finishes_afterBody rfl rfl hcomp⟩
  | zx0Lit0 bs =>
    exact ⟨_, _, (hrun hi : execZx0Lit0 bs s = _),
      ((callsLay_bits _).append (callsLay_bytes bs)).afterDroppedBit hs hready, finishes_kind hp rfl rfl⟩
  | zx0Lit bs =>
    exact ⟨_, _, (hrun hi : execZx0Lit bs s = _),
      ((callsLay_bits (false :: igammaBits _ false bs.length)).append (callsLay_bytes bs)) s hs hready,
      finishes_kind hp rfl rfl⟩
  | zx0Rep L =>
    have hL : s.pk.prevKind = .lit ∧ 1 ≤ L := ⟨hready.2, (zx0Codable_iff.1 hw).1⟩
    exact ⟨_, _, ((hrun hi).trans (congrArg _ (if_pos hL)) : execZx0Rep L s = _),
      callsLay_bits (false :: igammaBits _ false L) s hs hready.1, finishes_kind hp rfl rfl⟩
  | zx0Cpy o L =>
    exact ⟨_, _, (hcopy hi hready.2 : execZx0Cpy o L s = _), callsLay_zx0Cpy s.fmt o L s hs hready.1,
      finishes_offsetKind hp rfl rfl⟩
  | zx0End =>
    exact ⟨_, _, (hrun hi : execZx0End s = _), callsLay_bits (true :: igammaBits _ _ 256) s hs hready,
      finishes_afterBody rfl rfl hcomp⟩
  | mlzFirst b => exact ⟨_, _, (hrun hi : execMlzFirst b s = _), callsLay_byte b s hs hready, finishes_id hp rfl rfl⟩
  | mlzLit b => exact ⟨_, _, (hrun hi : execMlzLit b s = _), hbitByte true b hready, finishes_id hp rfl rfl⟩
  | mlzCpy1 o =>
    exact ⟨_, _, (hcopy hi hready.2 : execMlzCpy1 o s = _), callsLay_bits _ s hs hready.1, finishes_id hp rfl rfl⟩
  | mlzCpy2 o =>
    exact ⟨_, _, (hcopy hi hready.2 : execMlzCpy2 o s = _), ((callsLay_bits _).append (callsLay_byte _)) s hs hready.1,
      finishes_id hp rfl rfl⟩
  | mlzCpy3S o =>
    exact ⟨_, _, (hcopy hi hready.2 : execMlzCpy3S o s = _), ((callsLay_bits _).append (callsLay_offShort o)) s hs hready.1,
      finishes_id hp rfl rfl⟩
  | mlzCpy3L o =>
    exact ⟨_, _, (hcopy hi hready.2 : execMlzCpy3L o s = _), ((callsLay_bits _).append (callsLay_offLong o)) s hs hready.1,
      finishes_id hp rfl rfl⟩
  | mlzCpyNS o L =>
    exact ⟨_, _, (hcopy hi hready.2 : execMlzCpyNS o L s = _),
      ((callsLay_bits ([false, true, true] ++ gammaBits (L - 3))).append (callsLay_offShort o)) s hs hready.1,
      finishes_id hp rfl rfl⟩
  | mlzCpyNL o L =>
    exact ⟨_, _, (hcopy hi hready.2 : execMlzCpyNL o L s = _),
      ((callsLay_bits ([false, true, true] ++ gammaBits (L - 3))).append (callsLay_offLong o)) s hs hready.1,
      finishes_id hp rfl rfl⟩
  | mlzEnd => exact ⟨_, _, (hrun hi : execMlzEnd s = _), callsLay_bits _ s hs hready, finishes_afterBody rfl rfl hcomp⟩

theorem State.emitThen_ok {s t : State} {cs : List Call} (h : s.calls cs = .ok t) (post : State → State) :
    s.emitThen cs post = post t := by
  rw [State.emitThen, h]
  rfl

/-- Settles O44: the calls of the token lay out its items, the layout counts its positions, and what finishes the token only
sets the packer's ZX0 state and the phase. -/
theorem emittedTokenAppendsItsEncoding : Obligations.EmittedTokenAppendsItsEncoding := by
  intro s i hi hw hp hs hready hcomp room
  obtain ⟨cs, post, hexec, hlays, hfin⟩ := emitsByCalls hi hw hp hs hready hcomp
  obtain ⟨t, ht, hl⟩ := hlays room
  have hframe := State.calls_frame cs s t ht
  have htok : t.packerOk := (State.calls_packed ht).packer hs
  have hcost : t.costBits = s.costBits + itemBits (tokenItems s.fmt i) := by
    rw [costBits_eq_used, hl.layout, Layout.foldl_put_used _ (layoutOf_sound hs), costBits_eq_used]
  refine ⟨afterToken s i t, ?_, hl.layout, rfl, rfl, hl.backtrack, htok, hcost, Layout.length_eq (layoutOf_sound htok), ?_⟩
  · rw [hexec, State.emitThen_ok ht, hfin t hframe hl]
  · rw [afterToken, hframe]

end Sys2Proof.Machine
end

section
/-! PROOFS. Operations that stand for a part of the input (spec/43_parser.md R174, R177, R181, R191): where one stands, where a
sequence of them stands, and what matches of the input say about copies (spec/41_match_index.md R140). -/

namespace Sys2Proof.Machine

/-! ### Costs (R151) -/

/-- The cost is finite and at most `k`. -/
def Cost.AtMost (c : Cost) (k : Nat) : Prop := ∃ j ≤ k, c = some j

theorem Cost.AtMost.mono {c : Cost} {k m : Nat} (h : c.AtMost k) (hk : k ≤ m) : c.AtMost m := by
  obtain ⟨j, hj, hc⟩ := h
  exact ⟨j, hj.trans hk, hc⟩

@[simp] theorem Cost.atMost_some {j k : Nat} : Cost.AtMost (some j) k ↔ j ≤ k := by
  simp [Cost.AtMost]

theorem Cost.less_some_eq_false {k : Nat} {c : Cost} : Cost.less (some k) c = false ↔ c.AtMost k := by
  cases c <;> simp [Cost.less, Cost.AtMost]

/-- A cost not below `some k` that takes its place leaves at most `k`. -/
theorem Cost.atMost_of_not_less {k : Nat} {c : Cost} (h : ¬ Cost.less (some k) c = true) : c.AtMost k :=
  Cost.less_some_eq_false.1 (Bool.eq_false_iff.2 h)

theorem Cost.AtMost.of_less {c d : Cost} {k : Nat} (h : d.AtMost k) (hl : Cost.less c d = true) : c.AtMost k := by
  obtain ⟨j, hj, rfl⟩ := h
  cases c with
  | none => cases hl
  | some a =>
    have : a < j := by simpa [Cost.less] using hl
    exact Cost.atMost_some.2 (by omega)

theorem Cost.plus_eq_some {c d : Cost} {k : Nat} :
    Cost.plus c d = some k ↔ ∃ a b, c = some a ∧ d = some b ∧ k = a + b := by
  cases c <;> cases d <;> simp [Cost.plus, eq_comm]

theorem Cost.less_isSome {c d : Cost} (h : Cost.less c d = true) : ∃ k, c = some k := by
  cases c with
  | none => cases h
  | some k => exact ⟨k, rfl⟩

/-! ### Matches (R140) -/

theorem commonPrefix_le (c : Nat) (a b : List Byte) : commonPrefix c a b ≤ c := by
  induction c generalizing a b with
  | zero => simp [commonPrefix]
  | succ c ih =>
    cases a with
    | nil => simp [commonPrefix]
    | cons u a =>
      cases b with
      | nil => simp [commonPrefix]
      | cons v b =>
        rw [commonPrefix]
        split
        · exact Nat.succ_le_succ (ih a b)
        · exact Nat.zero_le _

/-- Within their common beginning both sequences have an element, and the same. -/
theorem commonPrefix_spec {c k : Nat} {a b : List Byte} (h : k < commonPrefix c a b) :
    k < a.length ∧ k < b.length ∧ a[k]? = b[k]? := by
  induction c generalizing a b k with
  | zero => simp [commonPrefix] at h
  | succ c ih =>
    cases a with
    | nil => simp [commonPrefix] at h
    | cons u a =>
      cases b with
      | nil => simp [commonPrefix] at h
      | cons v b =>
        rw [commonPrefix] at h
        split at h
        · next huv =>
          cases k with
          | zero => simp [huv]
          | succ k => simpa using ih (Nat.lt_of_succ_lt_succ h)
        · exact absurd h (Nat.not_lt_zero k)

/-- `Copy(o, L)` at position `p` of the input gives the input's next `L` bytes: each is the one `o` places before it. -/
structure Copies (x : List Byte) (p o L : Nat) : Prop where
  one_le : 1 ≤ o
  le : o ≤ p
  within : p + L ≤ x.length
  same : ∀ k, p ≤ k → k < p + L → x[k]? = x[k - o]?

/-- A forward match is a copy. -/
theorem copies_of_matchForward {x : List Byte} {p o L c : Nat} (h1 : 1 ≤ o) (ho : o ≤ p) (hp : p < x.length)
    (hL : L ≤ matchForward x p o c) : Copies x p o L := by
  have hspec (k : Nat) (hk : k < L) := commonPrefix_spec (Nat.lt_of_lt_of_le hk hL)
  refine ⟨h1, ho, ?_, fun k hk hkL => ?_⟩
  · cases L with
    | zero => exact Nat.le_of_lt hp
    | succ n =>
      have := (hspec n n.lt_succ_self).1
      rw [List.length_drop] at this
      omega
  · obtain ⟨-, -, hsame⟩ := hspec (k - p) (by omega)
    simp only [List.getElem?_drop] at hsame
    rwa [show p + (k - p) = k by omega, show p - o + (k - p) = k - o by omega] at hsame

/-! ### Operations in place -/

/-- What a copy costs in a format that begins with FIRST (R153, R157). -/
def copyCost : Variant → Nat → Nat → Cost
  | .zx7 => costCopyZx7
  | .zx0 => fun _ _ => none
  | .megalz => costCopyMlz

/-- The operation of a format that begins with FIRST stands for the input from position `p` to before `q`, and its token takes
`b` bits (R152, R153, R157, R158). -/
def Op.Stands (v : Variant) (x : List Byte) (p q b : Nat) : Op → Prop
  | .first a => p = 0 ∧ x[p]? = some a ∧ q = p + 1 ∧ b = costFirst
  | .lit a => 1 ≤ p ∧ x[p]? = some a ∧ q = p + 1 ∧ b = 9
  | .run _ => False
  | .copy o L => Copies x p o L ∧ q = p + L ∧ copyCost v o L = some b

/-- The operations stand for the input from `p` to before `q`, one after the other, in `b` bits together. -/
inductive Stand (v : Variant) (x : List Byte) : Nat → List Op → Nat → Nat → Prop
  | nil (p : Nat) : Stand v x p [] p 0
  | cons {p q r b c : Nat} {op : Op} {ops : List Op} :
      op.Stands v x p q b → Stand v x q ops r c → Stand v x p (op :: ops) r (b + c)

theorem Stand.single {v : Variant} {x : List Byte} {p q b : Nat} {op : Op} (h : op.Stands v x p q b) :
    Stand v x p [op] q b := .cons h (.nil q)

theorem Stand.append {v : Variant} {x : List Byte} {p q r b c : Nat} {ops ops' : List Op} (h : Stand v x p ops q b)
    (k : Stand v x q ops' r c) : Stand v x p (ops ++ ops') r (b + c) := by
  induction h with
  | nil p => simpa using k
  | cons hop _ ih => rw [Nat.add_assoc]; exact .cons hop (ih k)

/-- FIRST and the operations of the rest of the input. -/
theorem Stand.withFirst {v : Variant} {x : List Byte} {q b : Nat} {ops : List Op} (hx : x ≠ []) (h : Stand v x 1 ops q b) :
    Stand v x 0 (withFirst x ops) q (8 + b) := by
  cases x with
  | nil => exact absurd rfl hx
  | cons a x => exact .cons ⟨rfl, rfl, rfl, rfl⟩ h

end Sys2Proof.Machine
end

section
/-! PROOFS. The MegaLZ parses (spec/43_parser.md R180, R181, R190): what the tables of the optimal parse hold, the operations
recovered from them and their bits, the greedy choice, and the bound between the two (spec/40_host_commands.md R132). -/

namespace Sys2Proof.Machine

/-! ### Transitions -/

/-- The parsers may go from the first `p` bytes to the first `p + L` in `b` bits: by the literal (`o = 0`), or by an offered
copy (R145). -/
def MlzMove (x : List Byte) (p o L b : Nat) : Prop :=
  (o = 0 ∧ L = 1 ∧ b = costLitMlz) ∨ ((o, L) ∈ mlzCandidates x p ∧ costCopyMlz o L = some b)

theorem mem_upTo {k m : Nat} : k ∈ upTo m ↔ 1 ≤ k ∧ k ≤ m := by
  rw [upTo, List.mem_range'_1]
  omega

theorem mem_mlzCandidates {x : List Byte} {p o L : Nat} :
    (o, L) ∈ mlzCandidates x p ↔
      (1 ≤ o ∧ o ≤ min Config.mlzMaxOffset p) ∧
        (1 ≤ L ∧ L ≤ matchForward x p o (min Config.mlzMaxLen (x.length - p))) ∧ (costCopyMlz o L).isSome = true := by
  simp [mlzCandidates, mem_upTo, and_assoc]

theorem copies_of_mem_mlzCandidates {x : List Byte} {p o L : Nat} (hp : p < x.length) (h : (o, L) ∈ mlzCandidates x p) :
    Copies x p o L := by
  obtain ⟨⟨h1, ho⟩, ⟨-, hL⟩, -⟩ := mem_mlzCandidates.1 h
  exact copies_of_matchForward h1 (ho.trans (min_le_right _ _)) hp hL

theorem MlzMove.literal (x : List Byte) (p : Nat) : MlzMove x p 0 1 costLitMlz := .inl ⟨rfl, rfl, rfl⟩

theorem MlzMove.bounds {x : List Byte} {p o L b : Nat} (hp : p < x.length) (h : MlzMove x p o L b) :
    1 ≤ L ∧ p + L ≤ x.length := by
  obtain ⟨-, rfl, -⟩ | ⟨hc, -⟩ := h
  · exact ⟨Nat.le_refl 1, hp⟩
  · exact ⟨(mem_mlzCandidates.1 hc).2.1.1, (copies_of_mem_mlzCandidates hp hc).within⟩

/-- The operation of a move stands for the bytes it covers. -/
theorem MlzMove.stand {x : List Byte} {p o L b : Nat} (h1 : 1 ≤ p) (hp : p < x.length) (h : MlzMove x p o L b) :
    Stand .megalz x p (literalOrCopy x p o L) (p + L) b := by
  rw [literalOrCopy]
  obtain ⟨rfl, rfl, rfl⟩ | ⟨hc, hb⟩ := h
  · rw [if_pos rfl, List.getElem?_eq_getElem hp]
    exact .single ⟨h1, List.getElem?_eq_getElem hp, rfl, rfl⟩
  · have hcopies := copies_of_mem_mlzCandidates hp hc
    rw [if_neg (Nat.ne_of_gt hcopies.one_le)]
    exact .single ⟨hcopies, rfl, hb⟩

/-! ### One relaxation (R180) -/

@[simp] theorem mlzRelax_length (es : List MlzEntry) (p o L : Nat) (bits : Cost) :
    (mlzRelax es p o L bits).length = es.length := by
  rw [mlzRelax]
  split <;> simp

/-- Only the entry reached may change. -/
theorem mlzRelax_getElem?_of_ne {es : List MlzEntry} {p o L q : Nat} {bits : Cost} (h : q ≠ p + L) :
    (mlzRelax es p o L bits)[q]? = es[q]? := by
  rw [mlzRelax]
  split
  · exact List.getElem?_set_ne h.symm
  · rfl

theorem mlzCost_congr {es es' : List MlzEntry} {q : Nat} (h : es'[q]? = es[q]?) : mlzCost es' q = mlzCost es q := by
  rw [mlzCost, mlzCost, h]

/-- The entry reached is as before, or the transition's, which is cheaper. -/
theorem mlzRelax_cases {es : List MlzEntry} {p o L b : Nat} (hlen : p + L < es.length) :
    ((mlzRelax es p o L (some b))[p + L]? = es[p + L]? ∧
        ∀ c, mlzCost es p = some c → (mlzCost es (p + L)).AtMost (c + b)) ∨
      ∃ c, mlzCost es p = some c ∧ Cost.less (some (c + b)) (mlzCost es (p + L)) = true ∧
        (mlzRelax es p o L (some b))[p + L]? = some { cost := some (c + b), pred := some (p, o, L) } := by
  rw [mlzRelax]
  split
  · next hless =>
    obtain ⟨k, hk⟩ := Cost.less_isSome hless
    obtain ⟨c, b', hc, hb, rfl⟩ := Cost.plus_eq_some.1 hk
    cases hb
    rw [hk] at hless ⊢
    exact .inr ⟨c, hc, hless, List.getElem?_set_self hlen⟩
  · next hless =>
    refine .inl ⟨rfl, fun c hc => ?_⟩
    rw [hc] at hless
    exact Cost.atMost_of_not_less hless

theorem mlzCost_of_getElem? {es : List MlzEntry} {q : Nat} {e : MlzEntry} (h : es[q]? = some e) : mlzCost es q = e.cost := by
  rw [mlzCost, h]

theorem mlzRelax_reaches {es : List MlzEntry} {p o L b c : Nat} (hlen : p + L < es.length) (hc : mlzCost es p = some c) :
    (mlzCost (mlzRelax es p o L (some b)) (p + L)).AtMost (c + b) := by
  obtain ⟨hsame, hle⟩ | ⟨c', hc', -, hnew⟩ := mlzRelax_cases (o := o) (b := b) hlen
  · rw [mlzCost_congr hsame]
    exact hle c hc
  · cases hc.symm.trans hc'
    rw [mlzCost_of_getElem? hnew]
    exact Cost.atMost_some.2 (Nat.le_refl _)

theorem mlzRelax_atMost {es : List MlzEntry} {p o L b q k : Nat} (hlen : p + L < es.length) (h : (mlzCost es q).AtMost k) :
    (mlzCost (mlzRelax es p o L (some b)) q).AtMost k := by
  by_cases hq : q = p + L
  · subst hq
    obtain ⟨hsame, -⟩ | ⟨c, -, hless, hnew⟩ := mlzRelax_cases (o := o) (b := b) hlen
    · rwa [mlzCost_congr hsame]
    · rw [mlzCost_of_getElem? hnew]
      exact h.of_less hless
  · rwa [mlzCost_congr (mlzRelax_getElem?_of_ne hq)]

/-! ### One position (R180) -/

/-- The transitions of one position in their order: the offered copies, then the literal. -/
def mlzMoves (x : List Byte) (p : Nat) : List (Nat × Nat × Cost) :=
  (mlzCandidates x p).map (fun c => (c.1, c.2, costCopyMlz c.1 c.2)) ++ [(0, 1, some costLitMlz)]

theorem mem_mlzMoves {x : List Byte} {p o L : Nat} {bits : Cost} :
    (o, L, bits) ∈ mlzMoves x p ↔ ∃ b, bits = some b ∧ MlzMove x p o L b := by
  simp only [mlzMoves, List.mem_append, List.mem_map, List.mem_singleton, Prod.mk.injEq, Prod.exists]
  constructor
  · rintro (⟨o', L', hc, rfl, rfl, rfl⟩ | ⟨rfl, rfl, rfl⟩)
    · obtain ⟨b, hb⟩ := Option.isSome_iff_exists.1 (mem_mlzCandidates.1 hc).2.2
      exact ⟨b, hb, .inr ⟨hc, hb⟩⟩
    · exact ⟨_, rfl, .literal x p⟩
  · rintro ⟨b, rfl, ⟨rfl, rfl, rfl⟩ | ⟨hc, hb⟩⟩
    · exact .inr ⟨rfl, rfl, rfl⟩
    · exact .inl ⟨o, L, hc, rfl, rfl, hb⟩

theorem mlzScanAt_eq (x : List Byte) (es : List MlzEntry) (p : Nat) :
    mlzScanAt x es p = (mlzMoves x p).foldl (fun es m => mlzRelax es p m.1 m.2.1 m.2.2) es := by
  rw [mlzScanAt, mlzMoves, List.foldl_append, List.foldl_map]
  rfl

/-- Relaxations of moves of one position keep what each of them keeps. -/
theorem foldl_mlzRelax_induction {P : List MlzEntry → Prop} {x : List Byte} {p : Nat} {ms : List (Nat × Nat × Cost)}
    (hms : ∀ m ∈ ms, m ∈ mlzMoves x p)
    (hstep : ∀ es o L b, MlzMove x p o L b → P es → P (mlzRelax es p o L (some b))) {es : List MlzEntry} (h : P es) :
    P (ms.foldl (fun es m => mlzRelax es p m.1 m.2.1 m.2.2) es) := by
  refine List.foldlRecOn ms _ h fun es' h' m hm => ?_
  obtain ⟨o, L, bits⟩ := m
  obtain ⟨b, rfl, hmove⟩ := mem_mlzMoves.1 (hms _ hm)
  exact hstep es' o L b hmove h'

/-- What every relaxation of a move keeps, a position of the scan keeps. -/
theorem mlzScanAt_induction {P : List MlzEntry → Prop} {x : List Byte} {p : Nat}
    (hstep : ∀ es o L b, MlzMove x p o L b → P es → P (mlzRelax es p o L (some b))) {es : List MlzEntry} (h : P es) :
    P (mlzScanAt x es p) := by
  rw [mlzScanAt_eq]
  exact foldl_mlzRelax_induction (fun _ hm => hm) hstep h

section
variable {x : List Byte} {es : List MlzEntry} {p : Nat} (hlen : es.length = x.length + 1) (hp : p < x.length)

@[simp] theorem mlzScanAt_length (x : List Byte) (es : List MlzEntry) (p : Nat) :
    (mlzScanAt x es p).length = es.length :=
  mlzScanAt_induction (P := fun es' => es'.length = es.length)
    (fun _ _ _ _ _ h => (mlzRelax_length _ _ _ _ _).trans h) rfl

include hp in
/-- The entries up to `p` are settled. -/
theorem mlzScanAt_settled {q : Nat} (hq : q ≤ p) : (mlzScanAt x es p)[q]? = es[q]? :=
  mlzScanAt_induction (P := fun es' => es'[q]? = es[q]?)
    (fun es' o L b hm h => (mlzRelax_getElem?_of_ne (by have := (hm.bounds hp).1; omega)).trans h) rfl

include hlen hp

/-- No cost rises. -/
theorem mlzScanAt_atMost {q k : Nat} (h : (mlzCost es q).AtMost k) : (mlzCost (mlzScanAt x es p) q).AtMost k := by
  refine (mlzScanAt_induction (P := fun es' => es'.length = es.length ∧ (mlzCost es' q).AtMost k)
    (fun es' o L b hm ⟨hl, h'⟩ => ⟨by simpa using hl, mlzRelax_atMost ?_ h'⟩) ⟨rfl, h⟩).2
  have := (hm.bounds hp).2
  omega

/-- Every move from `p` is relaxed. -/
theorem mlzScanAt_reaches {o L b c : Nat} (hm : MlzMove x p o L b) (hc : mlzCost es p = some c) :
    (mlzCost (mlzScanAt x es p) (p + L)).AtMost (c + b) := by
  obtain ⟨ms, ms', hsplit⟩ := List.append_of_mem (mem_mlzMoves.2 ⟨b, rfl, hm⟩)
  have hin {m : Nat × Nat × Cost} (h : m ∈ ms ∨ m ∈ ms') : m ∈ mlzMoves x p := by
    rw [hsplit]
    grind
  rw [mlzScanAt_eq, hsplit, List.foldl_append, List.foldl_cons]
  have hbefore := foldl_mlzRelax_induction (P := fun es' => es'.length = es.length ∧ mlzCost es' p = some c)
    (es := es) (fun m hm => hin (.inl hm)) (fun es' o L b hm ⟨hl, h'⟩ => ⟨by simpa using hl, by
      rwa [mlzCost_congr (mlzRelax_getElem?_of_ne (by have := (hm.bounds hp).1; omega))]⟩) ⟨rfl, hc⟩
  generalize ms.foldl (fun es m => mlzRelax es p m.1 m.2.1 m.2.2) es = es₁ at hbefore ⊢
  obtain ⟨hl, hc₁⟩ := hbefore
  have hbound {o L b : Nat} (hm : MlzMove x p o L b) : p + L < es.length := by
    have := (hm.bounds hp).2
    omega
  refine (foldl_mlzRelax_induction
    (P := fun es' => es'.length = es.length ∧ (mlzCost es' (p + L)).AtMost (c + b)) (fun m hm => hin (.inr hm))
    (fun es' o L b hm ⟨hl, h'⟩ => ⟨by simpa using hl, mlzRelax_atMost (hl ▸ hbound hm) h'⟩)
    ⟨by simpa using hl, mlzRelax_reaches (hl ▸ hbound hm) hc₁⟩).2

end

/-! ### The whole scan (R180, R181) -/

/-- The entry `q` of a finite cost is a move's from an entry before `i`, at that entry's cost and the move's. -/
def MlzChained (x : List Byte) (i : Nat) (es : List MlzEntry) : Prop :=
  ∀ q e c, 2 ≤ q → es[q]? = some e → e.cost = some c → ∃ p o L b c',
    (1 ≤ p ∧ p < i) ∧ q = p + L ∧ e.pred = some (p, o, L) ∧ MlzMove x p o L b ∧ mlzCost es p = some c' ∧ c = c' + b

/-- What the entries hold once the positions before `i` are scanned. -/
structure MlzSound (x : List Byte) (i : Nat) (es : List MlzEntry) : Prop where
  length : es.length = x.length + 1
  start : mlzCost es 1 = some 8
  bounded : ∀ q, 1 ≤ q → q ≤ i → (mlzCost es q).AtMost (9 * q - 1)
  relaxed : ∀ p o L b c, 1 ≤ p → p < i → MlzMove x p o L b → mlzCost es p = some c →
    (mlzCost es (p + L)).AtMost (c + b)
  chained : MlzChained x i es

theorem mlzBuild_succ (x : List Byte) {i : Nat} (h : 1 ≤ i) : mlzBuild x (i + 1) = mlzScanAt x (mlzBuild x i) i := by
  obtain ⟨i, rfl⟩ := Nat.exists_eq_add_of_le' h
  simp only [mlzBuild, Nat.add_sub_cancel, List.range'_1_concat, List.foldl_append, List.foldl_cons, List.foldl_nil]
  rw [Nat.add_comm 1 i]

theorem mlzInit_getElem? {n q : Nat} (h : q ≤ n) :
    (mlzInit n)[q]? = some { cost := if q = 0 then some 0 else if q = 1 then some costFirst else none, pred := none } := by
  simp [mlzInit, Nat.lt_succ_of_le h]

theorem mlzInit_sound {x : List Byte} (hx : x ≠ []) : MlzSound x 1 (mlzInit x.length) := by
  have hlen : 1 ≤ x.length := List.length_pos_iff.2 hx
  have hstart : mlzCost (mlzInit x.length) 1 = some 8 := mlzCost_of_getElem? (mlzInit_getElem? hlen)
  refine ⟨by simp [mlzInit], hstart, fun q h1 hq => ?_, fun p o L b c h1 hp => by omega, fun q e c h2 he hc => ?_⟩
  · rw [Nat.le_antisymm hq h1, hstart]
    exact Cost.atMost_some.2 (Nat.le_refl 8)
  · have hq : q ≤ x.length := by
      have := (List.getElem?_eq_some_iff.1 he).1
      simp only [mlzInit, List.length_map, List.length_range] at this
      omega
    rw [mlzInit_getElem? hq, if_neg (by omega), if_neg (by omega)] at he
    cases he
    cases hc

/-- A relaxation from the position `i` leaves the entries chained. -/
theorem MlzChained.relax {x : List Byte} {i o L b : Nat} {es : List MlzEntry} (h : MlzChained x (i + 1) es) (h1 : 1 ≤ i)
    (hlen : i + L < es.length) (hL : 1 ≤ L) (hm : MlzMove x i o L b) :
    MlzChained x (i + 1) (mlzRelax es i o L (some b)) := by
  have hkept {p : Nat} (hp : p < i + 1) : mlzCost (mlzRelax es i o L (some b)) p = mlzCost es p :=
    mlzCost_congr (mlzRelax_getElem?_of_ne (by omega))
  intro q e c h2 he hc
  have hold (he : es[q]? = some e) : ∃ p o' L' b' c', (1 ≤ p ∧ p < i + 1) ∧ q = p + L' ∧ e.pred = some (p, o', L') ∧
      MlzMove x p o' L' b' ∧ mlzCost (mlzRelax es i o L (some b)) p = some c' ∧ c = c' + b' := by
    obtain ⟨p, o', L', b', c', hp, hq, hpred, hm', hc', rfl⟩ := h q e c h2 he hc
    exact ⟨p, o', L', b', c', hp, hq, hpred, hm', (hkept hp.2).trans hc', rfl⟩
  by_cases hq : q = i + L
  · subst hq
    obtain ⟨hsame, -⟩ | ⟨c', hc', -, hnew⟩ := mlzRelax_cases (o := o) (b := b) hlen
    · exact hold (hsame ▸ he)
    · cases hnew.symm.trans he
      cases hc
      exact ⟨i, o, L, b, c', ⟨h1, i.lt_succ_self⟩, rfl, rfl, hm, (hkept i.lt_succ_self).trans hc', rfl⟩
  · exact hold ((mlzRelax_getElem?_of_ne hq).symm.trans he)

theorem MlzSound.scanAt {x : List Byte} {i : Nat} {es : List MlzEntry} (h : MlzSound x i es) (h1 : 1 ≤ i)
    (hi : i < x.length) : MlzSound x (i + 1) (mlzScanAt x es i) := by
  have hsettled {q : Nat} (hq : q ≤ i) : mlzCost (mlzScanAt x es i) q = mlzCost es q :=
    mlzCost_congr (mlzScanAt_settled hi hq)
  have hchained : MlzChained x (i + 1) es := by
    intro q e c h2 he hc
    obtain ⟨p, o, L, b, c', ⟨hp1, hp⟩, rest⟩ := h.chained q e c h2 he hc
    exact ⟨p, o, L, b, c', ⟨hp1, Nat.lt_succ_of_lt hp⟩, rest⟩
  refine ⟨(mlzScanAt_length x es i).trans h.length, (hsettled h1).trans h.start, fun q hq1 hq => ?_,
    fun p o L b c hp1 hp hm hc => ?_, ?_⟩
  · obtain rfl | hlt := Nat.eq_or_lt_of_le hq
    · obtain ⟨c, hc, hci⟩ := h.bounded i h1 (Nat.le_refl i)
      refine (mlzScanAt_reaches h.length hi (.literal x i) hci).mono ?_
      rw [costLitMlz]
      omega
    · rw [hsettled (Nat.le_of_lt_succ hlt)]
      exact h.bounded q hq1 (Nat.le_of_lt_succ hlt)
  · rw [hsettled (Nat.le_of_lt_succ hp)] at hc
    obtain rfl | hlt := Nat.eq_or_lt_of_le (Nat.le_of_lt_succ hp)
    · exact mlzScanAt_reaches h.length hi hm hc
    · exact mlzScanAt_atMost h.length hi (h.relaxed p o L b c hp1 hlt hm hc)
  · refine (mlzScanAt_induction (P := fun es' => es'.length = es.length ∧ MlzChained x (i + 1) es')
      (fun es' o L b hm ⟨hl, h'⟩ => ⟨by simpa using hl, h'.relax h1 ?_ (hm.bounds hi).1 hm⟩) ⟨rfl, hchained⟩).2
    have := (hm.bounds hi).2
    have := h.length
    omega

theorem mlzBuild_sound {x : List Byte} (hx : x ≠ []) {i : Nat} (h1 : 1 ≤ i) (hi : i ≤ x.length) :
    MlzSound x i (mlzBuild x i) := by
  induction i, h1 using Nat.le_induction with
  | base => exact mlzInit_sound hx
  | succ i h1 ih =>
    rw [mlzBuild_succ x h1]
    exact (ih (Nat.le_of_succ_le hi)).scanAt h1 hi

/-- A parse's position gives at most one operation. -/
theorem literalOrCopy_reverse (x : List Byte) (p o L : Nat) :
    (literalOrCopy x p o L).reverse = literalOrCopy x p o L := by
  rw [literalOrCopy]
  split
  · cases x[p]? <;> rfl
  · rfl

/-- The recovered path stands for the input from its second byte on, in the bits that its end's cost is above FIRST's. -/
theorem MlzSound.path_stand {x : List Byte} {es : List MlzEntry} (h : MlzSound x x.length es) {fuel q c : Nat}
    (h1 : 1 ≤ q) (hq : q ≤ x.length) (hfuel : q ≤ fuel + 1) (hc : mlzCost es q = some c) :
    ∃ b, c = 8 + b ∧ Stand .megalz x 1 (mlzPath x es fuel q).reverse q b := by
  induction fuel generalizing q c with
  | zero =>
    obtain rfl : q = 1 := by omega
    cases h.start.symm.trans hc
    exact ⟨0, rfl, .nil 1⟩
  | succ fuel ih =>
    rw [mlzPath]
    split
    · next hle =>
      obtain rfl : q = 1 := by omega
      cases h.start.symm.trans hc
      exact ⟨0, rfl, .nil 1⟩
    · next hgt =>
      have hlt : q < es.length := by rw [h.length]; omega
      have he : es[q]? = some es[q] := List.getElem?_eq_getElem hlt
      obtain ⟨p, o, L, b, c', ⟨hp1, hp⟩, rfl, hpred, hm, hc', rfl⟩ :=
        h.chained q _ c (by omega) he (by rwa [mlzCost_of_getElem? he] at hc)
      have hL := (hm.bounds hp).1
      obtain ⟨b', rfl, hstand⟩ := ih (q := p) hp1 (by omega) (by omega) hc'
      refine ⟨b' + b, by omega, ?_⟩
      rw [he, Option.bind_some, hpred]
      simp only [List.reverse_append, literalOrCopy_reverse]
      exact hstand.append (hm.stand hp1 (by omega))

/-- R181, R191: the operations of the optimal parse stand for the input, in the bits of its cost, which the literals bound. -/
theorem mlzOps_stand {x : List Byte} (hx : x ≠ []) :
    ∃ b, b + 1 ≤ 9 * x.length ∧ mlzCost (mlzBuild x x.length) x.length = some b ∧
      Stand .megalz x 0 (mlzOps x (mlzBuild x x.length)) x.length b := by
  have hlen : 1 ≤ x.length := List.length_pos_iff.2 hx
  have hsound := mlzBuild_sound hx hlen (Nat.le_refl _)
  obtain ⟨c, hle, hc⟩ := hsound.bounded x.length hlen (Nat.le_refl _)
  obtain ⟨b, rfl, hstand⟩ := hsound.path_stand hlen (Nat.le_refl _) (Nat.le_succ _) hc
  exact ⟨8 + b, by omega, hc, hstand.withFirst hx⟩

/-! ### The greedy choice (R190) -/

/-- The choice under way is a move, and its gain is what it says and no less than the literal's. -/
structure GreedyBest.Fair (x : List Byte) (p : Nat) (g : GreedyBest) : Prop where
  move : MlzMove x p g.o g.L g.bits
  gain : g.gain = 8 * (g.L : Int) - g.bits
  least : -1 ≤ g.gain

theorem greedyChoice_fair (x : List Byte) (p : Nat) : (greedyChoice x p).Fair x p := by
  refine List.foldlRecOn (mlzCandidates x p) _ ⟨.literal x p, rfl, Int.le_refl _⟩ fun g hg c hc => ?_
  rw [greedyBetter]
  split
  · next b hb =>
    split
    · next hbetter => exact ⟨.inr ⟨hc, hb⟩, rfl, hg.least.trans (Int.le_of_lt hbetter)⟩
    · exact hg
  · exact hg

/-- No move of the greedy parse takes more bits than literals would. -/
theorem GreedyBest.Fair.bits_le {x : List Byte} {p : Nat} {g : GreedyBest} (h : g.Fair x p) (hp : p < x.length) :
    g.bits ≤ 9 * g.L := by
  have := h.gain
  have := h.least
  have := (h.move.bounds hp).1
  omega

/-- From where the optimal parse is no dearer, it is no dearer at the end either: each greedy move is one it has relaxed. -/
theorem MlzSound.atMost_greedyTotal {x : List Byte} {es : List MlzEntry} (h : MlzSound x x.length es) {fuel p total : Nat}
    (h1 : 1 ≤ p) (hp : p ≤ x.length) (hfuel : x.length ≤ p + fuel) (hc : (mlzCost es p).AtMost total) :
    (mlzCost es x.length).AtMost (greedyTotal x fuel p total) := by
  induction fuel generalizing p total with
  | zero =>
    obtain rfl : p = x.length := by omega
    exact hc
  | succ fuel ih =>
    rw [greedyTotal]
    split
    · next hlt =>
      have hm := (greedyChoice_fair x p).move
      obtain ⟨hL, hend⟩ := hm.bounds hlt
      obtain ⟨c, hct, hcp⟩ := hc
      refine ih (by omega) hend (by omega) ?_
      exact (h.relaxed p _ _ _ c h1 hlt hm hcp).mono (by omega)
    · next hge =>
      obtain rfl : p = x.length := by omega
      exact hc

/-- Settles O55: along the greedy parse, the optimal parse's costs stay at most the greedy total. -/
theorem optimalCostsNoMoreThanGreedy : Obligations.OptimalCostsNoMoreThanGreedy := by
  intro x hx
  have hlen : 1 ≤ x.length := List.length_pos_iff.2 hx
  have hsound := mlzBuild_sound hx hlen (Nat.le_refl _)
  refine Cost.less_some_eq_false.2 (hsound.atMost_greedyTotal (Nat.le_refl 1) hlen (Nat.le_add_left _ _) ?_)
  rw [hsound.start]
  exact Cost.atMost_some.2 (Nat.le_refl 8)

end Sys2Proof.Machine
end

section
/-! PROOFS. A command's phases around its body (spec/40_host_commands.md R124 to R129): the stores that start a command or do not,
the checks, the reversals, the capacity, the write-back and the completion. -/

namespace Sys2Proof.Machine

/-! ### The command's kind, from the latches (R97, R121) -/

theorem State.compressing_iff (s : State) : s.compressing = true ↔ s.latch.cmd = 1 := beq_iff_eq

theorem State.reversed_iff (s : State) : s.reversed = true ↔ s.latch.mode = 1 ∨ s.latch.mode = 3 ∨ s.latch.mode = 5 := by
  rw [State.reversed]
  generalize s.latch.mode = mode
  revert mode
  decide

theorem State.bodyPhase_eq (s : State) : s.bodyPhase = if s.latch.cmd = 1 then .parse else .unpack := by
  simp only [State.bodyPhase, State.compressing_iff]

/-! ### Starting a command (R122 to R124) -/

theorem exec_compress {s : State} (h : s.csr.busy = false) (mode : BitVec 4) :
    exec (.compress mode) s = .next (s.start 1 mode) := by
  rw [exec, execCompress, h, if_neg Bool.false_ne_true]

theorem exec_decompress {s : State} (h : s.csr.busy = false) (mode : BitVec 4) :
    exec (.decompress mode) s = .next (s.start 2 mode) := by
  rw [exec, execDecompress, h, if_neg Bool.false_ne_true]

/-- Settles O5: both are a START, with the snapshot read byte by byte. -/
theorem commandsStart : Obligations.CommandsStart := by
  intro s mode hb
  refine ⟨_, _, exec_compress hb mode, exec_decompress hb mode, rfl, rfl, rfl, rfl, ?_, fun k hk => ?_⟩
  · rw [State.start_image, Memory.readBytes_length]
  · rw [State.start_image, Memory.readBytes_getElem? _ _ _ _ hk]

/-! ### Register stores (R124, R129) -/

/-- An aligned 32-bit store to the window (R64): a START, or its register written. -/
theorem stepStore_aligned {s : State} {a : Word} (hw : s.inWindow a = true) (halign : s.offset a % 4 = 0) (d : BitVec 64) :
    stepStore .w32 a d s = .next
      (if s.offset a = 0x04 ∧ s.csr.busy = false ∧ d.getLsbD 0 = true then
        s.start ((d.truncate 32).extractLsb' 4 2) ((d.truncate 32).extractLsb' 8 4)
      else s.writeReg (s.offset a) (d.truncate 32)) := by
  rw [stepStore_inWindow hw, if_pos (definedAccess_iff.2 ⟨rfl, halign⟩)]

/-- A field within the low half of a store's data. -/
theorem truncate_extractLsb' (d : BitVec 64) {start len : Nat} (h : start + len ≤ 32) :
    (d.truncate 32 : Word).extractLsb' start len = d.extractLsb' start len := by
  ext k hk
  simp only [BitVec.getElem_extractLsb', BitVec.getLsbD_setWidth]
  simp
  omega

/-- What a store that is no START writes on an idle block, register by register (R129). -/
theorem State.writeReg_eq {s : State} (hb : s.csr.busy = false) (off : Nat) (d : Word) :
    s.writeReg off d = { s with csr := { s.csr with
      cmd := if off = 0x04 then d.extractLsb' 4 2 else s.csr.cmd
      mode := if off = 0x04 then d.extractLsb' 8 4 else s.csr.mode
      done := if off = 0x08 ∧ d.getLsbD 1 = true then false else s.csr.done
      err := if off = 0x08 ∧ d.getLsbD 1 = true then false else s.csr.err
      errCode := if off = 0x08 ∧ d.getLsbD 1 = true then 0 else s.csr.errCode
      ie := if off = 0x0C then d.getLsbD 0 else s.csr.ie
      srcAddr := if off = 0x10 then d else s.csr.srcAddr
      srcLen := if off = 0x14 then d else s.csr.srcLen
      dstAddr := if off = 0x18 then d else s.csr.dstAddr
      dstCap := if off = 0x1C then d else s.csr.dstCap } } := by
  unfold State.writeReg
  rw [if_neg (Bool.eq_false_iff.1 hb)]
  split
  case h_2 => cases d.getLsbD 1 <;> simp [State.acknowledge]
  case h_8 =>
    clear hb
    simp only [imp_false] at *
    simp [*]
  all_goals simp

/-- Settles O3: the store is no START, so it is its register's write. -/
theorem otherRegisterStores : Obligations.OtherRegisterStores := by
  intro s a d rest hin hw halign hb hno
  have hstore := stepStore_aligned (s := { s with inputs := rest }) (a := a) hw halign d
  have hno' : ¬ (s.offset a = 0x04 ∧ s.csr.busy = false ∧ d.getLsbD 0 = true) := by
    rintro ⟨hoff, -, hstart⟩
    obtain hne | hbit := hno
    · exact hne hoff
    · exact Bool.false_ne_true (hbit.symm.trans hstart)
  have hwrite := State.writeReg_eq (s := { s with inputs := rest }) hb (s.offset a) (d.truncate 32)
  have hbit (k : Nat) (hk : k < 32) : (d.truncate 32 : Word).getLsbD k = d.getLsbD k := by simp [hk]
  rw [truncate_extractLsb' d (by decide), truncate_extractLsb' d (by decide), hbit 0 (by decide), hbit 1 (by decide)] at hwrite
  rw [step_of_input s _ rest hin]
  refine ⟨_, hstore.trans (congrArg _ ((if_neg hno').trans hwrite)), rfl, rfl, fun hoff hset => ?_⟩
  simp [State.irq, hoff, hset]

/-- Settles O4: a store to CTRL is ignored, a write of `CMD` and `MODE`, or a START. -/
theorem startLatchesAndSnapshots : Obligations.StartLatchesAndSnapshots := by
  intro s a d rest hin hw hoff
  rw [step_of_input s _ rest hin]
  refine ⟨fun hb => ?_, fun hb hbit => ?_, fun hb hbit => ?_⟩
  · exact stepStore_ignored (s := { s with inputs := rest }) hw (.inl hb) d
  · have hstore := stepStore_aligned (s := { s with inputs := rest }) (a := a) hw (show s.offset a % 4 = 0 by rw [hoff]) d
    have hwrite := State.writeReg_eq (s := { s with inputs := rest }) hb (s.offset a) (d.truncate 32)
    rw [truncate_extractLsb' d (by decide), truncate_extractLsb' d (by decide)] at hwrite
    refine hstore.trans (congrArg _ ((if_neg ?_).trans (hwrite.trans ?_)))
    · exact fun ⟨_, _, hstart⟩ => Bool.false_ne_true (hbit.symm.trans hstart)
    · simp [hoff]
  · have hstart := stepStore_start (s := { s with inputs := rest }) (a := a) (d := d) hw hoff hb hbit
    rw [truncate_extractLsb' d (by decide), truncate_extractLsb' d (by decide)] at hstart
    exact hstart

/-! ### Runs and failures -/

/-- Engine steps lead from `s` to `t`. -/
def Reaches (s t : State) : Prop := ∃ n, runEngine n s = .next t

theorem Reaches.refl (s : State) : Reaches s s := ⟨0, rfl⟩

theorem Reaches.head {s t u : State} (h : stepEngine s = .next t) (k : Reaches t u) : Reaches s u := by
  obtain ⟨n, hn⟩ := k
  exact ⟨n + 1, (runEngine_succ_of_step h).trans hn⟩

theorem Reaches.single {s t : State} (h : stepEngine s = .next t) : Reaches s t := .head h (.refl t)

theorem Reaches.trans {s t u : State} (h : Reaches s t) (k : Reaches t u) : Reaches s u := by
  obtain ⟨n, hn⟩ := h
  induction n generalizing s with
  | zero => cases hn; exact k
  | succ n ih =>
    obtain ⟨v, hv, hrun⟩ := runEngine_succ hn
    exact .head hv (ih hrun)

/-- The end of a command with a failure (R127, R266). -/
theorem State.raise_failedFrom {s : State} (hd : s.dutyBroken = false) {e : ErrCode} (he : e ≠ .none) :
    failedFrom s (s.raise e) e := by
  rw [State.raise, State.finish_of_duty _ _ _ _ _ hd]
  have herr : (e != ErrCode.none) = true := bne_iff_ne.2 he
  refine ⟨?_, rfl, rfl, rfl, rfl, rfl⟩
  simp only [completedCsr, herr]

theorem failedFrom.err {s t : State} {e : ErrCode} (h : failedFrom s t e) : t.phase = .idle ∧ t.csr.err = true := by
  obtain ⟨hcsr, -, hidle, -⟩ := h
  rw [hcsr]
  exact ⟨hidle, rfl⟩

theorem EngineFrame.trans {s t u : State} (h : EngineFrame s t) (k : EngineFrame t u) : EngineFrame s u :=
  ⟨k.params.trans h.params, k.csr.trans h.csr, k.latch.trans h.latch, k.mem.trans h.mem, k.inputs.trans h.inputs,
    k.rdata.trans h.rdata, k.dutyBroken.trans h.dutyBroken, k.freeCtr.trans h.freeCtr⟩

/-- A failure later in a command is one of the command. -/
theorem EngineFrame.failedFrom {s t u : State} {e : ErrCode} (h : EngineFrame s t) (k : failedFrom t u e) :
    failedFrom s u e := by
  obtain ⟨hcsr, hmem, hidle, hin, hparams, hrdata⟩ := k
  exact ⟨by rw [hcsr, h.csr], hmem.trans h.mem, hidle, hin.trans h.inputs, hparams.trans h.params, hrdata.trans h.rdata⟩

/-! ### The checks (R125) -/

/-- R68: the buffers share a byte, that at the higher of their bases if any. -/
theorem buffersOverlap_iff (l : Latch) :
    buffersOverlap l = true ↔ ∃ a, inBuffer l.src l.len a = true ∧ inBuffer l.dst l.cap a = true := by
  simp only [buffersOverlap, inBuffer, Bool.and_eq_true, decide_eq_true_eq]
  constructor
  · intro h
    exact ⟨max l.src.toNat l.dst.toNat, by omega⟩
  · rintro ⟨a, h⟩
    omega

theorem buffersInRange_eq_false_iff (l : Latch) :
    buffersInRange l = false ↔ 2 ^ 32 < l.src.toNat + l.len.toNat ∨ 2 ^ 32 < l.dst.toNat + l.cap.toNat := by
  simp only [buffersInRange, Bool.and_eq_false_iff, decide_eq_false_iff_not, Nat.not_le]
  rfl

theorem illegalCommand_iff (l : Latch) :
    illegalCommand l ↔
      (l.cmd ≠ 1 ∧ l.cmd ≠ 2) ∨ 7 < l.mode.toNat ∨ buffersInRange l = false ∨ buffersOverlap l = true := by
  rw [illegalCommand, buffersOverlap_iff, buffersInRange_eq_false_iff, or_assoc]

theorem State.checkError_of_illegal {s : State} (h : illegalCommand s.latch) : s.checkError = some .illegal := by
  rw [State.checkError]
  obtain h | h | h | h := (illegalCommand_iff _).1 h
  · rw [if_pos h]
  · rw [if_pos h, ite_self]
  · rw [if_pos h, ite_self, ite_self]
  · rw [if_pos h, ite_self, ite_self, ite_self]

theorem State.checkError_of_legal {s : State} (h : ¬ illegalCommand s.latch) :
    s.checkError = if s.latch.cmd = 1 ∧ s.params.maxInputLen < s.latch.len.toNat then some .alloc else none := by
  rw [illegalCommand_iff, not_or, not_or, not_or] at h
  obtain ⟨hcmd, hmode, hrange, hoverlap⟩ := h
  rw [State.checkError, if_neg hcmd, if_neg hmode, if_neg hrange, if_neg hoverlap]

/-- Where the checks pass, the mode is none of the reserved ones, and the input of a COMPRESS within `MAX_INPUT_LEN`. -/
theorem State.bounds_of_checkError {s : State} (h : s.checkError = none) :
    s.latch.mode.toNat ≤ 7 ∧ (s.latch.cmd = 1 → s.latch.len.toNat ≤ s.params.maxInputLen) := by
  have hlegal : ¬ illegalCommand s.latch := fun hi => by simp [State.checkError_of_illegal hi] at h
  have hlen : ¬ (s.latch.cmd = 1 ∧ s.params.maxInputLen < s.latch.len.toNat) := fun hi => by
    simp [State.checkError_of_legal hlegal, hi] at h
  refine ⟨?_, fun hc => Nat.le_of_not_lt fun hlt => hlen ⟨hc, hlt⟩⟩
  rw [illegalCommand_iff, not_or, not_or] at hlegal
  exact Nat.le_of_not_lt hlegal.2.1

theorem stepEngine_check {s : State} (h : s.phase = .check) : stepEngine s = .next s.checkStep := by
  simp only [stepEngine, h]

/-- CHECK passed: everything fresh, in the command's first phase. -/
theorem State.checkStep_passed {s : State} (h : s.checkError = none) :
    s.checkStep = { s.fresh with
      phase := if s.latch.len = 0 then .complete else if s.reversed then .reverseIn else s.bodyPhase } := by
  rw [State.checkStep, h]

/-- Settles O7: one step of CHECK, by the first check that fails. -/
theorem commandChecksInOrder : Obligations.CommandChecksInOrder := by
  intro s ⟨hp, _, hd⟩
  refine ⟨1, s.checkStep, runEngine_one (stepEngine_check hp), fun hill => ?_, fun hleg hlen => ?_, fun hleg hlen => ?_⟩
  · rw [checkStep_refused (State.checkError_of_illegal hill)]
    exact State.raise_failedFrom hd (by decide)
  · rw [checkStep_refused (by rw [State.checkError_of_legal hleg, if_pos hlen])]
    exact State.raise_failedFrom hd (by decide)
  · rw [State.checkStep_passed (by rw [State.checkError_of_legal hleg, if_neg hlen])]
    refine ⟨rfl, rfl, rfl, rfl, ?_⟩
    simp only [State.reversed_iff, State.bodyPhase_eq]

/-! ### Reversal and capacity (R122, R123, R126) -/

theorem stepEngine_reverseIn {s : State} (h : s.phase = .reverseIn) :
    stepEngine s = .next { s with image := s.image.reverse, phase := s.bodyPhase } := by
  simp only [stepEngine, h]
  rfl

theorem stepEngine_reverseOut {s : State} (h : s.phase = .reverseOut) :
    stepEngine s = .next { s with
      obuf := s.obuf.reverse, phase := if s.compressing then .capacity else .writeback } := by
  simp only [stepEngine, h]
  rfl

theorem stepEngine_capacity_fits {s : State} (h : s.phase = .capacity) (hfits : s.obuf.length ≤ s.latch.cap.toNat) :
    stepEngine s = .next { s with phase := .writeback } := by
  simp only [stepEngine, h, State.capacityStep]
  exact congrArg _ (if_neg (Nat.not_lt.2 hfits))

theorem stepEngine_capacity_exceeds {s : State} (h : s.phase = .capacity) (hcap : s.latch.cap.toNat < s.obuf.length) :
    stepEngine s = .next (s.raise .alloc) := by
  simp only [stepEngine, h, State.capacityStep]
  exact congrArg _ (if_pos hcap)

/-- Settles O8, phase by phase. -/
theorem reversalAndCapacityPhases : Obligations.ReversalAndCapacityPhases := by
  intro s
  refine ⟨fun hp => ?_, fun hp => ?_, stepEngine_capacity_fits, fun hp hcap hd => ?_⟩
  · rw [stepEngine_reverseIn hp, State.bodyPhase_eq]
  · rw [stepEngine_reverseOut hp]
    simp only [State.compressing_iff]
  · exact ⟨_, stepEngine_capacity_exceeds hp hcap, State.raise_failedFrom hd (by decide)⟩

/-! ### Write-back and completion (R127) -/

theorem stepEngine_writeback {s : State} (h : s.phase = .writeback) : stepEngine s = .next s.writebackStep := by
  simp only [stepEngine, h]

theorem State.writebackStep_of_duty {s : State} (hd : s.dutyBroken = false) :
    s.writebackStep = { s with mem := s.mem.writeBytes s.latch.dst.toNat s.obuf, phase := .complete } := by
  rw [State.writebackStep, if_neg (by simp [hd])]

theorem stepEngine_complete {s : State} (h : s.phase = .complete) (hd : s.dutyBroken = false) :
    stepEngine s = .next { s with
      phase := .idle
      csr := { s.csr with
        busy := false, done := true, err := false, errCode := 0
        resultLen := BitVec.ofNat 32 s.obuf.length
        consumedLen := if s.latch.cmd = 1 then s.latch.len else BitVec.ofNat 32 s.up.cur.inIdx
        costBits := if s.latch.cmd = 1 then BitVec.ofNat 32 s.costBits else 0 } } := by
  simp only [stepEngine, h, State.completeStep, State.finish_of_duty _ _ _ _ _ hd, State.compressing_iff]
  rfl

/-- Settles O10: the write-back step, the completion step, and `raise`. -/
theorem writebackAndComplete : Obligations.WritebackAndComplete := by
  refine ⟨fun s hp hd hw => ?_, fun s t hp h => ?_, fun s hp hd => stepEngine_complete hp hd,
    fun s e hd he => State.raise_failedFrom hd he⟩
  · have hwrite := stepEngine_writeback hp
    rw [State.writebackStep_of_duty hd] at hwrite
    refine ⟨2, _, (runEngine_succ_of_step hwrite).trans (runEngine_one (stepEngine_complete rfl hd)), rfl, fun a => ?_, rfl⟩
    exact Memory.read_writeBytes _ _ _ _ hw
  · rw [stepEngine_writeback hp] at h
    cases h
    rw [State.writebackStep]
    split <;> rfl

/-! ### Empty buffers (R128) -/

/-- A stream never begins with END: its first token outputs a byte or a run (R84, R86, R89). -/
theorem decode_initial {f : Fmt} {v : Variant} {x : List Byte} {i : Instr} {c : Cursor}
    (h : decode f v (DState.initial v) x Cursor.start = .ok (i, c)) :
    (∃ b, i = .zx7First b) ∨ (∃ b, i = .mlzFirst b) ∨ ∃ bs, i = .zx0Lit0 bs ∧ bs ≠ [] := by
  cases v with
  | zx7 =>
    obtain ⟨b, d, -, hi⟩ := Reader.bind_ok _ _ _ _ _ (h : decodeZx7 x .readFirst Cursor.start = _)
    cases hi
    exact .inl ⟨b, rfl⟩
  | megalz =>
    obtain ⟨b, d, -, hi⟩ := Reader.bind_ok _ _ _ _ _ (h : decodeMlz x .readFirst Cursor.start = _)
    cases hi
    exact .inr (.inl ⟨b, rfl⟩)
  | zx0 =>
    obtain ⟨c₀, d₀, hget, h⟩ := Reader.bind_ok _ _ _ _ _ (h : decodeZx0 f x .readLiteralRun Cursor.start = _)
    cases hget
    obtain ⟨L, d, hL, h⟩ := Reader.bind_ok _ _ _ _ _ h
    obtain ⟨bs, d', hbs, hi⟩ := Reader.bind_ok _ _ _ _ _ h
    cases hi
    have h1 := (zx0Codable_iff.1 (readIGamma_answers _ _ _ _ _ trivial hL).2).1
    have hlen := (readRun_answers L _ _ _ trivial hbs).2
    exact .inr (.inr ⟨bs, rfl, fun hnil => by simp [hnil] at hlen; omega⟩)

/-- Settles O9: with no byte to read, CHECK goes on to the completion with everything fresh. -/
theorem emptyBuffersSucceed : Obligations.EmptyBuffersSucceed := by
  refine ⟨fun f v x i c h => decode_initial h, fun s ⟨hp, _, hd⟩ hcheck hlen => ?_⟩
  have hstep := stepEngine_check hp
  rw [State.checkStep_passed hcheck, if_pos hlen] at hstep
  refine ⟨2, _, (runEngine_succ_of_step hstep).trans (runEngine_one (stepEngine_complete rfl hd)), rfl, rfl, ?_⟩
  simp [hlen, State.fresh, State.costBits, Cursor.start]

/-! ### A step runs the decoded instruction (R122 to R124) -/

theorem stepEngine_unpack {s : State} (h : s.phase = .unpack) : stepEngine s = s.unpackStep := by
  simp only [stepEngine, h]

theorem stepEngine_emit {s : State} (h : s.phase = .emit) : stepEngine s = s.emitStep := by
  simp only [stepEngine, h]

theorem stepEngine_unpack_token {s : State} {i : Instr} {c : Cursor} (h : s.phase = .unpack)
    (hi : decode s.fmt s.variant s.up.dstate s.image s.up.cur = .ok (i, c)) : stepEngine s = exec i (s.withCursor c) := by
  rw [stepEngine_unpack h, State.unpackStep, hi]

theorem stepEngine_emit_token {s : State} {i : Instr} (h : s.phase = .emit) (hi : s.nextToken = some i) :
    stepEngine s = exec i s.popOp := by
  rw [stepEngine_emit h, State.emitStep, hi]

/-- Settles O34: the engine's step in UNPACK and EMIT, and the store to CTRL. -/
theorem stepRunsTheDecodedInstruction : Obligations.StepRunsTheDecodedInstruction := by
  refine ⟨fun s i c hin hp hi => ?_, fun s rest i c hin hp hi => ?_, fun s i hin hp hi => ?_,
    fun s rest a d i hin hw hoff hi => ?_⟩
  · rw [step_of_no_input s hin]
    exact stepEngine_unpack_token hp hi
  · rw [step_of_input s _ rest hin]
    exact stepEngine_unpack_token (s := { s with inputs := rest }) hp hi
  · rw [step_of_no_input s hin]
    exact stepEngine_emit_token hp hi
  · exact step_ctrlStore hin hw hoff rfl (by rwa [← decodeCtrl_mask])

end Sys2Proof.Machine
end

section
/-! PROOFS. From CHECK to the command's body, and the emission of a parse in the formats that begin with FIRST
(spec/40_host_commands.md R126, spec/44_packer.md R205, R213, R217): the tokens of the operations, their bits, and the stream
they are laid out as. -/

namespace Sys2Proof.Machine

/-! ### To the body (R126) -/

/-- The bytes in the order the command's body works in (R122, R123). -/
def State.oriented (s : State) (bs : List Byte) : List Byte := if s.reversed then bs.reverse else bs

theorem State.oriented_oriented (s : State) (bs : List Byte) : s.oriented (s.oriented bs) = bs := by
  rw [State.oriented, State.oriented]
  split <;> simp

@[simp] theorem State.oriented_length (s : State) (bs : List Byte) : (s.oriented bs).length = bs.length := by
  rw [State.oriented]
  split <;> simp

theorem State.oriented_ne_nil {s : State} {bs : List Byte} (h : bs ≠ []) : s.oriented bs ≠ [] := by
  rw [← List.length_pos_iff, s.oriented_length]
  exact List.length_pos_iff.2 h

theorem State.oriented_congr {s t : State} (h : t.latch.mode = s.latch.mode) : t.oriented = s.oriented := by
  funext bs
  rw [State.oriented, State.oriented, State.reversed, State.reversed, h]

/-- The command at the start of its body: PARSE or UNPACK, with the image in the body's order. -/
def State.atBody (s : State) : State := { s.fresh with image := s.oriented s.image, phase := s.bodyPhase }

/-- CHECK and REVERSE-IN lead to the body. -/
theorem reaches_atBody {s : State} (h : atCheck s) (hcheck : s.checkError = none) (hlen : s.latch.len ≠ 0) :
    Reaches s s.atBody := by
  have hstep := stepEngine_check h.1
  rw [State.checkStep_passed hcheck, if_neg hlen] at hstep
  refine .head hstep ?_
  cases hr : s.reversed
  · rw [State.atBody, State.oriented, hr]
    exact .refl _
  · rw [State.atBody, State.oriented, hr]
    exact .single (stepEngine_reverseIn rfl)

theorem State.atBody_engineFrame (s : State) : EngineFrame s s.atBody := ⟨rfl, rfl, rfl, rfl, rfl, rfl, rfl, rfl⟩

/-! ### One token emitted -/

/-- The engine's step has emitted the token `i` (R205 to R214): it is laid out after the stream under way. -/
structure EmittedToken (s : State) (i : Instr) (t : State) : Prop where
  layout : layoutOf t = laidOut s i
  lastOffset : t.pk.lastOffset = (packerAfter s i).1
  prevKind : t.pk.prevKind = (packerAfter s i).2
  backtrack : t.pk.backtrack = false
  packerOk : t.packerOk
  frame : t = { s with
    ops := s.ops.tail, obuf := t.obuf, pk := t.pk
    phase := if isEnd i then (if s.reversed then .reverseOut else .capacity) else .emit }

theorem EmittedToken.engineFrame {s t : State} {i : Instr} (h : EmittedToken s i t) : EngineFrame s t := by
  rw [h.frame]; exact ⟨rfl, rfl, rfl, rfl, rfl, rfl, rfl, rfl⟩

theorem emitReady_popOp {s : State} {i : Instr} (h : emitReady s i) : emitReady s.popOp i := by
  cases i <;> exact h

theorem stepEngine_emits {s : State} {i : Instr} (hp : s.phase = .emit) (hi : s.nextToken = some i)
    (hw : i.wellFormed = true) (hs : s.packerOk) (hready : emitReady s i) (hcomp : s.compressing = true)
    (hroom : (laidOut s i).out.length ≤ obufSize s.params) : ∃ t, stepEngine s = .next t ∧ EmittedToken s i t := by
  obtain ⟨t, ht, hl, hlo, hpk, hb, hok, -, -, hframe⟩ := emittedTokenAppendsItsEncoding s.popOp i
    (State.nextToken_tokenVariant (s := s) hi) hw hp hs (emitReady_popOp hready) hcomp hroom
  refine ⟨t, (stepEngine_emit_token hp hi).trans ht, hl, ?_, ?_, hb, hok, hframe⟩
  · rw [hlo]; cases i <;> rfl
  · rw [hpk]; cases i <;> rfl

/-! ### The tokens of a parse -/

/-- The token of an operation in a format that begins with FIRST (R205, R213). -/
def byteToken : Variant → Op → Option Instr
  | .zx7 => tokenZx7
  | .zx0 => fun _ => none
  | .megalz => tokenMlz

/-- The token that ends a variant's stream (R91). -/
def endToken : Variant → Instr
  | .zx7 => .zx7End
  | .zx0 => .zx0End
  | .megalz => .mlzEnd

/-- The items of the stream of a parse: its tokens, and END. -/
def streamItems (v : Variant) (f : Fmt) (ops : List Op) : List Item :=
  (ops.filterMap (byteToken v) ++ [endToken v]).flatMap (tokenItems f)

theorem streamItems_nil (v : Variant) (f : Fmt) : streamItems v f [] = tokenItems f (endToken v) := by
  simp [streamItems]

theorem streamItems_cons {v : Variant} {f : Fmt} {op : Op} {i : Instr} (h : byteToken v op = some i) (ops : List Op) :
    streamItems v f (op :: ops) = tokenItems f i ++ streamItems v f ops := by
  simp [streamItems, h]

theorem State.nextToken_nil {s : State} (h : s.ops = []) : s.nextToken = some (endToken s.variant) := by
  rw [State.nextToken, h]
  cases s.variant <;> rfl

theorem State.nextToken_cons {s : State} {op : Op} {ops : List Op} {i : Instr} (h : s.ops = op :: ops)
    (hi : byteToken s.variant op = some i) : s.nextToken = some i := by
  rw [State.nextToken, h]
  cases hv : s.variant with
  | zx0 => rw [hv] at hi; cases hi
  | zx7 | megalz => rw [hv] at hi; exact hi

/-! ### Bits (R152, R153, R157 to R159) -/

theorem itemBits_append (a b : List Item) : itemBits (a ++ b) = itemBits a + itemBits b := by
  simp [itemBits]

theorem itemBits_bitItems (bs : List Bool) : itemBits (bitItems bs) = bs.length := by
  simp [itemBits, bitItems, Function.comp_def]

theorem gammaBits_length (v : Nat) : (gammaBits v).length = eg v := by
  simp only [gammaBits, eg, List.length_append, List.length_replicate, bitsDown_length]
  omega

theorem itemBits_byte (b : Byte) : itemBits [.byte b] = 8 := rfl

theorem itemBits_endToken (v : Variant) (f : Fmt) : itemBits (tokenItems f (endToken v)) = endBits v := by
  cases v with
  | zx7 | megalz => rfl
  | zx0 =>
    have h : tokenItems f (endToken .zx0) = bitItems (true :: igammaBits f.pol f.inv 256) := rfl
    rw [h, itemBits_bitItems, List.length_cons, igammaBits_length]
    decide

/-- What the token `i` of an operation that stands at position `p` and takes `b` bits must be, for its emission and for its
decoding. -/
structure TokenFor (v : Variant) (op : Op) (p b : Nat) (i : Instr) : Prop where
  token : byteToken v op = some i
  wellFormed : i.wellFormed = true
  notEnd : isEnd i = false
  state : tokenState i = if p = 0 then .readFirst else .readToken
  bits : ∀ f, itemBits (tokenItems f i) = b
  ready : ∀ s : State, s.variant = v → s.pk.backtrack = false → emitReady s i

theorem copyInRange_of_copyCost {v : Variant} {o L b : Nat} (h : copyCost v o L = some b) {s : State} (hv : s.variant = v) :
    copyInRange s.latch.mode o L = true := by
  have hvar : variantOf s.latch.mode = v := hv
  rw [copyInRange, hvar]
  cases v with
  | zx0 => cases h
  | zx7 | megalz => exact Option.isSome_iff_exists.2 ⟨b, h⟩

/-- The token of a ZX7 copy, at its cost (R84, R153). -/
theorem tokenFor_zx7_copy {o L p b : Nat} (h1 : 1 ≤ p) (h : copyCost .zx7 o L = some b) :
    ∃ i, TokenFor .zx7 (.copy o L) p b i := by
  have hstate : DState.readToken = if p = 0 then .readFirst else .readToken := (if_neg (Nat.ne_of_gt h1)).symm
  have hready (s : State) (hv : s.variant = .zx7) := copyInRange_of_copyCost h hv
  have hcost : costCopyZx7 o L = some b := h
  rw [costCopyZx7] at hcost
  split at hcost
  · next hr =>
    obtain ⟨ho1, ho, hL2, hL⟩ := hr
    cases hcost
    by_cases hs : o ≤ 128
    · refine ⟨.zx7CpyS o L, if_pos hs, wellFormed_zx7CpyS.2 ⟨⟨ho1, hs⟩, hL2, hL⟩, rfl, hstate, fun f => ?_,
        fun s hv hb => ⟨hb, hready s hv⟩⟩
      rw [tokenItems, encode, itemBits_append, itemBits_bitItems, itemBits_byte, List.length_cons, gammaBits_length,
        if_pos hs]
      omega
    · refine ⟨.zx7CpyL o L, if_neg hs, wellFormed_zx7CpyL.2 ⟨⟨by omega, ho⟩, hL2, hL⟩, rfl, hstate, fun f => ?_,
        fun s hv hb => ⟨hb, hready s hv⟩⟩
      rw [tokenItems, encode, itemBits_append, itemBits_append, itemBits_bitItems, itemBits_bitItems, itemBits_byte,
        List.length_cons, gammaBits_length, bitsDown_length, if_neg hs]
      omega
  · cases hcost

/-- The cases of R157. -/
theorem costCopyMlz_cases {o L b : Nat} (h : costCopyMlz o L = some b) :
    (1 ≤ o ∧ o ≤ 4352 ∧ 1 ≤ L ∧ L ≤ 255) ∧
      ((L = 1 ∧ o ≤ 8 ∧ b = 6) ∨ (L = 2 ∧ o ≤ 256 ∧ b = 11) ∨ (L = 3 ∧ b = 3 + offBitsMlz o) ∨
        (4 ≤ L ∧ b = 3 + eg (L - 3) + offBitsMlz o)) := by
  have hdef : costCopyMlz o L =
      if o < 1 ∨ 4352 < o ∨ L < 1 ∨ 255 < L then none
      else if L = 1 then (if o ≤ 8 then some 6 else none)
      else if L = 2 then (if o ≤ 256 then some 11 else none)
      else if L = 3 then some (3 + offBitsMlz o) else some (3 + eg (L - 3) + offBitsMlz o) := rfl
  rw [hdef] at h
  split_ifs at h <;> (cases h; omega)

/-- The token of a MegaLZ copy, at its cost (R89, R157). -/
theorem tokenFor_megalz_copy {o L p b : Nat} (h1 : 1 ≤ p) (h : copyCost .megalz o L = some b) :
    ∃ i, TokenFor .megalz (.copy o L) p b i := by
  have hstate : DState.readToken = if p = 0 then .readFirst else .readToken := (if_neg (Nat.ne_of_gt h1)).symm
  have hready (s : State) (hv : s.variant = .megalz) := copyInRange_of_copyCost h hv
  obtain ⟨⟨ho1, ho, -, hL⟩, ⟨rfl, hs, rfl⟩ | ⟨rfl, hs, rfl⟩ | ⟨rfl, rfl⟩ | ⟨hL4, rfl⟩⟩ := costCopyMlz_cases h
  · exact ⟨.mlzCpy1 o, rfl, wellFormed_mlzCpy1.2 ⟨ho1, hs⟩, rfl, hstate, fun _ => rfl,
      fun s hv hb => ⟨hb, hready s hv⟩⟩
  · exact ⟨.mlzCpy2 o, rfl, wellFormed_mlzCpy2.2 ⟨ho1, hs⟩, rfl, hstate, fun _ => rfl,
      fun s hv hb => ⟨hb, hready s hv⟩⟩
  · by_cases hs : o ≤ 256
    · exact ⟨.mlzCpy3S o, congrArg some (if_pos hs), wellFormed_mlzCpy3S.2 ⟨ho1, hs⟩, rfl, hstate,
        fun f => congrArg (3 + ·) (if_pos hs : offBitsMlz o = 9).symm, fun s hv hb => ⟨hb, hready s hv⟩⟩
    · exact ⟨.mlzCpy3L o, congrArg some (if_neg hs), wellFormed_mlzCpy3L.2 ⟨by omega, ho⟩, rfl, hstate,
        fun f => congrArg (3 + ·) (if_neg hs : offBitsMlz o = 13).symm, fun s hv hb => ⟨hb, hready s hv⟩⟩
  · have htoken : byteToken .megalz (.copy o L) = some (if o ≤ 256 then .mlzCpyNS o L else .mlzCpyNL o L) := by
      rw [byteToken, tokenMlz, if_neg (by omega), if_neg (by omega), if_neg (by omega), if_neg (by omega)]
      rfl
    have hbits (off : List Item) (hoff : itemBits off = offBitsMlz o) :
        itemBits (bitItems ([false, true, true] ++ gammaBits (L - 3)) ++ off) = 3 + eg (L - 3) + offBitsMlz o := by
      rw [itemBits_append, itemBits_bitItems, List.length_append, gammaBits_length, hoff]
      rfl
    by_cases hs : o ≤ 256
    · exact ⟨.mlzCpyNS o L, htoken.trans (congrArg some (if_pos hs)), wellFormed_mlzCpyNS.2 ⟨⟨ho1, hs⟩, hL4, hL⟩, rfl, hstate,
        fun f => hbits _ (if_pos hs).symm, fun s hv hb => ⟨hb, hready s hv⟩⟩
    · exact ⟨.mlzCpyNL o L, htoken.trans (congrArg some (if_neg hs)),
        wellFormed_mlzCpyNL.2 ⟨⟨by omega, ho⟩, hL4, hL⟩, rfl, hstate, fun f => hbits _ (if_neg hs).symm,
        fun s hv hb => ⟨hb, hready s hv⟩⟩

/-- Every operation that stands in the input has its token. -/
theorem Op.Stands.token {v : Variant} (hv : v ≠ .zx0) {x : List Byte} {p q b : Nat} {op : Op} (h : op.Stands v x p q b) :
    ∃ i, TokenFor v op p b i := by
  cases v with
  | zx0 => exact absurd rfl hv
  | zx7 =>
    cases op with
    | first a =>
      obtain ⟨rfl, -, -, rfl⟩ := h
      exact ⟨.zx7First a, rfl, rfl, rfl, rfl, fun _ => rfl, fun _ _ hb => hb⟩
    | lit a =>
      obtain ⟨h1, -, -, rfl⟩ := h
      exact ⟨.zx7Lit a, rfl, rfl, rfl, (if_neg (Nat.ne_of_gt h1)).symm, fun _ => rfl, fun _ _ hb => hb⟩
    | run bs => exact h.elim
    | copy o L => exact tokenFor_zx7_copy (h.1.one_le.trans h.1.le) h.2.2
  | megalz =>
    cases op with
    | first a =>
      obtain ⟨rfl, -, -, rfl⟩ := h
      exact ⟨.mlzFirst a, rfl, rfl, rfl, rfl, fun _ => rfl, fun _ _ hb => hb⟩
    | lit a =>
      obtain ⟨h1, -, -, rfl⟩ := h
      exact ⟨.mlzLit a, rfl, rfl, rfl, (if_neg (Nat.ne_of_gt h1)).symm, fun _ => rfl, fun _ _ hb => hb⟩
    | run bs => exact h.elim
    | copy o L => exact tokenFor_megalz_copy (h.1.one_le.trans h.1.le) h.2.2

/-- The positions the stream of a parse takes: its operations' bits, and END's. -/
theorem Stand.itemBits {v : Variant} (hv : v ≠ .zx0) {x : List Byte} {p q b : Nat} {ops : List Op} (h : Stand v x p ops q b)
    (f : Fmt) : itemBits (streamItems v f ops) = b + endBits v := by
  induction h with
  | nil p => rw [streamItems_nil, itemBits_endToken, Nat.zero_add]
  | cons hop _ ih =>
    obtain ⟨i, hi⟩ := hop.token hv
    rw [streamItems_cons hi.token, itemBits_append, hi.bits, ih, Nat.add_assoc]

/-! ### The emission of a parse (R205, R213) -/

/-- Emission done (R218): the items are laid out after the stream under way, and the command goes on. -/
structure EmissionDone (s : State) (items : List Item) (t : State) : Prop where
  layout : layoutOf t = items.foldl Layout.put (layoutOf s)
  packerOk : t.packerOk
  phase : t.phase = if s.reversed then .reverseOut else .capacity
  frame : EngineFrame s t

/-- The packer emits every token of a parse, and END, where OBUF has room for the whole stream. -/
theorem Stand.emission {v : Variant} (hv : v ≠ .zx0) {x : List Byte} {p q b : Nat} {ops : List Op}
    (h : Stand v x p ops q b) {s : State} (hp : s.phase = .emit) (hvar : s.variant = v) (hops : s.ops = ops)
    (hs : s.packerOk) (hb : s.pk.backtrack = false) (hcomp : s.compressing = true)
    (hroom : ((streamItems v s.fmt ops).foldl Layout.put (layoutOf s)).out.length ≤ obufSize s.params) :
    ∃ t, Reaches s t ∧ EmissionDone s (streamItems v s.fmt ops) t := by
  induction h generalizing s with
  | nil p =>
    rw [streamItems_nil] at hroom ⊢
    have hready : emitReady s (endToken v) := by cases v <;> exact hb
    have hwf : (endToken v).wellFormed = true := by cases v <;> rfl
    have hend : isEnd (endToken v) = true := by cases v <;> rfl
    obtain ⟨t, ht, he⟩ := stepEngine_emits hp (hvar ▸ State.nextToken_nil hops) hwf hs hready hcomp hroom
    refine ⟨t, .single ht, he.layout, he.packerOk, ?_, he.engineFrame⟩
    rw [he.frame, hend]
    rfl
  | cons hop _ ih =>
    obtain ⟨i, hi⟩ := hop.token hv
    rw [streamItems_cons hi.token, List.foldl_append] at hroom
    rw [streamItems_cons hi.token]
    obtain ⟨t, ht, he⟩ := stepEngine_emits hp (State.nextToken_cons hops (hvar.symm ▸ hi.token)) hi.wellFormed hs
      (hi.ready s hvar hb) hcomp ((Layout.foldl_put_length_le _ _).trans hroom)
    have hf := he.engineFrame
    have hfmt : t.fmt = s.fmt := State.fmt_congr t s hf.latch hf.params
    have hpt : t.phase = .emit := by rw [he.frame, hi.notEnd]; rfl
    have hopst : t.ops = s.ops.tail := by rw [he.frame]
    obtain ⟨u, hu, hd⟩ := ih hpt ((State.variant_congr t s hf.latch).trans hvar) (hopst.trans (congrArg List.tail hops))
      he.packerOk he.backtrack
      ((State.compressing_congr t s hf.latch).trans hcomp) (by rwa [hfmt, he.layout, hf.params])
    refine ⟨u, .head ht hu, ?_, hd.packerOk, ?_, hf.trans hd.frame⟩
    · rw [hd.layout, hfmt, he.layout, List.foldl_append]
      rfl
    · rw [hd.phase, State.reversed_congr t s hf.latch]

end Sys2Proof.Machine
end

section
/-! PROOFS. Unpacking the stream of a parse in the formats that begin with FIRST (spec/45_unpacker.md R234 to R239, R245): each token
is read back and outputs the bytes its operation stands for. -/

namespace Sys2Proof.Machine

/-! ### Bytes output (R234, R235) -/

/-- Bytes copied as the input's own copy are the input's. -/
theorem eq_take_of_copied {x out : List Byte} {p o L : Nat} (hc : Copies x p o L) (hlen : out.length = p + L)
    (hkeep : ∀ k < p, out[k]? = x[k]?) (hnew : ∀ k < L, out[p + k]? = out[p + k - o]?) : out = x.take (p + L) := by
  have h1 := hc.one_le
  have ho := hc.le
  have heq (k : Nat) (hk : k < p + L) : out[k]? = x[k]? := by
    induction k using Nat.strong_induction_on with
    | _ k ih =>
      by_cases hp : k < p
      · exact hkeep k hp
      · have hn := hnew (k - p) (by omega)
        rw [show p + (k - p) = k by omega] at hn
        rw [hn, ih (k - o) (by omega) (by omega), hc.same k (by omega) hk]
  refine List.ext_getElem? fun k => ?_
  by_cases hk : k < p + L
  · rw [heq k hk, List.getElem?_take_of_lt hk]
  · rw [List.getElem?_eq_none (by omega), List.getElem?_eq_none (by simp; omega)]

/-- The output produced is the input's first `p` bytes, with room for all of it (R123, R234). -/
structure State.Outputs (s : State) (x : List Byte) (p : Nat) : Prop where
  obuf : s.obuf = x.take p
  le : p ≤ x.length
  room : x.length ≤ s.capl
  hist : s.histOk

theorem State.Outputs.length {s : State} {x : List Byte} {p : Nat} (h : s.Outputs x p) : s.obuf.length = p := by
  rw [h.obuf, List.length_take, Nat.min_eq_left h.le]

/-- The next byte of the input output. -/
theorem State.Outputs.output {s : State} {x : List Byte} {p : Nat} (h : s.Outputs x p) {a : Byte} (ha : x[p]? = some a) :
    ∃ t, s.output a = .ok t ∧ t = { s with obuf := t.obuf, hist := t.hist } ∧ t.Outputs x (p + 1) := by
  obtain ⟨hlt, hx⟩ := List.getElem?_eq_some_iff.1 ha
  have hroom : s.obuf.length < s.capl := by
    rw [h.length]
    exact hlt.trans_le h.room
  have hout := (State.output_ok_iff s _ a).2 ⟨hroom, rfl⟩
  refine ⟨_, hout, rfl, ?_, hlt, h.room, State.output_histOk s _ a hout h.hist⟩
  rw [h.obuf, ← hx]
  exact List.take_append_getElem hlt

/-- The input's own copy output. -/
theorem State.Outputs.copy {s : State} {x : List Byte} {p o L : Nat} (h : s.Outputs x p) (hc : Copies x p o L)
    (ho : o ≤ Config.histSize) :
    ∃ t, s.copy o L = .ok t ∧ t = { s with obuf := t.obuf, hist := t.hist } ∧ t.Outputs x (p + L) := by
  have hle : o ≤ s.obuf.length := by
    rw [h.length]
    exact hc.le
  have hfits : s.obuf.length + L ≤ s.capl := by
    rw [h.length]
    exact hc.within.trans h.room
  rw [State.copy_eq_copyLoop s o L hc.one_le hle]
  obtain ⟨t, ht, hframe, hlen, hkeep, hnew, hhist⟩ := State.copyLoop_ok o L s h.hist hc.one_le hle ho hfits
  rw [h.length] at hlen hkeep hnew
  refine ⟨t, ht, hframe, eq_take_of_copied hc hlen (fun k hk => ?_) hnew, hc.within, ?_, hhist⟩
  · rw [hkeep k hk, h.obuf, List.getElem?_take_of_lt hk]
  · rw [hframe]
    exact h.room

/-! ### One token read and run (R236 to R239) -/

/-- A place a token of ZX7 or MegaLZ may stand at (R84, R89). -/
theorem mayStand_of_tokenState {v : Variant} (hv : v ≠ .zx0) {i : Instr} (hi : tokenVariant i = some v) :
    mayStand i (if tokenState i = .readFirst then .first else .afterRun) = true := by
  cases i with
  | zx0Lit0 | zx0Lit | zx0Rep | zx0Cpy | zx0End => exact absurd (Option.some.inj hi).symm hv
  | compress | decompress => cases hi
  | _ => rfl

/-- In its state, a token's reads take off exactly its items. -/
theorem decode_parses {v : Variant} (hv : v ≠ .zx0) (f : Fmt) {i : Instr} (hi : tokenVariant i = some v)
    (hw : i.wellFormed = true) (x : List Byte) : Reader.Parses x (decode f v (tokenState i) x) (tokenItems f i) i := by
  have hat := mayStand_of_tokenState hv hi
  cases v with
  | zx0 => exact absurd rfl hv
  | zx7 =>
    have hp := tokenParses_zx7 f hi hw _ hat x
    rwa [decodeToken_zx7 hi hat] at hp
  | megalz =>
    have hp := tokenParses_megalz f hi hw _ hat x
    rwa [decodeToken_megalz hi hat] at hp

/-- What the token of an operation does to the unpacker (R237, R239). -/
def opEffect (s : State) : Op → Except ErrCode State
  | .first b => State.thenGoto .readToken (s.output b)
  | .lit b => s.output b
  | .run bs => s.outputAll bs
  | .copy o L => s.copy o L

theorem byteToken_variant {v : Variant} {op : Op} {i : Instr} (h : byteToken v op = some i) : tokenVariant i = some v := by
  cases v with
  | zx7 => exact tokenZx7_variant h
  | zx0 => cases h
  | megalz => exact tokenMlz_variant h

theorem exec_zx7_unpack {s : State} (hp : s.phase = .unpack) (hv : s.variant = .zx7) {op : Op} {i : Instr}
    (h : tokenZx7 op = some i) : exec i s = .next (settle s (opEffect s op)) := by
  have hrun (u e : State → State) : s.runToken .zx7 u e = .next (u s) := s.runToken_unpack _ u e hv hp
  cases op with
  | first b => cases h; exact (hrun _ _ : execZx7First b s = _)
  | lit b => cases h; exact (hrun _ _ : execZx7Lit b s = _)
  | run bs => cases h
  | copy o L =>
    rw [tokenZx7] at h
    split at h <;> cases h
    · exact (hrun _ _ : execZx7CpyS o L s = _)
    · exact (hrun _ _ : execZx7CpyL o L s = _)

theorem exec_megalz_unpack {s : State} (hp : s.phase = .unpack) (hv : s.variant = .megalz) {op : Op} {i : Instr}
    (h : tokenMlz op = some i) : exec i s = .next (settle s (opEffect s op)) := by
  have hrun (u e : State → State) : s.runToken .megalz u e = .next (u s) := s.runToken_unpack _ u e hv hp
  cases op with
  | first b => cases h; exact (hrun _ _ : execMlzFirst b s = _)
  | lit b => cases h; exact (hrun _ _ : execMlzLit b s = _)
  | run bs => cases h
  | copy o L =>
    rw [tokenMlz] at h
    split_ifs at h with h0 h1 h2 h3 <;> cases h
    · subst h1; exact (hrun _ _ : execMlzCpy1 o s = _)
    · subst h2; exact (hrun _ _ : execMlzCpy2 o s = _)
    · subst h3; exact (hrun _ _ : execMlzCpy3S o s = _)
    · subst h3; exact (hrun _ _ : execMlzCpy3L o s = _)
    · exact (hrun _ _ : execMlzCpyNS o L s = _)
    · exact (hrun _ _ : execMlzCpyNL o L s = _)

theorem exec_byteToken {v : Variant} {op : Op} {i : Instr} (h : byteToken v op = some i) {s : State} (hp : s.phase = .unpack)
    (hv : s.variant = v) : exec i s = .next (settle s (opEffect s op)) := by
  cases v with
  | zx7 => exact exec_zx7_unpack hp hv h
  | zx0 => cases h
  | megalz => exact exec_megalz_unpack hp hv h

/-- The unpacker has output the first `p` bytes and reads the next token. -/
structure State.UnpacksAt (s : State) (v : Variant) (x : List Byte) (p : Nat) : Prop where
  phase : s.phase = .unpack
  variant : s.variant = v
  outputs : s.Outputs x p
  dstate : s.up.dstate = if p = 0 then .readFirst else .readToken

theorem copyCost_offset_le {v : Variant} {o L b : Nat} (h : copyCost v o L = some b) : o ≤ Config.histSize := by
  refine Nat.le_trans (?_ : o ≤ 4352) (by decide)
  cases v with
  | zx7 =>
    have hcost : costCopyZx7 o L = some b := h
    rw [costCopyZx7] at hcost
    split at hcost
    · next hr => exact hr.2.1.trans (by decide)
    · cases hcost
  | zx0 => cases h
  | megalz => exact (costCopyMlz_cases h).1.2.1

theorem State.UnpacksAt.withCursor {s : State} {v : Variant} {x : List Byte} {p : Nat} (h : s.UnpacksAt v x p) (c : Cursor) :
    (s.withCursor c).UnpacksAt v x p :=
  ⟨h.phase, h.variant, ⟨h.outputs.obuf, h.outputs.le, h.outputs.room, h.outputs.hist⟩, h.dstate⟩

theorem State.UnpacksAt.ofOutputs {s t : State} {v : Variant} {x : List Byte} {p q : Nat} (h : s.UnpacksAt v x p)
    (ht : t = { s with obuf := t.obuf, hist := t.hist }) (ho : t.Outputs x q) (hp : p ≠ 0) (hq : q ≠ 0) :
    t.UnpacksAt v x q := by
  refine ⟨?_, ?_, ho, ?_⟩
  · rw [ht]; exact h.phase
  · rw [ht]; exact h.variant
  · rw [ht, if_neg hq]
    exact h.dstate.trans (if_neg hp)

/-- An operation that stands in the input outputs what it stands for, and the next token is read in ReadToken. -/
theorem Op.Stands.effect {v : Variant} {x : List Byte} {p q b : Nat} {op : Op} (h : op.Stands v x p q b) {s : State}
    (hs : s.UnpacksAt v x p) : ∃ t, opEffect s op = .ok t ∧ t = { s with
      obuf := t.obuf, hist := t.hist, up := { s.up with dstate := t.up.dstate } } ∧ t.UnpacksAt v x q := by
  cases op with
  | first a =>
    obtain ⟨rfl, ha, rfl, -⟩ := h
    obtain ⟨t, ht, hframe, ho⟩ := hs.outputs.output ha
    refine ⟨t.goto .readToken, by rw [opEffect, ht]; rfl, ?_, ?_, ?_, ⟨ho.obuf, ho.le, ho.room, ho.hist⟩, rfl⟩
    · rw [hframe]; rfl
    · rw [hframe]; exact hs.phase
    · rw [hframe]; exact hs.variant
  | lit a =>
    obtain ⟨h1, ha, rfl, -⟩ := h
    obtain ⟨t, ht, hframe, ho⟩ := hs.outputs.output ha
    refine ⟨t, ht, ?_, hs.ofOutputs hframe ho (Nat.ne_of_gt h1) (Nat.succ_ne_zero p)⟩
    rw [hframe]
  | run bs => exact h.elim
  | copy o L =>
    obtain ⟨hc, rfl, hcost⟩ := h
    obtain ⟨t, ht, hframe, ho⟩ := hs.outputs.copy hc (copyCost_offset_le hcost)
    have h1 : 1 ≤ p := hc.one_le.trans hc.le
    refine ⟨t, ht, ?_, hs.ofOutputs hframe ho (by omega) (by omega)⟩
    rw [hframe]

/-- Unpacking done (R245): the input is output, the read position stands at `c`, and the command goes on. -/
structure UnpackingDone (s : State) (x : List Byte) (c : Cursor) (t : State) : Prop where
  obuf : t.obuf = x
  cur : t.up.cur = c
  phase : t.phase = if s.reversed then .reverseOut else .writeback
  frame : EngineFrame s t

theorem exec_endToken {s : State} (hp : s.phase = .unpack) : exec (endToken s.variant) s = .next s.unpackEnd := by
  have hrun (v : Variant) (hv : s.variant = v) (u e : State → State) : s.runToken v u e = .next (u s) :=
    s.runToken_unpack _ u e hv hp
  cases hv : s.variant with
  | zx7 => exact (hrun _ hv _ _ : execZx7End s = _)
  | zx0 => exact (hrun _ hv _ _ : execZx0End s = _)
  | megalz => exact (hrun _ hv _ _ : execMlzEnd s = _)

/-- END read: UNPACK is over. -/
theorem stepEngine_endToken {s : State} {c : Cursor} (hp : s.phase = .unpack) (hcomp : s.compressing = false)
    (hi : decode s.fmt s.variant s.up.dstate s.image s.up.cur = .ok (endToken s.variant, c)) :
    ∃ t, stepEngine s = .next t ∧ UnpackingDone s s.obuf c t := by
  refine ⟨_, (stepEngine_unpack_token hp hi).trans (exec_endToken (s := s.withCursor c) hp), rfl, rfl, ?_,
    ⟨rfl, rfl, rfl, rfl, rfl, rfl, rfl, rfl⟩⟩
  have hc : ((s.withCursor c).goto .done).compressing = false := hcomp
  rw [State.unpackEnd, State.afterBody_phase, hc]
  rfl

/-- The stream yields the items of a sequence, one part after the other, where it does not end in them. -/
theorem yields_append_ok {x : List Byte} {a b : List Item} {c e : Cursor} (h : Yields x c (a ++ b) (.ok e)) :
    ∃ d, Yields x c a (.ok d) ∧ Yields x d b (.ok e) := by
  obtain h | ⟨-, he⟩ := h.append
  · exact h
  · cases he

/-- The unpacker reads back every token of a parse, and END. -/
theorem Stand.unpacking {v : Variant} (hv : v ≠ .zx0) {x : List Byte} {p q b : Nat} {ops : List Op}
    (h : Stand v x p ops q b) (hq : q = x.length) (hx : x ≠ []) {s : State} (hs : s.UnpacksAt v x p)
    (hcomp : s.compressing = false) {c : Cursor} (hy : Yields s.image s.up.cur (streamItems v s.fmt ops) (.ok c)) :
    ∃ t, Reaches s t ∧ UnpackingDone s x c t := by
  induction h generalizing s with
  | nil p =>
    subst hq
    rw [streamItems_nil] at hy
    have hne : x.length ≠ 0 := fun h0 => hx (List.eq_nil_of_length_eq_zero h0)
    have hend := decode_parses hv s.fmt (i := endToken v) (by cases v <;> rfl) (by cases v <;> rfl) s.image _ _ hy
    rw [show tokenState (endToken v) = .readToken by cases v <;> rfl, ← (hs.dstate.trans (if_neg hne)), ← hs.variant] at hend
    obtain ⟨t, ht, hd⟩ := stepEngine_endToken hs.phase hcomp hend
    rw [hs.outputs.obuf, List.take_length] at hd
    exact ⟨t, .single ht, hd⟩
  | cons hop _ ih =>
    obtain ⟨i, hi⟩ := hop.token hv
    rw [streamItems_cons hi.token] at hy
    obtain ⟨d, hyi, hyrest⟩ := yields_append_ok hy
    have hdec := decode_parses hv s.fmt (byteToken_variant hi.token) hi.wellFormed s.image _ _ hyi
    rw [hi.state, ← hs.dstate, ← hs.variant] at hdec
    have hs' := hs.withCursor d
    obtain ⟨t, ht, hframe, hst⟩ := hop.effect hs'
    have hstep : stepEngine s = .next t := by
      rw [stepEngine_unpack_token hs.phase hdec, exec_byteToken hi.token hs'.phase hs'.variant, ht]
      rfl
    have hlatch : t.latch = s.latch := by rw [hframe]; rfl
    have hf : EngineFrame s t := by rw [hframe]; exact ⟨rfl, rfl, rfl, rfl, rfl, rfl, rfl, rfl⟩
    have himage : t.image = s.image := by rw [hframe]; rfl
    have hcur : t.up.cur = d := by rw [hframe]; rfl
    obtain ⟨u, hu, hd⟩ := ih hq hst ((State.compressing_congr t s hlatch).trans hcomp)
      (by rwa [himage, hcur, State.fmt_congr t s hlatch hf.params])
    refine ⟨u, .head hstep hu, hd.obuf, hd.cur, ?_, hf.trans hd.frame⟩
    rw [hd.phase, State.reversed_congr t s hlatch]

end Sys2Proof.Machine
end

section
/-! PROOFS. The ZX7 parse (spec/43_parser.md R170, R177): what an entry holds, and the operations recovered with their bits. -/

namespace Sys2Proof.Machine

/-! ### Backward matches (R140) -/

theorem matchBackward_le (x : List Byte) (i o c : Nat) : matchBackward x i o c ≤ i :=
  (commonPrefix_le _ _ _).trans (min_le_right _ _)

/-- A backward match of the bytes that end at `i` is a copy of them. -/
theorem copies_of_matchBackward {x : List Byte} {i o L c : Nat} (h1 : 1 ≤ o) (ho : o ≤ i) (hi : i < x.length) (hL1 : 1 ≤ L)
    (hL : L ≤ matchBackward x i o c) : Copies x (i + 1 - L) o L := by
  have hspec (k : Nat) (hk : k < L) := commonPrefix_spec (Nat.lt_of_lt_of_le hk hL)
  have hLi : L ≤ i := hL.trans (matchBackward_le x i o c)
  have hlast := (hspec (L - 1) (by omega)).2.1
  rw [List.length_reverse, List.length_take] at hlast
  refine ⟨h1, by omega, by omega, fun k hk hki => ?_⟩
  obtain ⟨hk1, hk2, hsame⟩ := hspec (i - k) (by omega)
  rw [List.length_reverse] at hk1 hk2
  rw [List.getElem?_reverse hk1, List.getElem?_reverse hk2, List.length_take, List.length_take,
    List.getElem?_take_of_lt (by omega), List.getElem?_take_of_lt (by omega),
    show min (i + 1) x.length - 1 - (i - k) = k by omega,
    show min (i + 1 - o) x.length - 1 - (i - k) = k - o by omega] at hsame
  exact hsame

theorem mem_zx7Offsets {x : List Byte} {i o : Nat} (h : o ∈ zx7Offsets x i) : 1 ≤ o ∧ o ≤ i - 1 := by
  obtain ⟨h1, ho⟩ := mem_upTo.1 (List.mem_filter.1 h).1
  exact ⟨h1, ho.trans (min_le_right _ _)⟩

/-! ### One entry (R170) -/

/-- The entry chosen so far at position `i` is the literal's or an offered copy's, and no dearer than the literal. -/
structure Zx7Choice (x : List Byte) (es : List Zx7Entry) (i : Nat) (e : Zx7Entry) : Prop where
  choice : (e.len = 0 ∧ e.cost = Cost.plus (zx7Cost es (i - 1)) (some costLitZx7)) ∨
    (e.off ∈ zx7Offsets x i ∧ 2 ≤ e.len ∧ e.len ≤ matchBackward x i e.off Config.zx7MaxLen ∧
      e.cost = Cost.plus (zx7Cost es (i - e.len)) (costCopyZx7 e.off e.len))
  least : ∀ k, (Cost.plus (zx7Cost es (i - 1)) (some costLitZx7)).AtMost k → e.cost.AtMost k

section
variable {x : List Byte} {es : List Zx7Entry} {i : Nat}

theorem zx7Lengths_choice {o : Nat} (ho : o ∈ zx7Offsets x i) {count L : Nat} {e : Zx7Entry} (h : Zx7Choice x es i e)
    (h2 : 2 ≤ L) (hL : ∀ l, L ≤ l → l < L + count → l ≤ matchBackward x i o Config.zx7MaxLen) :
    Zx7Choice x es i (zx7Lengths es i o count L e) := by
  induction count generalizing L e with
  | zero => exact h
  | succ count ih =>
    rw [zx7Lengths]
    refine ih ?_ (by omega) fun l hl hlt => hL l (by omega) (by omega)
    split
    · next hless =>
      exact ⟨.inr ⟨ho, h2, hL L (Nat.le_refl L) (by omega), rfl⟩, fun k hk => (h.least k hk).of_less hless⟩
    · exact h

theorem zx7Try_choice {os : List Nat} (hos : ∀ o ∈ os, o ∈ zx7Offsets x i) {best : Nat} (hb : 1 ≤ best) {e : Zx7Entry}
    (h : Zx7Choice x es i e) : Zx7Choice x es i (zx7Try x es i os best e) := by
  induction os generalizing best e with
  | nil => exact h
  | cons o os ih =>
    rw [zx7Try]
    split
    · exact h
    · refine ih (fun o' ho' => hos o' (List.mem_cons_of_mem _ ho')) (hb.trans (le_max_left _ _)) ?_
      exact zx7Lengths_choice (hos o List.mem_cons_self) h (by omega) fun l _ hlt => by omega

/-- R170: a position's entry is a choice among its literal and its offered copies. -/
theorem zx7Entry_choice (x : List Byte) (es : List Zx7Entry) {i : Nat} (h1 : 1 ≤ i) : Zx7Choice x es i (zx7Entry x es i) := by
  rw [zx7Entry, if_neg (Nat.ne_of_gt h1)]
  exact zx7Try_choice (fun _ ho => ho) (Nat.le_refl 1) ⟨.inl ⟨rfl, rfl⟩, fun _ h => h⟩

end

/-! ### The whole scan -/

theorem zx7Build_succ (x : List Byte) (i : Nat) : zx7Build x (i + 1) = zx7Build x i ++ [zx7Entry x (zx7Build x i) i] := by
  rw [zx7Build, List.range_succ, List.foldl_append]
  rfl

theorem zx7Build_length (x : List Byte) (i : Nat) : (zx7Build x i).length = i := by
  induction i with
  | zero => rfl
  | succ i ih => rw [zx7Build_succ, List.length_append, ih]; rfl

/-- Later positions leave the entries of earlier ones. -/
theorem zx7Build_getElem? (x : List Byte) {k i : Nat} (h : k < i) :
    (zx7Build x i)[k]? = some (zx7Entry x (zx7Build x k) k) := by
  induction i with
  | zero => exact absurd h (Nat.not_lt_zero k)
  | succ i ih =>
    rw [zx7Build_succ]
    obtain rfl | hlt := Nat.eq_or_lt_of_le (Nat.le_of_lt_succ h)
    · rw [List.getElem?_append_right (Nat.le_of_eq (zx7Build_length x k)), zx7Build_length, Nat.sub_self]
      rfl
    · rw [List.getElem?_append_left (by rwa [zx7Build_length])]
      exact ih hlt

theorem zx7Cost_build (x : List Byte) {k i : Nat} (h : k < i) :
    zx7Cost (zx7Build x i) k = (zx7Entry x (zx7Build x k) k).cost := by
  rw [zx7Cost, zx7Build_getElem? x h]

theorem zx7Cost_build_zero (x : List Byte) {i : Nat} (h : 0 < i) : zx7Cost (zx7Build x i) 0 = some 8 := by
  rw [zx7Cost_build x h]
  rfl

/-- The entry of a position of the scan, in terms of the whole table's costs. -/
theorem zx7Build_choice (x : List Byte) {k n : Nat} (h1 : 1 ≤ k) (h : k < n) :
    Zx7Choice x (zx7Build x n) k (zx7Entry x (zx7Build x k) k) := by
  have hcost {j : Nat} (hj : j < k) : zx7Cost (zx7Build x n) j = zx7Cost (zx7Build x k) j := by
    rw [zx7Cost_build x hj, zx7Cost_build x (hj.trans h)]
  obtain ⟨hchoice, hleast⟩ := zx7Entry_choice x (zx7Build x k) h1
  refine ⟨?_, by rwa [hcost (by omega)]⟩
  obtain ⟨hlen, hc⟩ | ⟨hoff, h2, hM, hc⟩ := hchoice
  · exact .inl ⟨hlen, by rwa [hcost (by omega)]⟩
  · exact .inr ⟨hoff, h2, hM, by rwa [hcost (by omega)]⟩

/-- No beginning of the input costs more than its literals. -/
theorem zx7Cost_atMost (x : List Byte) {k n : Nat} (h : k < n) : (zx7Cost (zx7Build x n) k).AtMost (8 + 9 * k) := by
  induction k with
  | zero =>
    rw [zx7Cost_build_zero x h]
    exact Cost.atMost_some.2 (Nat.le_refl 8)
  | succ k ih =>
    rw [zx7Cost_build x h]
    refine (zx7Build_choice x (Nat.le_add_left 1 k) h).least _ ?_
    obtain ⟨c, hc, hck⟩ := ih (Nat.lt_of_succ_lt h)
    rw [Nat.add_sub_cancel, hck]
    exact Cost.atMost_some.2 (by rw [costLitZx7]; omega)

/-! ### The operations recovered (R177) -/

/-- The recovered path stands for the input from its second byte to the one at `i`. -/
theorem zx7Path_stand {x : List Byte} {fuel i c : Nat} (hi : i < x.length) (hfuel : i ≤ fuel)
    (hc : zx7Cost (zx7Build x x.length) i = some c) :
    ∃ b, c = 8 + b ∧ Stand .zx7 x 1 (zx7Path x (zx7Build x x.length) fuel i).reverse (i + 1) b := by
  have hzero {c : Nat} (hc : zx7Cost (zx7Build x x.length) 0 = some c) : c = 8 :=
    Option.some.inj (hc.symm.trans (zx7Cost_build_zero x (Nat.zero_lt_of_lt hi)))
  induction fuel generalizing i c with
  | zero =>
    obtain rfl : i = 0 := by omega
    exact ⟨0, hzero hc, .nil 1⟩
  | succ fuel ih =>
    rw [zx7Path]
    split
    · next hi0 =>
      subst hi0
      exact ⟨0, hzero hc, .nil 1⟩
    · next hne =>
      have h1 : 1 ≤ i := Nat.pos_of_ne_zero hne
      obtain ⟨hchoice, -⟩ := zx7Build_choice x h1 hi
      rw [zx7Cost_build x hi] at hc
      rw [zx7Build_getElem? x hi, List.getElem?_eq_getElem hi]
      generalize zx7Entry x (zx7Build x i) i = e at hchoice hc
      obtain ⟨hlen, hcost⟩ | ⟨hoff, h2, hM, hcost⟩ := hchoice
      · obtain ⟨c', b, hc', hb, rfl⟩ := Cost.plus_eq_some.1 (hcost.symm.trans hc)
        cases hb
        obtain ⟨b', rfl, hstand⟩ := ih (i := i - 1) (by omega) (by omega) hc'
        rw [Nat.sub_add_cancel h1] at hstand
        refine ⟨b' + 9, by rw [costLitZx7]; omega, ?_⟩
        simp only [hlen, if_true, List.reverse_cons]
        exact hstand.append (.single ⟨h1, List.getElem?_eq_getElem hi, rfl, rfl⟩)
      · obtain ⟨c', b, hc', hb, rfl⟩ := Cost.plus_eq_some.1 (hcost.symm.trans hc)
        have hLi : e.len ≤ i := hM.trans (matchBackward_le _ _ _ _)
        obtain ⟨ho1, ho⟩ := mem_zx7Offsets hoff
        have hcopies := copies_of_matchBackward ho1 (by omega) hi (by omega) hM
        obtain ⟨b', rfl, hstand⟩ := ih (i := i - e.len) (by omega) (by omega) hc'
        refine ⟨b' + b, by omega, ?_⟩
        simp only [if_neg (Nat.ne_of_gt (Nat.lt_of_lt_of_le Nat.zero_lt_two h2)), List.reverse_cons,
          max_eq_right (Nat.le_of_succ_le h2)]
        rw [show i - e.len + 1 = i + 1 - e.len by omega] at hstand
        exact hstand.append (.single ⟨hcopies, by omega, hb⟩)

/-- R177, R191: the ZX7 operations stand for the input, in bits that the literals bound. -/
theorem zx7Ops_stand {x : List Byte} (hx : x ≠ []) :
    ∃ b, b + 1 ≤ 9 * x.length ∧ Stand .zx7 x 0 (zx7Ops x (zx7Build x x.length)) x.length b := by
  have hlen : 1 ≤ x.length := List.length_pos_iff.2 hx
  have hlast : x.length - 1 < x.length := by omega
  obtain ⟨c, hle, hc⟩ := zx7Cost_atMost x hlast
  obtain ⟨b, rfl, hstand⟩ := zx7Path_stand hlast (Nat.sub_le _ 1) hc
  rw [Nat.sub_add_cancel hlen] at hstand
  exact ⟨8 + b, by omega, hstand.withFirst hx⟩

end Sys2Proof.Machine
end

section
/-! PROOFS. Whole commands (spec/40_host_commands.md R122, R123, R131): the runs of the parsers, what a COMPRESS has at CAPACITY, what
a DECOMPRESS has at WRITEBACK, and the round trip of ZX7 and MegaLZ. -/

namespace Sys2Proof.Machine

/-! ### PARSE (R126) -/

/-- PARSE is over: the operations are handed to a fresh packer (R203). -/
structure Parsed (s : State) (ops : List Op) (t : State) : Prop where
  phase : t.phase = .emit
  ops : t.ops = ops
  obuf : t.obuf = []
  pk : t.pk = Packer.start s.variant
  frame : EngineFrame s t

theorem Parsed.of_frame {s t u : State} {ops : List Op} (h : EngineFrame s t) (k : Parsed t ops u) : Parsed s ops u :=
  ⟨k.phase, k.ops, k.obuf, by rw [k.pk, State.variant_congr t s h.latch], h.trans k.frame⟩

theorem State.endParse_parsed (s : State) (ops : List Op) : Parsed s ops (s.endParse ops) :=
  ⟨rfl, rfl, rfl, rfl, ⟨rfl, rfl, rfl, rfl, rfl, rfl, rfl, rfl⟩⟩

theorem stepEngine_parse {s : State} (h : s.phase = .parse) : stepEngine s = .next s.parseStep := by
  simp only [stepEngine, h]

theorem State.parseStep_zx7 {s : State} (h : s.variant = .zx7) : s.parseStep = s.parseZx7 := by
  rw [State.parseStep, h]

theorem State.parseStep_megalz {s : State} (h : s.variant = .megalz) :
    s.parseStep = if s.latch.mode = 6 then s.parseMlzOptimal else s.parseMlzGreedy := by
  rw [State.parseStep, h]

/-- The parser of the command `s` is under way in `u`. -/
structure Scanning (s u : State) : Prop where
  phase : u.phase = .parse
  image : u.image = s.image
  le : u.scan ≤ s.image.length
  frame : EngineFrame s u

theorem Scanning.variant {s u : State} (h : Scanning s u) : u.variant = s.variant := State.variant_congr u s h.frame.latch

/-- A parser whose positions keep `P` and move on comes to the end of the input with `P`, or to where one of them leads with
`F` instead. -/
theorem Scanning.reaches {s : State} {P F : State → Prop}
    (hstep : ∀ u, Scanning s u → P u → u.scan < s.image.length →
      (Scanning s u.parseStep ∧ P u.parseStep ∧ u.scan < u.parseStep.scan) ∨ F u.parseStep)
    {u : State} (hu : Scanning s u) (hP : P u) :
    (∃ t, Reaches u t ∧ Scanning s t ∧ P t ∧ t.scan = s.image.length) ∨ ∃ t, Reaches u t ∧ F t := by
  induction hd : s.image.length - u.scan using Nat.strong_induction_on generalizing u with
  | _ d ih =>
    by_cases hlt : u.scan < s.image.length
    · have hnext := stepEngine_parse hu.phase
      obtain ⟨hu', hP', hmove⟩ | hF := hstep u hu hP hlt
      · refine (ih _ (by omega) hu' hP' rfl).imp ?_ ?_
        · exact fun ⟨t, ht, hrest⟩ => ⟨t, .head hnext ht, hrest⟩
        · exact fun ⟨t, ht, hF⟩ => ⟨t, .head hnext ht, hF⟩
      · exact .inr ⟨_, .single hnext, hF⟩
    · exact .inl ⟨u, .refl u, hu, hP, Nat.le_antisymm hu.le (Nat.le_of_not_lt hlt)⟩

/-- The last step of a parser (R174, R177, R181). -/
theorem Scanning.ends {s u : State} (h : Scanning s u) {ops : List Op} (hops : u.parseStep = u.endParse ops) :
    ∃ t, Reaches u t ∧ Parsed s ops t :=
  ⟨_, .single (stepEngine_parse h.phase), hops ▸ (u.endParse_parsed ops).of_frame h.frame⟩

theorem Scanning.parsed {s u : State} {ops : List Op} (h : Reaches s u) (hu : Scanning s u)
    (hops : u.parseStep = u.endParse ops) : ∃ t, Reaches s t ∧ Parsed s ops t := by
  obtain ⟨t, ht, hparsed⟩ := hu.ends hops
  exact ⟨t, h.trans ht, hparsed⟩

/-- What a position of a parser that never fails makes of the machine `u`. -/
def Scans (s : State) (P : State → Prop) (u : State) : Prop :=
  Scanning s u.parseStep ∧ P u.parseStep ∧ u.scan < u.parseStep.scan

theorem Scanning.reaches_end {s : State} {P : State → Prop}
    (hstep : ∀ u, Scanning s u → P u → u.scan < s.image.length → Scans s P u) (hs : Scanning s s) (hP : P s) :
    ∃ t, Reaches s t ∧ Scanning s t ∧ P t ∧ t.scan = s.image.length :=
  (Scanning.reaches (F := fun _ => False) (fun u hu hPu hlt => .inl (hstep u hu hPu hlt)) hs hP).elim id
    fun ⟨_, _, hF⟩ => hF.elim

section
variable {s : State} (hs : Scanning s s) (h0 : s.scan = 0)
include hs h0

theorem reaches_parsed_zx7 (hv : s.variant = .zx7) (hz : s.zx7 = []) :
    ∃ t, Reaches s t ∧ Parsed s (zx7Ops s.image (zx7Build s.image s.image.length)) t := by
  have hparse {u : State} (hu : Scanning s u) : u.parseStep = u.parseZx7 := State.parseStep_zx7 (hu.variant.trans hv)
  have hstep (u : State) (hu : Scanning s u) (hbuilt : u.zx7 = zx7Build s.image u.scan) (hlt : u.scan < s.image.length) :
      Scans s (fun u => u.zx7 = zx7Build s.image u.scan) u := by
    rw [Scans, hparse hu, State.parseZx7, if_pos (by rwa [hu.image])]
    refine ⟨⟨hu.phase, hu.image, hlt, { hu.frame with }⟩, ?_, Nat.lt_succ_self _⟩
    dsimp only
    rw [zx7Build_succ, hbuilt, hu.image]
  obtain ⟨u, hreach, hu, hbuilt, hend⟩ := Scanning.reaches_end hstep hs (by rw [hz, h0]; rfl)
  refine Scanning.parsed hreach hu ?_
  rw [hparse hu, State.parseZx7, if_neg (by rw [hu.image]; omega), hbuilt, hend, hu.image]

theorem reaches_parsed_mlzOptimal (hv : s.variant = .megalz) (hmode : s.latch.mode = 6)
    (hz : s.mlz = mlzInit s.image.length) :
    ∃ t, Reaches s t ∧ Parsed s (mlzOps s.image (mlzBuild s.image s.image.length)) t := by
  have hparse {u : State} (hu : Scanning s u) : u.parseStep = u.parseMlzOptimal := by
    rw [State.parseStep_megalz (hu.variant.trans hv), if_pos (by rw [hu.frame.latch, hmode])]
  have hstep (u : State) (hu : Scanning s u) (hbuilt : u.mlz = mlzBuild s.image u.scan) (hlt : u.scan < s.image.length) :
      Scans s (fun u => u.mlz = mlzBuild s.image u.scan) u := by
    rw [Scans, hparse hu, State.parseMlzOptimal, if_pos (by rwa [hu.image])]
    refine ⟨⟨hu.phase, hu.image, hlt, { hu.frame with }⟩, ?_, Nat.lt_succ_self _⟩
    dsimp only
    by_cases hscan : u.scan = 0
    · rw [if_pos hscan, hbuilt, hscan]
      rfl
    · rw [if_neg hscan, mlzBuild_succ _ (Nat.pos_of_ne_zero hscan), hbuilt, hu.image]
  obtain ⟨u, hreach, hu, hbuilt, hend⟩ := Scanning.reaches_end hstep hs (by rw [hz, h0]; rfl)
  refine Scanning.parsed hreach hu ?_
  rw [hparse hu, State.parseMlzOptimal, if_neg (by rw [hu.image]; omega), hbuilt, hend, hu.image]

/-- The operations the greedy parse has found stand for the input scanned, in no more bits than literals. -/
def GreedyFound (x : List Byte) (u : State) : Prop :=
  u.scan = 0 ∨ ∃ b, b + 1 ≤ 9 * u.scan ∧ Stand .megalz x 0 u.ops u.scan b

theorem reaches_parsed_mlzGreedy (hv : s.variant = .megalz) (hmode : s.latch.mode ≠ 6) (hx : s.image ≠ []) :
    ∃ t ops b, Reaches s t ∧ Parsed s ops t ∧ b + 1 ≤ 9 * s.image.length ∧
      Stand .megalz s.image 0 ops s.image.length b := by
  have hparse {u : State} (hu : Scanning s u) : u.parseStep = u.parseMlzGreedy := by
    rw [State.parseStep_megalz (hu.variant.trans hv), if_neg (by rw [hu.frame.latch]; exact hmode)]
  have hlen : 1 ≤ s.image.length := List.length_pos_iff.2 hx
  have hstep (u : State) (hu : Scanning s u) (hfound : GreedyFound s.image u) (hlt : u.scan < s.image.length) :
      Scans s (GreedyFound s.image) u := by
    rw [Scans, hparse hu, State.parseMlzGreedy, if_pos (by rwa [hu.image])]
    obtain hzero | ⟨b, hb, hstand⟩ := hfound
    · rw [if_pos hzero]
      refine ⟨⟨hu.phase, hu.image, hlen, { hu.frame with }⟩, .inr ⟨8, by dsimp only; omega, ?_⟩, by dsimp only; omega⟩
      dsimp only
      rw [hu.image]
      exact (Stand.nil 1).withFirst hx
    · have h1 : 1 ≤ u.scan := by omega
      have hfair := greedyChoice_fair s.image u.scan
      obtain ⟨hL, hend⟩ := hfair.move.bounds hlt
      rw [if_neg (Nat.ne_of_gt h1), hu.image]
      refine ⟨⟨hu.phase, rfl, hend, { hu.frame with }⟩, .inr ⟨b + (greedyChoice s.image u.scan).bits, ?_, ?_⟩, ?_⟩
      · have := hfair.bits_le hlt
        dsimp only
        omega
      · exact hstand.append (hfair.move.stand h1 hlt)
      · dsimp only
        omega
  obtain ⟨u, hreach, hu, hfound, hend⟩ := Scanning.reaches_end hstep hs (.inl h0)
  obtain ⟨t, ht, hparsed⟩ := Scanning.parsed hreach hu (ops := u.ops)
    (by rw [hparse hu, State.parseMlzGreedy, if_neg (by rw [hu.image]; omega)])
  obtain hzero | ⟨b, hb, hstand⟩ := hfound
  · omega
  · rw [hend] at hb hstand
    exact ⟨t, u.ops, b, ht, hparsed, hb, hstand⟩

end

/-- The command's parse begins at its body. -/
theorem State.atBody_scanning {s : State} (h : s.latch.cmd = 1) : Scanning s.atBody s.atBody :=
  ⟨by rw [State.atBody, State.bodyPhase_eq, if_pos h], rfl, Nat.zero_le _, .refl _⟩

/-- The input of a command that has one is not empty (R66). -/
theorem image_ne_nil {s : State} (hlen0 : s.latch.len ≠ 0) (hlen : s.image.length = s.latch.len.toNat) : s.image ≠ [] :=
  fun h0 => hlen0 (BitVec.eq_of_toNat_eq (by rw [← hlen, h0]; rfl))

/-- R177, R181, R190: the parse of ZX7 or MegaLZ comes to EMIT with operations that stand for the input, in bits that the literals
bound (R161, R162). -/
theorem reaches_parsed {s : State} (hcmd : s.latch.cmd = 1) (hx : s.image ≠ []) (hlen : s.image.length = s.latch.len.toNat)
    (hv : s.variant ≠ .zx0) :
    ∃ t ops b, Reaches s.atBody t ∧ Parsed s ops t ∧ b + 1 ≤ 9 * s.image.length ∧
      Stand s.variant (s.oriented s.image) 0 ops s.image.length b := by
  have hs := State.atBody_scanning hcmd
  have hx' : s.atBody.image ≠ [] := State.oriented_ne_nil hx
  have hlen' : s.atBody.image.length = s.image.length := s.oriented_length s.image
  cases hvar : s.variant with
  | zx0 => exact absurd hvar hv
  | zx7 =>
    obtain ⟨t, ht, hparsed⟩ := reaches_parsed_zx7 hs rfl hvar rfl
    obtain ⟨b, hb, hstand⟩ := zx7Ops_stand hx'
    exact ⟨t, _, b, ht, hparsed.of_frame s.atBody_engineFrame, hlen' ▸ hb, hlen'.symm ▸ hstand⟩
  | megalz =>
    by_cases hmode : s.latch.mode = 6
    · have hz : s.atBody.mlz = mlzInit s.atBody.image.length := by
        rw [hlen', hlen]
        exact if_pos ⟨hvar, s.compressing_iff.2 hcmd⟩
      obtain ⟨t, ht, hparsed⟩ := reaches_parsed_mlzOptimal hs rfl hvar hmode hz
      obtain ⟨b, hb, -, hstand⟩ := mlzOps_stand hx'
      exact ⟨t, _, b, ht, hparsed.of_frame s.atBody_engineFrame, hlen' ▸ hb, hlen'.symm ▸ hstand⟩
    · obtain ⟨t, ops, b, ht, hparsed, hb, hstand⟩ := reaches_parsed_mlzGreedy hs rfl hvar hmode hx'
      rw [hlen'] at hb hstand
      exact ⟨t, ops, b, ht, hparsed.of_frame s.atBody_engineFrame, hb, hstand⟩

end Sys2Proof.Machine
end

section
/-! PROOFS. The round trip (spec/40_host_commands.md R131): what a COMPRESS has at CAPACITY, what a DECOMPRESS has at WRITEBACK, and
that the one leads to the other for ZX7 and MegaLZ. -/

namespace Sys2Proof.Machine

/-! ### After the body (R122, R123, R126) -/

theorem State.oriented_of_forward {s : State} (h : s.reversed = false) (bs : List Byte) : s.oriented bs = bs := by
  rw [State.oriented, h]
  rfl

theorem State.oriented_of_reversed {s : State} (h : s.reversed = true) (bs : List Byte) : s.oriented bs = bs.reverse := by
  rw [State.oriented, h]
  rfl

/-- REVERSE-OUT, in a reversed mode, puts OBUF in the buffer's order. -/
theorem reaches_oriented {s t : State} {next : Phase} (hnext : (if s.compressing then .capacity else .writeback) = next)
    (hp : t.phase = if s.reversed then .reverseOut else next) (hf : EngineFrame s t) :
    Reaches t { t with obuf := s.oriented t.obuf, phase := next } := by
  rw [State.oriented]
  cases hr : s.reversed
  · rw [hr] at hp
    rw [show next = t.phase from hp.symm]
    exact .refl t
  · rw [hr] at hp
    have hstep := stepEngine_reverseOut hp
    rw [State.compressing_congr t s hf.latch, hnext] at hstep
    exact .single hstep

/-! ### The stream a COMPRESS builds (R122, R217, R218) -/

/-- The stream of the items is built, in the buffer's order, and CAPACITY comes next. -/
structure StreamBuilt (s : State) (items : List Item) (t : State) : Prop where
  phase : t.phase = .capacity
  obuf : t.obuf = s.oriented (layout items)
  costBits : t.costBits = itemBits items
  length : t.obuf.length = (t.costBits + 7) / 8
  frame : EngineFrame s t

theorem Parsed.layout_empty {s t : State} {ops : List Op} (h : Parsed s ops t) : layoutOf t = Layout.empty := by
  rw [layoutOf, h.obuf, h.pk]
  rfl

theorem foldl_put_sound {l : Layout} (hl : l.Sound) (items : List Item) : (items.foldl Layout.put l).Sound :=
  List.foldlRecOn items _ hl fun _ h it _ => Layout.put_sound h it

theorem layout_length (items : List Item) : (layout items).length = (itemBits items + 7) / 8 := by
  have hused := Layout.foldl_put_used items Layout.empty_sound
  have hlen := Layout.length_eq (foldl_put_sound Layout.empty_sound items)
  rw [hused, show Layout.empty.used = 0 from rfl, Nat.zero_add] at hlen
  exact hlen

/-- The items of a parse emitted are the command's stream. -/
theorem Parsed.reaches_built {s p t : State} {ops : List Op} {items : List Item} (h : Parsed s ops p)
    (hcomp : s.compressing = true) (ht : EmissionDone p items t) : ∃ u, Reaches t u ∧ StreamBuilt s items u := by
  have hlayout : layoutOf t = items.foldl Layout.put Layout.empty := ht.layout.trans (by rw [h.layout_empty])
  have hobuf : t.obuf = layout items := congrArg Layout.out hlayout
  have hcost : t.costBits = itemBits items := by
    rw [costBits_eq_used, hlayout, Layout.foldl_put_used _ Layout.empty_sound]
    exact Nat.zero_add _
  have hf := h.frame.trans ht.frame
  have hreach : Reaches t { t with obuf := s.oriented t.obuf, phase := .capacity } :=
    reaches_oriented (by rw [hcomp]; rfl) (by rw [ht.phase, State.reversed_congr p s h.frame.latch]) hf
  have hcost' : State.costBits { t with obuf := s.oriented t.obuf, phase := .capacity } = itemBits items := by
    rw [← hcost, State.costBits, State.costBits, s.oriented_length]
  refine ⟨_, hreach, rfl, congrArg s.oriented hobuf, hcost', ?_, { hf with }⟩
  rw [hcost', s.oriented_length, hobuf, layout_length]

/-- CAPACITY of a command whose host keeps its duty ends with `ALLOC` where the stream does not fit (R122). -/
theorem StreamBuilt.exceeds {s t : State} {items : List Item} (h : StreamBuilt s items t) (hd : s.dutyBroken = false)
    (hcap : s.latch.cap.toNat < t.obuf.length) : ∃ u, stepEngine t = .next u ∧ failedFrom s u .alloc := by
  rw [← h.frame.latch] at hcap
  exact ⟨_, stepEngine_capacity_exceeds h.phase hcap,
    h.frame.failedFrom (State.raise_failedFrom (h.frame.dutyBroken.trans hd) (by decide))⟩

theorem StreamBuilt.fits {s t : State} {items : List Item} (h : StreamBuilt s items t)
    (hcap : t.obuf.length ≤ s.latch.cap.toNat) : stepEngine t = .next { t with phase := .writeback } := by
  rw [← h.frame.latch] at hcap
  exact stepEngine_capacity_fits h.phase hcap

/-! ### The DECOMPRESS of a stream (R123, R245) -/

/-- `v` is a DECOMPRESS in the mode of `s` at the start of UNPACK, with room for `n` output bytes (R123, R233). -/
structure UnpackStart (s : State) (n : Nat) (v : State) : Prop where
  phase : v.phase = .unpack
  mode : v.latch.mode = s.latch.mode
  params : v.params = s.params
  decompressing : v.compressing = false
  obuf : v.obuf = []
  up : v.up = { cur := Cursor.start, lastOffset := Config.zx0InitialOffset, dstate := DState.initial s.variant }
  hist : v.hist.wf
  room : n ≤ v.capl

theorem UnpackStart.variant {s v : State} {n : Nat} (h : UnpackStart s n v) : v.variant = s.variant := by
  rw [State.variant, h.mode]
  rfl

theorem UnpackStart.fmt {s v : State} {n : Nat} (h : UnpackStart s n v) : v.fmt = s.fmt := by
  rw [State.fmt, h.mode, h.params]
  rfl

/-- Nothing output, with room for all of the input. -/
theorem UnpackStart.outputs {s v : State} {x : List Byte} (h : UnpackStart s x.length v) : v.Outputs x 0 :=
  ⟨h.obuf, Nat.zero_le _, h.room, h.hist, fun k hk => by rw [h.obuf] at hk; exact absurd hk (Nat.not_lt_zero k)⟩

/-- Where the items laid out unpack to the input in the body's order, a DECOMPRESS of the stream gives the input back. -/
theorem unpacksTo_of_unpacking {s : State} {items : List Item} (hne : itemBits items ≠ 0)
    (hlen : s.image.length ≤ s.params.maxInputLen)
    (h : ∀ v c, UnpackStart s s.image.length v → Yields v.image Cursor.start items (.ok c) →
      ∃ t, Reaches v t ∧ UnpackingDone v (s.oriented s.image) c t) : unpacksTo s (s.oriented (layout items)) := by
  intro u hu hcheck hcmd hmode hparams himage hlatch hcap hhist
  have hvar : u.variant = s.variant := by rw [State.variant, hmode]; rfl
  have horiented : u.atBody.oriented = s.oriented := State.oriented_congr hmode
  have hcomp : u.compressing = false := by
    rw [Bool.eq_false_iff, Ne, State.compressing_iff, hcmd]
    decide
  have hbody := reaches_atBody hu hcheck fun h0 => by
    rw [h0, s.oriented_length, layout_length] at hlatch
    simp at hlatch
    omega
  have hstart : UnpackStart s s.image.length u.atBody := by
    refine ⟨?_, hmode, hparams, hcomp, rfl, ?_, hhist, le_min hcap ?_⟩
    · rw [State.atBody, State.bodyPhase, hcomp]; rfl
    · rw [← hvar]; rfl
    · rw [← hparams] at hlen; exact hlen
  obtain ⟨c, hy, hc⟩ := yields_layout items []
  have hbodyImage : u.atBody.image = layout items ++ [] := by
    rw [List.append_nil, ← s.oriented_oriented (layout items), ← himage, ← horiented]
    rfl
  obtain ⟨t, ht, hd⟩ := h u.atBody c hstart (by rwa [hbodyImage])
  have hout := reaches_oriented (next := .writeback) (by rw [hstart.decompressing]; rfl) hd.phase hd.frame
  obtain ⟨n, hn⟩ := (hbody.trans ht).trans hout
  refine ⟨n, _, hn, rfl, ?_, ?_⟩
  · show u.atBody.oriented t.obuf = s.image
    rw [hd.obuf, horiented, s.oriented_oriented]
  · show t.up.cur.inIdx = _
    rw [hd.cur, hc, s.oriented_length]

/-! ### ZX7 and MegaLZ -/

/-- The bits of a parse's stream stay within R162's bound, and within OBUF. -/
theorem streamBits_le {n m b : Nat} {v : Variant} (hb : b + 1 ≤ 9 * n) (hn : n ≤ m) :
    b + endBits v ≤ 9 * n + 17 ∧ (b + endBits v + 7) / 8 ≤ (9 * m + 7) / 8 + 8 := by
  have hend : endBits v ≤ 18 := by cases v <;> decide
  omega

/-- R122: a COMPRESS of ZX7 or MegaLZ comes to CAPACITY with the stream of operations that stand for its input. -/
theorem reaches_built {s : State} (h : atCheck s) (hcheck : s.checkError = none) (hcmd : s.latch.cmd = 1)
    (hlen0 : s.latch.len ≠ 0) (hlen : s.image.length = s.latch.len.toNat) (hv : s.variant ≠ .zx0) :
    ∃ t ops b, Reaches s t ∧ StreamBuilt s (streamItems s.variant s.fmt ops) t ∧ b + 1 ≤ 9 * s.image.length ∧
      Stand s.variant (s.oriented s.image) 0 ops s.image.length b := by
  have hx := image_ne_nil hlen0 hlen
  have hmax : s.image.length ≤ s.params.maxInputLen := hlen ▸ (State.bounds_of_checkError hcheck).2 hcmd
  have hcomp : s.compressing = true := s.compressing_iff.2 hcmd
  obtain ⟨p, ops, b, hp, hparsed, hb, hstand⟩ := reaches_parsed hcmd hx hlen hv
  have hbits := hstand.itemBits hv s.fmt
  have hfmt : p.fmt = s.fmt := State.fmt_congr p s hparsed.frame.latch hparsed.frame.params
  have hback : p.pk.backtrack = false := by
    rw [hparsed.pk]
    exact beq_eq_false_iff_ne.2 hv
  have hroom : ((streamItems s.variant p.fmt ops).foldl Layout.put (layoutOf p)).out.length ≤ obufSize p.params := by
    rw [hparsed.layout_empty, hfmt, hparsed.frame.params]
    show (layout _).length ≤ _
    rw [layout_length, hbits]
    exact (streamBits_le hb hmax).2
  obtain ⟨e, he, hdone⟩ := hstand.emission hv hparsed.phase (State.variant_congr p s hparsed.frame.latch) hparsed.ops
    (Packer.start_packerOk hparsed.pk) hback ((State.compressing_congr p s hparsed.frame.latch).trans hcomp) hroom
  rw [hfmt] at hdone
  obtain ⟨t, ht, hbuilt⟩ := hparsed.reaches_built hcomp hdone
  exact ⟨t, ops, b, (((reaches_atBody h hcheck hlen0).trans hp).trans he).trans ht, hbuilt, hb, hstand⟩

/-- Settles O58: the parse's operations stand for the input, so that the tokens emitted, read back, output it. -/
theorem roundTripZx7AndMegaLz : Obligations.RoundTripZx7AndMegaLz := by
  intro s h hcheck hcmd hlen0 hlen hv
  have hmax : s.image.length ≤ s.params.maxInputLen := hlen ▸ (State.bounds_of_checkError hcheck).2 hcmd
  obtain ⟨t, ops, b, ⟨n, hn⟩, hbuilt, hb, hstand⟩ := reaches_built h hcheck hcmd hlen0 hlen hv
  have hbits := hstand.itemBits hv s.fmt
  refine ⟨n, t, hn, hbuilt.phase, ?_, ?_, hbuilt.length, hbuilt.fits, hbuilt.exceeds h.2.2⟩
  · rw [hbuilt.obuf]
    refine unpacksTo_of_unpacking ?_ hmax fun v c hstart hy => ?_
    · rw [hbits]
      have : 1 ≤ endBits s.variant := by cases s.variant <;> decide
      omega
    · have hdstate : v.up.dstate = .readFirst := by
        rw [hstart.up]
        cases hvar : s.variant with
        | zx0 => exact absurd hvar hv
        | zx7 | megalz => rfl
      rw [← s.oriented_length] at hstart
      refine hstand.unpacking hv (s.oriented_length _).symm (State.oriented_ne_nil (image_ne_nil hlen0 hlen))
        ⟨hstart.phase, hstart.variant, hstart.outputs, hdstate⟩ hstart.decompressing ?_
      rw [hstart.fmt, hstart.up]
      exact hy
  · rw [hbuilt.costBits, hbits]
    exact (streamBits_le hb hmax).1

end Sys2Proof.Machine
end

section
/-! PROOFS. The ZX0 parse (spec/43_parser.md R171 to R174): every node of the arena carries on from the one it is chained to, so
that the operations recovered stand for the input. -/

namespace Sys2Proof.Machine

/-! ### Nodes (R172) -/

/-- Node `nd` goes on from node `m`: a literal run, which never follows one, or a copy of the bytes between the two. -/
structure Follows (x : List Byte) (m nd : Node) : Prop where
  le : m.index ≤ nd.index
  run : nd.offset = 0 → m.offset ≠ 0
  copy : nd.offset ≠ 0 → Copies x (m.index + 1).toNat nd.offset (nd.index - m.index).toNat

/-- The node `id` is in order: within the input, and either the start node or one that goes on from an older one. -/
structure NodeOk (x : List Byte) (nodes : Array Node) (id : Nat) (nd : Node) : Prop where
  lower : -1 ≤ nd.index
  upper : nd.index < x.length
  chained : (nd.index = -1 ∧ nd.offset ≠ 0 ∧ nd.chain = none) ∨
    ∃ j m, nd.chain = some j ∧ j < id ∧ nodes[j]? = some m ∧ Follows x m nd

theorem Follows.of_copies {x : List Byte} {m nd : Node} (hle : m.index ≤ nd.index) (h0 : nd.offset ≠ 0)
    (hc : Copies x (m.index + 1).toNat nd.offset (nd.index - m.index).toNat) : Follows x m nd :=
  ⟨hle, fun h => absurd h h0, fun _ => hc⟩

theorem Follows.nodeOk {x : List Byte} {nodes : Array Node} {m nd : Node} {j : Nat} (h : Follows x m nd)
    (hj : nd.chain = some j) (hm : nodes[j]? = some m) (hlow : -1 ≤ m.index) (hup : nd.index < x.length) :
    NodeOk x nodes nodes.size nd :=
  ⟨hlow.trans h.le, hup, .inr ⟨j, m, hj, (Array.getElem?_eq_some_iff.1 hm).1, hm, h⟩⟩

/-- The arena and the tables by position are in order (R172). -/
structure Zx0Sound (x : List Byte) (z : Zx0State) : Prop where
  nodes : ∀ id nd, z.node[id]? = some nd → NodeOk x z.node id nd
  optimal : ∀ i j, z.optimal.getD i none = some j → ∃ nd, z.node[j]? = some nd ∧ nd.index = i
  bestLen : ∀ k, z.bestLen.getD k 0 ≤ k

/-- What the tables of offset `o` say about the positions before `i`: since its last literal run the offset has matched, and
its last match ended before `i`. -/
structure Tracks (x : List Byte) (o i : Nat) (z : Zx0State) : Prop where
  lit : ∀ j, z.lastLit.getD o none = some j → ∃ nd, z.node[j]? = some nd ∧ nd.index < i ∧ (o : Int) ≤ nd.index + 1 ∧
    ∀ k < i, nd.index < k → x[k]? = x[k - o]?
  mat : ∀ j, z.lastMatch.getD o none = some j → ∃ nd, z.node[j]? = some nd ∧ nd.index < i ∧ nd.offset ≠ 0
  both : z.lastMatch.getD o none = none → z.lastLit.getD o none = none

/-- The match length of offset `o` counts the matches right before position `i`. -/
def Counts (x : List Byte) (o i m : Nat) : Prop := m ≠ 0 → o + m ≤ i ∧ ∀ k < i, i ≤ k + m → x[k]? = x[k - o]?

/-- Nothing has been found at offset `o` yet. -/
structure Untouched (o : Nat) (z : Zx0State) : Prop where
  lit : z.lastLit.getD o none = none
  mat : z.lastMatch.getD o none = none
  mlen : z.mlen.getD o 0 = 0

theorem Untouched.tracks {x : List Byte} {o i : Nat} {z : Zx0State} (h : Untouched o z) : Tracks x o i z where
  lit := fun j hj => by rw [h.lit] at hj; cases hj
  mat := fun j hj => by rw [h.mat] at hj; cases hj
  both := fun _ => h.lit

/-- From `z` to `z'` the arena only grows, and the tables of the offsets other than `o` stay. -/
structure OnlyAt (o : Nat) (z z' : Zx0State) : Prop where
  node : ∀ (j : Nat) (nd : Node), z.node[j]? = some nd → z'.node[j]? = some nd
  lit : ∀ o', o' ≠ o → z'.lastLit.getD o' none = z.lastLit.getD o' none
  mat : ∀ o', o' ≠ o → z'.lastMatch.getD o' none = z.lastMatch.getD o' none
  mlen : ∀ o', o' ≠ o → z'.mlen.getD o' 0 = z.mlen.getD o' 0

theorem OnlyAt.trans {o : Nat} {z z' z'' : Zx0State} (h : OnlyAt o z z') (k : OnlyAt o z' z'') : OnlyAt o z z'' :=
  ⟨fun j nd hj => k.node j nd (h.node j nd hj), fun o' ho => (k.lit o' ho).trans (h.lit o' ho),
    fun o' ho => (k.mat o' ho).trans (h.mat o' ho), fun o' ho => (k.mlen o' ho).trans (h.mlen o' ho)⟩

theorem OnlyAt.tracks {x : List Byte} {o o' i : Nat} {z z' : Zx0State} (h : OnlyAt o z z') (ho : o' ≠ o)
    (ht : Tracks x o' i z) : Tracks x o' i z' where
  lit := by
    rw [h.lit o' ho]
    exact fun j hj => (ht.lit j hj).imp fun nd ⟨hn, hrest⟩ => ⟨h.node j nd hn, hrest⟩
  mat := by
    rw [h.mat o' ho]
    exact fun j hj => (ht.mat j hj).imp fun nd ⟨hn, hrest⟩ => ⟨h.node j nd hn, hrest⟩
  both := by rw [h.lit o' ho, h.mat o' ho]; exact ht.both

theorem OnlyAt.untouched {o o' : Nat} {z z' : Zx0State} (h : OnlyAt o z z') (ho : o' ≠ o) (hu : Untouched o' z) :
    Untouched o' z' :=
  ⟨(h.lit o' ho).trans hu.lit, (h.mat o' ho).trans hu.mat, (h.mlen o' ho).trans hu.mlen⟩

/-! ### A node added (R172) -/

/-- `z'` is `z` with the node `nd` allocated and offered for its position. -/
structure Adds (nd : Node) (z z' : Zx0State) : Prop where
  node : z'.node = z.node.push nd
  mlen : z'.mlen = z.mlen
  bestLen : z'.bestLen = z.bestLen
  optimal : ∀ i j, z'.optimal.getD i none = some j →
    z.optimal.getD i none = some j ∨ ((i : Int) = nd.index ∧ j = z.node.size)

theorem getD_set_eq {α : Type} (l : List α) (i k : Nat) (v d : α) :
    (l.set i v).getD k d = if i = k ∧ k < l.length then v else l.getD k d := by
  simp only [List.getD_eq_getElem?_getD, List.getElem?_set]
  by_cases h : i = k
  · subst h
    by_cases hlt : i < l.length
    · simp [hlt]
    · simp [hlt]
  · simp [h]

theorem getElem?_push_of_some {α : Type} {a : Array α} {j : Nat} {v w : α} (h : a[j]? = some v) : (a.push w)[j]? = some v := by
  obtain ⟨hlt, hv⟩ := Array.getElem?_eq_some_iff.1 h
  rw [Array.getElem?_push_lt hlt, hv]

theorem Adds.node_of_some {nd m : Node} {z z' : Zx0State} (h : Adds nd z z') {j : Nat} (hj : z.node[j]? = some m) :
    z'.node[j]? = some m := by
  rw [h.node]
  exact getElem?_push_of_some hj

theorem Adds.node_new {nd : Node} {z z' : Zx0State} (h : Adds nd z z') : z'.node[z.node.size]? = some nd := by
  rw [h.node, Array.getElem?_push_size]

theorem Zx0State.offer_cases (z : Zx0State) (index id : Nat) (b : Int) :
    z.offer index id b = z ∨ z.offer index id b = { z with optimal := z.optimal.set index (some id) } := by
  rw [Zx0State.offer]
  split
  · exact .inr rfl
  · split
    · exact .inr rfl
    · exact .inl rfl

/-- The shape of the three candidates of R172: allocate, note in a table by offset, offer. -/
theorem adds_offer {z : Zx0State} {nd : Node} {index : Nat} (hi : nd.index = index) (lit mat : List (Option Nat)) (b : Int) :
    Adds nd z ({ z.alloc nd with lastLit := lit, lastMatch := mat }.offer index z.node.size b) ∧
      ({ z.alloc nd with lastLit := lit, lastMatch := mat }.offer index z.node.size b).lastLit = lit ∧
      ({ z.alloc nd with lastLit := lit, lastMatch := mat }.offer index z.node.size b).lastMatch = mat := by
  obtain h | h := Zx0State.offer_cases { z.alloc nd with lastLit := lit, lastMatch := mat } index z.node.size b
  · rw [h]
    exact ⟨⟨rfl, rfl, rfl, fun i j hj => .inl hj⟩, rfl, rfl⟩
  · rw [h]
    refine ⟨⟨rfl, rfl, rfl, fun i j hj => ?_⟩, rfl, rfl⟩
    rw [getD_set_eq] at hj
    split at hj
    · next hij => exact .inr ⟨by rw [hi, hij.1], (Option.some.inj hj).symm⟩
    · exact .inl hj

theorem Adds.sound {x : List Byte} {nd : Node} {z z' : Zx0State} (h : Adds nd z z') (hz : Zx0Sound x z)
    (hnd : NodeOk x z.node z.node.size nd) : Zx0Sound x z' := by
  have hok {id : Nat} {m : Node} (hm : NodeOk x z.node id m) : NodeOk x z'.node id m :=
    ⟨hm.lower, hm.upper, hm.chained.imp_right fun ⟨j, m', hc, hlt, hj, hf⟩ => ⟨j, m', hc, hlt, h.node_of_some hj, hf⟩⟩
  refine ⟨fun id m hid => ?_, fun i j hj => ?_, by rw [h.bestLen]; exact hz.bestLen⟩
  · rw [h.node, Array.getElem?_push] at hid
    split at hid
    · next hsize =>
      cases hid
      rw [hsize]
      exact hok hnd
    · exact hok (hz.nodes id m hid)
  · obtain hj | ⟨hi, rfl⟩ := h.optimal i j hj
    · obtain ⟨m, hm, hmi⟩ := hz.optimal i j hj
      exact ⟨m, h.node_of_some hm, hmi⟩
    · exact ⟨nd, h.node_new, hi.symm⟩

theorem Adds.onlyAt {o : Nat} {nd : Node} {z z' : Zx0State} (h : Adds nd z z')
    (hlit : ∀ o', o' ≠ o → z'.lastLit.getD o' none = z.lastLit.getD o' none)
    (hmat : ∀ o', o' ≠ o → z'.lastMatch.getD o' none = z.lastMatch.getD o' none) : OnlyAt o z z' :=
  ⟨fun _ _ hj => h.node_of_some hj, hlit, hmat, fun _ _ => by rw [h.mlen]⟩

theorem getD_set_of_ne {α : Type} {l : List α} {i k : Nat} (h : k ≠ i) (v d : α) : (l.set i v).getD k d = l.getD k d := by
  rw [getD_set_eq, if_neg fun hik => h hik.1.symm]

theorem Zx0State.nodeOf_eq_some {z : Zx0State} {j : Option Nat} {nd : Node} (h : z.nodeOf j = some nd) :
    ∃ k, j = some k ∧ z.node[k]? = some nd := by
  cases j with
  | none => cases h
  | some k => exact ⟨k, rfl, h⟩

/-! ### The candidates of one offset (R172) -/

/-- Offset `o` has been dealt with at position `i`. -/
structure Advances (x : List Byte) (o i : Nat) (z z' : Zx0State) : Prop where
  sound : Zx0Sound x z'
  only : OnlyAt o z z'
  tracks : Tracks x o (i + 1) z'
  mlen : z'.mlen = z.mlen

theorem OnlyAt.refl (o : Nat) (z : Zx0State) : OnlyAt o z z :=
  ⟨fun _ _ h => h, fun _ _ => rfl, fun _ _ => rfl, fun _ _ => rfl⟩

theorem Tracks.matched {x : List Byte} {o i : Nat} {z : Zx0State} (h : Tracks x o i z) (hm : x[i]? = x[i - o]?) :
    Tracks x o (i + 1) z where
  lit := fun j hj => by
    obtain ⟨nd, hn, hlt, ho, hsame⟩ := h.lit j hj
    refine ⟨nd, hn, by omega, ho, fun k hk hnk => ?_⟩
    obtain rfl | hki := Nat.eq_or_lt_of_le (Nat.le_of_lt_succ hk)
    · exact hm
    · exact hsame k hki hnk
  mat := fun j hj => by
    obtain ⟨nd, hn, hlt, h0⟩ := h.mat j hj
    exact ⟨nd, hn, by omega, h0⟩
  both := h.both

section
variable {x : List Byte} {o i : Nat} {z z' : Zx0State} {nd : Node}

/-- A copy's node noted for its offset. -/
theorem Adds.advances_match (ha : Adds nd z z') (hlit : z'.lastLit = z.lastLit)
    (hmat : z'.lastMatch = z.lastMatch.set o (some z.node.size)) (hs : Zx0Sound x z) (hnd : NodeOk x z.node z.node.size nd)
    (ht : Tracks x o (i + 1) z) (hidx : nd.index = i) (h0 : nd.offset ≠ 0) : Advances x o i z z' := by
  refine ⟨ha.sound hs hnd, ha.onlyAt (fun _ _ => by rw [hlit]) fun o' ho => by rw [hmat, getD_set_of_ne ho],
    ⟨?_, fun j hj => ?_, ?_⟩, ha.mlen⟩
  · rw [hlit]
    exact fun j hj => (ht.lit j hj).imp fun m ⟨hm, hrest⟩ => ⟨ha.node_of_some hm, hrest⟩
  · rw [hmat, getD_set_eq] at hj
    split at hj
    · cases hj
      exact ⟨nd, ha.node_new, by omega, h0⟩
    · exact (ht.mat j hj).imp fun m ⟨hm, hrest⟩ => ⟨ha.node_of_some hm, hrest⟩
  · rw [hlit, hmat, getD_set_eq]
    split
    · exact fun hn => by cases hn
    · exact ht.both

/-- A literal run's node noted for the offset that does not match. -/
theorem Adds.advances_lit (ha : Adds nd z z') (hlit : z'.lastLit = z.lastLit.set o (some z.node.size))
    (hmat : z'.lastMatch = z.lastMatch) (hs : Zx0Sound x z) (hnd : NodeOk x z.node z.node.size nd)
    (ht : Tracks x o i z) (hidx : nd.index = i) (ho : o ≤ i + 1) (hsome : z.lastMatch.getD o none ≠ none) :
    Advances x o i z z' := by
  refine ⟨ha.sound hs hnd, ha.onlyAt (fun o' ho => by rw [hlit, getD_set_of_ne ho]) fun _ _ => by rw [hmat],
    ⟨fun j hj => ?_, fun j hj => ?_, fun h => absurd (hmat ▸ h) hsome⟩, ha.mlen⟩
  · rw [hlit, getD_set_eq] at hj
    split at hj
    · cases hj
      exact ⟨nd, ha.node_new, by omega, by omega, fun k hk hlt => by omega⟩
    · next hout =>
      rw [List.getD_eq_default _ _ (by omega)] at hj
      cases hj
  · rw [hmat] at hj
    obtain ⟨m, hm, hlt, h0⟩ := ht.mat j hj
    exact ⟨m, ha.node_of_some hm, by omega, h0⟩

end

section
variable {x : List Byte} {o i : Nat} {z : Zx0State} (hs : Zx0Sound x z) (hi : i < x.length)
include hs hi

/-- The last-offset copy (R172). -/
theorem Zx0State.tryRep_advances (ht : Tracks x o (i + 1) z) (h1 : 1 ≤ o) : Advances x o i z (z.tryRep i o) := by
  rw [Zx0State.tryRep]
  split
  · exact ⟨hs, .refl o z, ht, rfl⟩
  · next m hm =>
    have h0 : o ≠ 0 := Nat.ne_of_gt h1
    obtain ⟨j, hj, hnode⟩ := Zx0State.nodeOf_eq_some hm
    obtain ⟨m', hm', hlt, ho, hsame⟩ := ht.lit j hj
    cases hnode.symm.trans hm'
    have hlow := (hs.nodes j m hnode).lower
    obtain ⟨ha, hlit, hmat⟩ := adds_offer
      (nd := { bits := m.bits + costRepZx0 (i - m.index).toNat, index := i, offset := o, chain := z.lastLit.getD o none })
      (index := i) (z := z) rfl z.lastLit (z.lastMatch.set o (some z.node.size))
      (m.bits + costRepZx0 (i - m.index).toNat)
    have hcopies : Copies x (m.index + 1).toNat o ((i : Int) - m.index).toNat :=
      ⟨h1, by omega, by omega, fun k hk hki => hsame k (by omega) (by omega)⟩
    exact ha.advances_match hlit hmat hs
      ((Follows.of_copies (by dsimp only; omega) h0 hcopies).nodeOk hj hnode hlow (by dsimp only; omega)) ht rfl h0

/-- The literal run (R172). -/
theorem Zx0State.tryLit_advances (ht : Tracks x o i z) (ho : o ≤ i + 1) : Advances x o i z (z.tryLit i o) := by
  rw [Zx0State.tryLit]
  split
  · next hnone =>
    have hmat : z.lastMatch.getD o none = none := by
      cases hj : z.lastMatch.getD o none with
      | none => rfl
      | some j =>
        obtain ⟨m, hm, -⟩ := ht.mat j hj
        rw [Zx0State.mat, hj] at hnone
        exact absurd (hm.symm.trans hnone) (Option.some_ne_none m)
    refine ⟨hs, .refl o z, ⟨fun j hj => ?_, fun j hj => ?_, ht.both⟩, rfl⟩
    · rw [ht.both hmat] at hj; cases hj
    · rw [hmat] at hj; cases hj
  · next m hm =>
    obtain ⟨j, hj, hnode⟩ := Zx0State.nodeOf_eq_some hm
    obtain ⟨m', hm', hlt, h0⟩ := ht.mat j hj
    cases hnode.symm.trans hm'
    obtain ⟨ha, hlit, hmat⟩ := adds_offer
      (nd := { bits := m.bits + costLitZx0 (i - m.index).toNat, index := i, offset := 0, chain := z.lastMatch.getD o none })
      (index := i) (z := z) rfl (z.lastLit.set o (some z.node.size)) z.lastMatch
      (m.bits + costLitZx0 (i - m.index).toNat)
    exact ha.advances_lit hlit hmat hs
      (Follows.nodeOk ⟨by dsimp only; omega, fun _ => h0, fun h => absurd rfl h⟩ hj hnode (hs.nodes j m hnode).lower
        (by dsimp only; omega)) ht rfl ho (by rw [hj]; exact Option.some_ne_none j)

/-- The copy from a new offset (R172), of a length that has matched. -/
theorem Zx0State.tryNew_advances (ht : Tracks x o (i + 1) z) {limit m L : Nat} (hm : Counts x o (i + 1) m) (hL : L ≤ m) :
    Advances x o i z (z.tryNew limit i o L) := by
  have hsame : Advances x o i z z := ⟨hs, .refl o z, ht, rfl⟩
  rw [Zx0State.tryNew]
  split
  · next nd c hopt hcost =>
    refine iteInduction (motive := Advances x o i z) (fun _ => ?_) fun _ => hsame
    · rw [costNewZx0] at hcost
      split at hcost
      case isFalse => cases hcost
      next hr =>
      obtain ⟨h1, -, h2⟩ := hr
      have h0 : o ≠ 0 := Nat.ne_of_gt h1
      obtain ⟨hwithin, hmatch⟩ := hm (by omega)
      obtain ⟨j, hj, hnode⟩ := Zx0State.nodeOf_eq_some hopt
      obtain ⟨nd', hnd', hidx⟩ := hs.optimal _ j hj
      cases hnode.symm.trans hnd'
      obtain ⟨ha, hlit, hmat⟩ := adds_offer
        (nd := { bits := nd.bits + c, index := i, offset := o, chain := z.optimal.getD (i - L) none })
        (index := i) (z := z) rfl z.lastLit (z.lastMatch.set o (some z.node.size)) (nd.bits + c)
      have hcopies : Copies x (nd.index + 1).toNat o ((i : Int) - nd.index).toNat :=
        ⟨h1, by omega, by omega, fun k hk hki => hmatch k (by omega) (by omega)⟩
      exact ha.advances_match hlit hmat hs
        ((Follows.of_copies (by dsimp only; omega) h0 hcopies).nodeOk hj hnode (hs.nodes j nd hnode).lower
          (by dsimp only; omega)) ht rfl h0
  · exact hsame

end

/-- The `repeat` loop of R172 only brings `BEST_LEN` up to date, with lengths no longer than it is asked for. -/
theorem Zx0State.relax_spec {x : List Byte} (index count : Nat) {z : Zx0State} (hs : Zx0Sound x z) (bls : Nat) (b : Option Int) :
    Zx0Sound x (z.relax index count bls b) ∧
      z.relax index count bls b = { z with bestLen := (z.relax index count bls b).bestLen } := by
  induction count generalizing z bls b with
  | zero => exact ⟨hs, rfl⟩
  | succ count ih =>
    have hset {best : Nat} (hle : best ≤ bls + 1) : Zx0Sound x { z with bestLen := z.bestLen.set (bls + 1) best } := by
      refine ⟨hs.nodes, hs.optimal, fun k => ?_⟩
      rw [getD_set_eq]
      split
      · next hk => rw [← hk.1]; exact hle
      · exact hs.bestLen k
    have hnext {best : Nat} (hle : best ≤ bls + 1) (b' : Option Int) :
        let z' := Zx0State.relax { z with bestLen := z.bestLen.set (bls + 1) best } index count (bls + 1) b'
        Zx0Sound x z' ∧ z' = { z with bestLen := z'.bestLen } := by
      obtain ⟨hsound, hframe⟩ := ih (hset hle) (bls + 1) b'
      exact ⟨hsound, by conv_lhs => rw [hframe]⟩
    exact hnext (iteInduction (motive := (· ≤ bls + 1)) (fun _ => Nat.le_refl _)
      fun _ => (hs.bestLen bls).trans (Nat.le_succ bls)) _

end Sys2Proof.Machine
end

section
/-! PROOFS. The ZX0 scan position by position (spec/43_parser.md R172), the operations of its chain (R174), and the parse of a
command. -/

namespace Sys2Proof.Machine

/-! ### One offset (R172) -/

/-- Offset `o` has been tried at position `i`, its match length with it. -/
structure Tried (x : List Byte) (o i : Nat) (z z' : Zx0State) : Prop where
  sound : Zx0Sound x z'
  only : OnlyAt o z z'
  tracks : Tracks x o (i + 1) z'
  counts : Counts x o (i + 1) (z'.mlen.getD o 0)

theorem Counts.zero (x : List Byte) (o i : Nat) : Counts x o i 0 := fun h => absurd rfl h

theorem Counts.getD_set {x : List Byte} {o i m : Nat} (h : Counts x o i m) (l : List Nat) :
    Counts x o i ((l.set o m).getD o 0) := by
  rw [getD_set_eq]
  split
  · exact h
  · next hout =>
    rw [List.getD_eq_default _ _ (by omega)]
    exact .zero x o i

/-- One more match. -/
theorem Counts.matched {x : List Byte} {o i m : Nat} (h : Counts x o i m) (ho : o ≤ i) (hm : x[i]? = x[i - o]?) :
    Counts x o (i + 1) (m + 1) := by
  intro _
  refine ⟨?_, fun k hk hik => ?_⟩
  · by_cases h0 : m = 0
    · omega
    · have := (h h0).1
      omega
  · obtain rfl | hki := Nat.eq_or_lt_of_le (Nat.le_of_lt_succ hk)
    · exact hm
    · exact (h (by omega)).2 k hki (by omega)

section
variable {x : List Byte} {o i : Nat} {z z' z'' : Zx0State}

theorem Zx0Sound.withMlen (hs : Zx0Sound x z) (l : List Nat) : Zx0Sound x { z with mlen := l } :=
  ⟨hs.nodes, hs.optimal, hs.bestLen⟩

theorem Tracks.withTables (ht : Tracks x o i z) (l b : List Nat) : Tracks x o i { z with mlen := l, bestLen := b } :=
  ⟨ht.lit, ht.mat, ht.both⟩

theorem OnlyAt.withTables (z : Zx0State) (m : Nat) (b : List Nat) :
    OnlyAt o z { z with mlen := z.mlen.set o m, bestLen := b } :=
  ⟨fun _ _ h => h, fun _ _ => rfl, fun _ _ => rfl, fun _ ho => getD_set_of_ne ho _ _⟩

/-- A position where the offset matches (R172). -/
theorem Zx0State.tryOffset_match (hs : Zx0Sound x z) (hi : i < x.length) (ht : Tracks x o i z)
    (hc : Counts x o i (z.mlen.getD o 0)) (h1 : 1 ≤ o) (hcond : i ≠ 0 ∧ o ≤ i ∧ x[i]? = x[i - o]?) (limit bls : Nat) :
    Tried x o i z (Zx0State.tryOffset x limit i (z, bls) o).1 := by
  obtain ⟨hrepSound, hrepOnly, hrepTracks, hrepMlen⟩ := Zx0State.tryRep_advances hs hi (ht.matched hcond.2.2) h1
  have hcount := hc.matched hcond.2.1 hcond.2.2
  rw [← hrepMlen] at hcount
  rw [Zx0State.tryOffset]
  simp only [if_pos hcond]
  generalize z.tryRep i o = z₁ at *
  have hmlen := hcount.getD_set z₁.mlen
  generalize z₁.mlen.getD o 0 + 1 = m at *
  have hbefore {b : List Nat} (hsound : Zx0Sound x { z₁ with mlen := z₁.mlen.set o m, bestLen := b }) :
      Tried x o i z { z₁ with mlen := z₁.mlen.set o m, bestLen := b } ∧
      Tried x o i z
        (Zx0State.tryNew { z₁ with mlen := z₁.mlen.set o m, bestLen := b } limit i o (b.getD m 0)) := by
    have hold : Tried x o i z { z₁ with mlen := z₁.mlen.set o m, bestLen := b } :=
      ⟨hsound, hrepOnly.trans (OnlyAt.withTables z₁ m b), hrepTracks.withTables _ _, hmlen⟩
    have hnew := Zx0State.tryNew_advances hsound hi hold.tracks (limit := limit) hcount (hsound.bestLen m)
    refine ⟨hold, hnew.sound, hold.only.trans hnew.only, hnew.tracks, ?_⟩
    rw [hnew.mlen]
    exact hmlen
  have hz₂ := hrepSound.withMlen (z₁.mlen.set o m)
  split
  · dsimp only
    split
    · obtain ⟨hsound, hframe⟩ := Zx0State.relax_spec i (m - bls) hz₂ bls
        (Zx0State.tailBits { z₁ with mlen := z₁.mlen.set o m } i (z₁.bestLen.getD bls 0))
      rw [hframe] at hsound ⊢
      exact (hbefore hsound).2
    · exact (hbefore hz₂).2
  · exact (hbefore hz₂).1

/-- A position where it does not. -/
theorem Zx0State.tryOffset_literal (hs : Zx0Sound x z) (hi : i < x.length) (ht : Tracks x o i z) (ho : o ≤ i + 1)
    (hcond : ¬ (i ≠ 0 ∧ o ≤ i ∧ x[i]? = x[i - o]?)) (limit bls : Nat) :
    Tried x o i z (Zx0State.tryOffset x limit i (z, bls) o).1 := by
  have hlit := Zx0State.tryLit_advances (hs.withMlen (z.mlen.set o 0)) hi (ht.withTables _ z.bestLen) ho
  rw [Zx0State.tryOffset]
  simp only [if_neg hcond]
  refine ⟨hlit.sound, (OnlyAt.withTables z 0 z.bestLen).trans hlit.only, hlit.tracks, ?_⟩
  rw [hlit.mlen]
  exact (Counts.zero x o (i + 1)).getD_set _

theorem Zx0State.tryOffset_tried (hs : Zx0Sound x z) (hi : i < x.length) (ht : Tracks x o i z)
    (hc : Counts x o i (z.mlen.getD o 0)) (h1 : 1 ≤ o) (ho : o ≤ i + 1) (limit bls : Nat) :
    Tried x o i z (Zx0State.tryOffset x limit i (z, bls) o).1 := by
  by_cases hcond : i ≠ 0 ∧ o ≤ i ∧ x[i]? = x[i - o]?
  · exact Zx0State.tryOffset_match hs hi ht hc h1 hcond limit bls
  · exact Zx0State.tryOffset_literal hs hi ht ho hcond limit bls

end

/-! ### One position (R171, R172) -/

theorem zx0Ceil_le (limit i : Nat) : zx0Ceil limit i ≤ i + 1 := by
  rw [zx0Ceil]
  split_ifs <;> omega

theorem zx0Ceil_mono {limit : Nat} (h1 : 1 ≤ limit) (i : Nat) : zx0Ceil limit i ≤ zx0Ceil limit (i + 1) := by
  rw [zx0Ceil, zx0Ceil]
  split_ifs <;> omega

theorem zx0Ceil_zero (limit : Nat) : zx0Ceil limit 0 = 1 := if_neg (Nat.not_lt_zero limit)

/-- At position `i`, the offsets up to `n` have been tried and the others have not; nothing has been found at the offsets beyond
the position's range. -/
structure TriedUpTo (x : List Byte) (limit i n : Nat) (z : Zx0State) : Prop where
  sound : Zx0Sound x z
  tracks : ∀ o, Tracks x o (if 1 ≤ o ∧ o ≤ n then i + 1 else i) z
  counts : ∀ o, Counts x o (if 1 ≤ o ∧ o ≤ n then i + 1 else i) (z.mlen.getD o 0)
  untouched : ∀ o, o = 0 ∨ zx0Ceil limit i < o → Untouched o z

/-- The ZX0 scan has come to position `i`. -/
structure Zx0Scanned (x : List Byte) (limit i : Nat) (z : Zx0State) : Prop where
  sound : Zx0Sound x z
  tracks : ∀ o, Tracks x o i z
  counts : ∀ o, Counts x o i (z.mlen.getD o 0)
  untouched : ∀ o, o = 0 ∨ zx0Ceil limit i < o → Untouched o z

section
variable {x : List Byte} {limit i : Nat}

theorem Zx0Scanned.tried_none {z : Zx0State} (h : Zx0Scanned x limit i z) : TriedUpTo x limit i 0 z :=
  ⟨h.sound, fun o => by rw [if_neg (by omega)]; exact h.tracks o, fun o => by rw [if_neg (by omega)]; exact h.counts o,
    h.untouched⟩

theorem TriedUpTo.next (hi : i < x.length) {n : Nat} {z : Zx0State} (h : TriedUpTo x limit i n z)
    (hn : n + 1 ≤ zx0Ceil limit i) (bls : Nat) :
    TriedUpTo x limit i (n + 1) (Zx0State.tryOffset x limit i (z, bls) (n + 1)).1 := by
  have ht := h.tracks (n + 1)
  have hc := h.counts (n + 1)
  rw [if_neg (by omega)] at ht hc
  obtain ⟨hsound, honly, htracks, hcounts⟩ :=
    Zx0State.tryOffset_tried h.sound hi ht hc (Nat.le_add_left 1 n) (hn.trans (zx0Ceil_le limit i)) limit bls
  have hsame {o : Nat} (ho : o ≠ n + 1) :
      (if 1 ≤ o ∧ o ≤ n + 1 then i + 1 else i) = if 1 ≤ o ∧ o ≤ n then i + 1 else i := if_congr (by omega) rfl rfl
  refine ⟨hsound, fun o => ?_, fun o => ?_, fun o ho => honly.untouched (by omega) (h.untouched o ho)⟩
  · by_cases hon : o = n + 1
    · subst hon
      rwa [if_pos (by omega)]
    · rw [hsame hon]
      exact honly.tracks hon (h.tracks o)
  · by_cases hon : o = n + 1
    · subst hon
      rwa [if_pos (by omega)]
    · rw [honly.mlen o hon, hsame hon]
      exact h.counts o

theorem TriedUpTo.fold (hi : i < x.length) {z : Zx0State} (h : TriedUpTo x limit i 0 z) {n : Nat} (hn : n ≤ zx0Ceil limit i)
    (bls : Nat) : TriedUpTo x limit i n ((upTo n).foldl (Zx0State.tryOffset x limit i) (z, bls)).1 := by
  induction n with
  | zero => exact h
  | succ n ih =>
    rw [upTo, List.range'_1_concat, List.foldl_append, Nat.add_comm 1 n]
    exact (ih (Nat.le_of_succ_le hn)).next hi hn _

/-- The scan's position moves on. -/
theorem Zx0Scanned.scanAt {z : Zx0State} (h : Zx0Scanned x limit i z) (h1 : 1 ≤ limit) (hi : i < x.length) :
    Zx0Scanned x limit (i + 1) (z.scanAt x limit i) := by
  have hall := h.tried_none.fold hi (Nat.le_refl (zx0Ceil limit i)) 2
  have huntouched {o : Nat} (ho : ¬ (1 ≤ o ∧ o ≤ zx0Ceil limit i)) := hall.untouched o (by omega)
  refine ⟨hall.sound, fun o => ?_, fun o => ?_, fun o ho => ?_⟩
  · by_cases ho : 1 ≤ o ∧ o ≤ zx0Ceil limit i
    · have := hall.tracks o
      rwa [if_pos ho] at this
    · exact (huntouched ho).tracks
  · by_cases ho : 1 ≤ o ∧ o ≤ zx0Ceil limit i
    · have := hall.counts o
      rwa [if_pos ho] at this
    · rw [show (z.scanAt x limit i).mlen.getD o 0 = 0 from (huntouched ho).mlen]
      exact Counts.zero x o (i + 1)
  · have := zx0Ceil_mono h1 i
    exact huntouched (by omega)

/-- The start of the scan (R172). -/
theorem zx0Scanned_init (x : List Byte) (limit : Nat) : Zx0Scanned x limit 0 (Zx0State.init x.length limit) := by
  have hrep {α : Type} (k m : Nat) (d : α) : (List.replicate k d).getD m d = d := by
    rw [List.getD_eq_getElem?_getD, List.getElem?_replicate]
    split <;> rfl
  have hmat (o : Nat) (ho : o ≠ 1) : (Zx0State.init x.length limit).lastMatch.getD o none = none :=
    (getD_set_of_ne ho _ _).trans (hrep _ _ _)
  have hlit (o : Nat) : (Zx0State.init x.length limit).lastLit.getD o none = none := hrep _ _ _
  have hmlen (o : Nat) : (Zx0State.init x.length limit).mlen.getD o 0 = 0 := hrep _ _ _
  have hstart : (Zx0State.init x.length limit).node[0]? = some { bits := -1, index := -1, offset := 1, chain := none } := rfl
  refine ⟨⟨fun id nd hid => ?_, fun i j hj => ?_, fun k => ?_⟩, fun o => ⟨fun j hj => ?_, fun j hj => ?_, fun _ => hlit o⟩,
    fun o => ?_, fun o ho => ?_⟩
  · cases id with
    | zero =>
      cases hstart.symm.trans hid
      exact ⟨by decide, by dsimp only; omega, .inl ⟨rfl, by decide, rfl⟩⟩
    | succ id => cases hid
  · rw [show (Zx0State.init x.length limit).optimal.getD i none = none from hrep _ _ _] at hj
    cases hj
  · have hbest : (Zx0State.init x.length limit).bestLen =
        if 2 < x.length then (List.replicate (x.length + 1) 0).set 2 2 else List.replicate (x.length + 1) 0 := rfl
    rw [hbest]
    split
    · rw [getD_set_eq]
      split
      · omega
      · rw [hrep]; exact Nat.zero_le k
    · rw [hrep]; exact Nat.zero_le k
  · rw [hlit] at hj
    cases hj
  · by_cases ho : o = 1
    · have hset : (Zx0State.init x.length limit).lastMatch =
        (List.replicate (zx0Ceil limit (x.length - 1) + 1) none).set 1 (some 0) := rfl
      rw [hset, getD_set_eq] at hj
      split at hj
      · cases hj
        exact ⟨_, hstart, by decide, by decide⟩
      · rw [hrep] at hj
        cases hj
    · rw [hmat o ho] at hj
      cases hj
  · rw [hmlen]
    exact Counts.zero x o 0
  · rw [zx0Ceil_zero] at ho
    exact ⟨hlit o, hmat o (by omega), hmlen o⟩

end

/-! ### The operations of the chain (R174) -/

/-- The ZX0 operations stand for the input from position `p` to its end; after a literal run (`r`) comes a copy. -/
inductive Zx0Stand (x : List Byte) : Bool → Nat → List Op → Prop
  | nil (r : Bool) : Zx0Stand x r x.length []
  | run {p : Nat} {bs : List Byte} {ops : List Op} : (∀ k < bs.length, x[p + k]? = bs[k]?) →
      Zx0Stand x true (p + bs.length) ops → Zx0Stand x false p (.run bs :: ops)
  | copy {r : Bool} {p o L : Nat} {ops : List Op} : Copies x p o L → Zx0Stand x false (p + L) ops →
      Zx0Stand x r p (.copy o L :: ops)

/-- The operation between two nodes of a chain (R174). -/
def zx0Op (x : List Byte) (a b : Node) : Op :=
  if b.offset = 0 then .run ((x.drop (a.index + 1).toNat).take (b.index - a.index).toNat)
  else .copy b.offset (b.index - a.index).toNat

theorem zx0Between_append (x : List Byte) (l : List Node) (a b : Node) :
    zx0Between x (l ++ [a, b]) = zx0Between x (l ++ [a]) ++ [zx0Op x a b] := by
  induction l with
  | nil => rfl
  | cons c l ih =>
    cases l with
    | nil => rfl
    | cons d l => exact congrArg (zx0Op x c d :: ·) ih

theorem Zx0State.chainFrom_none (z : Zx0State) (fuel : Nat) : z.chainFrom fuel none = [] := by
  cases fuel <;> rfl

theorem Zx0State.chainFrom_some {z : Zx0State} {j : Nat} {nd : Node} (h : z.node[j]? = some nd) (fuel : Nat) :
    z.chainFrom (fuel + 1) (some j) = nd :: z.chainFrom fuel nd.chain := by
  rw [Zx0State.chainFrom, Zx0State.nodeOf, h]

/-- What goes on from a node stands after what the node's own chain stands for. -/
theorem Follows.stand {x : List Byte} {m nd : Node} (h : Follows x m nd) (hlow : -1 ≤ m.index) (hup : nd.index < x.length)
    {ops : List Op} (hops : Zx0Stand x (nd.offset == 0) (nd.index + 1).toNat ops) :
    Zx0Stand x (m.offset == 0) (m.index + 1).toNat (zx0Op x m nd :: ops) := by
  have hle := h.le
  rw [zx0Op]
  split
  · next h0 =>
    rw [beq_eq_false_iff_ne.2 (h.run h0)]
    rw [beq_iff_eq.2 h0] at hops
    have hlen : ((x.drop (m.index + 1).toNat).take (nd.index - m.index).toNat).length = (nd.index - m.index).toNat := by
      rw [List.length_take, List.length_drop]
      omega
    refine .run (fun k hk => ?_) ?_
    · rw [hlen] at hk
      rw [List.getElem?_take_of_lt hk, List.getElem?_drop]
    · rwa [hlen, show (m.index + 1).toNat + (nd.index - m.index).toNat = (nd.index + 1).toNat by omega]
  · next h0 =>
    rw [beq_eq_false_iff_ne.2 h0] at hops
    refine .copy (h.copy h0) ?_
    rwa [show (m.index + 1).toNat + (nd.index - m.index).toNat = (nd.index + 1).toNat by omega]

theorem Zx0Sound.chain_stand {x : List Byte} {z : Zx0State} (hs : Zx0Sound x z) {fuel j : Nat} {nd : Node}
    (hj : z.node[j]? = some nd) (hfuel : j < fuel) {ops : List Op}
    (hops : Zx0Stand x (nd.offset == 0) (nd.index + 1).toNat ops) :
    Zx0Stand x false 0 (zx0Between x (z.chainFrom fuel (some j)).reverse ++ ops) := by
  induction fuel generalizing j nd ops with
  | zero => exact absurd hfuel (Nat.not_lt_zero j)
  | succ fuel ih =>
    rw [Zx0State.chainFrom_some hj]
    obtain ⟨-, hup, ⟨hstart, h0, hchain⟩ | ⟨k, m, hchain, hk, hm, hfollows⟩⟩ := hs.nodes j nd hj
    · rw [hchain, Zx0State.chainFrom_none]
      rw [hstart, beq_eq_false_iff_ne.2 h0] at hops
      exact hops
    · obtain ⟨fuel, rfl⟩ : ∃ f, fuel = f + 1 := ⟨fuel - 1, by omega⟩
      have hrest := ih hm (by omega) (hfollows.stand (hs.nodes k m hm).lower hup hops)
      rw [Zx0State.chainFrom_some hm, List.reverse_cons] at hrest
      rw [hchain, Zx0State.chainFrom_some hm, List.reverse_cons, List.reverse_cons, List.append_assoc, List.singleton_append,
        zx0Between_append, List.append_assoc]
      exact hrest

/-- R174, R191: where the last position has its node, the operations stand for the input. -/
theorem Zx0Scanned.ops_stand {x : List Byte} {limit : Nat} {z : Zx0State} (h : Zx0Scanned x limit x.length z) (hx : x ≠ [])
    (hlast : z.optimal.getD (x.length - 1) none ≠ none) : Zx0Stand x false 0 (zx0Ops x z) := by
  have hlen : 1 ≤ x.length := List.length_pos_iff.2 hx
  obtain ⟨j, hj⟩ := Option.ne_none_iff_exists'.1 hlast
  obtain ⟨nd, hnd, hidx⟩ := h.sound.optimal _ j hj
  rw [zx0Ops, hj, ← List.append_nil (zx0Between _ _)]
  refine h.sound.chain_stand hnd (Nat.lt_succ_of_lt (Array.getElem?_eq_some_iff.1 hnd).1) ?_
  rw [show (nd.index + 1).toNat = x.length by omega]
  exact .nil _

/-! ### The parse of a command (R126) -/

theorem State.parseStep_zx0 {s : State} (h : s.variant = .zx0) : s.parseStep = s.parseZx0 := by
  rw [State.parseStep, h]

/-- The command has ended with an error. -/
def State.Ended (s : State) : Prop := s.phase = .idle ∧ s.csr.err = true

theorem State.raise_ended {s : State} (hd : s.dutyBroken = false) {e : ErrCode} (he : e ≠ .none) : (s.raise e).Ended :=
  (State.raise_failedFrom hd he).err

theorem one_le_offsetLimit (mode : BitVec 4) : 1 ≤ offsetLimit mode := by
  revert mode
  decide

/-- The ZX0 parse under way has come to its position with a node for every position before. -/
structure Zx0Parsing (x : List Byte) (limit : Nat) (u : State) : Prop where
  scanned : Zx0Scanned x limit u.scan u.zx0
  last : u.scan ≠ 0 → u.zx0.optimal.getD (u.scan - 1) none ≠ none

/-- R172, R174: the ZX0 parse ends the command, or hands the packer operations that stand for the input. -/
theorem reaches_parsed_zx0 {s : State} (hs : Scanning s s) (h0 : s.scan = 0) (hv : s.variant = .zx0) (hx : s.image ≠ [])
    (hd : s.dutyBroken = false) (hz : s.zx0 = Zx0State.init s.image.length (offsetLimit s.latch.mode)) :
    (∃ t, Reaches s t ∧ t.Ended) ∨ ∃ t ops, Reaches s t ∧ Parsed s ops t ∧ Zx0Stand s.image false 0 ops := by
  have hparse {u : State} (hu : Scanning s u) : u.parseStep = u.parseZx0 := State.parseStep_zx0 (hu.variant.trans hv)
  have hstep (u : State) (hu : Scanning s u) (hparsing : Zx0Parsing s.image (offsetLimit s.latch.mode) u)
      (hlt : u.scan < s.image.length) : Scans s (Zx0Parsing s.image (offsetLimit s.latch.mode)) u ∨ u.parseStep.Ended := by
    have hscan : u.zx0.scanAt u.image (offsetLimit u.latch.mode) u.scan =
        u.zx0.scanAt s.image (offsetLimit s.latch.mode) u.scan := by rw [hu.image, hu.frame.latch]
    rw [Scans, hparse hu, State.parseZx0, if_pos (by rwa [hu.image])]
    dsimp only
    rw [hscan]
    split
    · exact .inr (State.raise_ended (hu.frame.dutyBroken.trans hd) (by decide))
    · next hnode =>
      have hnext := hparsing.scanned.scanAt (one_le_offsetLimit s.latch.mode) hlt
      exact .inl ⟨⟨hu.phase, hu.image, hlt, { hu.frame with }⟩, ⟨hnext, fun _ => hnode⟩, Nat.lt_succ_self _⟩
  have hstart : Zx0Parsing s.image (offsetLimit s.latch.mode) s :=
    ⟨by rw [h0, hz]; exact zx0Scanned_init _ _, fun hne => absurd h0 hne⟩
  obtain ⟨t, ht, hst, hparsing, hend⟩ | hfail := Scanning.reaches hstep hs hstart
  · obtain ⟨u, hu, hparsed⟩ := Scanning.parsed ht hst (ops := zx0Ops s.image t.zx0)
      (by rw [hparse hst, State.parseZx0, if_neg (by rw [hst.image]; omega), hst.image])
    refine .inr ⟨u, _, hu, hparsed, Zx0Scanned.ops_stand (hend ▸ hparsing.scanned) hx (hend ▸ hparsing.last ?_)⟩
    have := List.length_pos_iff.2 hx
    omega
  · exact .inl hfail

end Sys2Proof.Machine
end

section
/-! PROOFS. The emission of a ZX0 parse (spec/44_packer.md R203, R207 to R211, R216): every operation is emitted as its token, or
the command ends with an error. -/

namespace Sys2Proof.Machine

/-! ### Calls that succeed lay out their items -/

/-- The state with a larger OBUF. -/
def State.roomy (s : State) (k : Nat) : State :=
  { s with params := { s.params with maxInputLen := s.params.maxInputLen + k } }

theorem State.obufSize_roomy (s : State) (k : Nat) :
    obufSize s.params ≤ obufSize (s.roomy k).params ∧ k ≤ obufSize (s.roomy k).params := by
  have hsize : obufSize (s.roomy k).params = (9 * (s.params.maxInputLen + k) + 7) / 8 + 8 := rfl
  rw [hsize, obufSize]
  omega

theorem State.writeByte_roomy {s t : State} {v : Byte} (h : s.writeByte v = .ok t) (k : Nat) :
    (s.roomy k).writeByte v = .ok (t.roomy k) := by
  obtain ⟨hroom, rfl⟩ := State.writeByte_ok_iff.1 h
  exact State.writeByte_ok_iff.2 ⟨hroom.trans_le (s.obufSize_roomy k).1, rfl⟩

theorem State.call_roomy {s t : State} {c : Call} (h : s.call c = .ok t) (k : Nat) :
    (s.roomy k).call c = .ok (t.roomy k) := by
  cases c with
  | backtrack => cases h; rfl
  | byte v => exact State.writeByte_roomy h k
  | bit v =>
    cases hb : s.pk.backtrack with
    | true =>
      cases (State.writeBit_slot hb v).symm.trans h
      exact State.writeBit_slot (s := s.roomy k) hb v
    | false =>
      by_cases h0 : s.pk.bitMask = 0
      · rw [State.call, State.writeBit, if_neg (Bool.eq_false_iff.1 hb), if_pos h0] at h
        split at h
        · cases h
        · next u hu =>
          cases h
          obtain ⟨hroom, rfl⟩ := State.writeByte_ok_iff.1 hu
          exact State.writeBit_open (s := s.roomy k) hb h0 (hroom.trans_le (s.obufSize_roomy k).1) v
      · cases (State.writeBit_next hb h0 v).symm.trans h
        exact State.writeBit_next (s := s.roomy k) hb h0 v

theorem State.calls_roomy {cs : List Call} {s t : State} (h : s.calls cs = .ok t) (k : Nat) :
    (s.roomy k).calls cs = .ok (t.roomy k) := by
  induction cs generalizing s with
  | nil => cases h; rfl
  | cons c cs ih =>
    rw [State.calls] at h
    split at h
    · cases h
    · next u hu => exact (State.calls_cons (State.call_roomy hu k) cs).trans (ih h)

/-- Calls that lay out items wherever OBUF has room have had it where they succeed. -/
theorem laidOut_of_calls_ok {s t : State} {cs : List Call} {items : List Item} (h : ∀ k, (s.roomy k).Lays cs items)
    (hok : s.calls cs = .ok t) : LaidOut s items t := by
  generalize hn : (items.foldl Layout.put (layoutOf s)).out.length = n
  obtain ⟨u, hu, hl⟩ := h n (hn.trans_le (s.obufSize_roomy n).2)
  cases hu.symm.trans (State.calls_roomy hok n)
  exact ⟨hl.layout, hl.lastOffset, hl.prevKind, hl.backtrack⟩

theorem State.calls_error {cs : List Call} {s : State} {e : ErrCode} (h : s.calls cs = .error e) : e = .alloc := by
  induction cs generalizing s with
  | nil => cases h
  | cons c cs ih =>
    rw [State.calls] at h
    split at h
    · next hc => cases h; exact (State.call_error s c _ hc).1
    · exact ih h

/-! ### One token (R207 to R211) -/

/-- The calls that emit a ZX0 token. -/
def zx0Calls (f : Fmt) : Instr → List Call
  | .zx0Lit0 bs | .zx0Lit bs => .bit false :: writeIGamma f.pol false bs.length ++ byteCalls bs
  | .zx0Rep L => .bit false :: writeIGamma f.pol false L
  | .zx0Cpy o L =>
    .bit true :: writeIGamma f.pol f.inv (zx0Msb o) ++ [.byte (zx0Lsb f.pol o), .backtrack] ++ writeIGamma f.pol false (L - 1)
  | .zx0End => .bit true :: writeIGamma f.pol f.inv 256
  | _ => []

section
variable {s : State} {i : Instr} (hi : tokenVariant i = some .zx0) (hready : emitReady s i)
include hi hready

theorem zx0Calls_lays (hs : s.packerOk) : s.Lays (zx0Calls s.fmt i) (tokenItems s.fmt i) := by
  cases i with
  | zx0Lit0 bs => exact ((callsLay_bits _).append (callsLay_bytes bs)).afterDroppedBit hs hready
  | zx0Lit bs => exact ((callsLay_bits (false :: igammaBits _ false bs.length)).append (callsLay_bytes bs)) s hs hready
  | zx0Rep L => exact callsLay_bits (false :: igammaBits _ false L) s hs hready.1
  | zx0Cpy o L => exact callsLay_zx0Cpy s.fmt o L s hs hready.1
  | zx0End => exact callsLay_bits (true :: igammaBits _ _ 256) s hs hready
  | _ => cases hi

theorem exec_zx0_emit (hp : s.phase = .emit) (hv : s.variant = .zx0) (hw : i.wellFormed = true) :
    ∃ post, exec i s = .next (s.emitThen (zx0Calls s.fmt i) post) := by
  have hrun (u e : State → State) : s.runToken .zx0 u e = .next (e s) := s.runToken_emit .zx0 u e hv hp
  cases i with
  | zx0Lit0 bs => exact ⟨_, (hrun _ _ : execZx0Lit0 bs s = _)⟩
  | zx0Lit bs => exact ⟨_, (hrun _ _ : execZx0Lit bs s = _)⟩
  | zx0Rep L =>
    have hL : s.pk.prevKind = .lit ∧ 1 ≤ L := ⟨hready.2, (zx0Codable_iff.1 hw).1⟩
    exact ⟨_, ((hrun _ _).trans (congrArg _ (if_pos hL)) : execZx0Rep L s = _)⟩
  | zx0Cpy o L => exact ⟨_, ((hrun _ _).trans (congrArg _ (if_pos hready.2)) : execZx0Cpy o L s = _)⟩
  | zx0End => exact ⟨_, (hrun _ _ : execZx0End s = _)⟩
  | _ => cases hi

end

theorem emitReady_roomy {s : State} {i : Instr} (h : emitReady s i) (k : Nat) : emitReady (s.roomy k) i := by
  cases i <;> exact h

/-- A COMPRESS in ZX0 that emits, under a host that keeps its duty. -/
structure Zx0Emitting (s : State) : Prop where
  phase : s.phase = .emit
  variant : s.variant = .zx0
  compressing : s.compressing = true
  duty : s.dutyBroken = false
  packer : s.packerOk
  fits : s.obuf.length ≤ obufSize s.params

theorem EmittedToken.emitting {s t : State} {i : Instr} (h : EmittedToken s i t) (hs : Zx0Emitting s) (hend : isEnd i = false)
    (hroom : (laidOut s i).out.length ≤ obufSize s.params) : Zx0Emitting t := by
  have hf := h.engineFrame
  refine ⟨?_, (State.variant_congr t s hf.latch).trans hs.variant, (State.compressing_congr t s hf.latch).trans hs.compressing,
    hf.dutyBroken.trans hs.duty, h.packerOk, ?_⟩
  · rw [h.frame, hend]; rfl
  · rw [hf.params]
    exact (congrArg (fun l => l.out.length) h.layout).trans_le hroom

/-- The packer emits a token it is ready for, or the command ends for want of room in OBUF. -/
theorem Zx0Emitting.emits_or_ends {s : State} {i : Instr} (hs : Zx0Emitting s) (hi : s.nextToken = some i)
    (hw : i.wellFormed = true) (hready : emitReady s i) :
    ∃ t, stepEngine s = .next t ∧
      ((EmittedToken s i t ∧ (laidOut s i).out.length ≤ obufSize s.params) ∨ t.Ended) := by
  by_cases hroom : (laidOut s i).out.length ≤ obufSize s.params
  · obtain ⟨t, ht, he⟩ := stepEngine_emits hs.phase hi hw hs.packer hready hs.compressing hroom
    exact ⟨t, ht, .inl ⟨he, hroom⟩⟩
  · have hvar : tokenVariant i = some .zx0 := hs.variant ▸ State.nextToken_tokenVariant hi
    obtain ⟨post, hexec⟩ := exec_zx0_emit hvar (emitReady_popOp hready) hs.phase hs.variant hw
    have hlays (k : Nat) : (s.popOp.roomy k).Lays (zx0Calls s.fmt i) (tokenItems s.fmt i) :=
      zx0Calls_lays (s := s.popOp.roomy k) hvar (emitReady_roomy (emitReady_popOp hready) k) hs.packer
    refine ⟨_, (stepEngine_emit_token hs.phase hi).trans hexec, .inr ?_⟩
    rw [State.emitThen]
    cases hcalls : s.popOp.calls (zx0Calls s.popOp.fmt i) with
    | ok t =>
      have hl := laidOut_of_calls_ok hlays hcalls
      exact absurd ((congrArg (fun l => l.out.length) hl.layout).symm.trans_le ((State.calls_packed hcalls).fits hs.fits)) hroom
    | error e =>
      cases State.calls_error hcalls
      exact State.raise_ended (s := s.popOp) (e := .alloc) hs.duty (by decide)

/-! ### The tokens of a parse (R86, R207 to R211) -/

/-- A ZX0 stream from position `p` of the input to its end: its tokens stand for the input, with the last offset `lo`, after a
literal run (`r`) or not (R86). -/
inductive Zx0Stream (x : List Byte) : Bool → Nat → Nat → List Instr → Prop
  | done {r : Bool} {lo : Nat} : Zx0Stream x r lo x.length [.zx0End]
  | run {lo p : Nat} {bs : List Byte} {toks : List Instr} : (∀ k < bs.length, x[p + k]? = bs[k]?) →
      zx0Codable bs.length = true → Zx0Stream x true lo (p + bs.length) toks →
      Zx0Stream x false lo p ((if p = 0 then .zx0Lit0 bs else .zx0Lit bs) :: toks)
  | rep {lo p L : Nat} {toks : List Instr} : Copies x p lo L → zx0Codable L = true →
      Zx0Stream x false lo (p + L) toks → Zx0Stream x true lo p (.zx0Rep L :: toks)
  | copy {r : Bool} {lo p o L : Nat} {toks : List Instr} : Copies x p o L → (Instr.zx0Cpy o L).wellFormed = true →
      Zx0Stream x false o (p + L) toks → Zx0Stream x r lo p (.zx0Cpy o L :: toks)

/-- The emission of the operations from position `p` on ends the command, or lays out a stream that stands for the rest of the
input. -/
def EmitsStream (x : List Byte) (r : Bool) (p : Nat) (s : State) : Prop :=
  (∃ t, Reaches s t ∧ t.Ended) ∨
    ∃ toks t, Reaches s t ∧ Zx0Stream x r s.pk.lastOffset p toks ∧ EmissionDone s (toks.flatMap (tokenItems s.fmt)) t

theorem EmitsStream.ended {x : List Byte} {r : Bool} {p : Nat} {s t : State} (ht : stepEngine s = .next t) (h : t.Ended) :
    EmitsStream x r p s := .inl ⟨t, .single ht, h⟩

/-- One token, and the stream of the operations after it. -/
theorem EmitsStream.cons {x : List Byte} {r r' : Bool} {p q : Nat} {s t : State} {i : Instr} (ht : stepEngine s = .next t)
    (he : EmittedToken s i t) (h : EmitsStream x r' q t)
    (hcons : ∀ toks, Zx0Stream x r' t.pk.lastOffset q toks → Zx0Stream x r s.pk.lastOffset p (i :: toks)) :
    EmitsStream x r p s := by
  have hf := he.engineFrame
  refine h.imp ?_ ?_
  · exact fun ⟨u, hu, hended⟩ => ⟨u, .head ht hu, hended⟩
  · rintro ⟨toks, u, hu, hstream, hd⟩
    have hfmt : t.fmt = s.fmt := State.fmt_congr t s hf.latch hf.params
    refine ⟨_, u, .head ht hu, hcons toks hstream, ?_, hd.packerOk, ?_, hf.trans hd.frame⟩
    · rw [hd.layout, hfmt, he.layout, List.flatMap_cons, List.foldl_append]
      rfl
    · rw [hd.phase, State.reversed_congr t s hf.latch]

/-- What the packer knows of the operations emitted (R49): none, or the kind of the last one. -/
structure PackerAt (r : Bool) (p : Nat) (s : State) : Prop where
  kind : s.pk.prevKind = if p = 0 then .none else if r then .lit else .copy
  backtrack : s.pk.backtrack = decide (p = 0)

theorem copyInRange_zx0 {s : State} (hv : s.variant = .zx0) {o L : Nat} (h : copyInRange s.latch.mode o L = true) :
    1 ≤ o ∧ o ≤ 32640 ∧ 2 ≤ L := by
  have hlimit : offsetLimit s.latch.mode ≤ 32640 := by
    generalize s.latch.mode = mode
    revert mode
    decide
  have hvar : variantOf s.latch.mode = .zx0 := hv
  rw [copyInRange, hvar] at h
  obtain ⟨c, hc⟩ := Option.isSome_iff_exists.1 h
  rw [costNewZx0] at hc
  split at hc
  · omega
  · cases hc

section
variable {x : List Byte} {s : State} {op : Op} {ops : List Op} (hs : Zx0Emitting s) (hops : s.ops = op :: ops)
include hs hops

theorem Zx0Emitting.nextToken_op : s.nextToken = tokenZx0 s.pk op := by
  rw [State.nextToken, hs.variant, hops]

/-- An operation that has no token ends the command (R263). -/
theorem Zx0Emitting.ends_of_no_token (h : tokenZx0 s.pk op = none) : ∃ t, stepEngine s = .next t ∧ t.Ended := by
  have hstep : stepEngine s = .next (s.raise .limit) := by
    rw [stepEngine_emit hs.phase, State.emitStep, hs.nextToken_op hops, h]
  exact ⟨_, hstep, State.raise_ended hs.duty (by decide)⟩

/-- An operation's token the packer is ready for, and the operations after it. -/
theorem Zx0Emitting.emitsStream {r r' : Bool} {p q : Nat} {i : Instr} (hi : tokenZx0 s.pk op = some i)
    (hw : i.wellFormed = true) (hready : emitReady s i) (hend : isEnd i = false) (hq : q ≠ 0)
    (hkind : (packerAfter s i).2 = if r' then .lit else .copy)
    (ih : ∀ {t : State}, Zx0Emitting t → PackerAt r' q t → t.ops = ops → EmitsStream x r' q t)
    (hcons : ∀ toks, Zx0Stream x r' (packerAfter s i).1 q toks → Zx0Stream x r s.pk.lastOffset p (i :: toks)) :
    EmitsStream x r p s := by
  obtain ⟨t, ht, ⟨he, hroom⟩ | hended⟩ := hs.emits_or_ends ((hs.nextToken_op hops).trans hi) hw hready
  · have hnext : PackerAt r' q t :=
      ⟨by rw [he.prevKind, hkind, if_neg hq], by rw [he.backtrack]; exact (decide_eq_false hq).symm⟩
    have hops' : t.ops = ops := by rw [he.frame, hops]; rfl
    exact .cons ht he (ih (he.emitting hs hend hroom) hnext hops') fun toks htoks => hcons toks (he.lastOffset ▸ htoks)
  · exact .ended ht hended

end

/-- The last-offset copy that cannot be encoded, or the copy out of range, ends the command (R210, R216). -/
theorem Zx0Emitting.ends_of_limit {s : State} {i : Instr} (hs : Zx0Emitting s) (hi : s.nextToken = some i)
    (h : exec i s.popOp = .next (s.popOp.raise .limit)) : ∃ t, stepEngine s = .next t ∧ t.Ended :=
  ⟨_, (stepEngine_emit_token hs.phase hi).trans h, State.raise_ended (s := s.popOp) hs.duty (by decide)⟩

theorem exec_zx0Rep_limit {s : State} (hp : s.phase = .emit) (hv : s.variant = .zx0) {L : Nat}
    (h : ¬ (s.pk.prevKind = .lit ∧ 1 ≤ L)) : exec (.zx0Rep L) s = .next (s.raise .limit) :=
  ((s.runToken_emit .zx0 _ _ hv hp).trans (congrArg _ (if_neg h)) : execZx0Rep L s = _)

theorem exec_zx0Cpy_limit {s : State} (hp : s.phase = .emit) (hv : s.variant = .zx0) {o L : Nat}
    (h : ¬ copyInRange s.latch.mode o L = true) : exec (.zx0Cpy o L) s = .next (s.raise .limit) :=
  ((s.runToken_emit .zx0 _ _ hv hp).trans (congrArg _ (if_neg h)) : execZx0Cpy o L s = _)

section
variable {x : List Byte} (hlen : x.length < 2 ^ 32) {s : State} {p : Nat} {ops : List Op} (hs : Zx0Emitting s)
include hlen hs

/-- A literal run emitted (R207, R208). -/
theorem Zx0Emitting.emitsStream_run (hpk : PackerAt false p s) {bs : List Byte} (hops : s.ops = .run bs :: ops)
    (hbytes : ∀ k < bs.length, x[p + k]? = bs[k]?)
    (ih : ∀ {t : State}, Zx0Emitting t → PackerAt true (p + bs.length) t → t.ops = ops →
      EmitsStream x true (p + bs.length) t) : EmitsStream x false p s := by
  by_cases hnil : bs = []
  · obtain ⟨t, ht, hended⟩ := hs.ends_of_no_token hops (if_pos hnil)
    exact .ended ht hended
  have hpos := List.length_pos_iff.2 hnil
  have hlast := (hbytes (bs.length - 1) (by omega)).trans (List.getElem?_eq_getElem (by omega))
  have hwithin := (List.getElem?_eq_some_iff.1 hlast).1
  have hcodable : zx0Codable bs.length = true := zx0Codable_iff.2 ⟨hpos, by omega⟩
  have hstream (toks : List Instr) := Zx0Stream.run (lo := s.pk.lastOffset) (toks := toks) hbytes hcodable
  have htoken : tokenZx0 s.pk (.run bs) = if s.pk.prevKind = .none then some (.zx0Lit0 bs) else some (.zx0Lit bs) :=
    if_neg hnil
  by_cases h0 : p = 0
  · simp only [if_pos h0] at hstream
    rw [if_pos (by rw [hpk.kind, if_pos h0])] at htoken
    exact hs.emitsStream hops htoken hcodable (hpk.backtrack.trans (decide_eq_true h0)) rfl (by omega) rfl ih hstream
  · simp only [if_neg h0] at hstream
    rw [if_neg (by rw [hpk.kind, if_neg h0]; decide)] at htoken
    exact hs.emitsStream hops htoken hcodable (hpk.backtrack.trans (decide_eq_false h0)) rfl (by omega) rfl ih hstream

/-- A copy emitted (R209, R210). -/
theorem Zx0Emitting.emitsStream_copy {r : Bool} (hpk : PackerAt r p s) {o L : Nat} (hops : s.ops = .copy o L :: ops)
    (hcopies : Copies x p o L)
    (ih : ∀ {t : State}, Zx0Emitting t → PackerAt false (p + L) t → t.ops = ops → EmitsStream x false (p + L) t) :
    EmitsStream x r p s := by
  have ho := hcopies.one_le.trans hcopies.le
  have hp : p ≠ 0 := by omega
  have hback : s.pk.backtrack = false := hpk.backtrack.trans (decide_eq_false hp)
  have hwithin := hcopies.within
  by_cases hlast : o = s.pk.lastOffset
  · have htoken : tokenZx0 s.pk (.copy o L) = some (.zx0Rep L) := if_pos hlast
    by_cases hlit : s.pk.prevKind = .lit ∧ 1 ≤ L
    · have hkind := hpk.kind
      rw [hlit.1, if_neg hp] at hkind
      cases r with
      | false => cases hkind
      | true =>
        have hcodable : zx0Codable L = true := zx0Codable_iff.2 ⟨hlit.2, by omega⟩
        exact hs.emitsStream hops htoken hcodable ⟨hback, hlit.1⟩ rfl (by omega) rfl ih
          fun toks htoks => .rep (hlast ▸ hcopies) hcodable htoks
    · obtain ⟨t, ht, hended⟩ := hs.ends_of_limit ((hs.nextToken_op hops).trans htoken)
        (exec_zx0Rep_limit (s := s.popOp) hs.phase hs.variant hlit)
      exact .ended ht hended
  · have htoken : tokenZx0 s.pk (.copy o L) = some (.zx0Cpy o L) := if_neg hlast
    by_cases hrange : copyInRange s.latch.mode o L = true
    · obtain ⟨h1, ho', h2⟩ := copyInRange_zx0 hs.variant hrange
      have hw : (Instr.zx0Cpy o L).wellFormed = true :=
        wellFormed_zx0Cpy.2 ⟨⟨h1, ho'⟩, h2, zx0Codable_iff.2 ⟨by omega, by omega⟩⟩
      exact hs.emitsStream hops htoken hw ⟨hback, hrange⟩ rfl (by omega) rfl ih fun toks htoks => .copy hcopies hw htoks
    · obtain ⟨t, ht, hended⟩ := hs.ends_of_limit ((hs.nextToken_op hops).trans htoken)
        (exec_zx0Cpy_limit (s := s.popOp) hs.phase hs.variant hrange)
      exact .ended ht hended

end

/-- Every operation of the parse is emitted as a token that stands for it, or ends the command. -/
theorem Zx0Stand.emission {x : List Byte} (hlen : x.length < 2 ^ 32) (hx : x ≠ []) {r : Bool} {p : Nat} {ops : List Op}
    (h : Zx0Stand x r p ops) {s : State} (hs : Zx0Emitting s) (hpk : PackerAt r p s) (hops : s.ops = ops) :
    EmitsStream x r p s := by
  induction h generalizing s with
  | nil r =>
    have hp : x.length ≠ 0 := fun h0 => hx (List.eq_nil_of_length_eq_zero h0)
    have hnext : s.nextToken = some .zx0End := by rw [State.nextToken, hs.variant, hops]
    obtain ⟨t, ht, ⟨he, -⟩ | hended⟩ := hs.emits_or_ends hnext rfl (hpk.backtrack.trans (decide_eq_false hp))
    · refine .inr ⟨_, t, .single ht, .done, ?_, he.packerOk, ?_, he.engineFrame⟩
      · rw [he.layout, List.flatMap_singleton]
        rfl
      · rw [he.frame]
        rfl
    · exact .ended ht hended
  | run hbytes _ ih => exact hs.emitsStream_run hlen hpk hops hbytes ih
  | copy hcopies _ ih => exact hs.emitsStream_copy hlen hpk hops hcopies ih

end Sys2Proof.Machine
end

section
/-! PROOFS. Unpacking a ZX0 stream (spec/45_unpacker.md R234 to R238, R245): each token is read back behind the indicator that
announced it, outputs what it stands for, and reads the indicator of the next. -/

namespace Sys2Proof.Machine

/-! ### A literal run read back (R238) -/

theorem yields_bytes {x : List Byte} {bs : List Byte} {c d : Cursor} (h : Yields x c (bs.map .byte) (.ok d)) :
    (x.drop c.inIdx).take bs.length = bs ∧
      d = { c with inIdx := c.inIdx + bs.length, lastByte := bs.getLast?.getD c.lastByte } := by
  induction bs generalizing c with
  | nil => cases h; exact ⟨rfl, rfl⟩
  | cons b bs ih =>
    cases h with
    | byte _ hread hy =>
      obtain ⟨hb, rfl⟩ := (readByte_ok_iff _ _ _ _).1 hread
      obtain ⟨hlt, hget⟩ := List.getElem?_eq_some_iff.1 hb
      obtain ⟨htake, rfl⟩ := ih hy
      refine ⟨?_, ?_⟩
      · rw [List.drop_eq_getElem_cons hlt, hget, List.length_cons, List.take_succ_cons, htake]
      · rw [List.getLast?_cons, List.length_cons]
        simp only [Option.getD_some]
        rw [Nat.add_assoc, Nat.add_comm 1]

theorem readRun_of_yields {x : List Byte} {bs : List Byte} {c d : Cursor} (h : Yields x c (bs.map .byte) (.ok d)) :
    readRun x bs.length c = .ok (bs, d) := by
  obtain ⟨htake, rfl⟩ := yields_bytes h
  simp only [readRun, htake, Nat.lt_irrefl, if_false]

/-! ### Tokens behind their indicators (R86, R238) -/

/-- The state that reads a ZX0 token. -/
def zx0State : Instr → DState
  | .zx0Lit0 _ | .zx0Lit _ => .readLiteralRun
  | .zx0Rep _ => .readLastOffsetCopy
  | _ => .readNewOffsetCopy

/-- The indicator of a ZX0 token. -/
def zx0Indicator : Instr → Bool
  | .zx0Cpy _ _ | .zx0End => true
  | _ => false

/-- The items of a ZX0 token but its indicator, which the first token has not. -/
def zx0Body (f : Fmt) : Instr → List Item
  | .zx0Lit0 bs => tokenItems f (.zx0Lit0 bs)
  | i => (tokenItems f i).tail

/-- Whether a literal run has been read (R238). -/
def zx0IsRun : Instr → Bool
  | .zx0Lit0 _ | .zx0Lit _ => true
  | _ => false

/-- What a ZX0 token does to the unpacker before it reads the next indicator (R238). -/
def zx0Effect (s : State) : Instr → Except ErrCode State
  | .zx0Lit0 bs | .zx0Lit bs => s.outputAll bs
  | .zx0Rep L => s.copy s.up.lastOffset L
  | .zx0Cpy o L => (s.setUnpackOffset o).copy o L
  | _ => .ok s

/-- The decoder reads a token back from what follows its indicator; the two tokens of a run it may take for each other, which
unpack alike. -/
theorem decode_zx0Body {f : Fmt} {i : Instr} (hi : tokenVariant i = some .zx0) (hw : i.wellFormed = true) {x : List Byte}
    {c d : Cursor} (hy : Yields x c (zx0Body f i) (.ok d)) :
    ∃ i', decode f .zx0 (zx0State i) x c = .ok (i', d) ∧ ∀ s, exec i' s = exec i s := by
  have hrun {bs : List Byte} (hL : zx0Codable bs.length = true)
      (hy : Yields x c (bitItems (igammaBits f.pol false bs.length) ++ bs.map .byte) (.ok d)) :
      ∃ mk : List Byte → Instr, (mk = .zx0Lit0 ∨ mk = .zx0Lit) ∧ decodeZx0 f x .readLiteralRun c = .ok (mk bs, d) := by
    obtain ⟨e, hcode, hbytes⟩ := yields_append_ok hy
    refine ⟨if c.inIdx = 0 then .zx0Lit0 else .zx0Lit, ?_, ?_⟩
    · split
      · exact .inl rfl
      · exact .inr rfl
    · rw [decodeZx0_run hL hcode]
      simp only [Except.bind, runAfter, readRun_of_yields hbytes]
      rfl
  cases i with
  | zx0Lit0 bs =>
    obtain ⟨mk, hmk, hdec⟩ := hrun hw hy
    exact ⟨_, hdec, fun s => by obtain rfl | rfl := hmk <;> rfl⟩
  | zx0Lit bs =>
    obtain ⟨mk, hmk, hdec⟩ := hrun hw hy
    exact ⟨_, hdec, fun s => by obtain rfl | rfl := hmk <;> rfl⟩
  | zx0Rep L => exact ⟨_, decodeZx0_parses_rep hw _ _ hy, fun _ => rfl⟩
  | zx0Cpy o L =>
    obtain ⟨⟨h1, ho⟩, h2, hL⟩ := wellFormed_zx0Cpy.1 hw
    exact ⟨_, decodeZx0_parses_copy h1 ho h2 hL _ _ hy, fun _ => rfl⟩
  | zx0End => exact ⟨_, decodeZx0_parses_end _ _ hy, fun _ => rfl⟩
  | _ => cases hi

theorem exec_zx0_unpack {s : State} (hp : s.phase = .unpack) (hv : s.variant = .zx0) {i : Instr}
    (hi : tokenVariant i = some .zx0) (hend : isEnd i = false) :
    exec i s = .next (settle s (State.zx0Then (zx0IsRun i) (zx0Effect s i))) := by
  have hrun (u e : State → State) : s.runToken .zx0 u e = .next (u s) := s.runToken_unpack _ u e hv hp
  cases i with
  | zx0Lit0 bs => exact (hrun _ _ : execZx0Lit0 bs s = _)
  | zx0Lit bs => exact (hrun _ _ : execZx0Lit bs s = _)
  | zx0Rep L => exact (hrun _ _ : execZx0Rep L s = _)
  | zx0Cpy o L => exact (hrun _ _ : execZx0Cpy o L s = _)
  | zx0End => cases hend
  | _ => cases hi

/-- The unpacker is about to read the first of the tokens, its indicator read, and the stream yields them to its end at `c`. -/
def ReadsNext (s : State) (toks : List Instr) (c : Cursor) : Prop :=
  ∃ i more, toks = i :: more ∧ s.up.dstate = zx0State i ∧
    Yields s.image s.up.cur (zx0Body s.fmt i ++ more.flatMap (tokenItems s.fmt)) (.ok c)

/-- Past the first token, an indicator announces the next (R86). -/
theorem Zx0Stream.head {x : List Byte} {r : Bool} {lo p : Nat} {toks : List Instr} (h : Zx0Stream x r lo p toks) (hp : p ≠ 0) :
    ∃ i more, toks = i :: more ∧ (∀ f, tokenItems f i = .bit (zx0Indicator i) :: zx0Body f i) ∧
      zx0StateAfter r (zx0Indicator i) = zx0State i := by
  cases h with
  | done => exact ⟨_, _, rfl, fun _ => rfl, rfl⟩
  | run => rw [if_neg hp]; exact ⟨_, _, rfl, fun _ => rfl, rfl⟩
  | rep => exact ⟨_, _, rfl, fun _ => rfl, rfl⟩
  | copy => exact ⟨_, _, rfl, fun _ => rfl, rfl⟩

/-- The indicator of the next token read. -/
theorem Zx0Stream.zx0Next {x : List Byte} {r : Bool} {lo p : Nat} {toks : List Instr} (h : Zx0Stream x r lo p toks) (hp : p ≠ 0)
    {s : State} {c : Cursor} (hy : Yields s.image s.up.cur (toks.flatMap (tokenItems s.fmt)) (.ok c)) :
    ∃ t, s.zx0Next r = .ok t ∧ t = { s with up := { s.up with cur := t.up.cur, dstate := t.up.dstate } } ∧
      ReadsNext t toks c := by
  obtain ⟨i, more, rfl, hitems, hstate⟩ := h.head hp
  rw [List.flatMap_cons, hitems] at hy
  cases hy with
  | bit hread hy =>
    rename_i d
    have hnext : s.zx0Next r = .ok ((s.withCursor d).goto (zx0State i)) := by rw [State.zx0Next, hread, ← hstate]
    exact ⟨_, hnext, rfl, i, more, rfl, rfl, hy⟩

/-! ### One token (R238) -/

/-- The next bytes of the input output. -/
theorem State.Outputs.outputAll {x : List Byte} {bs : List Byte} {s : State} {p : Nat} (h : s.Outputs x p)
    (hbytes : ∀ k < bs.length, x[p + k]? = bs[k]?) :
    ∃ t, s.outputAll bs = .ok t ∧ t = { s with obuf := t.obuf, hist := t.hist } ∧ t.Outputs x (p + bs.length) := by
  induction bs generalizing s p with
  | nil => exact ⟨s, rfl, rfl, h⟩
  | cons b bs ih =>
    obtain ⟨t, ht, hframe, ho⟩ := h.output (hbytes 0 (Nat.succ_pos _))
    obtain ⟨u, hu, hframe', ho'⟩ := ih ho fun k hk => by
      rw [Nat.add_assoc, Nat.add_comm 1]
      exact hbytes (k + 1) (Nat.succ_lt_succ hk)
    refine ⟨u, ?_, ?_, ?_⟩
    · rw [State.outputAll, ht]
      exact hu
    · rw [hframe', hframe]
    · rw [List.length_cons, Nat.add_comm bs.length, ← Nat.add_assoc]
      exact ho'

/-- A DECOMPRESS in ZX0 that has output the first `p` bytes. -/
structure Zx0Unpacking (x : List Byte) (lo p : Nat) (s : State) : Prop where
  phase : s.phase = .unpack
  variant : s.variant = .zx0
  decompressing : s.compressing = false
  outputs : s.Outputs x p
  lastOffset : s.up.lastOffset = lo

/-- The token's operation outputs the bytes up to position `q`, from wherever the cursor stands. -/
def Unpacks (x : List Byte) (s : State) (i : Instr) (lo q : Nat) : Prop :=
  ∀ d, ∃ u, zx0Effect (s.withCursor d) i = .ok u ∧ u.Outputs x q ∧
    u = { s with obuf := u.obuf, hist := u.hist, up := { s.up with cur := d, lastOffset := lo } }

/-- A token read, its operation done, and the next indicator read. -/
theorem Zx0Unpacking.step {x : List Byte} {lo lo' p q : Nat} {s : State} (hs : Zx0Unpacking x lo p s) {i : Instr}
    (hi : tokenVariant i = some .zx0) (hw : i.wellFormed = true) (hend : isEnd i = false) {more : List Instr} {c : Cursor}
    (hreads : ReadsNext s (i :: more) c) (heff : Unpacks x s i lo' q) (hstream : Zx0Stream x (zx0IsRun i) lo' q more)
    (hq : q ≠ 0) :
    ∃ t, stepEngine s = .next t ∧ Zx0Unpacking x lo' q t ∧ ReadsNext t more c ∧ EngineFrame s t := by
  obtain ⟨i, more, htoks, hstate, hy⟩ := hreads
  cases htoks
  obtain ⟨d, hyi, hymore⟩ := yields_append_ok hy
  obtain ⟨i', hdec, hexec⟩ := decode_zx0Body hi hw hyi
  rw [← hstate, ← hs.variant] at hdec
  obtain ⟨u, hu, ho, hframe⟩ := heff d
  have hcur : u.up.cur = d := by rw [hframe]
  have himage : u.image = s.image := by rw [hframe]
  have hfu : EngineFrame s u := by rw [hframe]; exact ⟨rfl, rfl, rfl, rfl, rfl, rfl, rfl, rfl⟩
  have hfmt : u.fmt = s.fmt := State.fmt_congr u s hfu.latch hfu.params
  obtain ⟨t, ht, hframe', hreads⟩ := hstream.zx0Next hq (s := u) (c := c) (by rwa [hcur, himage, hfmt])
  have hft : EngineFrame u t := by rw [hframe']; exact ⟨rfl, rfl, rfl, rfl, rfl, rfl, rfl, rfl⟩
  have hf := hfu.trans hft
  refine ⟨t, ?_, ⟨?_, (State.variant_congr t s hf.latch).trans hs.variant,
    (State.compressing_congr t s hf.latch).trans hs.decompressing, ?_, ?_⟩, hreads, hf⟩
  · rw [stepEngine_unpack_token hs.phase hdec, hexec,
      exec_zx0_unpack (s := s.withCursor d) hs.phase hs.variant hi hend, hu, State.zx0Then, ht]
    rfl
  · rw [hframe', hframe]
    exact hs.phase
  · rw [hframe']
    exact ⟨ho.obuf, ho.le, ho.room, ho.hist⟩
  · rw [hframe', hframe]

section
variable {x : List Byte} {lo p : Nat} {s : State} (hs : Zx0Unpacking x lo p s)
include hs

theorem Zx0Unpacking.outputs_at (o : Nat) (d : Cursor) : ((s.withCursor d).setUnpackOffset o).Outputs x p :=
  ⟨hs.outputs.obuf, hs.outputs.le, hs.outputs.room, hs.outputs.hist⟩

theorem Zx0Unpacking.unpacks_run {bs : List Byte} (hbytes : ∀ k < bs.length, x[p + k]? = bs[k]?) {i : Instr}
    (hi : i = .zx0Lit0 bs ∨ i = .zx0Lit bs) : Unpacks x s i lo (p + bs.length) := by
  intro d
  obtain ⟨u, hu, hframe, ho⟩ := State.Outputs.outputAll (s := s.withCursor d)
    ⟨hs.outputs.obuf, hs.outputs.le, hs.outputs.room, hs.outputs.hist⟩ hbytes
  refine ⟨u, ?_, ho, ?_⟩
  · obtain rfl | rfl := hi <;> exact hu
  · rw [hframe, ← hs.lastOffset]
    rfl

theorem Zx0Unpacking.unpacks_rep {L : Nat} (hc : Copies x p lo L) (ho : lo ≤ Config.histSize) :
    Unpacks x s (.zx0Rep L) lo (p + L) := by
  intro d
  obtain ⟨u, hu, hframe, hout⟩ := State.Outputs.copy (s := s.withCursor d)
    ⟨hs.outputs.obuf, hs.outputs.le, hs.outputs.room, hs.outputs.hist⟩ hc ho
  refine ⟨u, ?_, hout, ?_⟩
  · rw [zx0Effect, State.withCursor_up]
    dsimp only
    rw [hs.lastOffset]
    exact hu
  · rw [hframe, ← hs.lastOffset]
    rfl

theorem Zx0Unpacking.unpacks_copy {o L : Nat} (hc : Copies x p o L) (ho : o ≤ Config.histSize) :
    Unpacks x s (.zx0Cpy o L) o (p + L) := by
  intro d
  obtain ⟨u, hu, hframe, hout⟩ := (hs.outputs_at o d).copy hc ho
  exact ⟨u, hu, hout, by rw [hframe]; rfl⟩

end

/-- END read back: UNPACK is over. -/
theorem Zx0Unpacking.ends {x : List Byte} {lo : Nat} {s : State} (hs : Zx0Unpacking x lo x.length s) {c : Cursor}
    (hreads : ReadsNext s [.zx0End] c) : ∃ t, Reaches s t ∧ UnpackingDone s x c t := by
  obtain ⟨i, more, htoks, hstate, hy⟩ := hreads
  cases htoks
  rw [List.flatMap_nil, List.append_nil] at hy
  have hdec : decode s.fmt s.variant s.up.dstate s.image s.up.cur = .ok (endToken s.variant, c) := by
    rw [hstate, hs.variant]
    exact decodeZx0_parses_end _ _ hy
  obtain ⟨t, ht, hd⟩ := stepEngine_endToken hs.phase hs.decompressing hdec
  rw [hs.outputs.obuf, List.take_length] at hd
  exact ⟨t, .single ht, hd⟩

/-- Unpacking done from a later state of the command is done from an earlier one. -/
theorem UnpackingDone.head {s t : State} {x : List Byte} {c : Cursor} (ht : stepEngine s = .next t) (hf : EngineFrame s t)
    (h : ∃ u, Reaches t u ∧ UnpackingDone t x c u) : ∃ u, Reaches s u ∧ UnpackingDone s x c u := by
  obtain ⟨u, hu, hd⟩ := h
  exact ⟨u, .head ht hu, hd.obuf, hd.cur, by rw [hd.phase, State.reversed_congr t s hf.latch], hf.trans hd.frame⟩

/-- The unpacker reads back every token of the stream, and END. -/
theorem Zx0Stream.unpacking {x : List Byte} {r : Bool} {lo p : Nat} {toks : List Instr} (h : Zx0Stream x r lo p toks)
    (hlo : lo ≤ Config.histSize) {s : State} (hs : Zx0Unpacking x lo p s) {c : Cursor} (hreads : ReadsNext s toks c) :
    ∃ t, Reaches s t ∧ UnpackingDone s x c t := by
  induction h generalizing s with
  | done => exact hs.ends hreads
  | @run lo p bs toks hbytes hcodable hmore ih =>
    have h1 := (zx0Codable_iff.1 hcodable).1
    have hq : p + bs.length ≠ 0 := by omega
    by_cases h0 : p = 0
    · rw [if_pos h0] at hreads
      obtain ⟨t, ht, hst, hreads', hf⟩ := hs.step (i := .zx0Lit0 bs) rfl hcodable rfl hreads
        (hs.unpacks_run hbytes (.inl rfl)) hmore hq
      exact UnpackingDone.head ht hf (ih hlo hst hreads')
    · rw [if_neg h0] at hreads
      obtain ⟨t, ht, hst, hreads', hf⟩ := hs.step (i := .zx0Lit bs) rfl hcodable rfl hreads
        (hs.unpacks_run hbytes (.inr rfl)) hmore hq
      exact UnpackingDone.head ht hf (ih hlo hst hreads')
  | @rep lo p L toks hcopies hcodable hmore ih =>
    have h1 := (zx0Codable_iff.1 hcodable).1
    obtain ⟨t, ht, hst, hreads', hf⟩ := hs.step (i := .zx0Rep L) rfl hcodable rfl hreads
      (hs.unpacks_rep hcopies hlo) hmore (by omega)
    exact UnpackingDone.head ht hf (ih hlo hst hreads')
  | @copy r lo p o L toks hcopies hw hmore ih =>
    obtain ⟨⟨h1, ho⟩, h2, -⟩ := wellFormed_zx0Cpy.1 hw
    have ho' : o ≤ Config.histSize := ho.trans (by decide)
    obtain ⟨t, ht, hst, hreads', hf⟩ := hs.step rfl hw rfl hreads (hs.unpacks_copy hcopies ho') hmore (by omega)
    exact UnpackingDone.head ht hf (ih ho' hst hreads')

/-! ### The round trip (R131) -/

theorem itemBits_tokens_ne_zero {x : List Byte} {r : Bool} {lo p : Nat} {toks : List Instr} (h : Zx0Stream x r lo p toks)
    (f : Fmt) : itemBits (toks.flatMap (tokenItems f)) ≠ 0 := by
  induction h with
  | done =>
    rw [List.flatMap_singleton, show itemBits (tokenItems f .zx0End) = endBits .zx0 from itemBits_endToken .zx0 f]
    decide
  | run _ _ _ ih | rep _ _ _ ih | copy _ _ _ ih =>
    rw [List.flatMap_cons, itemBits_append]
    omega

/-- A stream begins with the run that has no indicator (R86). -/
theorem Zx0Stream.readsNext_start {x : List Byte} {r : Bool} {lo : Nat} {toks : List Instr} (h : Zx0Stream x r lo 0 toks)
    (hx : x ≠ []) {s : State} (hstate : s.up.dstate = .readLiteralRun) {c : Cursor}
    (hy : Yields s.image s.up.cur (toks.flatMap (tokenItems s.fmt)) (.ok c)) : ReadsNext s toks c := by
  generalize hp : 0 = p at h
  cases h with
  | done => exact absurd (List.eq_nil_of_length_eq_zero hp.symm) hx
  | run =>
    rw [if_pos hp.symm] at hy ⊢
    exact ⟨_, _, rfl, hstate, hy⟩
  | rep hcopies | copy hcopies =>
    have := hcopies.one_le.trans hcopies.le
    omega

/-- The stream of a ZX0 parse gives the input back. -/
theorem Zx0Stream.unpacksTo {s : State} {toks : List Instr}
    (h : Zx0Stream (s.oriented s.image) false Config.zx0InitialOffset 0 toks) (hv : s.variant = .zx0) (hx : s.image ≠ [])
    (hmax : s.image.length ≤ s.params.maxInputLen) :
    unpacksTo s (s.oriented (layout (toks.flatMap (tokenItems s.fmt)))) := by
  have hx' : s.oriented s.image ≠ [] := State.oriented_ne_nil hx
  refine unpacksTo_of_unpacking (itemBits_tokens_ne_zero h s.fmt) hmax fun v c hstart hy => ?_
  rw [← s.oriented_length] at hstart
  have hup := hstart.up
  rw [hv] at hup
  refine h.unpacking (by decide) ⟨hstart.phase, hstart.variant.trans hv, hstart.decompressing, hstart.outputs, by rw [hup]⟩
    (h.readsNext_start hx' (by rw [hup]; rfl) ?_)
  rw [hstart.fmt, hup]
  exact hy

/-- Settles O59: a COMPRESS that does not end with an error has emitted a stream whose tokens, read back, output the input. -/
theorem roundTripZx0 : Obligations.RoundTripZx0 := by
  intro s h hcheck hcmd hlen0 hlen hv
  have hx := image_ne_nil hlen0 hlen
  have hx' : s.oriented s.image ≠ [] := State.oriented_ne_nil hx
  have hmax : s.image.length ≤ s.params.maxInputLen := hlen ▸ (State.bounds_of_checkError hcheck).2 hcmd
  have hcomp : s.compressing = true := s.compressing_iff.2 hcmd
  have hbody := reaches_atBody h hcheck hlen0
  have hdone {t : State} (ht : Reaches s t) (hended : t.Ended) : ∃ n t, runEngine n s = .next t ∧
      (t.phase = .writeback ∧ unpacksTo s t.obuf ∨ t.phase = .idle ∧ t.csr.err = true) := by
    obtain ⟨n, hn⟩ := ht
    exact ⟨n, t, hn, .inr hended⟩
  have hinit : s.atBody.zx0 = Zx0State.init s.atBody.image.length (offsetLimit s.atBody.latch.mode) := by
    rw [show s.atBody.image.length = s.latch.len.toNat from (s.oriented_length _).trans hlen]
    exact if_pos ⟨hv, hcomp⟩
  obtain ⟨t, ht, hended⟩ | ⟨p, ops, hp, hparsed, hstand⟩ :=
    reaches_parsed_zx0 (State.atBody_scanning hcmd) rfl hv hx' h.2.2 hinit
  · exact hdone (hbody.trans ht) hended
  have hparsed := hparsed.of_frame s.atBody_engineFrame
  have hpv : p.variant = .zx0 := (State.variant_congr p s hparsed.frame.latch).trans hv
  have hemitting : Zx0Emitting p :=
    ⟨hparsed.phase, hpv, (State.compressing_congr p s hparsed.frame.latch).trans hcomp, hparsed.frame.dutyBroken.trans h.2.2,
      Packer.start_packerOk hparsed.pk, by rw [hparsed.obuf]; exact Nat.zero_le _⟩
  have hpacker : PackerAt false 0 p := by
    refine ⟨by rw [hparsed.pk]; rfl, ?_⟩
    rw [hparsed.pk, hv]
    rfl
  have hsize : (s.oriented s.image).length < 2 ^ 32 := by
    rw [s.oriented_length, hlen]
    exact s.latch.len.isLt
  obtain ⟨t, ht, hended⟩ | ⟨toks, e, he, hstream, hemitted⟩ := hstand.emission hsize hx' hemitting hpacker hparsed.ops
  · exact hdone ((hbody.trans hp).trans ht) hended
  rw [State.fmt_congr p s hparsed.frame.latch hparsed.frame.params] at hemitted
  rw [show p.pk.lastOffset = Config.zx0InitialOffset by rw [hparsed.pk]; rfl] at hstream
  obtain ⟨t, ht, hbuilt⟩ := hparsed.reaches_built hcomp hemitted
  have hreach := ((hbody.trans hp).trans he).trans ht
  by_cases hcap : t.obuf.length ≤ s.latch.cap.toNat
  · obtain ⟨n, hn⟩ := hreach.trans (.single (hbuilt.fits hcap))
    refine ⟨n, _, hn, .inl ⟨rfl, ?_⟩⟩
    show unpacksTo s t.obuf
    rw [hbuilt.obuf]
    exact hstream.unpacksTo hv hx hmax
  · obtain ⟨u, hu, hfailed⟩ := hbuilt.exceeds h.2.2 (Nat.lt_of_not_le hcap)
    exact hdone (hreach.trans (.single hu)) hfailed.err

end Sys2Proof.Machine
end

section
/-! PROOFS. One-byte inputs (spec/40_host_commands.md R130, spec/44_packer.md R206, R212, R215): one literal and the end marker. -/

namespace Sys2Proof.Machine

/-! ### The stream of a one-byte input -/

/-- The one literal of a one-byte input. -/
def firstToken : Variant → Byte → Instr
  | .zx7, b => .zx7First b
  | .zx0, b => .zx0Lit0 [b]
  | .megalz, b => .mlzFirst b

/-- The items of the literal and END. -/
def oneByteItems (v : Variant) (f : Fmt) (b : Byte) : List Item :=
  tokenItems f (firstToken v b) ++ tokenItems f (endToken v)

theorem layout_oneByteItems_zx7 (f : Fmt) (b : Byte) : layout (oneByteItems .zx7 f b) = [b, 0x80, 0x00, 0x40] := by
  simp [oneByteItems, firstToken, endToken, tokenItems, encode, bitItems, layout, Layout.put, orByte]

theorem layout_oneByteItems_megalz (f : Fmt) (b : Byte) : layout (oneByteItems .megalz f b) = [b, 0x60, 0x00] := by
  simp [oneByteItems, firstToken, endToken, tokenItems, encode, bitItems, layout, Layout.put, orByte]

/-- The stream of a ZX0 literal and END, by the code of END's MSB (R81). -/
theorem layout_oneByteItems_zx0 {f : Fmt} {code : List Bool} (hcode : igammaBits f.pol f.inv 256 = code) (b : Byte) :
    layout (oneByteItems .zx0 f b) = layout (.bit (!continueBit f.pol) :: .byte b :: bitItems (true :: code)) := by
  have hone : igammaBits f.pol false 1 = [!continueBit f.pol] := rfl
  simp [oneByteItems, firstToken, endToken, tokenItems, encode, hone, hcode, bitItems]

theorem layout_oneByteItems_zx0_inverted (b : Byte) :
    layout (oneByteItems .zx0 { pol := .fwd, inv := true } b) = [0xD5, b, 0x55, 0x60] := by
  have hcode : igammaBits .fwd true 256 = [false, true, false, true, false, true, false, true, false, true, false, true, false,
    true, false, true, true] := by decide
  rw [layout_oneByteItems_zx0 hcode]
  simp [continueBit, bitItems, layout, Layout.put, orByte]

theorem layout_oneByteItems_zx0_plain (b : Byte) :
    layout (oneByteItems .zx0 { pol := .fwd, inv := false } b) = [0xC0, b, 0x00, 0x20] := by
  have hcode : igammaBits .fwd false 256 = [false, false, false, false, false, false, false, false, false, false, false, false,
    false, false, false, false, true] := by decide
  rw [layout_oneByteItems_zx0 hcode]
  simp [continueBit, bitItems, layout, Layout.put, orByte]

theorem layout_oneByteItems_zx0_back (b : Byte) :
    layout (oneByteItems .zx0 { pol := .back, inv := false } b) = [0x6A, b, 0xAA, 0x80] := by
  have hcode : igammaBits .back false 256 = [true, false, true, false, true, false, true, false, true, false, true, false, true,
    false, true, false, false] := by decide
  rw [layout_oneByteItems_zx0 hcode]
  simp [continueBit, bitItems, layout, Layout.put, orByte]

theorem itemBits_oneByteItems (v : Variant) (f : Fmt) (b : Byte) :
    itemBits (oneByteItems v f b) = (if v = .zx0 then 9 else 8) + endBits v := by
  rw [oneByteItems, itemBits_append, itemBits_endToken]
  cases v <;> rfl

/-! ### The COMPRESS of a one-byte input -/

theorem one_le_of_copyCost {v : Variant} {o L c : Nat} (h : copyCost v o L = some c) : 1 ≤ L := by
  cases v with
  | zx0 => cases h
  | megalz => exact (costCopyMlz_cases h).1.2.2.1
  | zx7 =>
    have hcost : costCopyZx7 o L = some c := h
    rw [costCopyZx7] at hcost
    split at hcost
    · omega
    · cases hcost

/-- Nothing but FIRST stands for a single byte. -/
theorem Stand.oneByte {v : Variant} {b : Byte} {ops : List Op} {k : Nat} (h : Stand v [b] 0 ops 1 k) : ops = [.first b] := by
  have hnone {ops : List Op} {q c : Nat} (h : Stand v [b] 1 ops q c) : ops = [] := by
    cases h with
    | nil => rfl
    | @cons _ q _ c _ op ops hop hrest =>
      cases op with
      | first a => exact absurd hop.1 Nat.one_ne_zero
      | lit a => cases hop.2.1
      | run bs => exact hop.elim
      | copy o L =>
        have hwithin := hop.1.within
        have hL := one_le_of_copyCost hop.2.2
        rw [List.length_singleton] at hwithin
        omega
  cases h with
  | @cons _ q _ c _ op ops hop hrest =>
    cases op with
    | first a =>
      obtain ⟨-, ha, rfl, -⟩ := hop
      cases ha
      rw [hnone hrest]
    | lit a => exact absurd hop.1 (Nat.not_lt_zero 0)
    | run bs => exact hop.elim
    | copy o L => exact absurd (hop.1.one_le.trans hop.1.le) (Nat.not_lt_zero 0)

theorem State.oriented_singleton (s : State) (b : Byte) : s.oriented [b] = [b] := by
  rw [State.oriented]
  split <;> rfl

/-- The ZX0 parse of a single byte: the start node, and a literal run's (R172, R174). -/
theorem zx0_scanAt_oneByte (limit : Nat) (b : Byte) :
    ((Zx0State.init 1 limit).scanAt [b] limit 0).optimal.getD 0 none = some 1 ∧
      zx0Ops [b] ((Zx0State.init 1 limit).scanAt [b] limit 0) = [.run [b]] := ⟨rfl, rfl⟩

theorem reaches_parsed_zx0_oneByte {s : State} (hs : Scanning s s) (h0 : s.scan = 0) (hv : s.variant = .zx0) {b : Byte}
    (himage : s.image = [b]) (hz : s.zx0 = Zx0State.init 1 (offsetLimit s.latch.mode)) :
    ∃ t, Reaches s t ∧ Parsed s [.run [b]] t := by
  obtain ⟨hopt, hops⟩ := zx0_scanAt_oneByte (offsetLimit s.latch.mode) b
  generalize hz' : (Zx0State.init 1 (offsetLimit s.latch.mode)).scanAt [b] (offsetLimit s.latch.mode) 0 = z at hopt hops
  have hparse : s.parseStep = { s with zx0 := z, scan := 1 } := by
    rw [State.parseStep_zx0 hv, State.parseZx0, if_pos (by rw [h0, himage]; exact Nat.one_pos)]
    simp only [hz, himage, h0, hz', hopt]
    rfl
  have hscanning : Scanning s s.parseStep := by
    rw [hparse]
    exact ⟨hs.phase, rfl, by rw [himage]; exact Nat.le_refl 1, { hs.frame with }⟩
  refine Scanning.parsed (.single (stepEngine_parse hs.phase)) hscanning ?_
  rw [State.parseStep_zx0 (hscanning.variant.trans hv), State.parseZx0, if_neg (by rw [hparse]; simp [himage]), ← hops, hparse]
  simp only [himage]

/-- The two tokens of a single byte fit in OBUF (R48). -/
theorem Parsed.emission_zx0_oneByte {s p : State} {b : Byte} (h : Parsed s [.run [b]] p) (hv : s.variant = .zx0)
    (hcomp : s.compressing = true) (hd : s.dutyBroken = false) :
    ∃ t, Reaches p t ∧ EmissionDone p (oneByteItems .zx0 p.fmt b) t := by
  have hpv : p.variant = .zx0 := (State.variant_congr p s h.frame.latch).trans hv
  have hs : Zx0Emitting p :=
    ⟨h.phase, hpv, (State.compressing_congr p s h.frame.latch).trans hcomp, h.frame.dutyBroken.trans hd,
      Packer.start_packerOk h.pk, by rw [h.obuf]; exact Nat.zero_le _⟩
  have hfit : ((oneByteItems .zx0 p.fmt b).foldl Layout.put (layoutOf p)).out.length ≤ obufSize p.params := by
    rw [h.layout_empty]
    show (layout _).length ≤ _
    rw [layout_length, itemBits_oneByteItems, obufSize]
    refine Nat.le_trans (?_ : _ ≤ 8) (Nat.le_add_left 8 _)
    decide
  have hfirst : p.nextToken = some (.zx0Lit0 [b]) := by
    rw [hs.nextToken_op h.ops, h.pk]
    rfl
  rw [oneByteItems, List.foldl_append] at hfit
  have hroom : (laidOut p (.zx0Lit0 [b])).out.length ≤ obufSize p.params := (Layout.foldl_put_length_le _ _).trans hfit
  obtain ⟨t, ht, he⟩ := stepEngine_emits hs.phase hfirst rfl hs.packer (by rw [emitReady, h.pk, hv]; rfl) hs.compressing hroom
  have hst := he.emitting hs rfl hroom
  have hf := he.engineFrame
  have hfmt : t.fmt = p.fmt := State.fmt_congr t p hf.latch hf.params
  have hlast : t.nextToken = some .zx0End := by
    rw [State.nextToken, hst.variant, show t.ops = [] by rw [he.frame, h.ops]; rfl]
  obtain ⟨u, hu, he'⟩ := stepEngine_emits hst.phase hlast rfl hst.packer he.backtrack hst.compressing (by
    rw [hf.params, laidOut, hfmt, he.layout]
    exact hfit)
  refine ⟨u, .head ht (.single hu), ?_, he'.packerOk, ?_, hf.trans he'.engineFrame⟩
  · rw [he'.layout, laidOut, hfmt, he.layout, laidOut, oneByteItems, List.foldl_append]
    rfl
  · rw [he'.frame]
    exact congrArg (if · = true then Phase.reverseOut else Phase.capacity) (State.reversed_congr t p hf.latch)

/-- A COMPRESS of a single byte builds the stream of the literal and END. -/
theorem reaches_built_oneByte {s : State} {b : Byte} (h : atCheck s) (hcheck : s.checkError = none) (hcmd : s.latch.cmd = 1)
    (hlen : s.latch.len = 1) (himage : s.image = [b]) :
    ∃ t, Reaches s t ∧ StreamBuilt s (oneByteItems s.variant s.fmt b) t := by
  have hlen0 : s.latch.len ≠ 0 := by rw [hlen]; decide
  have hlen1 : s.image.length = s.latch.len.toNat := by rw [himage, hlen]; rfl
  have hcomp : s.compressing = true := s.compressing_iff.2 hcmd
  by_cases hv : s.variant = .zx0
  · have hbody : s.atBody.image = [b] := (congrArg s.oriented himage).trans (s.oriented_singleton b)
    have hinit : s.atBody.zx0 = Zx0State.init 1 (offsetLimit s.atBody.latch.mode) := by
      rw [show (1 : Nat) = s.latch.len.toNat by rw [hlen]; rfl]
      exact if_pos ⟨hv, hcomp⟩
    obtain ⟨p, hp, hparsed⟩ := reaches_parsed_zx0_oneByte (State.atBody_scanning hcmd) rfl hv hbody hinit
    have hparsed := hparsed.of_frame s.atBody_engineFrame
    obtain ⟨e, he, hemitted⟩ := hparsed.emission_zx0_oneByte hv hcomp h.2.2
    rw [State.fmt_congr p s hparsed.frame.latch hparsed.frame.params] at hemitted
    obtain ⟨t, ht, hbuilt⟩ := hparsed.reaches_built hcomp hemitted
    rw [hv]
    exact ⟨t, (((reaches_atBody h hcheck hlen0).trans hp).trans he).trans ht, hbuilt⟩
  · obtain ⟨t, ops, k, ht, hbuilt, -, hstand⟩ := reaches_built h hcheck hcmd hlen0 hlen1 hv
    rw [himage, s.oriented_singleton] at hstand
    cases hstand.oneByte
    have hfirst : byteToken s.variant (.first b) = some (firstToken s.variant b) := by
      cases hvar : s.variant with
      | zx0 => exact absurd hvar hv
      | zx7 | megalz => rfl
    rw [streamItems_cons hfirst, streamItems_nil] at hbuilt
    exact ⟨t, ht, hbuilt⟩

theorem reversed_megalz {s : State} (h : s.variant = .megalz) : s.reversed = false := by
  have hall : ∀ mode : BitVec 4, variantOf mode = .megalz → reversedMode mode = false := by decide
  exact hall _ h

/-- The BACK polarity is a reversed mode's, without inversion (R88). -/
theorem back_spec {s : State} (h : s.fmt.pol = .back) : s.fmt = { pol := .back, inv := false } ∧ s.reversed = true := by
  have hmode := ((fmtOf_pol _ _).1 h).1
  have hinv : s.fmt.inv = false := by
    rw [Bool.eq_false_iff]
    intro hi
    cases h.symm.trans ((fmtOf_inv _ _).1 hi).2
  refine ⟨?_, (reversedZx0_iff _).2 hmode |>.2⟩
  rw [← h, ← hinv]

/-- Settles O60: the stream of the literal and END, laid out in each format. -/
theorem oneByteInputs : Obligations.OneByteInputs := by
  intro s b h hcheck hcmd hlen himage _ hcap
  obtain ⟨t, ht, hbuilt⟩ := reaches_built_oneByte h hcheck hcmd hlen himage
  have hcost := hbuilt.costBits
  rw [itemBits_oneByteItems] at hcost
  have hfits : t.obuf.length ≤ s.latch.cap.toNat := by
    have hlength := hbuilt.length
    have hbits : (if s.variant = .zx0 then 9 else 8) + endBits s.variant ≤ 27 := by cases s.variant <;> decide
    omega
  obtain ⟨n, hn⟩ := ht.trans (.single (hbuilt.fits hfits))
  have hresult {bs : List Byte} {k : Nat} (hl : s.oriented (layout (oneByteItems s.variant s.fmt b)) = bs)
      (hk : (if s.variant = .zx0 then 9 else 8) + endBits s.variant = k) : t.obuf = bs ∧ t.costBits = k :=
    ⟨hbuilt.obuf.trans hl, hcost.trans hk⟩
  refine ⟨n, _, hn, rfl, hbuilt.frame.csr, hbuilt.frame.mem, fun hv hr => ?_, fun hv hr => ?_, fun hv hf hr => ?_,
    fun hv hf hr => ?_, fun hv hf hr => ?_, fun hv hf hr => ?_, fun hv hpol => ?_, fun hv => ?_⟩
  · exact hresult (by rw [State.oriented_of_forward hr, hv, layout_oneByteItems_zx7]) (by rw [hv]; rfl)
  · exact hresult (by rw [State.oriented_of_reversed hr, hv, layout_oneByteItems_zx7]; rfl) (by rw [hv]; rfl)
  · exact hresult (by rw [State.oriented_of_forward hr, hv, hf, layout_oneByteItems_zx0_inverted]) (by rw [hv]; rfl)
  · exact hresult (by rw [State.oriented_of_forward hr, hv, hf, layout_oneByteItems_zx0_plain]) (by rw [hv]; rfl)
  · exact hresult (by rw [State.oriented_of_reversed hr, hv, hf, layout_oneByteItems_zx0_inverted]; rfl) (by rw [hv]; rfl)
  · exact hresult (by rw [State.oriented_of_reversed hr, hv, hf, layout_oneByteItems_zx0_plain]; rfl) (by rw [hv]; rfl)
  · obtain ⟨hf, hr⟩ := back_spec hpol
    exact hresult (by rw [State.oriented_of_reversed hr, hv, hf, layout_oneByteItems_zx0_back]; rfl) (by rw [hv]; rfl)
  · exact hresult (by rw [State.oriented_of_forward (reversed_megalz hv), hv, layout_oneByteItems_megalz]) (by rw [hv]; rfl)

end Sys2Proof.Machine
end

section
/-! PROOFS. The two-byte table (spec/41_match_index.md R141, R142) against the candidate sets (R143, R145): every link leads to
the most recent earlier position with its key, unless every such position is beyond the limit; a walk along such links yields
the positions within the limit, and cutting a link that leads beyond it keeps this. -/

namespace Sys2Proof.Machine

/-! ### Keys of byte pairs -/

theorem pairKey_inj {a b c d : Byte} : pairKey a b = pairKey c d ↔ a = c ∧ b = d := by
  refine ⟨fun h => ?_, fun ⟨ha, hb⟩ => by rw [ha, hb]⟩
  have hb := b.isLt
  have hd := d.isLt
  rw [pairKey, pairKey] at h
  exact ⟨BitVec.eq_of_toNat_eq (by omega), BitVec.eq_of_toNat_eq (by omega)⟩

theorem keyAt_eq_some_iff {x : List Byte} {i k : Nat} :
    keyAt x i = some k ↔ ∃ a b, x[i]? = some a ∧ x[i + 1]? = some b ∧ pairKey a b = k := by
  rw [keyAt]
  split
  · next a b ha hb => simp [ha, hb]
  · next h =>
    refine ⟨nofun, ?_⟩
    rintro ⟨a, b, ha, hb, -⟩
    exact absurd hb (h a b ha)

/-- Two places have the same key where they have the same pair of bytes. -/
theorem keyAt_eq_iff {x : List Byte} {i j k : Nat} (hi : keyAt x i = some k) :
    keyAt x j = some k ↔ x[i]? = x[j]? ∧ x[i + 1]? = x[j + 1]? := by
  obtain ⟨a, b, ha, hb, hk⟩ := keyAt_eq_some_iff.1 hi
  rw [keyAt_eq_some_iff, ha, hb]
  constructor
  · rintro ⟨c, d, hc, hd, hk'⟩
    obtain ⟨rfl, rfl⟩ := pairKey_inj.1 (hk.trans hk'.symm)
    exact ⟨hc.symm, hd.symm⟩
  · exact fun ⟨hc, hd⟩ => ⟨a, b, hc.symm, hd.symm, hk⟩

theorem commonPrefix_eq_iff {c : Nat} {as bs : List Byte} :
    commonPrefix c as bs = c ↔ ∀ k < c, k < as.length ∧ as[k]? = bs[k]? := by
  refine ⟨fun h k hk => ?_, fun h => ?_⟩
  · obtain ⟨hlen, -, hsame⟩ := commonPrefix_spec (h.symm ▸ hk : k < commonPrefix c as bs)
    exact ⟨hlen, hsame⟩
  · induction c generalizing as bs with
    | zero => exact Nat.le_zero.1 (commonPrefix_le 0 as bs)
    | succ c ih =>
      obtain ⟨hlen, hsame⟩ := h 0 c.succ_pos
      obtain ⟨a, as, rfl⟩ := List.exists_cons_of_length_pos hlen
      cases bs with
      | nil => simp at hsame
      | cons b bs =>
        have hab : a = b := by simpa using hsame
        rw [commonPrefix, if_pos hab, ih fun k hk => by simpa using h (k + 1) (Nat.succ_lt_succ hk)]

/-- The pair at `p` matches at the distance `o` where the keys are the same. -/
theorem matchForward_two_iff {x : List Byte} {p o k : Nat} (hk : keyAt x p = some k) :
    matchForward x p o 2 = 2 ↔ keyAt x (p - o) = some k := by
  obtain ⟨a, b, ha, hb, -⟩ := keyAt_eq_some_iff.1 hk
  have hlen := List.length_drop (l := x) (i := p)
  have hp := (List.getElem?_eq_some_iff.1 hb).1
  rw [matchForward, commonPrefix_eq_iff, keyAt_eq_iff hk]
  simp only [List.getElem?_drop]
  constructor
  · exact fun h => ⟨(h 0 (by decide)).2, (h 1 (by decide)).2⟩
  · rintro ⟨h0, h1⟩ j hj
    obtain rfl | rfl : j = 0 ∨ j = 1 := by omega
    · exact ⟨by omega, h0⟩
    · exact ⟨by omega, h1⟩

/-! ### Links after a cut and after an insertion -/

theorem MatchIndex.follow_cut {ix : MatchIndex} (hh : Table.sorted ix.head) (hc : Table.sorted ix.chain) (k k' : Nat)
    (link link' : Option Nat) : (ix.cut k link).follow k' link' =
      if link' = link ∧ (link = none → k' = k) then none else ix.follow k' link' := by
  cases link with
  | none =>
    cases link' with
    | none => simp [MatchIndex.cut, MatchIndex.follow, Table.get_erase _ _ _ hh]
    | some p' => simp [MatchIndex.cut, MatchIndex.follow]
  | some p =>
    cases link' with
    | none => simp [MatchIndex.cut, MatchIndex.follow]
    | some p' => simp [MatchIndex.cut, MatchIndex.follow, Table.get_erase _ _ _ hc]

theorem MatchIndex.follow_insert_none (ix : MatchIndex) (q k k' : Nat) :
    (ix.insert q k).follow k' none = if k' = k then some q else ix.follow k' none :=
  Table.get_set ..

theorem MatchIndex.follow_insert_some {ix : MatchIndex} (hc : Table.sorted ix.chain) (q k k' p : Nat) :
    (ix.insert q k).follow k' (some p) = if p = q then ix.follow k none else ix.follow k' (some p) := by
  simp only [MatchIndex.insert, MatchIndex.follow]
  split
  · next hk => rw [Table.get_set, hk]
  · next hk => rw [Table.get_erase _ _ _ hc, hk]

/-! ### The index of a scan

`keyOf j` is the key inserted at position `j` of a scan, if any, and `q` the scan's position. -/

section
variable {keyOf : Nat → Option Nat} {limit q k b : Nat}

/-- A link for key `k` from the positions below `b` leads to one of those with that key, and to none older than any within the
limit. -/
structure LeadsTo (keyOf : Nat → Option Nat) (limit q k b : Nat) (v : Option Nat) : Prop where
  sound : ∀ j, v = some j → j < b ∧ keyOf j = some k
  recent : ∀ m < b, keyOf m = some k → q - m ≤ limit → ∃ j, v = some j ∧ m ≤ j

theorem LeadsTo.next {v : Option Nat} (h : LeadsTo keyOf limit q k b v) : LeadsTo keyOf limit (q + 1) k b v :=
  ⟨h.sound, fun m hm hk hl => h.recent m hm hk (by omega)⟩

theorem LeadsTo.extend {v : Option Nat} (h : LeadsTo keyOf limit q k b v) (hb : keyOf b ≠ some k) :
    LeadsTo keyOf limit q k (b + 1) v := by
  refine ⟨fun j hj => ?_, fun m hm hk hl => ?_⟩
  · obtain ⟨hlt, hkey⟩ := h.sound j hj
    exact ⟨Nat.lt_succ_of_lt hlt, hkey⟩
  · have hne : m ≠ b := by
      rintro rfl
      exact hb hk
    exact h.recent m (by omega) hk hl

/-- A link that leads beyond the limit may be cut (R142). -/
theorem LeadsTo.cut {j : Nat} (h : LeadsTo keyOf limit q k b (some j)) (hj : limit < q - j) :
    LeadsTo keyOf limit q k b none := by
  refine ⟨nofun, fun m hm hk hl => ?_⟩
  obtain ⟨_, ⟨⟩, hmj⟩ := h.recent m hm hk hl
  omega

/-- Where a link leads nowhere, no position with the key is within the limit. -/
theorem LeadsTo.none_within (h : LeadsTo keyOf limit q k b none) (m : Nat) :
    ¬ (m < b ∧ keyOf m = some k ∧ q - m ≤ limit) := by
  rintro ⟨hm, hk, hl⟩
  obtain ⟨_, ⟨⟩, -⟩ := h.recent m hm hk hl

/-- A link that a walk for key `k` may follow: the head, or the chain of an earlier position with that key. -/
def OnChain (keyOf : Nat → Option Nat) (q k : Nat) (link : Option Nat) : Prop :=
  ∀ p, link = some p → p < q ∧ keyOf p = some k

theorem onChain_none : OnChain keyOf q k none := nofun

theorem onChain_some {p : Nat} : OnChain keyOf q k (some p) ↔ p < q ∧ keyOf p = some k := by
  simp [OnChain]

theorem LeadsTo.onChain {j : Nat} (h : LeadsTo keyOf limit q k b (some j)) (hb : b ≤ q) : OnChain keyOf q k (some j) := by
  obtain ⟨hlt, hkey⟩ := h.sound j rfl
  exact onChain_some.2 ⟨Nat.lt_of_lt_of_le hlt hb, hkey⟩

theorem OnChain.getD_le {link : Option Nat} (h : OnChain keyOf q k link) : link.getD q ≤ q := by
  cases link with
  | none => exact Nat.le_refl q
  | some p => exact (onChain_some.1 h).1.le

/-- The index before position `q` of a scan (R141, R142). -/
structure Indexed (keyOf : Nat → Option Nat) (limit q : Nat) (ix : MatchIndex) : Prop where
  head_sorted : Table.sorted ix.head
  chain_sorted : Table.sorted ix.chain
  leads : ∀ k link, OnChain keyOf q k link → LeadsTo keyOf limit q k (link.getD q) (ix.follow k link)

theorem indexed_empty : Indexed keyOf limit 0 { head := [], chain := [] } where
  head_sorted := .nil
  chain_sorted := .nil
  leads k link hlink := by
    cases link with
    | none => exact ⟨nofun, nofun⟩
    | some p => exact absurd (onChain_some.1 hlink).1 p.not_lt_zero

theorem Indexed.cut {ix : MatchIndex} (h : Indexed keyOf limit q ix) {link : Option Nat} (hlink : OnChain keyOf q k link)
    {j : Nat} (hj : ix.follow k link = some j) (hfar : limit < q - j) : Indexed keyOf limit q (ix.cut k link) where
  head_sorted := by
    cases link with
    | none => exact Table.erase_sorted _ _ h.head_sorted
    | some p => exact h.head_sorted
  chain_sorted := by
    cases link with
    | none => exact h.chain_sorted
    | some p => exact Table.erase_sorted _ _ h.chain_sorted
  leads k' link' hlink' := by
    rw [MatchIndex.follow_cut h.head_sorted h.chain_sorted]
    split
    · next hsame =>
      obtain ⟨rfl, hkey⟩ := hsame
      have hk : k' = k := by
        cases link' with
        | none => exact hkey rfl
        | some p => exact Option.some.inj ((onChain_some.1 hlink').2.symm.trans (onChain_some.1 hlink).2)
      rw [hk]
      exact (hj ▸ h.leads k link' hlink).cut hfar
    · exact h.leads k' link' hlink'

/-- A walk leaves the index in order. -/
theorem Indexed.walk {ix : MatchIndex} (h : Indexed keyOf limit q ix) (fuel : Nat) {link : Option Nat}
    (hlink : OnChain keyOf q k link) : Indexed keyOf limit q (ix.walk limit q k fuel link).2 := by
  induction fuel generalizing link with
  | zero => exact h
  | succ fuel ih =>
    rw [MatchIndex.walk]
    split
    · exact h
    · next j hj =>
      split
      · next hfar => exact h.cut hlink hj hfar
      · exact ih ((hj ▸ h.leads k link hlink).onChain hlink.getD_le)

/-- A walk yields the positions with its key within the limit, and no others, the most recent first. -/
theorem Indexed.walk_yields {ix : MatchIndex} (h : Indexed keyOf limit q ix) {fuel : Nat} {link : Option Nat}
    (hlink : OnChain keyOf q k link) (hfuel : link.getD q < fuel) :
    (ix.walk limit q k fuel link).1.Pairwise (· > ·) ∧
      ∀ m, m ∈ (ix.walk limit q k fuel link).1 ↔ m < link.getD q ∧ keyOf m = some k ∧ q - m ≤ limit := by
  induction fuel generalizing link with
  | zero => exact absurd hfuel (Nat.not_lt_zero _)
  | succ fuel ih =>
    have hleads := h.leads k link hlink
    rw [MatchIndex.walk]
    split
    · next hj => exact ⟨.nil, fun m => iff_of_false List.not_mem_nil ((hj ▸ hleads).none_within m)⟩
    · next j hj =>
      rw [hj] at hleads
      split
      · next hfar => exact ⟨.nil, fun m => iff_of_false List.not_mem_nil ((hleads.cut hfar).none_within m)⟩
      · next hnear =>
        obtain ⟨hjb, hjk⟩ := hleads.sound j rfl
        obtain ⟨hdesc, hmem⟩ := ih (hleads.onChain hlink.getD_le) (show j < fuel by omega)
        refine ⟨List.pairwise_cons.2 ⟨fun m hm => ((hmem m).1 hm).1, hdesc⟩, fun m => ?_⟩
        rw [List.mem_cons, hmem]
        constructor
        · rintro (rfl | ⟨hmj, hk, hl⟩)
          · exact ⟨hjb, hjk, by omega⟩
          · exact ⟨Nat.lt_trans hmj hjb, hk, hl⟩
        · rintro ⟨hm, hk, hl⟩
          obtain ⟨_, ⟨⟩, hmj⟩ := hleads.recent m hm hk hl
          exact (Nat.eq_or_lt_of_le hmj).imp id fun hlt => ⟨hlt, hk, hl⟩

/-- A position without a key leaves the index as it is. -/
theorem Indexed.skip {ix : MatchIndex} (h : Indexed keyOf limit q ix) (hq : keyOf q = none) :
    Indexed keyOf limit (q + 1) ix where
  head_sorted := h.head_sorted
  chain_sorted := h.chain_sorted
  leads k link hlink := by
    cases link with
    | none => exact (h.leads k none onChain_none).next.extend (by simp [hq])
    | some p =>
      obtain ⟨hp, hkey⟩ := onChain_some.1 hlink
      have hne : p ≠ q := by
        rintro rfl
        cases hq.symm.trans hkey
      exact (h.leads k (some p) (onChain_some.2 ⟨by omega, hkey⟩)).next

theorem Indexed.insert {ix : MatchIndex} (h : Indexed keyOf limit q ix) (hq : keyOf q = some k) :
    Indexed keyOf limit (q + 1) (ix.insert q k) where
  head_sorted := Table.set_sorted _ _ _ h.head_sorted
  chain_sorted := by
    rw [MatchIndex.insert]
    split
    · exact Table.set_sorted _ _ _ h.chain_sorted
    · exact Table.erase_sorted _ _ h.chain_sorted
  leads k' link hlink := by
    cases link with
    | none =>
      rw [MatchIndex.follow_insert_none]
      split
      · next hk =>
        subst hk
        refine ⟨?_, fun m hm _ _ => ⟨q, rfl, Nat.le_of_lt_succ hm⟩⟩
        rintro _ ⟨⟩
        exact ⟨q.lt_succ_self, hq⟩
      · next hk => exact (h.leads k' none onChain_none).next.extend (by simpa [hq] using Ne.symm hk)
    | some p =>
      rw [MatchIndex.follow_insert_some h.chain_sorted]
      obtain ⟨hp, hkey⟩ := onChain_some.1 hlink
      split
      · next heq =>
        subst heq
        cases Option.some.inj (hq.symm.trans hkey)
        exact (h.leads k none onChain_none).next
      · exact (h.leads k' (some p) (onChain_some.2 ⟨by omega, hkey⟩)).next

theorem Indexed.visit {ix : MatchIndex} (h : Indexed keyOf limit q ix) (hq : keyOf q = some k) :
    Indexed keyOf limit (q + 1) (ix.visit limit q k) :=
  (h.walk (q + 1) onChain_none).insert hq

/-- A scan whose every position keeps the index in order has it in order before each position. -/
theorem indexed_indexBefore {visit : MatchIndex → Nat → MatchIndex}
    (hvisit : ∀ {q ix}, Indexed keyOf limit q ix → Indexed keyOf limit (q + 1) (visit ix q)) (i : Nat) :
    Indexed keyOf limit i (indexBefore visit i) := by
  induction i with
  | zero => exact indexed_empty
  | succ i ih =>
    rw [indexBefore, List.range_succ, List.foldl_append]
    exact hvisit ih

/-- The distances of the positions a walk yields, ascending: an ascending list of the same distances is that list. -/
theorem Indexed.walk_offsets {ix : MatchIndex} (h : Indexed keyOf limit q ix) {os : List Nat} (hos : os.Pairwise (· < ·))
    (hmem : ∀ o, o ∈ os ↔ 1 ≤ o ∧ o ≤ q ∧ o ≤ limit ∧ keyOf (q - o) = some k) :
    (ix.walk limit q k (q + 1) none).1.map (q - ·) = os := by
  obtain ⟨hdesc, hyields⟩ := h.walk_yields (k := k) onChain_none q.lt_succ_self
  simp only [Option.getD_none] at hyields
  refine List.Pairwise.eq_of_mem_iff (r := (· < ·)) (List.pairwise_map.2 (hdesc.imp_of_mem fun hm _ hgt => ?_)) hos
    fun o => ?_
  · have := ((hyields _).1 hm).1
    omega
  · rw [List.mem_map, hmem]
    constructor
    · rintro ⟨m, hm, rfl⟩
      obtain ⟨hlt, hk, hl⟩ := (hyields m).1 hm
      rw [show q - (q - m) = m by omega]
      exact ⟨by omega, by omega, hl, hk⟩
    · rintro ⟨h1, hoq, hl, hk⟩
      exact ⟨q - o, (hyields _).2 ⟨by omega, hk, by omega⟩, by omega⟩

end

theorem upTo_filter_ascending (m : Nat) (f : Nat → Bool) : ((upTo m).filter f).Pairwise (· < ·) :=
  List.Pairwise.filter _ List.pairwise_lt_range'

/-! ### The two scans -/

/-- The key the ZX7 scan inserts at a position: that of the pair that ends there (R143). -/
def zx7KeyOf (x : List Byte) : Nat → Option Nat
  | 0 => none
  | i + 1 => keyAt x i

theorem Indexed.visitZx7 {x : List Byte} {q : Nat} {ix : MatchIndex}
    (h : Indexed (zx7KeyOf x) Config.zx7MaxOffset q ix) :
    Indexed (zx7KeyOf x) Config.zx7MaxOffset (q + 1) (ix.visitZx7 x q) := by
  cases q with
  | zero => exact h.skip rfl
  | succ i =>
    rw [MatchIndex.visitZx7, if_neg i.succ_ne_zero, Nat.add_sub_cancel]
    split
    · next k hk => exact h.visit hk
    · next hk => exact h.skip hk

theorem Indexed.visitMlz {x : List Byte} {q : Nat} {ix : MatchIndex} (h : Indexed (keyAt x) Config.mlzMaxOffset q ix) :
    Indexed (keyAt x) Config.mlzMaxOffset (q + 1) (ix.visitMlz x q) := by
  rw [MatchIndex.visitMlz]
  split
  · next k hk => exact h.visit hk
  · next hk => exact h.skip hk

theorem mem_zx7Offsets_iff {x : List Byte} {i k o : Nat} (hk : keyAt x i = some k) :
    o ∈ zx7Offsets x (i + 1) ↔
      1 ≤ o ∧ o ≤ i + 1 ∧ o ≤ Config.zx7MaxOffset ∧ zx7KeyOf x (i + 1 - o) = some k := by
  rw [zx7Offsets, List.mem_filter, mem_upTo, Nat.add_sub_cancel, Bool.and_eq_true, beq_iff_eq, beq_iff_eq]
  by_cases ho : o ≤ i
  · rw [show i + 1 - o = i - o + 1 by omega, zx7KeyOf, keyAt_eq_iff hk, le_min_iff]
    exact ⟨fun ⟨⟨h1, hl, _⟩, hpair⟩ => ⟨h1, by omega, hl, hpair⟩, fun ⟨h1, _, hl, hpair⟩ => ⟨⟨h1, hl, ho⟩, hpair⟩⟩
  · rw [show i + 1 - o = 0 by omega, zx7KeyOf]
    refine iff_of_false (fun ⟨⟨_, hl⟩, _⟩ => ?_) nofun
    omega

/-- Settles O46: the scan keeps the table in order, so the walk yields the distances of the pairs that match, ascending. -/
theorem zx7WalkYieldsTheCandidateOffsets : Obligations.Zx7WalkYieldsTheCandidateOffsets := by
  intro x i k hi hk
  obtain ⟨i, rfl⟩ := Nat.exists_eq_add_of_le' hi
  exact (indexed_indexBefore Indexed.visitZx7 (i + 1)).walk_offsets (upTo_filter_ascending _ _)
    fun _ => mem_zx7Offsets_iff hk

/-- Settles O47: as O46, the keys being those of the pairs that start at the positions. -/
theorem mlzWalkYieldsThePairOffsets : Obligations.MlzWalkYieldsThePairOffsets := by
  intro x p k _ hk
  refine (indexed_indexBefore Indexed.visitMlz p).walk_offsets (upTo_filter_ascending _ _) fun o => ?_
  rw [List.mem_filter, mem_upTo, beq_iff_eq, matchForward_two_iff hk, le_min_iff]
  exact ⟨fun ⟨⟨h1, hl, ho⟩, hmatch⟩ => ⟨h1, ho, hl, hmatch⟩, fun ⟨h1, ho, hl, hmatch⟩ => ⟨⟨h1, hl, ho⟩, hmatch⟩⟩

end Sys2Proof.Machine
end

section
/-! PROOFS. The cost model against the encodings (spec/42_cost_model.md R150 to R159): the length of the integer codes, and the bits
of every token. -/

namespace Sys2Proof.Machine

/-! ### The length of a code (R150) -/

theorem eg_eq_five {v : Nat} (h4 : 4 ≤ v) (h7 : v ≤ 7) : eg v = 5 := by
  have hlog : v.log2 = 2 := (Nat.log2_eq_iff (by omega)).2 ⟨h4, Nat.lt_succ_of_le h7⟩
  rw [eg, hlog]

/-- Settles O23: the lengths of the two codes, and the listed values computed. -/
theorem gammaCodeLengths : Obligations.GammaCodeLengths :=
  ⟨fun v _ => ⟨rfl, gammaBits_length v, fun pol inv => igammaBits_length pol inv v⟩,
    by decide, by decide, by decide, fun _ => eg_eq_five, by decide, by decide, by decide⟩

/-! ### ZX7 (R152, R153) -/

/-- A ZX7 copy's bits, by those of its offset field (R84). -/
theorem itemBits_zx7Copy (L : Nat) (off : List Item) :
    itemBits (bitItems (true :: gammaBits (L - 1)) ++ off) = 1 + itemBits off + eg (L - 1) := by
  rw [itemBits_append, itemBits_bitItems, List.length_cons, gammaBits_length]
  omega

theorem itemBits_eq_tokenCost_zx7 (f : Fmt) {i : Instr} (hi : tokenVariant i = some .zx7) (hw : i.wellFormed = true) :
    some (itemBits (tokenItems f i)) = tokenCost i := by
  cases i with
  | zx7First b | zx7Lit b => rfl
  | zx7CpyS o L =>
    obtain ⟨⟨h1, ho⟩, h2, hL⟩ := wellFormed_zx7CpyS.1 hw
    rw [tokenCost, costCopyZx7, if_pos ⟨h1, ho.trans (by decide), h2, hL⟩, if_pos ho, tokenItems, encode, itemBits_zx7Copy,
      itemBits_byte]
  | zx7CpyL o L =>
    obtain ⟨⟨h1, ho⟩, h2, hL⟩ := wellFormed_zx7CpyL.1 hw
    rw [tokenCost, costCopyZx7, if_pos ⟨by omega, ho, h2, hL⟩, if_neg (by omega), tokenItems, encode, List.append_assoc,
      itemBits_zx7Copy, itemBits_append, itemBits_byte, itemBits_bitItems, bitsDown_length]
  | zx7End => exact congrArg some (itemBits_endToken .zx7 f)
  | _ => cases hi

/-! ### ZX0 (R154 to R156) -/

theorem itemBits_bytes (bs : List Byte) : itemBits (bs.map .byte) = 8 * bs.length := by
  induction bs with
  | nil => rfl
  | cons b bs ih =>
    rw [List.map_cons, ← List.singleton_append, itemBits_append, itemBits_byte, ih, List.length_cons]
    omega

/-- The length's code has its first bit in the slot of the LSB byte (R83), so it takes one position fewer. -/
theorem itemBits_zx0CpyItems (f : Fmt) (o L : Nat) :
    itemBits (zx0CpyItems f o L) = 8 + eg (zx0Msb o) + eg (L - 1) := by
  have hslot : 1 ≤ eg (L - 1) := Nat.le_add_left 1 _
  simp only [zx0CpyItems, itemBits_append, itemBits_bitItems, itemBits_byte, List.length_cons, List.length_tail,
    igammaBits_length]
  omega

theorem itemBits_eq_tokenCost_zx0 (f : Fmt) {i : Instr} (hi : tokenVariant i = some .zx0) (hw : i.wellFormed = true) :
    some (itemBits (tokenItems f i)) = tokenCost i := by
  cases i with
  | zx0Lit0 bs =>
    rw [tokenItems, encode, itemBits_append, itemBits_bitItems, itemBits_bytes, igammaBits_length, tokenCost, costLitZx0,
      Nat.add_assoc 1, Nat.add_sub_cancel_left]
  | zx0Lit bs =>
    rw [tokenItems, encode, itemBits_append, itemBits_bitItems, itemBits_bytes, List.length_cons, igammaBits_length, tokenCost,
      costLitZx0, Nat.add_comm 1]
  | zx0Rep L =>
    rw [tokenItems, encode, itemBits_bitItems, List.length_cons, igammaBits_length, tokenCost, costRepZx0, Nat.add_comm 1]
  | zx0Cpy o L =>
    obtain ⟨⟨h1, ho⟩, h2, -⟩ := wellFormed_zx0Cpy.1 hw
    rw [tokenItems, encode, itemBits_zx0CpyItems, tokenCost, costNewZx0, if_pos ⟨h1, ho, h2⟩, zx0Msb]
  | zx0End => exact congrArg some (itemBits_endToken .zx0 f)
  | _ => cases hi

/-! ### MegaLZ (R157, R158) -/

/-- The cost by the length, for operands in the format's range (R157). -/
theorem costCopyMlz_of_range {o L : Nat} (ho : 1 ≤ o ∧ o ≤ 4352) (hL : 1 ≤ L ∧ L ≤ 255) :
    costCopyMlz o L =
      if L = 1 then (if o ≤ 8 then some 6 else none)
      else if L = 2 then (if o ≤ 256 then some 11 else none)
      else if L = 3 then some (3 + offBitsMlz o) else some (3 + eg (L - 3) + offBitsMlz o) := by
  have hrange : ¬ (o < 1 ∨ 4352 < o ∨ L < 1 ∨ 255 < L) := by omega
  exact if_neg hrange

theorem costCopyMlz_one {o : Nat} (h1 : 1 ≤ o) (ho : o ≤ 8) : costCopyMlz o 1 = some 6 := by
  rw [costCopyMlz_of_range ⟨h1, by omega⟩ (by decide), if_pos rfl, if_pos ho]

theorem costCopyMlz_two {o : Nat} (h1 : 1 ≤ o) (ho : o ≤ 256) : costCopyMlz o 2 = some 11 := by
  rw [costCopyMlz_of_range ⟨h1, by omega⟩ (by decide), if_neg (by decide), if_pos rfl, if_pos ho]

theorem costCopyMlz_three {o : Nat} (h1 : 1 ≤ o) (ho : o ≤ 4352) : costCopyMlz o 3 = some (3 + offBitsMlz o) := by
  rw [costCopyMlz_of_range ⟨h1, ho⟩ (by decide), if_neg (by decide), if_neg (by decide), if_pos rfl]

theorem costCopyMlz_of_four_le {o L : Nat} (h1 : 1 ≤ o) (ho : o ≤ 4352) (h4 : 4 ≤ L) (hL : L ≤ 255) :
    costCopyMlz o L = some (3 + eg (L - 3) + offBitsMlz o) := by
  rw [costCopyMlz_of_range ⟨h1, ho⟩ ⟨by omega, hL⟩, if_neg (by omega), if_neg (by omega), if_neg (by omega)]

theorem itemBits_mlzOffShort {o : Nat} (ho : o ≤ 256) : itemBits (mlzOffShort o) = offBitsMlz o := (if_pos ho).symm

theorem itemBits_mlzOffLong {o : Nat} (ho : 257 ≤ o) : itemBits (mlzOffLong o) = offBitsMlz o :=
  (if_neg (Nat.not_le.2 ho)).symm

/-- A MegaLZ copy's bits: its 3-bit code with the bits that follow it, and its offset field (R89). -/
theorem itemBits_mlzCopy (a b c : Bool) (bs : List Bool) (off : List Item) :
    itemBits (bitItems ([a, b, c] ++ bs) ++ off) = 3 + bs.length + itemBits off := by
  rw [itemBits_append, itemBits_bitItems, List.length_append]
  rfl

theorem itemBits_eq_tokenCost_megalz (f : Fmt) {i : Instr} (hi : tokenVariant i = some .megalz)
    (hw : i.wellFormed = true) : some (itemBits (tokenItems f i)) = tokenCost i := by
  cases i with
  | mlzFirst b | mlzLit b => rfl
  | mlzCpy1 o =>
    obtain ⟨h1, ho⟩ := wellFormed_mlzCpy1.1 hw
    exact (costCopyMlz_one h1 ho).symm
  | mlzCpy2 o =>
    obtain ⟨h1, ho⟩ := wellFormed_mlzCpy2.1 hw
    exact (costCopyMlz_two h1 ho).symm
  | mlzCpy3S o =>
    obtain ⟨h1, ho⟩ := wellFormed_mlzCpy3S.1 hw
    rw [tokenCost, costCopyMlz_three h1 (by omega), ← itemBits_mlzOffShort ho]
    exact congrArg some (itemBits_mlzCopy _ _ _ [] _)
  | mlzCpy3L o =>
    obtain ⟨h1, ho⟩ := wellFormed_mlzCpy3L.1 hw
    rw [tokenCost, costCopyMlz_three (by omega) ho, ← itemBits_mlzOffLong h1]
    exact congrArg some (itemBits_mlzCopy _ _ _ [] _)
  | mlzCpyNS o L =>
    obtain ⟨⟨h1, ho⟩, h4, hL⟩ := wellFormed_mlzCpyNS.1 hw
    rw [tokenCost, costCopyMlz_of_four_le h1 (by omega) h4 hL, tokenItems, encode, itemBits_mlzCopy, gammaBits_length,
      itemBits_mlzOffShort ho]
  | mlzCpyNL o L =>
    obtain ⟨⟨h1, ho⟩, h4, hL⟩ := wellFormed_mlzCpyNL.1 hw
    rw [tokenCost, costCopyMlz_of_four_le (by omega) ho h4 hL, tokenItems, encode, itemBits_mlzCopy, gammaBits_length,
      itemBits_mlzOffLong h1]
  | mlzEnd => exact congrArg some (itemBits_endToken .megalz f)
  | _ => cases hi

/-- Settles O32: in each variant, the items of every token take the positions its cost counts. -/
theorem tokenBitsEqualCost : Obligations.TokenBitsEqualCost := by
  intro f i v hi hw
  cases v with
  | zx7 => exact itemBits_eq_tokenCost_zx7 f hi hw
  | zx0 => exact itemBits_eq_tokenCost_zx0 f hi hw
  | megalz => exact itemBits_eq_tokenCost_megalz f hi hw

end Sys2Proof.Machine
end

section
/-! PROOFS. Operations expanded (spec/00_scope.md R14): what stands for a part of the input expands to it, so the ZX7 and MegaLZ
parses, and every step of the greedy one, reproduce the input (spec/43_parser.md R177, R181, R190, R191). -/

namespace Sys2Proof.Machine

/-! ### Expansion (R14) -/

theorem expand_append (out : List Byte) (ops ops' : List Op) : expand out (ops ++ ops') = expand (expand out ops) ops' := by
  induction ops generalizing out with
  | nil => rfl
  | cons op ops ih => cases op <;> exact ih _

/-- A copy's bytes are the input's next ones: every byte it reads is one of the input, already output. -/
theorem copyBytes_take {x : List Byte} {p o L : Nat} (h : Copies x p o L) : copyBytes (x.take p) o L = x.take (p + L) := by
  induction L generalizing p with
  | zero => rfl
  | succ L ih =>
    obtain ⟨h1, hle, hwithin, hsame⟩ := h
    have hread : (x.take p)[(x.take p).length - o]? = x[p]? := by
      rw [List.length_take, min_eq_left (by omega), List.getElem?_take_of_lt (by omega)]
      exact (hsame p (Nat.le_refl p) (by omega)).symm
    rw [copyBytes, hread, ← List.take_add_one,
      ih ⟨h1, by omega, by omega, fun k hk hkL => hsame k (by omega) (by omega)⟩, Nat.add_right_comm, Nat.add_assoc]

theorem Op.Stands.expand {v : Variant} {x : List Byte} {p q b : Nat} {op : Op} (h : op.Stands v x p q b) :
    expand (x.take p) [op] = x.take q := by
  cases op with
  | first a | lit a =>
    obtain ⟨-, ha, rfl, -⟩ := h
    rw [List.take_add_one, ha]
    rfl
  | run bs => exact h.elim
  | copy o L =>
    obtain ⟨hcopies, rfl, -⟩ := h
    exact copyBytes_take hcopies

/-- Operations that stand for the input from `p` to before `q` add just those bytes. -/
theorem Stand.expand {v : Variant} {x : List Byte} {p q b : Nat} {ops : List Op} (h : Stand v x p ops q b) :
    expand (x.take p) ops = x.take q := by
  induction h with
  | nil p => rfl
  | @cons p q r b c op ops hop _ ih => rw [← List.singleton_append, expand_append, hop.expand, ih]

theorem Stand.expand_all {v : Variant} {x : List Byte} {b : Nat} {ops : List Op} (h : Stand v x 0 ops x.length b) :
    Machine.expand [] ops = x :=
  h.expand.trans List.take_length

/-! ### The parses that begin with FIRST -/

/-- Settles O50: the operations recovered stand for the input. -/
theorem zx7ParseReproducesTheInput : Obligations.Zx7ParseReproducesTheInput := by
  intro x hx
  obtain ⟨b, -, hstand⟩ := zx7Ops_stand hx
  exact hstand.expand_all

/-- Settles O52: the operations recovered stand for the input, in the bits of the parse's cost. -/
theorem mlzParseReproducesTheInput : Obligations.MlzParseReproducesTheInput := by
  intro x hx
  obtain ⟨b, -, hcost, hstand⟩ := mlzOps_stand hx
  exact ⟨by rw [hcost]; rfl, hstand.expand_all⟩

/-- One choice of the greedy parse stands for the bytes it covers. -/
theorem greedyChoice_expand {x : List Byte} {p : Nat} (h1 : 1 ≤ p) (hp : p < x.length) :
    expand (x.take p) (literalOrCopy x p (greedyChoice x p).o (greedyChoice x p).L) = x.take (p + (greedyChoice x p).L) :=
  ((greedyChoice_fair x p).move.stand h1 hp).expand

theorem stepEngine_parse_greedy {s : State} (hphase : s.phase = .parse) (hv : s.variant = .megalz)
    (hmode : s.latch.mode = 7) : stepEngine s = .next s.parseMlzGreedy := by
  rw [stepEngine_parse hphase, State.parseStep_megalz hv, if_neg (by rw [hmode]; decide)]

/-- Settles O54: position 0 is FIRST, and every later choice stands for the bytes it covers. -/
theorem greedyParseFollowsTheInput : Obligations.GreedyParseFollowsTheInput := by
  intro s t hphase hv hmode hlt hops hstart hstep
  rw [stepEngine_parse_greedy hphase hv hmode, State.parseMlzGreedy, if_pos hlt] at hstep
  by_cases h0 : s.scan = 0
  · rw [if_pos h0] at hstep
    cases hstep
    have hx : s.image ≠ [] := List.length_pos_iff.1 (Nat.zero_lt_of_lt hlt)
    exact ⟨hphase, by dsimp only; omega, by dsimp only; omega, rfl, ((Stand.nil (v := .megalz) 1).withFirst hx).expand⟩
  · rw [if_neg h0] at hstep
    cases hstep
    have h1 : 1 ≤ s.scan := Nat.pos_of_ne_zero h0
    obtain ⟨hL, hend⟩ := (greedyChoice_fair s.image s.scan).move.bounds hlt
    exact ⟨hphase, by dsimp only; omega, hend, rfl, by rw [expand_append, hops, greedyChoice_expand h1 hlt]⟩

end Sys2Proof.Machine
end

section
/-! PROOFS. One position of the parsers (spec/43_parser.md): the least cost of the ZX7 entry (R170), the relaxations of the MegaLZ
scan (R180, R193), and the choice of the greedy parse (R190). -/

namespace Sys2Proof.Machine

/-! ### Costs compared (R151) -/

/-- `d` is not above `c`: what bounds `c` bounds `d`. -/
theorem Cost.less_eq_false_iff {c d : Cost} : Cost.less c d = false ↔ ∀ k, c.AtMost k → d.AtMost k := by
  cases c with
  | none => exact iff_of_true rfl fun k ⟨_, _, h⟩ => nomatch h
  | some a =>
    rw [Cost.less_some_eq_false]
    exact ⟨fun h k hk => h.mono (Cost.atMost_some.1 hk), fun h => h a (Cost.atMost_some.2 (Nat.le_refl a))⟩

theorem Cost.plus_atMost {c d : Cost} {k : Nat} :
    (Cost.plus c d).AtMost k ↔ ∃ a b, c = some a ∧ d = some b ∧ a + b ≤ k := by
  constructor
  · rintro ⟨j, hj, h⟩
    obtain ⟨a, b, rfl, rfl, rfl⟩ := Cost.plus_eq_some.1 h
    exact ⟨a, b, rfl, rfl, hj⟩
  · rintro ⟨a, b, rfl, rfl, h⟩
    exact Cost.atMost_some.2 h

/-! ### ZX7: what an entry records (R170) -/

theorem costCopyZx7_of_range {o L : Nat} (h : 1 ≤ o ∧ o ≤ Config.zx7MaxOffset ∧ 2 ≤ L ∧ L ≤ Config.zx7MaxLen) :
    costCopyZx7 o L = some (1 + (if o ≤ 128 then 8 else 12) + eg (L - 1)) := if_pos h

theorem zx7Offsets_le {x : List Byte} {i o : Nat} (h : o ∈ zx7Offsets x i) : o ≤ Config.zx7MaxOffset :=
  (mem_upTo.1 (List.mem_filter.1 h).1).2.trans (min_le_left _ _)

theorem matchBackward_le_max (x : List Byte) (i o c : Nat) : matchBackward x i o c ≤ c :=
  (commonPrefix_le _ _ _).trans (min_le_left _ _)

section
variable {x : List Byte} {es : List Zx7Entry} {i : Nat}

/-- The lengths of one offset leave the entry, or put a copy of such a length in its place. -/
theorem zx7Lengths_eq_or (o count L : Nat) (e : Zx7Entry) :
    zx7Lengths es i o count L e = e ∨ L ≤ (zx7Lengths es i o count L e).len := by
  induction count generalizing L e with
  | zero => exact .inl rfl
  | succ count ih =>
    rw [zx7Lengths]
    split
    · exact .inr ((ih (L + 1) _).elim (fun h => by rw [h]) Nat.le_of_succ_le)
    · exact (ih (L + 1) e).imp_right Nat.le_of_succ_le

theorem zx7Try_eq_or (os : List Nat) {best : Nat} (hb : 1 ≤ best) (e : Zx7Entry) :
    zx7Try x es i os best e = e ∨ 2 ≤ (zx7Try x es i os best e).len := by
  induction os generalizing best e with
  | nil => exact .inl rfl
  | cons o os ih =>
    rw [zx7Try]
    split
    · exact .inl rfl
    · obtain h | h := ih (hb.trans (le_max_left _ _)) _
      · rw [h]
        exact (zx7Lengths_eq_or o _ (best + 1) e).imp_right (by omega)
      · exact .inr h

end

/-- A literal entry has no offset. -/
theorem zx7Entry_off_of_literal (x : List Byte) (es : List Zx7Entry) (i : Nat) (h : (zx7Entry x es i).len = 0) :
    (zx7Entry x es i).off = 0 := by
  rw [zx7Entry] at h ⊢
  split
  · rfl
  · next h0 =>
    rw [if_neg h0] at h
    obtain heq | hlen := zx7Try_eq_or (x := x) (es := es) (i := i) (zx7Offsets x i) (Nat.le_refl 1) _
    · rw [heq]
    · omega

/-- Settles O48: a choice among the literal and the offered copies, each of which the format can represent. -/
theorem zx7ChoiceIsAnOfferedCopy : Obligations.Zx7ChoiceIsAnOfferedCopy := by
  intro x es i h1
  obtain ⟨⟨hlen, hcost⟩ | ⟨hoff, h2, hM, hcost⟩, -⟩ := zx7Entry_choice x es h1
  · exact .inl ⟨hlen, zx7Entry_off_of_literal x es i hlen, hcost⟩
  · have hrepresentable := costCopyZx7_of_range
      ⟨(mem_zx7Offsets hoff).1, zx7Offsets_le hoff, h2, hM.trans (matchBackward_le_max _ _ _ _)⟩
    exact .inr ⟨hoff, h2, hM, by rw [hrepresentable]; rfl, hcost⟩

/-! ### ZX7: the cost is the least (R170) -/

section
variable {x : List Byte} {es : List Zx7Entry} {i : Nat}

/-- The cost of the copy at `i` from `o` of length `L`, with what comes before it. -/
def zx7CopyCost (es : List Zx7Entry) (i o L : Nat) : Cost := Cost.plus (zx7Cost es (i - L)) (costCopyZx7 o L)

/-- A nearer offset is no dearer at the same length. -/
theorem zx7CopyCost_mono {o o' L k : Nat} (h1 : 1 ≤ o') (hle : o' ≤ o) (h : (zx7CopyCost es i o L).AtMost k) :
    (zx7CopyCost es i o' L).AtMost k := by
  obtain ⟨a, b, ha, hb, hk⟩ := Cost.plus_atMost.1 h
  rw [costCopyZx7] at hb
  split at hb
  case isFalse => cases hb
  next hr =>
  refine Cost.plus_atMost.2 ⟨a, _, ha, costCopyZx7_of_range ⟨h1, hle.trans hr.2.1, hr.2.2⟩, ?_⟩
  cases hb
  split_ifs at hk ⊢ <;> omega

/-- A copy that replaces a dearer entry leaves the lesser of the two costs. -/
theorem replaced_atMost {e : Zx7Entry} {c : Cost} {o L k : Nat} (h : e.cost.AtMost k ∨ c.AtMost k) :
    (if Cost.less c e.cost then { cost := c, off := o, len := L } else e).cost.AtMost k := by
  split
  · next hless => exact h.elim (fun he => he.of_less hless) id
  · next hless => exact h.elim id (Cost.less_eq_false_iff.1 (Bool.eq_false_iff.2 hless) k)

/-- The lengths of one offset never raise the cost, and leave it at most that of each copy they try. -/
theorem zx7Lengths_least (o count L : Nat) (e : Zx7Entry) {k : Nat}
    (h : e.cost.AtMost k ∨ ∃ l, L ≤ l ∧ l < L + count ∧ (zx7CopyCost es i o l).AtMost k) :
    (zx7Lengths es i o count L e).cost.AtMost k := by
  induction count generalizing L e with
  | zero => exact h.elim id fun ⟨l, hl, hlt, _⟩ => by omega
  | succ count ih =>
    rw [zx7Lengths]
    refine ih (L + 1) _ ?_
    obtain he | ⟨l, hl, hlt, hk⟩ := h
    · exact .inl (replaced_atMost (.inl he))
    · obtain rfl | hne := Nat.eq_or_lt_of_le hl
      · exact .inl (replaced_atMost (.inr hk))
      · exact .inr ⟨l, hne, by omega, hk⟩

/-- The cost `c` is at most that of every copy from `o` of a length up to `best`. -/
def Covers (es : List Zx7Entry) (i o best : Nat) (c : Cost) : Prop :=
  ∀ L, 2 ≤ L → L ≤ best → ∀ k, (zx7CopyCost es i o L).AtMost k → c.AtMost k

/-- Where the lengths up to `best` are covered for the offsets to come, the ascending offsets leave every length they reach
covered: one no longer than `best` by an earlier offset, which is no dearer. -/
theorem zx7Try_least {os : List Nat} (hos : os.Pairwise (· < ·)) (h1 : ∀ o ∈ os, 1 ≤ o) {best : Nat} {e : Zx7Entry}
    (hb : ∀ o ∈ os, Covers es i o best e.cost) :
    (∀ k, e.cost.AtMost k → (zx7Try x es i os best e).cost.AtMost k) ∧
      ∀ o ∈ os, Covers es i o (matchBackward x i o Config.zx7MaxLen) (zx7Try x es i os best e).cost := by
  induction os generalizing best e with
  | nil => exact ⟨fun _ h => h, nofun⟩
  | cons o os ih =>
    obtain ⟨hlt, hos⟩ := List.pairwise_cons.1 hos
    rw [zx7Try]
    split
    · next hmax =>
      exact ⟨fun _ h => h, fun o' ho' L h2 hL => hb o' ho' L h2 (hL.trans ((matchBackward_le_max _ _ _ _).trans hmax))⟩
    · generalize hM : matchBackward x i o Config.zx7MaxLen = M
      have hle (k : Nat) (h : e.cost.AtMost k) : (zx7Lengths es i o (M - best) (best + 1) e).cost.AtMost k :=
        zx7Lengths_least o _ _ e (.inl h)
      have hcovers (o' : Nat) (ho' : o' ∈ o :: os) :
          Covers es i o' (max best M) (zx7Lengths es i o (M - best) (best + 1) e).cost := by
        intro L h2 hL k hk
        by_cases hold : L ≤ best
        · exact hle k (hb o' ho' L h2 hold k hk)
        · have hoo' : o ≤ o' := (List.mem_cons.1 ho').elim (fun h => h ▸ Nat.le_refl o) fun h => Nat.le_of_lt (hlt o' h)
          exact zx7Lengths_least o _ _ e
            (.inr ⟨L, by omega, by omega, zx7CopyCost_mono (h1 o List.mem_cons_self) hoo' hk⟩)
      obtain ⟨hless, hleast⟩ := ih hos (fun o' ho' => h1 o' (List.mem_cons_of_mem _ ho'))
        (fun o' ho' => hcovers o' (List.mem_cons_of_mem _ ho'))
      refine ⟨fun k h => hless k (hle k h), fun o' ho' => ?_⟩
      obtain rfl | ho' := List.mem_cons.1 ho'
      · intro L h2 hL k hk
        exact hless k (hcovers o' List.mem_cons_self L h2 (by omega) k hk)
      · exact hleast o' ho'

end

/-- Settles O49: a length that the offset at hand does not try has been tried with a nearer one, at no greater cost. -/
theorem zx7PositionCostIsLeast : Obligations.Zx7PositionCostIsLeast := by
  intro x es i h1
  refine ⟨Cost.less_eq_false_iff.2 (zx7Entry_choice x es h1).least, fun o ho L h2 hL => Cost.less_eq_false_iff.2 ?_⟩
  rw [zx7Entry, if_neg (Nat.ne_of_gt h1)]
  exact (zx7Try_least (upTo_filter_ascending _ _) (fun o ho => (mem_zx7Offsets ho).1)
    fun o _ L h2 hL => by omega).2 o ho L h2 hL

/-! ### MegaLZ: one position of the scan (R180, R193) -/

/-- A move's transition is relaxed, whatever the cost it starts from. -/
theorem mlzScanAt_relaxes {x : List Byte} {es : List MlzEntry} {p o L b : Nat} (hlen : es.length = x.length + 1)
    (hp : p < x.length) (hm : MlzMove x p o L b) :
    Cost.less (Cost.plus (mlzCost es p) (some b)) (mlzCost (mlzScanAt x es p) (p + L)) = false := by
  rw [Cost.less_eq_false_iff]
  intro k hk
  obtain ⟨c, b', hc, hb, hle⟩ := Cost.plus_atMost.1 hk
  cases hb
  exact (mlzScanAt_reaches hlen hp hm hc).mono hle

/-- Settles O51: every transition of the position is a move, and the scan relaxes each and raises no cost. -/
theorem mlzScanRelaxesEveryTransition : Obligations.MlzScanRelaxesEveryTransition := by
  intro x es p hlen _ hp
  refine ⟨fun q hq => mlzScanAt_settled hp hq, fun q => Cost.less_eq_false_iff.2 fun k => mlzScanAt_atMost hlen hp,
    mlzScanAt_relaxes hlen hp (.literal x p), fun ⟨o, L⟩ hc => ?_⟩
  obtain ⟨b, hb⟩ := Option.isSome_iff_exists.1 (mem_mlzCandidates.1 hc).2.2
  rw [hb]
  exact mlzScanAt_relaxes hlen hp (.inr ⟨hc, hb⟩)

/-! ### MegaLZ: the greedy choice (R190) -/

theorem eg_le {v : Nat} : eg v ≤ 2 * v + 1 := by
  have := Nat.log2_le_self v
  rw [eg]
  omega

/-- R190: "every feasible copy has positive gain". -/
theorem costCopyMlz_lt {o L b : Nat} (h : costCopyMlz o L = some b) : b < 8 * L := by
  have heg := eg_le (v := L - 3)
  have hoff : offBitsMlz o ≤ 13 := by
    rw [offBitsMlz]
    split <;> omega
  rw [costCopyMlz] at h
  split at h
  · cases h
  split at h
  · split at h <;> cases h
    omega
  split at h
  · split at h <;> cases h
    omega
  split at h <;> cases h <;> omega

/-- The choice `g` is the first of the candidates `cs` of the greatest gain. -/
def FirstGreatest (cs : List (Nat × Nat)) (g : GreedyBest) : Prop :=
  ∃ (before after : List (Nat × Nat)) (b : Nat),
    cs = before ++ (g.o, g.L) :: after ∧ costCopyMlz g.o g.L = some b ∧ g.bits = b ∧ g.gain = 8 * (g.L : Int) - b ∧
    (∀ c ∈ before, ∀ bc, costCopyMlz c.1 c.2 = some bc → 8 * (c.2 : Int) - bc < g.gain) ∧
    ∀ c ∈ after, ∀ bc, costCopyMlz c.1 c.2 = some bc → 8 * (c.2 : Int) - bc ≤ g.gain

theorem FirstGreatest.gain_le {cs : List (Nat × Nat)} {g : GreedyBest} (h : FirstGreatest cs g) {c : Nat × Nat} (hc : c ∈ cs)
    {b : Nat} (hb : costCopyMlz c.1 c.2 = some b) : 8 * (c.2 : Int) - b ≤ g.gain := by
  obtain ⟨before, after, b', rfl, hb', -, hgain, hbefore, hafter⟩ := h
  obtain hc | hc := List.mem_append.1 hc
  · exact Int.le_of_lt (hbefore c hc b hb)
  obtain rfl | hc := List.mem_cons.1 hc
  · cases hb.symm.trans hb'
    exact Int.le_of_eq hgain.symm
  · exact hafter c hc b hb

/-- A later candidate of no greater gain leaves the choice. -/
theorem FirstGreatest.concat {cs : List (Nat × Nat)} {g : GreedyBest} (h : FirstGreatest cs g) {c : Nat × Nat} {b : Nat}
    (hb : costCopyMlz c.1 c.2 = some b) (hle : 8 * (c.2 : Int) - b ≤ g.gain) : FirstGreatest (cs ++ [c]) g := by
  obtain ⟨before, after, b', rfl, hb', hbits, hgain, hbefore, hafter⟩ := h
  refine ⟨before, after ++ [c], b', by rw [List.append_assoc, List.cons_append], hb', hbits, hgain, hbefore,
    fun c' hc' bc hbc => ?_⟩
  obtain hc' | hc' := List.mem_append.1 hc'
  · exact hafter c' hc' bc hbc
  · obtain rfl := List.mem_singleton.1 hc'
    cases hb.symm.trans hbc
    exact hle

/-- The literal, where the choice of R190 begins. -/
def literalChoice : GreedyBest := { o := 0, L := 1, bits := costLitMlz, gain := 8 - costLitMlz }

theorem greedyChoice_eq (x : List Byte) (p : Nat) :
    greedyChoice x p = (mlzCandidates x p).foldl greedyBetter literalChoice := rfl

/-- The first candidate replaces the literal, and each later one the choice only with a greater gain. -/
theorem foldl_greedyBetter_first {cs : List (Nat × Nat)} (hcs : ∀ c ∈ cs, (costCopyMlz c.1 c.2).isSome = true)
    (hne : cs ≠ []) : FirstGreatest cs (cs.foldl greedyBetter literalChoice) := by
  induction cs using List.reverseRecOn with
  | nil => exact absurd rfl hne
  | append_singleton cs c ih =>
    have hbefore := ih fun c' hc' => hcs c' (List.mem_append_left _ hc')
    obtain ⟨b, hb⟩ := Option.isSome_iff_exists.1 (hcs c (List.mem_append_right _ List.mem_cons_self))
    rw [List.foldl_append, List.foldl_cons, List.foldl_nil]
    generalize hg : cs.foldl greedyBetter literalChoice = g at hbefore ⊢
    rw [greedyBetter, hb]
    dsimp only
    split
    · next hbetter =>
      refine ⟨cs, [], b, rfl, hb, rfl, rfl, fun c' hc' bc hbc => ?_, nofun⟩
      exact Int.lt_of_le_of_lt ((hbefore (List.ne_nil_of_mem hc')).gain_le hc' hbc) hbetter
    · next hworse =>
      refine (hbefore ?_).concat hb (Int.not_lt.1 hworse)
      rintro rfl
      cases hg
      have := costCopyMlz_lt hb
      exact hworse (show (8 - 9 : Int) < _ by omega)

/-- Settles O53: with no candidate the choice stays the literal, else it is the first of the greatest gain. -/
theorem greedyTakesTheFirstGreatestGain : Obligations.GreedyTakesTheFirstGreatestGain := by
  intro x p _ _
  rw [greedyChoice_eq]
  exact ⟨fun hnone => by rw [hnone]; rfl, foldl_greedyBetter_first fun ⟨o, L⟩ hc => (mem_mlzCandidates.1 hc).2.2⟩

end Sys2Proof.Machine
end

section
/-! PROOFS. The ZX0 parse always has a node (spec/43_parser.md R173): offset 1 gives one at every position, and no table entry
becomes `NULL` again. So the parse reproduces the input (R174, R191). -/

namespace Sys2Proof.Machine

/-! ### Tables that fill up (R172) -/

/-- The table `l'` is `l` with links put into some entries: none is `NULL` that was not. -/
structure Fills (l l' : List (Option Nat)) : Prop where
  length : l'.length = l.length
  keeps : ∀ k, l.getD k none ≠ none → l'.getD k none ≠ none

theorem Fills.refl (l : List (Option Nat)) : Fills l l := ⟨rfl, fun _ h => h⟩

theorem Fills.trans {l l' l'' : List (Option Nat)} (h : Fills l l') (k : Fills l' l'') : Fills l l'' :=
  ⟨k.length.trans h.length, fun i hi => k.keeps i (h.keeps i hi)⟩

theorem getD_set_some {l : List (Option Nat)} {i : Nat} (h : i < l.length) (j : Nat) :
    (l.set i (some j)).getD i none ≠ none := by
  rw [getD_set_eq, if_pos ⟨rfl, h⟩]
  exact Option.some_ne_none j

theorem fills_set (l : List (Option Nat)) (i j : Nat) : Fills l (l.set i (some j)) := by
  refine ⟨List.length_set, fun k hk => ?_⟩
  rw [getD_set_eq]
  split
  · exact Option.some_ne_none j
  · exact hk

/-- From `z` to `z'` the three tables of nodes only fill up. -/
structure Zx0Fills (z z' : Zx0State) : Prop where
  lit : Fills z.lastLit z'.lastLit
  mat : Fills z.lastMatch z'.lastMatch
  optimal : Fills z.optimal z'.optimal

theorem Zx0Fills.refl (z : Zx0State) : Zx0Fills z z := ⟨.refl _, .refl _, .refl _⟩

theorem Zx0Fills.trans {z z' z'' : Zx0State} (h : Zx0Fills z z') (k : Zx0Fills z' z'') : Zx0Fills z z'' :=
  ⟨h.lit.trans k.lit, h.mat.trans k.mat, h.optimal.trans k.optimal⟩

theorem Zx0Fills.offer (z : Zx0State) (index id : Nat) (b : Int) : Zx0Fills z (z.offer index id b) := by
  obtain h | h := z.offer_cases index id b
  · rw [h]
    exact .refl z
  · rw [h]
    exact ⟨.refl _, .refl _, fills_set _ _ _⟩

/-- The shape of the three candidates of R172: allocate, note in a table by offset, offer. -/
theorem Zx0Fills.allocate (z : Zx0State) (nd : Node) {lit mat : List (Option Nat)} (hlit : Fills z.lastLit lit)
    (hmat : Fills z.lastMatch mat) (index : Nat) (b : Int) :
    Zx0Fills z ({ z.alloc nd with lastLit := lit, lastMatch := mat }.offer index z.node.size b) :=
  Zx0Fills.trans (z' := { z.alloc nd with lastLit := lit, lastMatch := mat }) ⟨hlit, hmat, .refl _⟩ (.offer _ _ _ _)

/-- The position a node is offered for has one. -/
theorem Zx0State.offer_optimal {z : Zx0State} {index : Nat} (h : index < z.optimal.length) (id : Nat) (b : Int) :
    (z.offer index id b).optimal.getD index none ≠ none := by
  rw [Zx0State.offer]
  split
  · exact getD_set_some h id
  · next nd hnd =>
    split
    · exact getD_set_some h id
    · obtain ⟨j, hj, -⟩ := Zx0State.nodeOf_eq_some hnd
      rw [hj]
      exact Option.some_ne_none j

section
variable (z : Zx0State) (index o : Nat)

theorem Zx0Fills.tryRep : Zx0Fills z (z.tryRep index o) := by
  rw [Zx0State.tryRep]
  split
  · exact .refl z
  · exact .allocate z _ (.refl _) (fills_set _ _ _) _ _

theorem Zx0Fills.tryLit : Zx0Fills z (z.tryLit index o) := by
  rw [Zx0State.tryLit]
  split
  · exact .refl z
  · exact .allocate z _ (fills_set _ _ _) (.refl _) _ _

theorem Zx0Fills.tryNew (limit L : Nat) : Zx0Fills z (z.tryNew limit index o L) := by
  rw [Zx0State.tryNew]
  split
  · exact iteInduction (motive := Zx0Fills z)
      (fun _ => .allocate z _ (.refl _) (fills_set _ _ _) _ _) fun _ => .refl z
  · exact .refl z

end

/-- Match lengths and best lengths are not tables of nodes. -/
theorem Zx0Fills.withTables (z : Zx0State) (m b : List Nat) : Zx0Fills z { z with mlen := m, bestLen := b } :=
  ⟨.refl _, .refl _, .refl _⟩

theorem Zx0Fills.relax (z : Zx0State) (index count bls : Nat) (b : Option Int) :
    Zx0Fills z (z.relax index count bls b) := by
  induction count generalizing z bls b with
  | zero => exact .refl z
  | succ count ih => exact (Zx0Fills.withTables z z.mlen _).trans (ih _ _ _)

/-- Where the offset matches, what follows its last-offset copy only fills the tables further. -/
theorem Zx0Fills.tryOffset_match (x : List Byte) (limit index o bls : Nat) (z : Zx0State)
    (h : index ≠ 0 ∧ o ≤ index ∧ x[index]? = x[index - o]?) :
    Zx0Fills (z.tryRep index o) (Zx0State.tryOffset x limit index (z, bls) o).1 := by
  rw [Zx0State.tryOffset]
  simp only [if_pos h]
  generalize z.tryRep index o = z₁
  have hmlen := Zx0Fills.withTables z₁ (z₁.mlen.set o (z₁.mlen.getD o 0 + 1)) z₁.bestLen
  split
  · refine Zx0Fills.trans ?_ (.tryNew _ _ _ _ _)
    split
    · exact hmlen.trans (.relax _ _ _ _ _)
    · exact hmlen
  · exact hmlen

theorem Zx0State.tryOffset_literal_eq (x : List Byte) (limit index o bls : Nat) (z : Zx0State)
    (h : ¬ (index ≠ 0 ∧ o ≤ index ∧ x[index]? = x[index - o]?)) :
    (Zx0State.tryOffset x limit index (z, bls) o).1 = Zx0State.tryLit { z with mlen := z.mlen.set o 0 } index o := by
  rw [Zx0State.tryOffset]
  simp only [if_neg h]

theorem Zx0Fills.tryOffset (x : List Byte) (limit index : Nat) (zb : Zx0State × Nat) (o : Nat) :
    Zx0Fills zb.1 (Zx0State.tryOffset x limit index zb o).1 := by
  obtain ⟨z, bls⟩ := zb
  by_cases h : index ≠ 0 ∧ o ≤ index ∧ x[index]? = x[index - o]?
  · exact (Zx0Fills.tryRep z index o).trans (.tryOffset_match x limit index o bls z h)
  · rw [Zx0State.tryOffset_literal_eq x limit index o bls z h]
    exact (Zx0Fills.withTables z _ z.bestLen).trans (.tryLit _ _ _)

theorem Zx0Fills.foldl_tryOffset (x : List Byte) (limit index : Nat) (os : List Nat) (zb : Zx0State × Nat) :
    Zx0Fills zb.1 (os.foldl (Zx0State.tryOffset x limit index) zb).1 :=
  List.foldlRecOn os _ (motive := fun zb' => Zx0Fills zb.1 zb'.1) (.refl _)
    fun zb' h o _ => h.trans (.tryOffset x limit index zb' o)

/-! ### Offset 1 (R173) -/

/-- A link that is not `NULL` and leads to nodes of some kind has a node. -/
theorem Zx0State.nodeOf_of_ne_none {z : Zx0State} {link : Option Nat} {P : Node → Prop} (hne : link ≠ none)
    (h : ∀ j, link = some j → ∃ nd, z.node[j]? = some nd ∧ P nd) : ∃ nd, z.nodeOf link = some nd := by
  obtain ⟨j, rfl⟩ := Option.ne_none_iff_exists'.1 hne
  exact (h j rfl).imp fun _ hnd => hnd.1

section
variable {z : Zx0State} {index o : Nat} {nd : Node} (hindex : index < z.optimal.length)
include hindex

theorem Zx0State.tryRep_optimal (h : z.lit o = some nd) : (z.tryRep index o).optimal.getD index none ≠ none := by
  rw [Zx0State.tryRep, h]
  exact Zx0State.offer_optimal (by exact hindex) _ _

theorem Zx0State.tryLit_optimal (h : z.mat o = some nd) : (z.tryLit index o).optimal.getD index none ≠ none := by
  rw [Zx0State.tryLit, h]
  exact Zx0State.offer_optimal (by exact hindex) _ _

end

theorem Zx0State.tryLit_lit {z : Zx0State} {index o : Nat} {nd : Node} (h : z.mat o = some nd) (ho : o < z.lastLit.length) :
    (z.tryLit index o).lastLit.getD o none ≠ none := by
  rw [Zx0State.tryLit, h]
  exact (Zx0Fills.offer _ _ _ _).lit.keeps o (getD_set_some ho _)

/-- Offset 1 has had a match since the start, which is the start node, and a literal run since position 0. -/
structure Zx0Seeded (n i : Nat) (z : Zx0State) : Prop where
  litLength : 1 < z.lastLit.length
  optimalLength : z.optimal.length = n
  mat : z.lastMatch.getD 1 none ≠ none
  lit : i ≠ 0 → z.lastLit.getD 1 none ≠ none

theorem one_le_zx0Ceil {limit : Nat} (h1 : 1 ≤ limit) (i : Nat) : 1 ≤ zx0Ceil limit i := by
  rw [zx0Ceil]
  split_ifs <;> omega

theorem zx0Seeded_init {limit : Nat} (h1 : 1 ≤ limit) (n : Nat) : Zx0Seeded n 0 (Zx0State.init n limit) := by
  have hlen : 1 < zx0Ceil limit (n - 1) + 1 := Nat.lt_succ_of_le (one_le_zx0Ceil h1 (n - 1))
  exact ⟨by rw [Zx0State.init, List.length_replicate]; exact hlen, List.length_replicate,
    getD_set_some (by rw [List.length_replicate]; exact hlen) 0, fun h => absurd rfl h⟩

/-- Offset 1 gives the position a node, and has a literal run from then on (R173). -/
theorem Zx0Seeded.tryOffset_one {x : List Byte} {limit i n : Nat} {z : Zx0State} (h : Zx0Seeded n i z) (hi : i < n)
    (ht : Tracks x 1 i z) (bls : Nat) :
    (Zx0State.tryOffset x limit i (z, bls) 1).1.optimal.getD i none ≠ none ∧
      (Zx0State.tryOffset x limit i (z, bls) 1).1.lastLit.getD 1 none ≠ none := by
  have hindex : i < z.optimal.length := by rwa [h.optimalLength]
  by_cases hcond : i ≠ 0 ∧ 1 ≤ i ∧ x[i]? = x[i - 1]?
  · have hlit := h.lit hcond.1
    obtain ⟨nd, hnd⟩ := Zx0State.nodeOf_of_ne_none hlit ht.lit
    have hrest := Zx0Fills.tryOffset_match x limit i 1 bls z hcond
    exact ⟨hrest.optimal.keeps i (Zx0State.tryRep_optimal hindex hnd),
      hrest.lit.keeps 1 ((Zx0Fills.tryRep z i 1).lit.keeps 1 hlit)⟩
  · obtain ⟨nd, hnd⟩ := Zx0State.nodeOf_of_ne_none h.mat ht.mat
    rw [Zx0State.tryOffset_literal_eq x limit i 1 bls z hcond]
    exact ⟨Zx0State.tryLit_optimal hindex hnd,
      Zx0State.tryLit_lit (z := { z with mlen := z.mlen.set 1 0 }) hnd h.litLength⟩

/-- R173: after position `i` it has a node, and offset 1 is ready for the next. -/
theorem Zx0Seeded.scanAt {x : List Byte} {limit i n : Nat} {z : Zx0State} (h : Zx0Seeded n i z) (h1 : 1 ≤ limit)
    (hi : i < n) (ht : Tracks x 1 i z) :
    (z.scanAt x limit i).optimal.getD i none ≠ none ∧ Zx0Seeded n (i + 1) (z.scanAt x limit i) := by
  obtain ⟨m, hm⟩ := Nat.exists_eq_add_of_le' (one_le_zx0Ceil h1 i)
  rw [Zx0State.scanAt, hm, upTo, List.range'_succ, List.foldl_cons]
  obtain ⟨hnode, hlit⟩ := h.tryOffset_one (limit := limit) hi ht 2
  have hfirst := Zx0Fills.tryOffset x limit i (z, 2) 1
  generalize Zx0State.tryOffset x limit i (z, 2) 1 = zb at hnode hlit hfirst ⊢
  have hrest := Zx0Fills.foldl_tryOffset x limit i (List.range' (1 + 1) m) zb
  have hall := hfirst.trans hrest
  exact ⟨hrest.optimal.keeps i hnode, by rw [hall.lit.length]; exact h.litLength,
    hall.optimal.length.trans h.optimalLength, hall.mat.keeps 1 h.mat, fun _ => hrest.lit.keeps 1 hlit⟩

/-! ### The whole scan -/

theorem zx0Build_succ (x : List Byte) (limit i : Nat) :
    zx0Build x limit (i + 1) = (zx0Build x limit i).scanAt x limit i := by
  rw [zx0Build, List.range_succ, List.foldl_append]
  rfl

section
variable {x : List Byte} {limit : Nat} (h1 : 1 ≤ limit)
include h1

theorem zx0Build_scanned_seeded {i : Nat} (hi : i ≤ x.length) :
    Zx0Scanned x limit i (zx0Build x limit i) ∧ Zx0Seeded x.length i (zx0Build x limit i) := by
  induction i with
  | zero => exact ⟨zx0Scanned_init x limit, zx0Seeded_init h1 x.length⟩
  | succ i ih =>
    obtain ⟨hscanned, hseeded⟩ := ih (Nat.le_of_succ_le hi)
    rw [zx0Build_succ]
    exact ⟨hscanned.scanAt h1 hi, (hseeded.scanAt h1 hi (hscanned.tracks 1)).2⟩

theorem zx0Build_optimal {i : Nat} (hi : i < x.length) : (zx0Build x limit (i + 1)).optimal.getD i none ≠ none := by
  obtain ⟨hscanned, hseeded⟩ := zx0Build_scanned_seeded h1 (Nat.le_of_lt hi)
  rw [zx0Build_succ]
  exact (hseeded.scanAt h1 hi (hscanned.tracks 1)).1

/-- R174: the operations of the parse stand for the input. -/
theorem zx0Ops_stand (hx : x ≠ []) : Zx0Stand x false 0 (zx0Ops x (zx0Build x limit x.length)) := by
  have hlen : 1 ≤ x.length := List.length_pos_iff.2 hx
  have hlast := zx0Build_optimal h1 (x := x) (i := x.length - 1) (by omega)
  rw [Nat.sub_add_cancel hlen] at hlast
  exact (zx0Build_scanned_seeded h1 (Nat.le_refl x.length)).1.ops_stand hx hlast

end

/-- Settles O56: offset 1 gives every position a node, and links of `OPTIMAL` lead to nodes. -/
theorem zx0ParserAlwaysFindsANode : Obligations.Zx0ParserAlwaysFindsANode := by
  intro x limit index h1 hindex
  have hnode := zx0Build_optimal h1 hindex
  have hsound := (zx0Build_scanned_seeded h1 hindex).1.sound
  exact ⟨hnode, Option.isSome_iff_exists.2 (Zx0State.nodeOf_of_ne_none hnode (hsound.optimal index))⟩

/-! ### The operations (R14, R174) -/

/-- Operations that stand for the rest of the input give all of it. -/
theorem Zx0Stand.expand {x : List Byte} {r : Bool} {p : Nat} {ops : List Op} (h : Zx0Stand x r p ops) :
    expand (x.take p) ops = x := by
  induction h with
  | nil r => exact List.take_length
  | @run p bs ops hbytes _ ih =>
    have hrun : x.take p ++ bs = x.take (p + bs.length) := by
      have hbs : bs = (x.drop p).take bs.length := by
        refine List.ext_getElem? fun k => ?_
        by_cases hk : k < bs.length
        · rw [List.getElem?_take_of_lt hk, List.getElem?_drop, hbytes k hk]
        · rw [List.getElem?_eq_none (by omega), List.getElem?_eq_none (by rw [List.length_take]; omega)]
      rw [List.take_add, ← hbs]
    rw [Machine.expand, hrun, ih]
  | copy hcopies _ ih => rw [Machine.expand, copyBytes_take hcopies, ih]

/-- At the beginning there is nothing a copy could read, so a run stands there. -/
theorem Zx0Stand.run_of_start {x : List Byte} {r : Bool} {ops : List Op} (hx : x ≠ []) (h : Zx0Stand x r 0 ops) :
    r = false ∧ ∃ bs rest, ops = .run bs :: rest ∧ Zx0Stand x true bs.length rest := by
  generalize hp : 0 = p at h
  cases h with
  | nil => exact absurd (List.eq_nil_of_length_eq_zero hp.symm) hx
  | @run p bs rest _ hrest =>
    subst hp
    exact ⟨rfl, bs, rest, rfl, Nat.zero_add bs.length ▸ hrest⟩
  | copy hcopies =>
    have := hcopies.one_le.trans hcopies.le
    omega

/-- The first run is not empty: another run would stand after it, and no run follows a run. -/
theorem Zx0Stand.begins_with_run {x : List Byte} {ops : List Op} (hx : x ≠ []) (h : Zx0Stand x false 0 ops) :
    ∃ bs rest, ops = .run bs :: rest ∧ bs ≠ [] := by
  obtain ⟨-, bs, rest, rfl, hrest⟩ := h.run_of_start hx
  refine ⟨bs, rest, rfl, ?_⟩
  rintro rfl
  exact absurd (hrest.run_of_start hx).1 (by decide)

/-- Settles O57: the operations stand for the input. -/
theorem zx0ParseReproducesTheInput : Obligations.Zx0ParseReproducesTheInput := by
  intro x limit hx h1
  have hstand := zx0Ops_stand h1 hx
  exact ⟨hstand.begins_with_run hx, hstand.expand⟩

end Sys2Proof.Machine
end

section
/-! PROOFS. How the emission of a token fails (spec/44_packer.md R200, R210, R216; spec/60_exceptions.md R263): with `LIMIT` before
any call, or with `ALLOC`, since calls that all succeed make OBUF as long as the layout of the token's items. That holds of every
state, also of one whose mask or bit-group index no packer reaches: only lengths are compared, not the bytes. -/

namespace Sys2Proof.Machine

/-! ### Calls that succeed -/

theorem State.calls_cons_ok {s t : State} {c : Call} {cs : List Call} (h : s.calls (c :: cs) = .ok t) :
    ∃ u, s.call c = .ok u ∧ u.calls cs = .ok t := by
  rw [State.calls] at h
  split at h
  · cases h
  · next u hu => exact ⟨u, hu, h⟩

theorem State.calls_single_ok {s t : State} {c : Call} (h : s.calls [c] = .ok t) : s.call c = .ok t := by
  obtain ⟨u, hu, hnil⟩ := State.calls_cons_ok h
  cases hnil
  exact hu

/-- A bit that needs a bit-group byte has opened it, where it succeeds (R201). -/
theorem State.writeBit_open_ok {s t : State} {v : Bool} (hb : s.pk.backtrack = false) (h0 : s.pk.bitMask = 0)
    (h : s.writeBit v = .ok t) : t = s.openGroup.putBit v := by
  rw [State.writeBit, if_neg (Bool.eq_false_iff.1 hb), if_pos h0] at h
  split at h
  · cases h
  · next u hu =>
    cases h
    obtain ⟨-, rfl⟩ := State.writeByte_ok_iff.1 hu
    rfl

/-! ### Their stream is as long as the layout -/

theorem unusedBits_eq_zero_iff {m : Byte} : unusedBits m = 0 ↔ m = 0 := by simp [unusedBits]

/-- A bit written takes one free position (R201, R217). -/
theorem unusedBits_shiftRight_one (m : Byte) : unusedBits (m >>> 1) = unusedBits m - 1 := by
  revert m
  decide

/-- OBUF is as long as the layout, with as many free positions in its open bit-group byte, and no backtrack pends. -/
structure State.SizedAs (s : State) (l : Layout) : Prop where
  length : s.obuf.length = l.out.length
  free : unusedBits s.pk.bitMask = l.free
  backtrack : s.pk.backtrack = false

/-- Where the calls succeed, OBUF grows as the layout does with the items. -/
def CallsSize (cs : List Call) (items : List Item) : Prop :=
  ∀ (s t : State) (l : Layout), s.SizedAs l → s.calls cs = .ok t → t.SizedAs (items.foldl Layout.put l)

theorem CallsSize.nil : CallsSize [] [] := by
  intro s t l hs h
  cases h
  exact hs

theorem CallsSize.append {cs ds : List Call} {a b : List Item} (hc : CallsSize cs a) (hd : CallsSize ds b) :
    CallsSize (cs ++ ds) (a ++ b) := by
  intro s t l hs h
  rw [State.calls_append] at h
  split at h
  · cases h
  · next u hu =>
    rw [List.foldl_append]
    exact hd u t _ (hc s u l hs hu) h

theorem callsSize_byte (v : Byte) : CallsSize [.byte v] [.byte v] := by
  intro s t l ⟨hlen, hfree, hb⟩ h
  obtain ⟨-, rfl⟩ := State.writeByte_ok_iff.1 (State.calls_single_ok h)
  exact ⟨by simpa [Layout.put] using hlen, hfree, hb⟩

/-- `WriteBit` (R201) adds a byte exactly where the layout opens a bit group. -/
theorem callsSize_bit (v : Bool) : CallsSize [.bit v] [.bit v] := by
  intro s t l ⟨hlen, hfree, hb⟩ h
  have hwrite : s.writeBit v = .ok t := State.calls_single_ok h
  rw [List.foldl_cons, List.foldl_nil]
  by_cases h0 : s.pk.bitMask = 0
  · have hl0 : l.free = 0 := hfree.symm.trans (unusedBits_eq_zero_iff.2 h0)
    rw [State.writeBit_open_ok hb h0 hwrite, Layout.put_bit_open v hl0]
    refine ⟨?_, unusedBits_shiftRight_one 0x80, hb⟩
    rw [State.putBit_obuf_length, State.openGroup]
    simp [hlen]
  · have hl0 : l.free ≠ 0 := fun hl => h0 (unusedBits_eq_zero_iff.1 (hfree.trans hl))
    cases (State.writeBit_next hb h0 v).symm.trans hwrite
    rw [Layout.put_bit_next v hl0]
    refine ⟨?_, (unusedBits_shiftRight_one _).trans (congrArg (· - 1) hfree), hb⟩
    rw [State.putBit_obuf_length, hlen]
    cases v <;> simp

theorem callsSize_bits (bs : List Bool) : CallsSize (bitCalls bs) (bitItems bs) := by
  induction bs with
  | nil => exact .nil
  | cons b bs ih => exact (callsSize_bit b).append ih

theorem callsSize_bytes (bs : List Byte) : CallsSize (byteCalls bs) (bs.map .byte) := by
  induction bs with
  | nil => exact .nil
  | cons b bs ih => exact (callsSize_byte b).append ih

/-- R202: the bit behind `SetBacktrack` takes no position. -/
theorem callsSize_slot (v : Byte) (b : Bool) :
    CallsSize [.byte v, .backtrack, .bit b] [.byte (v ||| if b then 1 else 0)] := by
  intro s t l ⟨hlen, hfree, _⟩ h
  obtain ⟨u, hbyte, h⟩ := State.calls_cons_ok h
  obtain ⟨-, rfl⟩ := State.writeByte_ok_iff.1 hbyte
  obtain ⟨u, hback, h⟩ := State.calls_cons_ok h
  cases hback
  cases (State.writeBit_slot rfl b).symm.trans (State.calls_single_ok h)
  refine ⟨?_, hfree, rfl⟩
  cases b <;> simp [Layout.put, hlen]

/-! ### The tokens' calls -/

theorem callsSize_offShort (o : Nat) : CallsSize (writeOffShort o) (mlzOffShort o) :=
  (callsSize_bits [false]).append (callsSize_byte _)

theorem callsSize_offLong (o : Nat) : CallsSize (writeOffLong o) (mlzOffLong o) :=
  (callsSize_bits _).append (callsSize_byte _)

/-- An interlaced code's first bit, and the others. -/
theorem writeIGamma_eq_cons (pol : Polarity) (inv : Bool) (v : Nat) :
    writeIGamma pol inv v =
      .bit ((igammaBits pol inv v).head?.getD false) :: bitCalls (igammaBits pol inv v).tail := by
  rw [writeIGamma, igammaBits_eq_cons]
  rfl

/-- A copy from a new ZX0 offset (R209): the length's first bit goes to the slot. -/
theorem callsSize_zx0Cpy (f : Fmt) (o L : Nat) :
    CallsSize (.bit true :: writeIGamma f.pol f.inv (zx0Msb o) ++ [.byte (zx0Lsb f.pol o), .backtrack] ++
      writeIGamma f.pol false (L - 1)) (zx0CpyItems f o L) := by
  rw [List.append_assoc, writeIGamma_eq_cons _ _ (L - 1), zx0CpyItems, List.append_assoc]
  exact (callsSize_bits (true :: igammaBits f.pol f.inv (zx0Msb o))).append ((callsSize_slot _ _).append (callsSize_bits _))

/-- The calls, where they succeed from `s`, make OBUF as long as the stream with the items laid out after it. -/
def State.Sizes (s : State) (cs : List Call) (items : List Item) : Prop :=
  ∀ t, s.calls cs = .ok t → t.obuf.length = (items.foldl Layout.put (layoutOf s)).out.length

theorem CallsSize.sizes {cs : List Call} {items : List Item} (h : CallsSize cs items) {s : State}
    (hb : s.pk.backtrack = false) : s.Sizes cs items :=
  fun t ht => (h s t (layoutOf s) ⟨rfl, rfl, hb⟩ ht).length

/-- The bit dropped at the start of a ZX0 stream (R203) takes no position either. -/
theorem CallsSize.afterDroppedBit {cs : List Call} {items : List Item} (h : CallsSize cs items) {s : State}
    (hb : s.pk.backtrack = true) : s.Sizes (.bit false :: cs) items := by
  intro t ht
  have hdrop : s.call (.bit false) = .ok { s with pk := { s.pk with backtrack := false } } := State.writeBit_slot hb false
  have hsized : State.SizedAs { s with pk := { s.pk with backtrack := false } } (layoutOf s) := ⟨rfl, rfl, rfl⟩
  rw [State.calls_cons hdrop] at ht
  exact (h _ t _ hsized ht).length

/-- The token is emitted from `s` by calls that, where they succeed, make OBUF as long as the stream with it laid out. -/
def EmitsBySizedCalls (s : State) (i : Instr) : Prop :=
  ∃ cs post, exec i s = .next (s.emitThen cs post) ∧ s.Sizes cs (tokenItems s.fmt i)

section
variable {s : State} {i : Instr} (hp : s.phase = .emit)
include hp

/-- A copy token of ZX7 or MegaLZ is emitted behind the range check of R216, by calls for its items. -/
theorem exec_copyToken_emit {v : Variant} {o L : Nat} (hi : copyToken i = some (v, o, L)) (hv : s.variant = v) :
    ∃ cs post, exec i s = .next (s.emitCopy o L cs post) ∧ CallsSize cs (tokenItems s.fmt i) := by
  have hrun (u e : State → State) : s.runToken v u e = .next (e s) := s.runToken_emit v u e hv hp
  cases i with
  | zx7CpyS o L =>
    cases hi
    exact ⟨_, _, (hrun _ _ : execZx7CpyS o L s = _), (callsSize_bits (true :: gammaBits (L - 1))).append (callsSize_byte _)⟩
  | zx7CpyL o L =>
    cases hi
    exact ⟨_, _, (hrun _ _ : execZx7CpyL o L s = _),
      ((callsSize_bits (true :: gammaBits (L - 1))).append (callsSize_byte _)).append (callsSize_bits _)⟩
  | mlzCpy1 o => cases hi; exact ⟨_, _, (hrun _ _ : execMlzCpy1 o s = _), callsSize_bits _⟩
  | mlzCpy2 o => cases hi; exact ⟨_, _, (hrun _ _ : execMlzCpy2 o s = _), (callsSize_bits _).append (callsSize_byte _)⟩
  | mlzCpy3S o =>
    cases hi
    exact ⟨_, _, (hrun _ _ : execMlzCpy3S o s = _), (callsSize_bits _).append (callsSize_offShort o)⟩
  | mlzCpy3L o =>
    cases hi
    exact ⟨_, _, (hrun _ _ : execMlzCpy3L o s = _), (callsSize_bits _).append (callsSize_offLong o)⟩
  | mlzCpyNS o L =>
    cases hi
    exact ⟨_, _, (hrun _ _ : execMlzCpyNS o L s = _),
      (callsSize_bits ([false, true, true] ++ gammaBits (L - 3))).append (callsSize_offShort o)⟩
  | mlzCpyNL o L =>
    cases hi
    exact ⟨_, _, (hrun _ _ : execMlzCpyNL o L s = _),
      (callsSize_bits ([false, true, true] ++ gammaBits (L - 3))).append (callsSize_offLong o)⟩
  | _ => cases hi

theorem emitsBySizedCalls_copy {v : Variant} {o L : Nat} (hi : copyToken i = some (v, o, L)) (hv : some v = some s.variant)
    (hready : s.pk.backtrack = false ∧ copyInRange s.latch.mode o L = true) : EmitsBySizedCalls s i := by
  obtain ⟨cs, post, hexec, hsize⟩ := exec_copyToken_emit hp hi (Option.some.inj hv).symm
  obtain ⟨hb, hrange⟩ := hready
  exact ⟨cs, post, by rw [hexec, State.emitCopy, if_pos hrange], hsize.sizes hb⟩

/-- The range check of R216 comes before any call. -/
theorem exec_copyToken_limit {v : Variant} {o L : Nat} (hi : copyToken i = some (v, o, L)) (hv : s.variant = v)
    (h : copyInRange s.latch.mode o L = false) : exec i s = .next (s.raise .limit) := by
  obtain ⟨cs, post, hexec, -⟩ := exec_copyToken_emit hp hi hv
  rw [hexec, State.emitCopy, if_neg (Bool.eq_false_iff.1 h)]

/-- A ZX0 token the packer is ready for has passed its checks, and its calls are for its items (R207 to R211). -/
theorem emitsBySizedCalls_zx0 (hi : tokenVariant i = some .zx0) (hv : s.variant = .zx0) (hw : i.wellFormed = true)
    (hready : emitReady s i) : EmitsBySizedCalls s i := by
  obtain ⟨post, hexec⟩ := exec_zx0_emit hi hready hp hv hw
  refine ⟨_, post, hexec, ?_⟩
  cases i with
  | zx0Lit0 bs => exact ((callsSize_bits _).append (callsSize_bytes bs)).afterDroppedBit hready
  | zx0Lit bs => exact ((callsSize_bits (false :: igammaBits _ false bs.length)).append (callsSize_bytes bs)).sizes hready
  | zx0Rep L => exact (callsSize_bits (false :: igammaBits _ false L)).sizes hready.1
  | zx0Cpy o L => exact (callsSize_zx0Cpy s.fmt o L).sizes hready.1
  | zx0End => exact (callsSize_bits (true :: igammaBits _ _ 256)).sizes hready
  | _ => cases hi

/-- So for every token the packer is ready for (R205 to R214). -/
theorem emitsBySizedCalls (hi : tokenVariant i = some s.variant) (hw : i.wellFormed = true) (hready : emitReady s i) :
    EmitsBySizedCalls s i := by
  have hrun {v : Variant} (hv : some v = some s.variant) (u e : State → State) : s.runToken v u e = .next (e s) :=
    s.runToken_emit v u e (Option.some.inj hv).symm hp
  cases i with
  | compress | decompress => cases hi
  | zx0Lit0 | zx0Lit | zx0Rep | zx0Cpy | zx0End => exact emitsBySizedCalls_zx0 hp rfl (Option.some.inj hi).symm hw hready
  | zx7CpyS | zx7CpyL | mlzCpy1 | mlzCpy2 | mlzCpy3S | mlzCpy3L | mlzCpyNS | mlzCpyNL =>
    exact emitsBySizedCalls_copy hp rfl hi hready
  | zx7First b => exact ⟨_, _, (hrun hi _ _ : execZx7First b s = _), (callsSize_byte b).sizes hready⟩
  | zx7Lit b =>
    exact ⟨_, _, (hrun hi _ _ : execZx7Lit b s = _), ((callsSize_bit false).append (callsSize_byte b)).sizes hready⟩
  | zx7End => exact ⟨_, _, (hrun hi _ _ : execZx7End s = _), (callsSize_bits _).sizes hready⟩
  | mlzFirst b => exact ⟨_, _, (hrun hi _ _ : execMlzFirst b s = _), (callsSize_byte b).sizes hready⟩
  | mlzLit b =>
    exact ⟨_, _, (hrun hi _ _ : execMlzLit b s = _), ((callsSize_bit true).append (callsSize_byte b)).sizes hready⟩
  | mlzEnd => exact ⟨_, _, (hrun hi _ _ : execMlzEnd s = _), (callsSize_bits _).sizes hready⟩

end

/-- Calls whose stream would be too long for OBUF fail, and they fail with `ALLOC` alone (R200). -/
theorem State.emitThen_alloc {s : State} {cs : List Call} {items : List Item} (h : s.Sizes cs items)
    (hfits : s.obuf.length ≤ obufSize s.params)
    (hover : obufSize s.params < (items.foldl Layout.put (layoutOf s)).out.length) (post : State → State) :
    s.emitThen cs post = s.raise .alloc := by
  rw [State.emitThen]
  cases hcalls : s.calls cs with
  | ok t =>
    have htfits := (State.calls_packed hcalls).fits hfits
    rw [h t hcalls] at htfits
    exact absurd hover (Nat.not_lt.2 htfits)
  | error e =>
    cases State.calls_error hcalls
    rfl

/-- Settles O45: the checks of R210 and R216 come before any call, and a token too long for OBUF cannot have all its calls made. -/
theorem emissionFailsAsTheRulesSay : Obligations.EmissionFailsAsTheRulesSay := by
  intro s hp hd
  have fails {i : Instr} {e : ErrCode} (he : e ≠ .none) (h : exec i s = .next (s.raise e)) :
      ∃ t, exec i s = .next t ∧ failedFrom s t e := ⟨_, h, State.raise_failedFrom hd he⟩
  refine ⟨fun L hv hkind => ?_, fun o L hv hrange => ?_, fun i v o L hi hv hrange => ?_, fun i hi hw hready hfits hover => ?_⟩
  · exact fails (by decide) (exec_zx0Rep_limit hp hv fun h => hkind h.1)
  · exact fails (by decide) (exec_zx0Cpy_limit hp hv (Bool.eq_false_iff.1 hrange))
  · exact fails (by decide) (exec_copyToken_limit hp hi hv hrange)
  · obtain ⟨cs, post, hexec, hsizes⟩ := emitsBySizedCalls hp hi hw hready
    exact fails (by decide) (hexec.trans (congrArg _ (State.emitThen_alloc hsizes hfits hover post)))

end Sys2Proof.Machine
end

section
/-! PROOFS. Every token and every rejected stream in UNPACK (spec/45_unpacker.md R234 to R246): what a token that its operands and
the output's capacity allow leaves behind, how the others fail, and that HIST mirrors the output throughout. -/

namespace Sys2Proof.Machine

/-! ### Copies (R234) -/

/-- A copy whose bytes the output has room for succeeds, whatever HIST holds, and changes the output and HIST only. -/
theorem State.copyLoop_fits {s : State} {o L : Nat} (hfits : s.obuf.length + L ≤ s.capl) :
    ∃ t, s.copyLoop o L = .ok t ∧ t = { s with obuf := t.obuf, hist := t.hist } := by
  induction L generalizing s with
  | zero => exact ⟨s, rfl, rfl⟩
  | succ n ih =>
    have hout := (State.output_ok_iff s _ (s.history o)).2 ⟨by omega, rfl⟩
    obtain ⟨t, ht, hframe⟩ := ih (s := { s with
      obuf := s.obuf ++ [s.history o], hist := s.hist.write (s.obuf.length % Config.histSize) (s.history o) })
      (by rw [List.length_append, List.length_singleton]; exact (by omega : s.obuf.length + 1 + n ≤ s.capl))
    refine ⟨t, ?_, hframe⟩
    rw [State.copyLoop, hout]
    exact ht

section
variable {s : State} {o L : Nat} (h1 : 1 ≤ o) (ho : o ≤ s.obuf.length)
include h1 ho

theorem State.copy_fits (hfits : s.obuf.length + L ≤ s.capl) :
    ∃ t, s.copy o L = .ok t ∧ t = { s with obuf := t.obuf, hist := t.hist } := by
  rw [State.copy_eq_copyLoop s o L h1 ho]
  exact State.copyLoop_fits hfits

theorem State.copy_copiedFrom (hh : s.histOk) (hs : o ≤ Config.histSize) (hfits : s.obuf.length + L ≤ s.capl) :
    ∃ t, s.copy o L = .ok t ∧ copiedFrom s t o L := by
  rw [State.copy_eq_copyLoop s o L h1 ho]
  exact State.copyLoop_ok o L s hh h1 ho hs hfits

theorem State.copy_alloc (hstart : s.obuf.length ≤ s.capl) (hfull : s.capl < s.obuf.length + L) :
    s.copy o L = .error .alloc := by
  rw [State.copy_eq_copyLoop s o L h1 ho]
  exact State.copyLoop_error o L s hstart hfull

end

/-! ### The copy tokens of ZX7 and MegaLZ (R237, R239) -/

/-- Every offset of an encoding lies within HIST (R84, R89). -/
theorem copyToken_offset {i : Instr} {v : Variant} {o L : Nat} (hi : copyToken i = some (v, o, L))
    (hw : i.wellFormed = true) : 1 ≤ o ∧ o ≤ Config.histSize := by
  suffices h : 1 ≤ o ∧ o ≤ 4352 from ⟨h.1, h.2.trans (by decide)⟩
  cases i with
  | zx7CpyS => cases hi; have := wellFormed_zx7CpyS.1 hw; omega
  | zx7CpyL => cases hi; have := wellFormed_zx7CpyL.1 hw; omega
  | mlzCpy1 => cases hi; have := wellFormed_mlzCpy1.1 hw; omega
  | mlzCpy2 => cases hi; have := wellFormed_mlzCpy2.1 hw; omega
  | mlzCpy3S => cases hi; have := wellFormed_mlzCpy3S.1 hw; omega
  | mlzCpy3L => cases hi; have := wellFormed_mlzCpy3L.1 hw; omega
  | mlzCpyNS => cases hi; have := wellFormed_mlzCpyNS.1 hw; omega
  | mlzCpyNL => cases hi; have := wellFormed_mlzCpyNL.1 hw; omega
  | _ => cases hi

theorem exec_copyToken_unpack {s : State} (hp : s.phase = .unpack) {i : Instr} {v : Variant} {o L : Nat}
    (hi : copyToken i = some (v, o, L)) (hv : s.variant = v) : exec i s = .next (settle s (s.copy o L)) := by
  have hrun (u e : State → State) : s.runToken v u e = .next (u s) := s.runToken_unpack _ u e hv hp
  cases i with
  | zx7CpyS o L => cases hi; exact (hrun _ _ : execZx7CpyS o L s = _)
  | zx7CpyL o L => cases hi; exact (hrun _ _ : execZx7CpyL o L s = _)
  | mlzCpy1 o => cases hi; exact (hrun _ _ : execMlzCpy1 o s = _)
  | mlzCpy2 o => cases hi; exact (hrun _ _ : execMlzCpy2 o s = _)
  | mlzCpy3S o => cases hi; exact (hrun _ _ : execMlzCpy3S o s = _)
  | mlzCpy3L o => cases hi; exact (hrun _ _ : execMlzCpy3L o s = _)
  | mlzCpyNS o L => cases hi; exact (hrun _ _ : execMlzCpyNS o L s = _)
  | mlzCpyNL o L => cases hi; exact (hrun _ _ : execMlzCpyNL o L s = _)
  | _ => cases hi

/-- Settles O37: every copy token runs `Copy(o, L)`, and its offset is one that HIST still holds. -/
theorem copyTokensRepeatTheOutput : Obligations.CopyTokensRepeatTheOutput := by
  intro s i v o L hi hw hp hv hh ho hfits
  obtain ⟨h1, hs⟩ := copyToken_offset hi hw
  obtain ⟨t, ht, hcopied⟩ := State.copy_copiedFrom h1 ho hh hs hfits
  exact ⟨t, by rw [exec_copyToken_unpack hp hi hv, ht, settle_ok], hcopied⟩

/-- Settles O38: the offset is tested before any byte is output, the capacity at each byte. -/
theorem copyTokensFailAsTheRulesSay : Obligations.CopyTokensFailAsTheRulesSay := by
  intro s i v o L hi hw hp hv hd hstart
  have fails {e : ErrCode} (he : e ≠ .none) (h : s.copy o L = .error e) : ∃ t, exec i s = .next t ∧ failedFrom s t e :=
    ⟨_, by rw [exec_copyToken_unpack hp hi hv, h, settle_error], State.raise_failedFrom hd he⟩
  refine ⟨fun hbeyond => ?_, fun ho hfull => ?_⟩
  · exact fails (by decide) (s.copy_invalid o L (.inr hbeyond))
  · exact fails (by decide) (State.copy_alloc (copyToken_offset hi hw).1 ho hstart hfull)

/-! ### FIRST, LIT and END (R237, R239, R245) -/

section
variable {s : State} (hp : s.phase = .unpack) {v : Variant} (hv : s.variant = v) {b : Byte} {i : Instr}
include hp hv

theorem exec_first_unpack (hi : byteToken v (.first b) = some i) (hroom : s.obuf.length < s.capl) :
    exec i s = .next { s with
      obuf := s.obuf ++ [b], hist := s.hist.write (s.obuf.length % 65536) b, up := { s.up with dstate := .readToken } } := by
  rw [exec_byteToken hi hp hv, opEffect, (State.output_ok_iff s _ b).2 ⟨hroom, rfl⟩]
  rfl

theorem exec_lit_unpack (hi : byteToken v (.lit b) = some i) (hroom : s.obuf.length < s.capl) :
    exec i s = .next { s with obuf := s.obuf ++ [b], hist := s.hist.write (s.obuf.length % 65536) b } := by
  rw [exec_byteToken hi hp hv, opEffect, (State.output_ok_iff s _ b).2 ⟨hroom, rfl⟩]
  rfl

theorem exec_literal_alloc (hi : byteToken v (.first b) = some i ∨ byteToken v (.lit b) = some i)
    (hfull : s.capl ≤ s.obuf.length) : exec i s = .next (s.raise .alloc) := by
  have hout : s.output b = .error .alloc := (State.output_error_iff s b .alloc).2 ⟨hfull, rfl⟩
  obtain hi | hi := hi <;> rw [exec_byteToken hi hp hv, opEffect, hout] <;> rfl

end

/-- Settles O36: by `Output(b)` (R235), in both formats. -/
theorem literalTokensOutputTheirByte : Obligations.LiteralTokensOutputTheirByte := by
  intro s b hp
  refine ⟨fun hroom hv => ⟨?_, ?_⟩, fun hroom hv => ⟨?_, ?_⟩, fun hfull hv => ⟨?_, ?_⟩, fun hfull hv => ⟨?_, ?_⟩⟩
  · exact exec_first_unpack hp hv rfl hroom
  · exact exec_lit_unpack hp hv rfl hroom
  · exact exec_first_unpack hp hv rfl hroom
  · exact exec_lit_unpack hp hv rfl hroom
  · exact exec_literal_alloc hp hv (.inl rfl) hfull
  · exact exec_literal_alloc hp hv (.inr rfl) hfull
  · exact exec_literal_alloc hp hv (.inl rfl) hfull
  · exact exec_literal_alloc hp hv (.inr rfl) hfull

theorem State.unpackEnd_of_decompressing {s : State} (hcomp : s.compressing = false) :
    s.unpackEnd = { s with
      up := { s.up with dstate := .done }
      phase := if s.latch.mode = 1 ∨ s.latch.mode = 3 ∨ s.latch.mode = 5 then .reverseOut else .writeback } := by
  have hc : (s.goto .done).compressing = false := hcomp
  simp only [State.unpackEnd, State.afterBody, hc, State.reversed_iff]
  rfl

/-- Settles O42: END's step, and the REVERSE-OUT step of a DECOMPRESS. -/
theorem endTokensEndUnpacking : Obligations.EndTokensEndUnpacking := by
  intro s hp hcomp
  refine ⟨fun i hi => ?_, ?_⟩
  · have hend : i = endToken s.variant := by obtain ⟨hv, rfl⟩ | ⟨hv, rfl⟩ | ⟨hv, rfl⟩ := hi <;> (rw [hv]; rfl)
    rw [hend, exec_endToken hp, State.unpackEnd_of_decompressing hcomp]
  · have hc : State.compressing { s with phase := .reverseOut } = false := hcomp
    rw [stepEngine_reverseOut rfl, hc]
    rfl

/-! ### ZX0 tokens and their indicator (R238) -/

theorem State.zx0Next_of_read {s : State} {ind : Bool} {c : Cursor} (h : readBit s.image s.up.cur = .ok (ind, c))
    (afterRun : Bool) : s.zx0Next afterRun = .ok ((s.withCursor c).goto (zx0StateAfter afterRun ind)) := by
  rw [State.zx0Next, h]

theorem State.zx0Next_of_missing {s : State} {e : DecodeError} (h : readBit s.image s.up.cur = .error e)
    (afterRun : Bool) : s.zx0Next afterRun = .error .invalid := by
  rw [State.zx0Next, h]

section
variable {s : State} (hp : s.phase = .unpack) (hv : s.variant = .zx0) {i : Instr} (hi : tokenVariant i = some .zx0)
  (hend : isEnd i = false)
include hp hv hi hend

theorem exec_zx0_raise {e : ErrCode} (heff : zx0Effect s i = .error e) : exec i s = .next (s.raise e) := by
  rw [exec_zx0_unpack hp hv hi hend, heff]
  rfl

/-- The operation done, the token leaves the read position alone until it reads the indicator there. -/
theorem exec_zx0_next {t : State} (heff : zx0Effect s i = .ok t) {up : Unpacker} (hcur : up.cur = s.up.cur)
    (hframe : t = { s with obuf := t.obuf, hist := t.hist, up := up }) {ind : Bool} {c : Cursor}
    (hread : readBit s.image s.up.cur = .ok (ind, c)) :
    exec i s = .next { t with up := { up with cur := c, dstate := zx0StateAfter (zx0IsRun i) ind } } := by
  have ht : readBit t.image t.up.cur = .ok (ind, c) := by rw [hframe, ← hread, ← hcur]
  have hup : t.up = up := by rw [hframe]
  rw [exec_zx0_unpack hp hv hi hend, heff, State.zx0Then, State.zx0Next_of_read ht, settle_ok, ← hup]
  rfl

theorem exec_zx0_missing {t : State} (heff : zx0Effect s i = .ok t) {up : Unpacker} (hcur : up.cur = s.up.cur)
    (hframe : t = { s with obuf := t.obuf, hist := t.hist, up := up }) {e : DecodeError}
    (hread : readBit s.image s.up.cur = .error e) : exec i s = .next (s.raise .invalid) := by
  have ht : readBit t.image t.up.cur = .error e := by rw [hframe, ← hread, ← hcur]
  rw [exec_zx0_unpack hp hv hi hend, heff, State.zx0Then, State.zx0Next_of_missing ht, settle_error]

end

/-- LIT0 and LIT differ in the indicator before them alone (R86), which is read by then. -/
theorem exec_zx0Lit0_eq_zx0Lit (bs : List Byte) (s : State) : exec (.zx0Lit0 bs) s = exec (.zx0Lit bs) s := rfl

/-- REP is the copy from the last offset. -/
theorem exec_zx0Rep_eq_zx0Cpy {s : State} (hp : s.phase = .unpack) (hv : s.variant = .zx0) (L : Nat) :
    exec (.zx0Rep L) s = exec (.zx0Cpy s.up.lastOffset L) s := by
  rw [exec_zx0_unpack hp hv rfl rfl, exec_zx0_unpack hp hv rfl rfl]
  rfl

/-- Settles O39: the run's bytes, then the indicator. -/
theorem zx0RunsOutputTheirBytes : Obligations.Zx0RunsOutputTheirBytes := by
  intro s bs ind c hp hv hh hfits hread
  obtain ⟨u, hu, hframe, hhist⟩ := State.outputAll_ok bs s hfits
  have hexec := exec_zx0_next hp hv (i := .zx0Lit bs) rfl rfl hu (up := s.up) rfl (by rw [hframe]) hread
  refine ⟨_, hexec, hexec, ?_, hhist hh⟩
  rw [hframe]
  rfl

/-- Settles O40: CPY is the copy after `LAST_OFFSET <- o`, and REP is CPY from the last offset. -/
theorem zx0CopiesRepeatTheOutput : Obligations.Zx0CopiesRepeatTheOutput := by
  intro s o L ind c hp hv hh h1 hlim ho hfits hread
  obtain ⟨u, hu, hframe, hlen, hkeep, hnew, hhist⟩ :=
    State.copy_copiedFrom (s := s.setUnpackOffset o) h1 ho hh (hlim.trans (by decide)) hfits
  have hcpy := exec_zx0_next hp hv (i := .zx0Cpy o L) rfl rfl hu (up := { s.up with lastOffset := o }) rfl
    (by rw [hframe]; rfl) hread
  rw [hframe] at hcpy
  refine ⟨{ s with obuf := u.obuf, hist := u.hist }, ⟨rfl, hlen, hkeep, hnew, hhist⟩, hcpy, fun hlast => ?_⟩
  rw [exec_zx0Rep_eq_zx0Cpy hp hv, hlast]
  exact hcpy

/-! ### How ZX0 tokens fail (R234, R235, R238, R246) -/

section
variable {s : State} (hp : s.phase = .unpack) (hv : s.variant = .zx0)
include hp hv

theorem exec_zx0Lit_missing {bs : List Byte} {e : DecodeError} (hread : readBit s.image s.up.cur = .error e)
    (hfits : s.obuf.length + bs.length ≤ s.capl) : exec (.zx0Lit bs) s = .next (s.raise .invalid) := by
  obtain ⟨u, hu, hframe, -⟩ := State.outputAll_ok bs s hfits
  exact exec_zx0_missing hp hv rfl rfl hu (up := s.up) rfl (by rw [hframe]) hread

theorem exec_zx0Lit_alloc {bs : List Byte} (hstart : s.obuf.length ≤ s.capl) (hfull : s.capl < s.obuf.length + bs.length) :
    exec (.zx0Lit bs) s = .next (s.raise .alloc) :=
  exec_zx0_raise hp hv rfl rfl (State.outputAll_error bs s hstart hfull)

theorem exec_zx0Cpy_missing {o L : Nat} {e : DecodeError} (hread : readBit s.image s.up.cur = .error e) (h1 : 1 ≤ o)
    (ho : o ≤ s.obuf.length) (hfits : s.obuf.length + L ≤ s.capl) :
    exec (.zx0Cpy o L) s = .next (s.raise .invalid) := by
  obtain ⟨u, hu, hframe⟩ := State.copy_fits (s := s.setUnpackOffset o) h1 ho hfits
  exact exec_zx0_missing hp hv rfl rfl hu (up := { s.up with lastOffset := o }) rfl (by rw [hframe]; rfl) hread

theorem exec_zx0Cpy_alloc {o L : Nat} (h1 : 1 ≤ o) (ho : o ≤ s.obuf.length) (hstart : s.obuf.length ≤ s.capl)
    (hfull : s.capl < s.obuf.length + L) : exec (.zx0Cpy o L) s = .next (s.raise .alloc) :=
  exec_zx0_raise hp hv rfl rfl (State.copy_alloc (s := s.setUnpackOffset o) h1 ho hstart hfull)

theorem exec_zx0Cpy_invalid {o : Nat} (L : Nat) (h : o < 1 ∨ s.obuf.length < o) :
    exec (.zx0Cpy o L) s = .next (s.raise .invalid) :=
  exec_zx0_raise hp hv rfl rfl ((s.setUnpackOffset o).copy_invalid o L h)

end

/-- Settles O41: each failure of a run and of CPY; LIT0 and REP run as they do. -/
theorem zx0TokensFailAsTheRulesSay : Obligations.Zx0TokensFailAsTheRulesSay := by
  intro s e hp hv hd hstart
  have raised {e : ErrCode} (he : e ≠ .none) : failedFrom s (s.raise e) e := State.raise_failedFrom hd he
  have hrep (L : Nat) : exec (.zx0Rep L) s = exec (.zx0Cpy s.up.lastOffset L) s := exec_zx0Rep_eq_zx0Cpy hp hv L
  refine ⟨fun bs hread hfits => ?_, fun bs hfull => ?_, fun o L hread h1 ho hfits => ?_, fun L hread h1 ho hfits => ?_,
    fun o L h1 ho hfull => ?_, fun L h1 ho hfull => ?_, fun o L h => ?_, fun L h => ?_⟩
  · have hexec := exec_zx0Lit_missing hp hv hread hfits
    exact ⟨_, hexec, hexec, raised (by decide)⟩
  · have hexec := exec_zx0Lit_alloc hp hv hstart hfull
    exact ⟨_, hexec, hexec, raised (by decide)⟩
  · exact ⟨_, exec_zx0Cpy_missing hp hv hread h1 ho hfits, raised (by decide)⟩
  · exact ⟨_, (hrep L).trans (exec_zx0Cpy_missing hp hv hread h1 ho hfits), raised (by decide)⟩
  · exact ⟨_, exec_zx0Cpy_alloc hp hv h1 ho hstart hfull, raised (by decide)⟩
  · exact ⟨_, (hrep L).trans (exec_zx0Cpy_alloc hp hv h1 ho hstart hfull), raised (by decide)⟩
  · exact ⟨_, exec_zx0Cpy_invalid hp hv L h, raised (by decide)⟩
  · exact ⟨_, (hrep L).trans (exec_zx0Cpy_invalid hp hv L h), raised (by decide)⟩

/-! ### Rejected streams (R238, R246, R267) -/

theorem State.rejectStream_of_not_run (s : State) {e : DecodeError} (h : ∀ bs, e ≠ .prematureRun bs) :
    s.rejectStream e = s.raise .invalid := by
  cases e with
  | prematureRun bs => exact absurd rfl (h bs)
  | prematureEnd | zx7PrefixTooLong | gammaTooLong | msbAbove256 | mlzLengthAbove255 | stateReadsNothing => rfl

/-- A run cut short fails with what its bytes before the end meet first. -/
theorem State.rejectStream_run {s : State} (hstart : s.obuf.length ≤ s.capl) (bs : List Byte) :
    s.rejectStream (.prematureRun bs) =
      s.raise (if s.obuf.length + bs.length ≤ s.capl then .invalid else .alloc) := by
  rw [State.rejectStream]
  split_ifs with hfits
  · obtain ⟨t, ht, -⟩ := State.outputAll_ok bs s hfits
    rw [ht, settle_error]
  · rw [State.outputAll_error bs s hstart (Nat.lt_of_not_le hfits), settle_error]

/-- Settles O35: the step that meets the error rejects the stream. -/
theorem rejectedStreamsEndTheCommand : Obligations.RejectedStreamsEndTheCommand := by
  intro s e hin hp hd hdec
  have hstep : step s = .next (s.rejectStream e) := by
    rw [step_of_no_input s hin, stepEngine_unpack hp, State.unpackStep, hdec]
  refine ⟨fun hne => ?_, fun bs he hstart => ?_⟩
  · rw [State.rejectStream_of_not_run s hne] at hstep
    exact ⟨_, hstep, State.raise_failedFrom hd (by decide)⟩
  · rw [he, State.rejectStream_run hstart] at hstep
    exact ⟨_, hstep, State.raise_failedFrom hd (by split_ifs <;> decide)⟩

/-! ### HIST (R233, R234) -/

/-- Whether HIST mirrors the output depends on the two alone. -/
theorem State.histOk_congr {s t : State} (hobuf : t.obuf = s.obuf) (hhist : t.hist = s.hist) (h : s.histOk) : t.histOk := by
  rw [State.histOk, hobuf, hhist]
  exact h

theorem State.outputAll_histOk {bs : List Byte} {s t : State} (hs : s.histOk) (h : s.outputAll bs = .ok t) : t.histOk := by
  induction bs generalizing s with
  | nil => cases h; exact hs
  | cons b bs ih =>
    rw [State.outputAll] at h
    split at h
    · cases h
    · next u hu => exact ih (State.output_histOk s u b hu hs) h

/-- A copy keeps the mirror whatever bytes it reads: each of them goes to both. -/
theorem State.copyLoop_histOk {o n : Nat} {s t : State} (hs : s.histOk) (h : s.copyLoop o n = .ok t) : t.histOk := by
  induction n generalizing s with
  | zero => cases h; exact hs
  | succ n ih =>
    rw [State.copyLoop] at h
    split at h
    · cases h
    · next u hu => exact ih (State.output_histOk s u _ hu hs) h

theorem State.copy_histOk {o L : Nat} {s t : State} (hs : s.histOk) (h : s.copy o L = .ok t) : t.histOk := by
  rw [State.copy] at h
  split at h
  · cases h
  · exact State.copyLoop_histOk hs h

theorem State.thenGoto_histOk {r : Except ErrCode State} (hr : ∀ u, r = .ok u → u.histOk) {st : DState} {t : State}
    (h : State.thenGoto st r = .ok t) : t.histOk := by
  cases r with
  | error e => cases h
  | ok u => cases h; exact hr u rfl

theorem State.zx0Then_histOk {r : Except ErrCode State} (hr : ∀ u, r = .ok u → u.histOk) {afterRun : Bool} {t : State}
    (h : State.zx0Then afterRun r = .ok t) : t.histOk := by
  cases r with
  | error e => cases h
  | ok u =>
    rw [State.zx0Then, State.zx0Next] at h
    split at h
    · cases h
    · cases h; exact hr u rfl

theorem State.raise_histOk {s : State} (hs : s.histOk) (e : ErrCode) : (s.raise e).histOk :=
  State.histOk_congr (s.finish_obuf e 0 0 0) (s.finish_hist e 0 0 0) hs

theorem settle_histOk {s : State} (hs : s.histOk) {r : Except ErrCode State} (hr : ∀ t, r = .ok t → t.histOk) :
    (settle s r).histOk := by
  obtain ⟨t, hrt, ht⟩ | ⟨e, -, he⟩ := settle_cases s r
  · rw [ht]; exact hr t hrt
  · rw [he]; exact State.raise_histOk hs e

/-- Every token's effect keeps the mirror, also where the token fails or ends UNPACK. -/
theorem UnpackEffect.histOk {v : Variant} {u : State → State} (hu : UnpackEffect v u) {s : State} (hs : s.histOk) :
    (u s).histOk := by
  cases hu with
  | ends => exact hs
  | first b => exact settle_histOk hs fun _ => State.thenGoto_histOk fun t ht => State.output_histOk s t b ht hs
  | literal b => exact settle_histOk hs fun t ht => State.output_histOk s t b ht hs
  | copy o L => exact settle_histOk hs fun _ => State.copy_histOk hs
  | run bs => exact settle_histOk hs fun _ => State.zx0Then_histOk fun _ => State.outputAll_histOk hs
  | repCopy L => exact settle_histOk hs fun _ => State.zx0Then_histOk fun _ => State.copy_histOk hs
  | newCopy o L =>
    exact settle_histOk hs fun _ => State.zx0Then_histOk fun _ => State.copy_histOk (s := s.setUnpackOffset o) hs

theorem State.unpackStep_histOk {s t : State} (hp : s.phase = .unpack) (hs : s.histOk) (h : s.unpackStep = .next t) :
    t.histOk := by
  rw [State.unpackStep] at h
  split at h
  · next i c hc =>
    obtain ⟨u, e, hu, -, hexec⟩ := exec_token (decode_tokenVariant hc)
    rw [hexec] at h
    obtain ⟨-, ⟨-, rfl⟩ | ⟨hp', -⟩⟩ := State.runToken_next _ _ _ _ _ h
    · exact hu.histOk (s := s.withCursor c) hs
    · exact absurd (hp.symm.trans hp') (by decide)
  · next err _ =>
    obtain ⟨e, he⟩ := s.rejectStream_eq_raise err
    cases h
    rw [he]
    exact State.raise_histOk hs e

/-- An empty output is mirrored by any HIST (R233). -/
theorem State.histOk_of_nil {s : State} (hw : s.hist.wf) (h : s.obuf = []) : s.histOk := by
  refine ⟨hw, fun k hk => ?_⟩
  rw [h] at hk
  exact absurd hk (Nat.not_lt_zero k)

/-- Settles O43: each output byte enters both (R234), and CHECK leaves no output. -/
theorem historyMirrorsTheOutput : Obligations.HistoryMirrorsTheOutput := by
  refine ⟨fun s t hp hs h _ => ?_, fun s t hp hw h hbody => ?_⟩
  · rw [stepEngine_unpack hp] at h
    exact State.unpackStep_histOk hp hs h
  · rw [stepEngine_check hp] at h
    cases h
    cases hcheck : s.checkError with
    | some e =>
      rw [checkStep_refused hcheck, State.raise, State.finish_phase] at hbody
      exact absurd hbody (by decide)
    | none =>
      rw [State.checkStep_passed hcheck]
      exact State.histOk_of_nil hw rfl

end Sys2Proof.Machine
end

section
/-! PROOFS. Errors, completion and the interrupt (spec/60_exceptions.md R260, R266, R270): no input and no phase of the engine stops
the machine, the code `STATUS` reads at the end of a command, and what raises and lowers `irq`. -/

namespace Sys2Proof.Machine

/-! ### No trap (R266) -/

/-- A token of the running variant has its effect where the engine unpacks or emits: the one fault is not raised there (log 18). -/
theorem exec_token_next {i : Instr} {s : State} (hi : tokenVariant i = some s.variant)
    (hp : s.phase = .unpack ∨ s.phase = .emit) : ∃ t, exec i s = .next t := by
  obtain ⟨u, e, -, -, hexec⟩ := exec_token hi
  rw [hexec]
  obtain hp | hp := hp
  · exact ⟨_, s.runToken_unpack _ u e rfl hp⟩
  · exact ⟨_, s.runToken_emit _ u e rfl hp⟩

/-- Whatever the stream holds, the token decoded is of the running variant, or the stream is rejected (R236, R246). -/
theorem State.unpackStep_next {s : State} (hp : s.phase = .unpack) : ∃ t, s.unpackStep = .next t := by
  rw [State.unpackStep]
  split
  · next i c hc => exact exec_token_next (s := s.withCursor c) (decode_tokenVariant hc) (.inl hp)
  · exact ⟨_, rfl⟩

/-- Whatever the operation, the packer's token is of the running variant, or there is none (R263). -/
theorem State.emitStep_next {s : State} (hp : s.phase = .emit) : ∃ t, s.emitStep = .next t := by
  rw [State.emitStep]
  split
  · next i hi =>
    have hvar : tokenVariant i = some s.popOp.variant := State.nextToken_tokenVariant (s := s) hi
    exact exec_token_next hvar (.inr hp)
  · exact ⟨_, rfl⟩

/-- Only the two phases that run tokens could stop the engine, and neither does. -/
theorem stepEngine_next (s : State) : ∃ t, stepEngine s = .next t := by
  cases hp : s.phase with
  | emit => rw [stepEngine_emit hp]; exact State.emitStep_next hp
  | unpack => rw [stepEngine_unpack hp]; exact State.unpackStep_next hp
  | idle | check | reverseIn | parse | reverseOut | capacity | writeback | complete =>
    rw [stepEngine, hp]; exact ⟨_, rfl⟩

theorem stepInput_next (i : Input) (s : State) : ∃ t, stepInput i s = .next t := by
  cases i with
  | engine => exact stepEngine_next s
  | store w a d =>
    cases hw : s.inWindow a with
    | true => exact ⟨_, stepStore_inWindow hw w d⟩
    | false => exact ⟨_, stepStore_outside hw w d⟩
  | load w a | rst => exact ⟨_, rfl⟩

/-- Settles O18: an input and the engine each answer a next state. -/
theorem stepAlwaysAnswersNext : Obligations.StepAlwaysAnswersNext := by
  intro s
  cases hin : s.inputs with
  | nil => rw [step_of_no_input s hin]; exact stepEngine_next s
  | cons i rest => rw [step_of_input s i rest hin]; exact stepInput_next i _

/-! ### `STATUS` at the end of a command (R35, R260) -/

/-- `DONE`, `ERR` for a code other than 0, and the code in bits 10:8. -/
theorem statusRead_completedCsr (c : Csr) (e : ErrCode) (result consumed bits : Word) :
    statusRead (completedCsr c e result consumed bits) =
      (errBits e).zeroExtend 32 <<< 8 ||| if e = .none then 0x2 else 0x6 := by
  simp only [statusRead, completedCsr]
  cases e <;> decide

/-- What the host reads of the end of a command whose buffers were left alone. -/
theorem State.finish_readStatus {s : State} (hd : s.dutyBroken = false) (e : ErrCode) (result consumed bits : Word) :
    (s.finish e result consumed bits).readReg 0x08 =
      (errBits e).zeroExtend 32 <<< 8 ||| if e = .none then 0x2 else 0x6 := by
  rw [State.finish_of_duty _ _ _ _ _ hd]
  exact statusRead_completedCsr _ _ _ _ _

/-- Settles O11: the word read at the end for each code, and every end reports one of the five codes. -/
theorem errorCodesInStatus : Obligations.ErrorCodesInStatus := by
  intro s hd
  have hread := State.finish_readStatus hd
  refine ⟨hread .alloc 0 0 0, hread .invalid 0 0 0, hread .limit 0 0 0, hread .illegal 0 0 0, hread .none, fun t e r c b => ?_⟩
  obtain ⟨e', r', c', b', hcsr⟩ := t.finish_csr e r c b
  rw [hcsr]
  exact errBits_le e'

/-! ### The interrupt (R270) -/

/-- A completion sets `DONE`, so `irq` is then `IE`. -/
theorem State.finish_irq (s : State) (e : ErrCode) (r c b : Word) : (s.finish e r c b).irq = s.csr.ie := by
  obtain ⟨-, hdone, -, hie⟩ := s.finish_status e r c b
  rw [State.irq, hdone, hie, Bool.true_and]

/-- A register store to an idle block moves `irq` by the acknowledge or by `IE`. -/
theorem State.writeReg_irq {s : State} (hb : s.csr.busy = false) (off : Nat) (d : Word) :
    (s.writeReg off d).irq =
      ((if off = 0x08 ∧ d.getLsbD 1 = true then false else s.csr.done) &&
        if off = 0x0C then d.getLsbD 0 else s.csr.ie) := by
  rw [State.writeReg_eq hb, State.irq]

/-- Settles O12: the level by its definition, its rise at a completion and its moves by register stores. START clears `DONE`. -/
theorem interruptFollowsDoneAndEnable : Obligations.InterruptFollowsDoneAndEnable := by
  refine ⟨fun _ => rfl, State.finish_irq, fun s d hb hdone hie => ?_, fun s d hb hack => ?_, fun _ _ _ => rfl⟩
  · simp [State.writeReg_irq hb, hdone, hie]
  · simp [State.writeReg_irq hb, hack]

end Sys2Proof.Machine
end

section
/-! PROOFS. Reset and a broken host duty (spec/70_reset_and_hazards.md R290, R291, R295): the invariant at reset, what a reset
leaves of host memory, and what a store to a running command's buffers comes to. -/

namespace Sys2Proof.Machine

/-! ### Reset (R290, R291) -/

/-- Settles O16, part by part: an idle block with its registers, its memories and its packer as they are made. -/
theorem invariantAtReset : Obligations.InvariantAtReset := by
  intro p
  have hcsr : (State.resetOf p).csr = Csr.reset := rfl
  have hidle : (State.resetOf p).phase = .idle := rfl
  refine ⟨?_, ?_, ?_, ?_, ?_, ⟨State.reset_mem_wf p, Memory.wf_nil, ?_⟩, ?_, Packer.start_packerOk (v := .zx7) rfl, .inl rfl⟩
  · simp [State.statusOk, hcsr, Csr.reset]
  · simp [State.phaseOk, hcsr, hidle, Csr.reset]
  · simp [State.latchOk, hcsr, Csr.reset]
  · simp [State.checkedOk, hidle]
  · simp [State.outputOk, hidle]
  · simp [State.resetOf]
  · simp [State.dstateOk, hidle]

theorem State.assertRst_mem {s : State} (h : s.phase ≠ .writeback) : s.assertRst.mem = s.mem := if_neg h

/-- A reset leaves memory outside the output buffer, in WRITEBACK too (R291). -/
theorem State.assertRst_read_outside {s : State} (h : s.mem.wf) {a : Nat} (out : inBuffer s.latch.dst s.latch.cap a = false) :
    s.assertRst.mem.read a = s.mem.read a := by
  by_cases hp : s.phase = .writeback
  · rw [show s.assertRst.mem = s.scrambledMem from if_pos hp]
    exact s.scrambledMem_read_outside a h out
  · rw [State.assertRst_mem hp]

/-- Where the checks have passed, no byte is in both buffers (R68, R125). -/
theorem State.input_outside_output {s : State} (h : s.checkError = none) {a : Nat}
    (hin : inBuffer s.latch.src s.latch.len a = true) : inBuffer s.latch.dst s.latch.cap a = false := by
  refine Bool.eq_false_iff.2 fun hout => ?_
  have hill : illegalCommand s.latch := .inr (.inr (.inr (.inr ⟨a, hin, hout⟩)))
  simp [State.checkError_of_illegal hill] at h

/-- A reset leaves the input buffer: in WRITEBACK, it shares no byte with the output buffer (R291). -/
theorem State.assertRst_read_input {s : State} (hs : s.Inv) {a : Nat} (hin : inBuffer s.latch.src s.latch.len a = true) :
    s.assertRst.mem.read a = s.mem.read a := by
  obtain ⟨-, -, -, ⟨hpassed, -⟩, -, ⟨hmem, -⟩, -⟩ := hs
  by_cases hp : s.phase = .writeback
  · exact State.assertRst_read_outside hmem
      (State.input_outside_output (hpassed (by simp [hp]) (by simp [hp])) hin)
  · rw [State.assertRst_mem hp]

/-- Settles O13: the step is `assertRst`, whose registers and phase are those of reset. -/
theorem resetAbandonsTheCommand : Obligations.ResetAbandonsTheCommand := by
  intro s rest hin hs
  have hs' : State.Inv { s with inputs := rest } := hs
  obtain ⟨-, hphase, -, -, -, ⟨hmem, -⟩, -⟩ := id hs
  have hidle (hb : s.csr.busy = false) : s.phase ≠ .writeback := fun hp => by
    have := hphase.2 (by simp [hp])
    simp [hb] at this
  refine ⟨State.assertRst { s with inputs := rest }, step_of_input s _ _ hin, rfl, rfl, rfl, rfl, rfl,
    fun hb => ?_, fun hp => ?_, fun a out => ?_, fun a hbuf => ?_⟩
  · exact State.assertRst_mem (s := { s with inputs := rest }) (hidle hb)
  · exact State.assertRst_mem (s := { s with inputs := rest }) hp
  · exact State.assertRst_read_outside (s := { s with inputs := rest }) hmem out
  · exact State.assertRst_read_input hs' hbuf

/-! ### A broken host duty (R295) -/

/-- A store to a byte of the running command's buffers is noticed. -/
theorem State.hostStore_touching {s : State} {w : Width} {a : Word} (hb : s.csr.busy = true)
    (ht : ∃ b ∈ accessAddrs a (widthBytes w), s.touchesBuffer b = true) (d : BitVec 64) :
    s.hostStore w a d = { s with mem := s.mem.hostStore a d (widthBytes w), dutyBroken := true } := by
  rw [State.hostStore, List.any_eq_true.2 ht, hb, Bool.and_self, Bool.or_true]

/-- Settles O14: the store's step, and what every end of a command leaves. -/
theorem brokenHostDutyStillCompletes : Obligations.BrokenHostDutyStillCompletes := by
  refine ⟨fun s w a d hb hw ht => ?_, fun s e r c b _ hmem => ?_⟩
  · refine ⟨_, stepStore_outside hw w d, ?_⟩
    rw [State.hostStore_touching hb ht]
    exact ⟨rfl, rfl⟩
  · obtain ⟨hbusy, hdone, hidle, -⟩ := s.finish_status e r c b
    exact ⟨hbusy, hdone, hidle, fun a out => s.finish_mem_outside e r c b a hmem out⟩

end Sys2Proof.Machine
end

section
/-! PROOFS. Every command completes (spec/70_reset_and_hazards.md R301): each engine step ends the command, moves it to a later
phase, or leaves less to do in its phase: input to scan in PARSE, operations to emit in EMIT, and in UNPACK room in the output,
since every token but END outputs a byte. -/

namespace Sys2Proof.Machine

/-! ### What a command has left to do -/

/-- How far a phase is from the end of the command (R126). -/
def Phase.rank : Phase → Nat
  | .idle => 0
  | .complete => 1
  | .writeback => 2
  | .capacity => 3
  | .reverseOut => 4
  | .emit | .unpack => 5
  | .parse => 6
  | .reverseIn => 7
  | .check => 8

/-- How much of a phase of several steps is still to do: positions, operations, or room for output bytes. -/
def State.phaseLeft (s : State) : Nat :=
  match s.phase with
  | .parse => s.image.length - s.scan
  | .emit => s.ops.length
  | .unpack => s.capl - s.obuf.length
  | _ => 0

/-- What a command has left to do, the phase before what is left of it. -/
def State.workLeft (s : State) : Nat ×ₗ Nat := toLex (s.phase.rank, s.phaseLeft)

/-- The command has completed (R127). -/
def State.Completed (s : State) : Prop := s.csr.busy = false ∧ s.csr.done = true

/-- A step from `s` to `t` completes the command, or the command runs on with less left to do. -/
def Progress (s t : State) : Prop := t.Completed ∨ t.phase ≠ .idle ∧ t.workLeft < s.workLeft

theorem Progress.finish (s u : State) (e : ErrCode) (r c b : Word) : Progress s (u.finish e r c b) :=
  have ⟨hbusy, hdone, _⟩ := u.finish_status e r c b
  .inl ⟨hbusy, hdone⟩

theorem Progress.raise (s u : State) (e : ErrCode) : Progress s (u.raise e) := .finish s u e 0 0 0

theorem Progress.nextPhase {s t : State} (h : t.phase ≠ .idle ∧ t.phase.rank < s.phase.rank) : Progress s t :=
  .inr (h.imp_right fun hrank => Prod.Lex.toLex_lt_toLex.2 (.inl hrank))

theorem Progress.samePhase {s t : State} (hidle : s.phase ≠ .idle) (hp : t.phase = s.phase) (h : t.phaseLeft < s.phaseLeft) :
    Progress s t :=
  .inr ⟨hp ▸ hidle, Prod.Lex.toLex_lt_toLex.2 (.inr ⟨congrArg Phase.rank hp, h⟩)⟩

/-- After the body come REVERSE-OUT, CAPACITY and WRITEBACK (R126). -/
theorem State.afterBody_rank (s : State) : s.afterBody.phase ≠ .idle ∧ s.afterBody.phase.rank < 5 := by
  rw [State.afterBody_phase]
  split_ifs <;> decide

theorem Progress.afterBody {s : State} (h : s.phase.rank = 5) (u : State) : Progress s u.afterBody :=
  .nextPhase (h ▸ u.afterBody_rank)

/-! ### CHECK -/

theorem State.bodyPhase_rank (s : State) : s.bodyPhase ≠ .idle ∧ s.bodyPhase.rank < 7 := by
  obtain ⟨-, h⟩ | ⟨-, h⟩ := s.bodyPhase_cases <;> (rw [h]; decide)

theorem State.checkStep_progress {s : State} (hp : s.phase = .check) : Progress s s.checkStep := by
  cases hcheck : s.checkError with
  | some e => rw [checkStep_refused hcheck]; exact .raise s s e
  | none =>
    rw [State.checkStep_passed hcheck]
    refine .nextPhase ?_
    rw [hp]
    dsimp only
    split_ifs
    · decide
    · decide
    · exact s.bodyPhase_rank.imp_right fun hrank => hrank.trans (by decide)

/-! ### PARSE -/

section
variable {s : State} (hp : s.phase = .parse)
include hp

/-- A parser that moves on within the input. -/
theorem Progress.scan {t : State} (ht : t.phase = .parse) (himage : t.image = s.image) (hlt : s.scan < s.image.length)
    (hmove : s.scan < t.scan) : Progress s t := by
  refine .samePhase (by simp [hp]) (ht.trans hp.symm) ?_
  simp only [State.phaseLeft, ht, hp, himage]
  omega

theorem Progress.endParse (u : State) (ops : List Op) : Progress s (u.endParse ops) :=
  .nextPhase (t := u.endParse ops) (hp ▸ (by decide : Phase.emit ≠ .idle ∧ Phase.emit.rank < Phase.parse.rank))

theorem State.parseZx7_progress : Progress s s.parseZx7 := by
  rw [State.parseZx7]
  split
  · next hlt => exact .scan hp hp rfl hlt (Nat.lt_succ_self _)
  · exact .endParse hp s _

theorem State.parseZx0_progress : Progress s s.parseZx0 := by
  rw [State.parseZx0]
  split
  · next hlt =>
    dsimp only
    split
    · exact .raise s s _
    · exact .scan hp hp rfl hlt (Nat.lt_succ_self _)
  · exact .endParse hp s _

theorem State.parseMlzOptimal_progress : Progress s s.parseMlzOptimal := by
  rw [State.parseMlzOptimal]
  split
  · next hlt => exact .scan hp hp rfl hlt (Nat.lt_succ_self _)
  · exact .endParse hp s _

/-- The greedy choice covers a byte at least. -/
theorem State.parseMlzGreedy_progress : Progress s s.parseMlzGreedy := by
  rw [State.parseMlzGreedy]
  split
  · next hlt =>
    split
    · next hzero => exact .scan hp hp rfl hlt (by rw [hzero]; exact Nat.zero_lt_one)
    · have hL := ((greedyChoice_fair s.image s.scan).move.bounds hlt).1
      exact .scan hp hp rfl hlt (Nat.lt_add_of_pos_right hL)
  · exact .endParse hp s _

theorem State.parseStep_progress : Progress s s.parseStep := by
  cases hv : s.variant with
  | zx7 => rw [State.parseStep_zx7 hv]; exact State.parseZx7_progress hp
  | zx0 => rw [State.parseStep_zx0 hv]; exact State.parseZx0_progress hp
  | megalz =>
    rw [State.parseStep_megalz hv]
    split
    · exact State.parseMlzOptimal_progress hp
    · exact State.parseMlzGreedy_progress hp

end

/-! ### EMIT -/

@[simp] theorem State.finish_ops (s : State) (e : ErrCode) (r c b : Word) : (s.finish e r c b).ops = s.ops := by
  unfold State.finish; split <;> rfl

theorem AfterCalls.ops {post : State → State} (hp : AfterCalls post) (s : State) : (post s).ops = s.ops := by
  cases hp <;> rfl

theorem State.emitThen_ops (s : State) (cs : List Call) {post : State → State} (hp : AfterCalls post) :
    (s.emitThen cs post).ops = s.ops := by
  rw [State.emitThen]
  split
  · exact s.finish_ops _ 0 0 0
  · next t ht => rw [settle_ok, hp.ops, State.calls_frame cs s t ht]

/-- A token's emission leaves the operation cursor where it is (R205 to R214). -/
theorem EmitEffect.ops {e : State → State} (he : EmitEffect e) (s : State) : (e s).ops = s.ops := by
  cases he with
  | calls cs _ hp => exact s.emitThen_ops _ hp
  | copy o L cs _ hp =>
    dsimp only [State.emitCopy]
    split
    · exact s.emitThen_ops _ hp
    · exact s.finish_ops _ 0 0 0
  | repCopy L cs _ hp =>
    dsimp only
    split
    · exact s.emitThen_ops _ hp
    · exact s.finish_ops _ 0 0 0

/-- END is the last token: EMIT is over, or the command failed. -/
theorem exec_endToken_emit {s : State} (hp : s.phase = .emit) :
    ∃ cs, exec (endToken s.variant) s = .next (s.emitThen cs State.afterBody) := by
  have hrun (v : Variant) (hv : s.variant = v) (u e : State → State) : s.runToken v u e = .next (e s) :=
    s.runToken_emit v u e hv hp
  cases hv : s.variant with
  | zx7 => exact ⟨_, (hrun _ hv _ _ : execZx7End s = _)⟩
  | zx0 => exact ⟨_, (hrun _ hv _ _ : execZx0End s = _)⟩
  | megalz => exact ⟨_, (hrun _ hv _ _ : execMlzEnd s = _)⟩

section
variable {s t : State} (hp : s.phase = .emit) (h : s.emitStep = .next t)
include hp h

/-- With no operation left, END is emitted. -/
theorem State.emitStep_progress_nil (hops : s.ops = []) : Progress s t := by
  obtain ⟨cs, hexec⟩ := exec_endToken_emit (s := s.popOp) hp
  have hstep : s.emitStep = .next (s.popOp.emitThen cs State.afterBody) := by
    rw [State.emitStep, State.nextToken_nil hops]
    exact hexec
  cases hstep.symm.trans h
  rw [State.emitThen]
  split
  · exact .raise s _ _
  · exact .afterBody (congrArg Phase.rank hp) _

/-- Every token takes an operation. -/
theorem State.emitStep_ops (hrun : t.phase = .emit) : t.ops = s.ops.tail := by
  rw [State.emitStep] at h
  split at h
  · next i hi =>
    obtain ⟨u, e, -, he, hexec⟩ := exec_token (State.nextToken_tokenVariant hi)
    rw [hexec] at h
    obtain ⟨-, ⟨hp', -⟩ | ⟨-, rfl⟩⟩ := State.runToken_next _ _ _ _ _ h
    · exact absurd (hp.symm.trans hp') (by decide)
    · exact he.ops s.popOp
  · cases h
    rw [State.raise, State.finish_phase] at hrun
    cases hrun

theorem State.emitStep_progress : Progress s t := by
  cases hops : s.ops with
  | nil => exact State.emitStep_progress_nil hp h hops
  | cons op ops =>
    obtain ⟨u, hu, rfl | ⟨e, rfl⟩ | rfl⟩ := State.emitStep_outcome hp h
    · have hrun : t.phase = .emit := hu.phase.trans hp
      refine .samePhase (by simp [hp]) hu.phase ?_
      simp only [State.phaseLeft, hrun, hp, State.emitStep_ops hp h hrun, hops]
      exact Nat.lt_succ_self _
    · exact .raise s u e
    · exact .afterBody (congrArg Phase.rank hp) u

end

/-! ### UNPACK -/

/-- Where the primitives from `s` succeed, the output had room and has grown. -/
def State.Grows (s : State) (r : Except ErrCode State) : Prop :=
  ∀ t, r = .ok t → s.obuf.length < s.capl ∧ s.obuf.length < t.obuf.length

section
variable {s : State}

theorem State.output_grows (s : State) (b : Byte) : s.Grows (s.output b) := by
  intro t h
  obtain ⟨hroom, rfl⟩ := (State.output_ok_iff s t b).1 h
  exact ⟨hroom, by simp⟩

/-- An output byte, then whatever the unpacker's primitives do. -/
theorem State.output_then_grows {u t : State} {b : Byte} (hu : s.output b = .ok u) (ht : Unpacked u t) :
    s.obuf.length < s.capl ∧ s.obuf.length < t.obuf.length :=
  have ⟨hroom, hmore⟩ := s.output_grows b u hu
  ⟨hroom, hmore.trans_le ht.grows⟩

theorem State.outputAll_grows {bs : List Byte} (hbs : 1 ≤ bs.length) : s.Grows (s.outputAll bs) := by
  cases bs with
  | nil => cases hbs
  | cons b bs =>
    intro t h
    rw [State.outputAll] at h
    split at h
    · cases h
    · next u hu => exact State.output_then_grows hu (State.outputAll_unpacked h)

theorem State.copy_grows {o L : Nat} (hL : 1 ≤ L) : s.Grows (s.copy o L) := by
  intro t h
  rw [State.copy] at h
  split at h
  · cases h
  · obtain ⟨n, rfl⟩ := Nat.exists_eq_add_of_le' hL
    rw [State.copyLoop] at h
    split at h
    · cases h
    · next u hu => exact State.output_then_grows hu (State.copyLoop_unpacked h)

theorem State.Grows.thenGoto {r : Except ErrCode State} (h : s.Grows r) (st : DState) : s.Grows (State.thenGoto st r) := by
  cases r with
  | error e => exact fun _ ht => nomatch ht
  | ok u => intro t ht; cases ht; exact h u rfl

/-- The indicator that ends a ZX0 state outputs nothing (R238). -/
theorem State.Grows.zx0Then {r : Except ErrCode State} (h : s.Grows r) (afterRun : Bool) :
    s.Grows (State.zx0Then afterRun r) := by
  cases r with
  | error e => exact fun _ ht => nomatch ht
  | ok u =>
    intro t ht
    rw [State.zx0Then, State.zx0Next] at ht
    split at ht
    · cases ht
    · cases ht; exact h u rfl

/-- The token's step is that of primitives that output a byte at least, or of their failure. -/
def OutputsOrFails (s : State) (i : Instr) : Prop := ∃ r, exec i s = .next (settle s r) ∧ s.Grows r

/-- Every copy of ZX7 and MegaLZ has a byte at least (R84, R89). -/
theorem one_le_copyToken {i : Instr} {v : Variant} {o L : Nat} (hi : copyToken i = some (v, o, L))
    (hw : i.wellFormed = true) : 1 ≤ L := by
  cases i with
  | zx7CpyS => cases hi; have := wellFormed_zx7CpyS.1 hw; omega
  | zx7CpyL => cases hi; have := wellFormed_zx7CpyL.1 hw; omega
  | mlzCpy1 | mlzCpy2 | mlzCpy3S | mlzCpy3L => cases hi; decide
  | mlzCpyNS => cases hi; have := wellFormed_mlzCpyNS.1 hw; omega
  | mlzCpyNL => cases hi; have := wellFormed_mlzCpyNL.1 hw; omega
  | _ => cases hi

variable (hp : s.phase = .unpack) {i : Instr} (hi : tokenVariant i = some s.variant) (hw : i.wellFormed = true)
include hp hi hw

/-- Every token of the running variant but END outputs, or fails (R236 to R239). -/
theorem endToken_or_outputsOrFails : i = endToken s.variant ∨ OutputsOrFails s i := by
  have hbyte {v : Variant} {op : Op} (h : byteToken v op = some i) (hv : some v = some s.variant)
      (hg : s.Grows (opEffect s op)) : OutputsOrFails s i :=
    ⟨_, exec_byteToken h hp (Option.some.inj hv).symm, hg⟩
  have hcopy {v : Variant} {o L : Nat} (h : copyToken i = some (v, o, L)) (hv : some v = some s.variant) :
      OutputsOrFails s i :=
    ⟨_, exec_copyToken_unpack hp h (Option.some.inj hv).symm, State.copy_grows (one_le_copyToken h hw)⟩
  have hzx0 (hv : some .zx0 = some s.variant) (h : tokenVariant i = some .zx0) (hend : isEnd i = false)
      (hg : s.Grows (zx0Effect s i)) : OutputsOrFails s i :=
    ⟨_, exec_zx0_unpack hp (Option.some.inj hv).symm h hend, hg.zx0Then _⟩
  cases i with
  | compress | decompress => cases hi
  | zx7End | zx0End | mlzEnd => rw [← Option.some.inj hi]; exact .inl rfl
  | zx7First b | mlzFirst b => exact .inr (hbyte (op := .first b) rfl hi ((s.output_grows b).thenGoto _))
  | zx7Lit b | mlzLit b => exact .inr (hbyte (op := .lit b) rfl hi (s.output_grows b))
  | zx7CpyS | zx7CpyL | mlzCpy1 | mlzCpy2 | mlzCpy3S | mlzCpy3L | mlzCpyNS | mlzCpyNL => exact .inr (hcopy rfl hi)
  | zx0Lit0 bs | zx0Lit bs => exact .inr (hzx0 hi rfl rfl (State.outputAll_grows (zx0Codable_iff.1 hw).1))
  | zx0Rep L => exact .inr (hzx0 hi rfl rfl (State.copy_grows (zx0Codable_iff.1 hw).1))
  | zx0Cpy o L =>
    have hL : 1 ≤ L := by have := wellFormed_zx0Cpy.1 hw; omega
    exact .inr (hzx0 hi rfl rfl (State.copy_grows (s := s.setUnpackOffset o) hL))

end

/-- Where UNPACK goes on, a byte has been output. -/
theorem State.unpackStep_grows {s t : State} (hp : s.phase = .unpack) (h : s.unpackStep = .next t) (hrun : t.phase = .unpack) :
    s.obuf.length < s.capl ∧ s.obuf.length < t.obuf.length := by
  have hraise (u : State) (e : ErrCode) : (u.raise e).phase ≠ .unpack := by rw [State.raise, State.finish_phase]; decide
  rw [State.unpackStep] at h
  split at h
  · next i c hc =>
    have hw := (decode_wellFormed _ _ _ _ _ _ trivial hc).2
    obtain rfl | ⟨r, hexec, hgrows⟩ := endToken_or_outputsOrFails (s := s.withCursor c) hp (decode_tokenVariant hc) hw
    · cases (exec_endToken (s := s.withCursor c) hp).symm.trans h
      have hrank := (s.withCursor c |>.goto .done).afterBody_rank.2
      rw [State.unpackEnd] at hrun
      rw [hrun] at hrank
      exact absurd hrank (by decide)
    · cases hexec.symm.trans h
      obtain ⟨u, hu, hsettle⟩ | ⟨e, -, hsettle⟩ := settle_cases (s.withCursor c) r
      · rw [hsettle]
        exact hgrows u hu
      · exact absurd (hsettle ▸ hrun) (hraise _ e)
  · next err _ =>
    obtain ⟨e, he⟩ := s.rejectStream_eq_raise err
    cases h
    exact absurd (he ▸ hrun) (hraise s e)

theorem State.unpackStep_progress {s t : State} (hp : s.phase = .unpack) (h : s.unpackStep = .next t) : Progress s t := by
  obtain ⟨u, hu, rfl | ⟨e, rfl⟩ | rfl⟩ := State.unpackStep_cases hp h
  · have hrun : t.phase = .unpack := hu.phase.trans hp
    obtain ⟨hroom, hmore⟩ := State.unpackStep_grows hp h hrun
    refine .samePhase (by simp [hp]) hu.phase ?_
    simp only [State.phaseLeft, hrun, hp, hu.capl]
    omega
  · exact .raise s u e
  · exact .afterBody (congrArg Phase.rank hp) _

/-! ### The whole command -/

/-- Whatever the state, an engine step of a running command completes it or leaves it less to do. -/
theorem stepEngine_progress {s t : State} (hidle : s.phase ≠ .idle) (h : stepEngine s = .next t) : Progress s t := by
  cases hp : s.phase with
  | idle => exact absurd hp hidle
  | check =>
    cases (stepEngine_check hp).symm.trans h
    exact State.checkStep_progress hp
  | reverseIn =>
    cases (stepEngine_reverseIn hp).symm.trans h
    exact .nextPhase (hp ▸ s.bodyPhase_rank)
  | parse =>
    cases (stepEngine_parse hp).symm.trans h
    exact State.parseStep_progress hp
  | emit => exact State.emitStep_progress hp ((stepEngine_emit hp).symm.trans h)
  | unpack => exact State.unpackStep_progress hp ((stepEngine_unpack hp).symm.trans h)
  | reverseOut =>
    cases (stepEngine_reverseOut hp).symm.trans h
    refine .nextPhase ?_
    rw [hp]
    dsimp only
    split_ifs <;> decide
  | capacity =>
    by_cases hfits : s.obuf.length ≤ s.latch.cap.toNat
    · cases (stepEngine_capacity_fits hp hfits).symm.trans h
      exact .nextPhase (hp ▸ (by decide : Phase.writeback ≠ .idle ∧ Phase.writeback.rank < Phase.capacity.rank))
    · cases (stepEngine_capacity_exceeds hp (Nat.lt_of_not_le hfits)).symm.trans h
      exact .raise s s _
  | writeback =>
    cases (stepEngine_writeback hp).symm.trans h
    have hphase : s.writebackStep.phase = .complete := by unfold State.writebackStep; split <;> rfl
    exact .nextPhase (by rw [hphase, hp]; decide)
  | complete =>
    rw [stepEngine, hp] at h
    cases h
    exact .finish s s _ _ _ _

/-- The engine brings every command to its completion: what is left to do cannot fall for ever. -/
theorem reaches_completed (s : State) (hidle : s.phase ≠ .idle) : ∃ t, Reaches s t ∧ t.Completed := by
  obtain ⟨t, ht⟩ := stepEngine_next s
  obtain hdone | ⟨hrun, hless⟩ := stepEngine_progress hidle ht
  · exact ⟨t, .single ht, hdone⟩
  · obtain ⟨u, hu, hdone⟩ := reaches_completed t hrun
    exact ⟨u, .head ht hu, hdone⟩
termination_by s.workLeft
decreasing_by exact hless

/-- Settles O19, by induction on what the command has left to do. -/
theorem everyCommandCompletes : Obligations.EveryCommandCompletes := by
  intro s _ hidle
  obtain ⟨t, ⟨n, hrun⟩, hbusy, hdone⟩ := reaches_completed s hidle
  exact ⟨n, t, hrun, hbusy, hdone⟩

end Sys2Proof.Machine
end
